-- ==== Sys2Proof/Word.lean ====
section
/-! DEFINITION. The words of the engine: bytes, bit-strings, tree nodes, and the list of all symbols. -/

namespace Sys2Proof

/-- A byte, which is also a symbol: "one byte value, range 0-255" (00_scope.md R7, R18). -/
abbrev Byte := BitVec 8

/-- A bit-string, first bit first (00_scope.md R12). -/
abbrev BitStr := List Bool

/-- `ceil8(k)`, the number of bytes that hold `k` bits (00_scope.md R13). -/
def ceil8 (k : Nat) : Nat := (k + 7) / 8

/-- The symbols 0 to 255 in ascending order. -/
def allBytes : List Byte := (List.range 256).map (BitVec.ofNat 8)

/-- One entry of the node memory (10_state.md R30).
`right = none` is the spec's own NONE, in the one-symbol tree only (41_tree_builder.md R116). -/
inductive Node where
  | leaf (freq : Nat) (sym : Byte)
  | inner (freq left : Nat) (right : Option Nat)
  deriving DecidableEq, Repr, Inhabited

/-- The `freq` field, which both kinds of node have (10_state.md R30). -/
def Node.freq : Node → Nat
  | .leaf f _ => f
  | .inner f _ _ => f

end Sys2Proof
end

