-- ==== Sys2Proof/Syntax.lean ====
section
/-! DEFINITION. The instructions: the two host commands and the nineteen unit-operation codes, one constructor for
each row of the opcode table, with the operands a call gives them. -/

namespace Sys2Proof

/-- The formats of 30_encoding.md: `cmd` is a byte written to `CMD` (R84, R90), `uop` the byte in `PHASE` (R91). -/
inductive Format where
  | cmd
  | uop
  deriving DecidableEq, Repr

/-- The instructions of 30_encoding.md R90 and R91. -/
inductive Instr where
  /-- Host command (45_orchestration.md R200). -/
  | encode
  /-- Host command (45_orchestration.md R210). -/
  | decode
  /-- The controller idle (10_state.md R22). -/
  | idle
  /-- 40_frequency.md R100. -/
  | fcount
  /-- 41_tree_builder.md R113. -/
  | tbInit
  /-- 41_tree_builder.md R114. -/
  | tbMerge
  /-- 41_tree_builder.md R116. -/
  | tbFix1
  /-- 42_code_assigner.md R130. -/
  | walk
  /-- 42_code_assigner.md R135. -/
  | canon
  /-- 43_bit_io.md R150. -/
  | bwReset
  /-- 43_bit_io.md R151, of one bit. -/
  | bwWbit (b : Bool)
  /-- 43_bit_io.md R152, of a bit-string of 1 to 255 bits. -/
  | bwWcode (c : BitStr)
  /-- 43_bit_io.md R153. -/
  | bwFinish
  /-- 44_container.md R170. -/
  | serialize
  /-- 44_container.md R180. -/
  | deserialize
  /-- 42_code_assigner.md R140. -/
  | dtBuild
  /-- 43_bit_io.md R160, of a byte sequence and a limit below 2^32. -/
  | brInit (buf : List Byte) (limit : Nat)
  /-- 43_bit_io.md R162. -/
  | brRbit
  /-- 45_orchestration.md R216. -/
  | decsym
  /-- 45_orchestration.md R206. -/
  | pack
  /-- 45_orchestration.md R215. -/
  | unpack
  deriving DecidableEq, Repr

/-- The operands a call carries beside the code (00_scope.md R15, `call OP(args)`): no code has bits for them
(30_encoding.md R91), so they stand beside it (log 9). -/
structure Operands where
  bit : Bool
  code : BitStr
  buf : List Byte
  limit : Nat
  deriving DecidableEq, Repr

/-- The operands that are all zero bits: a code has at least one bit (30_encoding.md R80), so the zero code is `'0'`. -/
def Operands.zero : Operands := ⟨false, [false], [], 0⟩

end Sys2Proof
end

