-- ==== Sys2Proof/WellFormed.lean ====
section
/-! DEFINITION. Which instructions are well formed: the limits the spec puts on the operands of a call. -/

namespace Sys2Proof

/-- A code operand has 1 to 255 bits (43_bit_io.md R152; 30_encoding.md R80). -/
def wfCode (c : BitStr) : Bool := decide (1 ≤ c.length ∧ c.length ≤ 255)

/-- A limit operand is "a natural below 2^32" (43_bit_io.md R160). -/
def wfLimit (limit : Nat) : Bool := decide (limit < 2 ^ 32)

/-- The checks on an instruction; a code without operands has none. -/
def Instr.wf : Instr → Bool
  | .bwWcode c => wfCode c
  | .brInit _ limit => wfLimit limit
  | .encode | .decode | .idle | .fcount | .tbInit | .tbMerge | .tbFix1 | .walk | .canon | .bwReset | .bwWbit _
  | .bwFinish | .serialize | .deserialize | .dtBuild | .brRbit | .decsym | .pack | .unpack => true

end Sys2Proof
end

