-- ==== Sys2Proof/Decode.lean ====
section
/-! DEFINITION. From a byte to an instruction (30_encoding.md R84, R90, R91), total on every byte and rejecting by
name, and back. -/

namespace Sys2Proof

/-- Why a byte is no instruction. -/
inductive DecodeError where
  /-- A `CMD` byte other than 0x01 and 0x02 (30_encoding.md R92). -/
  | illegalCommand (v : Byte)
  /-- A `PHASE` code 0x13 to 0xFF, "never produced" (30_encoding.md R92). -/
  | illegalPhase (v : Byte)
  /-- BW_WCODE with a code of no bit or of more than 255 bits (43_bit_io.md R152). -/
  | badCode
  /-- BR_INIT with a limit of 2^32 or more (43_bit_io.md R160). -/
  | badLimit
  deriving DecidableEq, Repr

/-- The command a byte written to `CMD` names (30_encoding.md R90). -/
def decodeCmd (v : Byte) : Except DecodeError Instr :=
  match v.toNat with
  | 0x01 => .ok .encode
  | 0x02 => .ok .decode
  | _ => .error (.illegalCommand v)

/-- The unit operation a code names, with the operands of its call (30_encoding.md R91). -/
def decodeUop (v : Byte) (o : Operands) : Except DecodeError Instr :=
  match v.toNat with
  | 0x00 => .ok .idle
  | 0x01 => .ok .fcount
  | 0x02 => .ok .tbInit
  | 0x03 => .ok .tbMerge
  | 0x04 => .ok .tbFix1
  | 0x05 => .ok .walk
  | 0x06 => .ok .canon
  | 0x07 => .ok .bwReset
  | 0x08 => .ok (.bwWbit o.bit)
  | 0x09 => if wfCode o.code then .ok (.bwWcode o.code) else .error .badCode
  | 0x0A => .ok .bwFinish
  | 0x0B => .ok .serialize
  | 0x0C => .ok .deserialize
  | 0x0D => .ok .dtBuild
  | 0x0E => if wfLimit o.limit then .ok (.brInit o.buf o.limit) else .error .badLimit
  | 0x0F => .ok .brRbit
  | 0x10 => .ok .decsym
  | 0x11 => .ok .pack
  | 0x12 => .ok .unpack
  | _ => .error (.illegalPhase v)

/-- Decoding in either format. -/
def decode (f : Format) (v : Byte) (o : Operands) : Except DecodeError Instr :=
  match f with
  | .cmd => decodeCmd v
  | .uop => decodeUop v o

/-- What an instruction is written as: its format, its byte and the operands beside it. -/
structure Encoded where
  format : Format
  code : Byte
  operands : Operands
  deriving DecidableEq, Repr

/-- A unit-operation code with zero operands. -/
def plainUop (code : Byte) : Encoded := ⟨.uop, code, .zero⟩

/-- The encoder, from the tables of 30_encoding.md R90 and R91; operands an instruction has not are zero. -/
def encode : Instr → Encoded
  | .encode => ⟨.cmd, 0x01#8, .zero⟩
  | .decode => ⟨.cmd, 0x02#8, .zero⟩
  | .idle => plainUop 0x00#8
  | .fcount => plainUop 0x01#8
  | .tbInit => plainUop 0x02#8
  | .tbMerge => plainUop 0x03#8
  | .tbFix1 => plainUop 0x04#8
  | .walk => plainUop 0x05#8
  | .canon => plainUop 0x06#8
  | .bwReset => plainUop 0x07#8
  | .bwWbit b => ⟨.uop, 0x08#8, ⟨b, [false], [], 0⟩⟩
  | .bwWcode c => ⟨.uop, 0x09#8, ⟨false, c, [], 0⟩⟩
  | .bwFinish => plainUop 0x0A#8
  | .serialize => plainUop 0x0B#8
  | .deserialize => plainUop 0x0C#8
  | .dtBuild => plainUop 0x0D#8
  | .brInit buf limit => ⟨.uop, 0x0E#8, ⟨false, [false], buf, limit⟩⟩
  | .brRbit => plainUop 0x0F#8
  | .decsym => plainUop 0x10#8
  | .pack => plainUop 0x11#8
  | .unpack => plainUop 0x12#8

/-- Decoding what the encoder wrote. -/
def decodeEncoded (e : Encoded) : Except DecodeError Instr := decode e.format e.code e.operands

/-- The format a bare table word is read in: a byte that both formats use is read as the host command it is when
the host writes it (log 7); every other byte is a unit-operation code. -/
def tableFormat (w : Nat) : Format :=
  if w % 256 = 0x01 ∨ w % 256 = 0x02 then .cmd else .uop

/-- The instruction of a table word: every row is one byte (30_encoding.md R90, R91), the operands are zero. -/
def decodeTableWord (nbits w : Nat) : Option Instr :=
  if nbits = 8 then (decode (tableFormat w) (BitVec.ofNat 8 w) .zero).toOption else none

end Sys2Proof
end

