-- ==== Sys2Proof/Config.lean ====
section
/-! DEFINITION. What an implementation fixes (the parameters of 10_state.md R39) and the free values: values the
spec leaves unspecified, constants with no body, so that no proof can rest on one. -/

namespace Sys2Proof

/-- The parameters of the step relation (10_state.md R39): `LMAX` with `0 <= LMAX <= 2^29 - 1` (00_scope.md R8),
`MAGIC` and `VERSION` (R9). No rule changes one. -/
structure Params where
  lmax : Fin (2 ^ 29)
  magic : Vector Byte 4
  version : Byte
  deriving DecidableEq, Repr

/-- `IN_CAP = LMAX + 531` (00_scope.md R8). -/
def Params.inCap (p : Params) : Nat := p.lmax.val + 531

/-- `OUT_CAP = LMAX + 531` (00_scope.md R8). -/
def Params.outCap (p : Params) : Nat := p.lmax.val + 531

/-- The defaults: `MAGIC = 48 55 46 4D`, `VERSION = 01` (00_scope.md R9).
DESIGN CHOICE (log 1): `LMAX = 2^29 - 1`, the value the spec's vectors use (95_test_vectors.md). -/
def Config.default : Params where
  lmax := ⟨2 ^ 29 - 1, by decide⟩
  magic := #v[0x48#8, 0x55#8, 0x46#8, 0x4D#8]
  version := 0x01#8

/-- The byte IN holds at an index nothing has written since the reset that `epoch` counts (log 3). -/
opaque Config.freeIn (epoch index : Nat) : Byte

/-- The byte OUT holds at an index that is no byte of a result; `epoch` counts the times OUT was left
unspecified (log 4). -/
opaque Config.freeOut (epoch index : Nat) : Byte

/-- What a host read of `OUT_LEN`, or of a byte of OUT, yields while `BUSY = 1` (log 29). -/
opaque Config.freeBusyLen (draw : Nat) (phase : Byte) : BitVec 64
opaque Config.freeBusyOut (draw : Nat) (phase : Byte) (index : Nat) : Byte

/-- What `extract_min` yields of an empty queue, a node index (log 14). -/
opaque Config.freeRoot (draw : Nat) : Fin 511

/-- What a node entry outside the node memory reads as (log 14). -/
opaque Config.freeNode (index : Nat) : Node

/-- The length less one, and the bits, of the code PACK writes for a symbol that has none (log 16). -/
opaque Config.freeCodeLen (draw index : Nat) : Fin 255
opaque Config.freeCodeBit (draw index bit : Nat) : Bool

/-- The bit BR_RBIT yields for a stream position whose byte the attached buffer lacks (log 17). -/
opaque Config.freeBit (draw position : Nat) : Bool

/-- The table entry SERIALIZE writes where `C_TAB` is shorter than `C_NSYM` (log 20). -/
opaque Config.freeEntry (draw index : Nat) : Byte × Byte

end Sys2Proof
end

