-- ==== Sys2Proof/Machine/State.lean ====
section
/-! DEFINITION. The state of the engine (10_state.md) as plain data, the reasons a step can stop, and reset. -/

namespace Sys2Proof.Machine

/-- A byte memory: address and byte, addresses strictly rising (`Memory.wf`). An address not listed holds no value. -/
abbrev Memory := List Host.Cell

/-- The stored bits of `STATUS` (10_state.md R23); bits 7:3 are never set and read as 0. -/
structure Status where
  busy : Bool
  done : Bool
  fail : Bool
  deriving DecidableEq, Repr

/-- Why a command ends without a result: the three error kinds with their sub-causes (60_exceptions.md R242 to R244)
and the two refusals (R245, R246). -/
inductive Cause where
  | shortHeader | badMagic | symbolCountTooLarge | shortTable | zeroLength | symbolOrder
  | inconsistentEmpty | trailingBytes | overSubscribed | noMatch | leftoverBits
  | shortPayload | endOfStream
  | unsupportedVersion (v : Byte)
  | illegalCommand (v : Byte)
  /-- SizeLimit 0x01: ENCODE with `IN_LEN > LMAX`. -/
  | inputTooLong
  /-- SizeLimit 0x02: DECODE with `IN_LEN > IN_CAP`. -/
  | artifactTooLong
  /-- SizeLimit 0x03: DECODE of an artifact whose declared length exceeds `LMAX`. -/
  | outputTooLong
  deriving DecidableEq, Repr

/-- What a unit operation yields to its caller (00_scope.md R15; log 9). -/
inductive Yield where
  | nothing
  | bit (b : Bool)
  | endOfStream
  | symbol (b : Byte)
  | buffer (buf : List Byte) (nbits : Nat)
  | length (n : Nat)
  deriving DecidableEq, Repr

/-- What the host can do between commands (10_state.md R21, R26; 70_reset_and_hazards.md R270). -/
inductive HostAction where
  /-- A write of `size` bytes at a byte offset of REG space. -/
  | regWrite (offset size : Nat) (value : BitVec 64)
  /-- A write of one byte of IN. -/
  | inWrite (index : Nat) (value : Byte)
  /-- Reset. -/
  | reset
  deriving DecidableEq, Repr

/-- The state of the engine. -/
structure State where
  /-- The parameters of the step relation, changed by nothing (10_state.md R39; log 1). -/
  par : Params
  /-- Host interface registers (10_state.md R21 to R25). -/
  cmd : Byte
  status : Status
  errcode : Byte
  errinfo : Byte
  inLen : BitVec 64
  outLen : BitVec 64
  phase : Byte
  /-- The IN and OUT buffers (10_state.md R26, R27). -/
  inMem : Memory
  outMem : Memory
  /-- FrequencyTable (10_state.md R28, R29). -/
  freq : Vector Nat 256
  nsym : Nat
  /-- Tree and queue (10_state.md R30 to R32). -/
  node : Vector Node 511
  ncount : Nat
  root : Nat
  pq : List Nat
  /-- Codes (10_state.md R33 to R35). -/
  rawcode : Vector (Option BitStr) 256
  len : Vector Nat 256
  code : Vector (Option BitStr) 256
  dtab : List (BitStr × Byte)
  /-- BitWriter (10_state.md R36). -/
  bwBuf : List Byte
  bwNbits : Nat
  /-- BitReader (10_state.md R37). -/
  brBuf : List Byte
  brLimit : Nat
  brPos : Nat
  /-- Container field registers (10_state.md R38). -/
  cOriglen : Nat
  cNsym : Nat
  cTab : List (Byte × Byte)
  cBitcount : Nat
  cPayload : List Byte
  /-- The model's own: operands and result of a unit-operation call (log 9). -/
  call : Operands
  result : Yield
  /-- The model's own: the host's pending accesses, oldest first (log 5). -/
  inbox : List HostAction
  /-- The model's own: counters the free values are applied to (logs 3, 4, 14, 16, 17, 20). -/
  inEpoch : Nat
  outEpoch : Nat
  draws : Nat
  deriving DecidableEq, Repr

/-- Why the machine stops at an access that does not exist. No run of a command from a state of the invariant
reaches one (`Safety.lean`); each stop is safe. -/
inductive Fault where
  /-- Raised by FCOUNT, PACK, DESERIALIZE and a host write: an IN index at or above `IN_CAP` (10_state.md R26). Safe. -/
  | inAddress
  /-- Raised by SERIALIZE and UNPACK: an OUT index at or above `OUT_CAP` (10_state.md R27). Safe. -/
  | outAddress
  /-- Raised by a host write: an access that reaches beyond REG's 0x28 bytes (20_memory.md R50). Safe. -/
  | regAddress
  /-- Raised by TB_MERGE: a node beyond entry 510 of the node memory (10_state.md R30). Safe. -/
  | nodeAddress
  /-- Raised by WALK: a path longer than the 255 bits of a code (42_code_assigner.md R130). Safe. -/
  | treeDepth
  /-- Raised by BW_WBIT and BW_WCODE: a byte `BW_BUF` lacks although `BW_NBITS` counts it (10_state.md R36). Safe. -/
  | bitBuffer
  deriving DecidableEq, Repr

/-- Why an instruction or an access has no meaning. -/
inductive Refusal where
  /-- Raised by the dispatcher: an instruction the model does not give a meaning. Safe. -/
  | notModelled (mnemonic : String)
  /-- Raised by a host access that covers part of a register or more than one (10_state.md R21,
  93_implementation_defined.md U7: `refuse`), or a whole register and unlisted offsets beside it, of which the spec says
  nothing: DESIGN CHOICE (log 12). Safe. -/
  | partialAccess
  /-- Raised by the step: `PHASE` holds 0x13 to 0xFF, "never produced" (30_encoding.md R92). Safe. -/
  | illegalPhase
  /-- Raised by the step: the operand of BW_WCODE or BR_INIT is outside its limits (43_bit_io.md R152, R160). Safe. -/
  | illegalOperand
  deriving DecidableEq, Repr

/-- The outcome of a step of this machine. -/
abbrev Outcome := Host.Outcome State Fault Refusal

/-- How the loop of a unit operation ends: with a value, with a `raise` (00_scope.md R15), or at an access that does
not exist. -/
inductive Run (α : Type) where
  | done (value : α) (s : State)
  | raised (cause : Cause) (s : State)
  | stuck (f : Fault)
  deriving DecidableEq, Repr

/-- The interface registers (10_state.md R21). -/
inductive Reg where
  | cmd | status | errcode | errinfo | inLen | outLen | phase
  deriving DecidableEq, Repr

/-- What an access of some bytes of REG space covers (10_state.md R21). -/
inductive RegAccess where
  /-- Exactly one register, the whole of it. -/
  | whole (r : Reg)
  /-- No register. -/
  | unlisted
  /-- Part of a register, or more than one, or one and unlisted offsets beside it (DESIGN CHOICE, log 12). -/
  | partOf
  /-- Bytes outside REG space. -/
  | beyond
  deriving DecidableEq, Repr

/-- What the step finds to do. -/
inductive Fetched where
  /-- A host command, or the idle controller: the instruction and the state it runs in. -/
  | command (i : Instr) (s : State)
  /-- The unit operation of `PHASE`, after which the controller moves on. -/
  | unit (i : Instr) (s : State)
  /-- A host access that runs no instruction, or a stop. -/
  | other (o : Outcome)

/-- The machine right after reset: the interface registers as 10_state.md R42 gives them; the buffers hold nothing
that was written; every other value is DESIGN CHOICE of logs 1, 2, 5 and 9. -/
def State.reset : State where
  par := Config.default
  cmd := 0x00#8
  status := ⟨false, false, false⟩
  errcode := 0x00#8
  errinfo := 0x00#8
  inLen := 0
  outLen := 0
  phase := 0x00#8
  inMem := []
  outMem := []
  freq := Vector.replicate 256 0
  nsym := 0
  node := Vector.replicate 511 (.leaf 0 0)
  ncount := 0
  root := 0
  pq := []
  rawcode := Vector.replicate 256 none
  len := Vector.replicate 256 0
  code := Vector.replicate 256 none
  dtab := []
  bwBuf := []
  bwNbits := 0
  brBuf := []
  brLimit := 0
  brPos := 0
  cOriglen := 0
  cNsym := 0
  cTab := []
  cBitcount := 0
  cPayload := []
  call := .zero
  result := .nothing
  inbox := []
  inEpoch := 0
  outEpoch := 0
  draws := 0

end Sys2Proof.Machine
end

