-- ==== Sys2Proof/Machine/Flags.lean ====
section
/-! DEFINITION. The status register and the error codes (10_state.md R23, R24; 60_exceptions.md R241 to R246). -/

namespace Sys2Proof.Machine

/-- `STATUS` as it is read: BUSY is bit 0, DONE bit 1, FAIL bit 2, bits 7:3 read 0 (10_state.md R23). -/
def Status.word (st : Status) : Byte :=
  BitVec.ofNat 8 (st.busy.toNat + 2 * st.done.toNat + 4 * st.fail.toNat)

/-- At command start: `BUSY <- 1, DONE <- 0, FAIL <- 0` (45_orchestration.md R203). -/
def Status.started (_ : Status) : Status := ⟨true, false, false⟩

/-- At completion: `BUSY <- 0, DONE <- 1`, `FAIL` as it was (45_orchestration.md R204). -/
def Status.completed (st : Status) : Status := ⟨false, true, st.fail⟩

/-- At an error or refusal: `FAIL <- 1, DONE <- 1, BUSY <- 0` (60_exceptions.md R250, R251). -/
def Status.failed (_ : Status) : Status := ⟨false, true, true⟩

/-- The `ERRCODE` of a cause (60_exceptions.md R241). -/
def Cause.code : Cause → Byte
  | .shortHeader | .badMagic | .symbolCountTooLarge | .shortTable | .zeroLength | .symbolOrder
  | .inconsistentEmpty | .trailingBytes | .overSubscribed | .noMatch | .leftoverBits => 0x01#8
  | .shortPayload | .endOfStream => 0x02#8
  | .unsupportedVersion _ => 0x03#8
  | .illegalCommand _ => 0x10#8
  | .inputTooLong | .artifactTooLong | .outputTooLong => 0x11#8

/-- The `ERRINFO` of a cause (60_exceptions.md R242 to R246). -/
def Cause.info : Cause → Byte
  | .shortHeader => 0x01#8
  | .badMagic => 0x02#8
  | .symbolCountTooLarge => 0x03#8
  | .shortTable => 0x04#8
  | .zeroLength => 0x05#8
  | .symbolOrder => 0x06#8
  | .inconsistentEmpty => 0x07#8
  | .trailingBytes => 0x08#8
  | .overSubscribed => 0x09#8
  | .noMatch => 0x0A#8
  | .leftoverBits => 0x0B#8
  | .shortPayload => 0x01#8
  | .endOfStream => 0x02#8
  | .unsupportedVersion v => v
  | .illegalCommand v => v
  | .inputTooLong => 0x01#8
  | .artifactTooLong => 0x02#8
  | .outputTooLong => 0x03#8

end Sys2Proof.Machine
end

