-- ==== Sys2Proof/Machine/Operands.lean ====
section
/-! DEFINITION. The operand forms: big-endian integers (00_scope.md R14, 20_memory.md R53), bit-strings (R12), the
tables indexed by a symbol, and the node memory. -/

namespace Sys2Proof.Machine

/-- The natural number that bytes are, big-endian: what `MemRead` assembles (00_scope.md R14). -/
def beNat (bs : List Byte) : Nat := bs.foldl (fun acc b => acc * 256 + b.toNat) 0

/-- The `n` bytes that `MemWrite` writes for `v`, big-endian: byte `i` is `v[8(n-i)-1 : 8(n-1-i)]` (00_scope.md R14). -/
def beBytes (n v : Nat) : List Byte := (List.range n).map fun i => BitVec.ofNat 8 (v / 256 ^ (n - 1 - i))

/-- `bits(v, k)`: the bit-string of length `k` with value `v`, most significant bit first (00_scope.md R12). -/
def bitsOf (v k : Nat) : BitStr := (List.range k).map fun i => v.testBit (k - 1 - i)

/-- `val(c)`: the value of a bit-string, first bit most significant (00_scope.md R12). -/
def bitsVal (c : BitStr) : Nat := c.foldl (fun acc b => 2 * acc + b.toNat) 0

/-- `p` is a proper prefix of `c` (00_scope.md R12). -/
def properPrefix (p c : BitStr) : Bool := decide (p.length < c.length) && p.isPrefixOf c

/-- Bit `7 - (k mod 8)` of byte `k div 8`: stream bit `k` (00_scope.md R11, 20_memory.md R54). -/
def streamBit (buf : List Byte) (k : Nat) : Option Bool := buf[k / 8]?.map fun b => b.getLsbD (7 - k % 8)

/-- Entry `s` of a table indexed by symbol (00_scope.md R13). -/
def tab {α : Type} (t : Vector α 256) (s : Byte) : α := t[s.toNat]'s.isLt

/-- `t[s] <- v` (00_scope.md R13). -/
def tabSet {α : Type} (t : Vector α 256) (s : Byte) (v : α) : Vector α 256 := t.set s.toNat v s.isLt

/-- `NODE[i]`; outside the 511 entries there is no node to read, and the value is free (10_state.md R30; log 14). -/
def State.nodeAt (s : State) (i : Nat) : Node := (s.node[i]?).getD (Config.freeNode i)

/-- `C_TAB[i]`; free where the list is shorter than `C_NSYM` counts (10_state.md R38; log 20). -/
def State.tabEntry (s : State) (i : Nat) : Byte × Byte := (s.cTab[i]?).getD (Config.freeEntry s.draws i)

/-- A code of 1 to 255 bits that nothing constrains (log 16). -/
def freeCode (draw index : Nat) : BitStr :=
  (List.range ((Config.freeCodeLen draw index).val + 1)).map (Config.freeCodeBit draw index)

end Sys2Proof.Machine
end

