-- ==== Sys2Proof/Machine/Ops.lean ====
section
/-! DEFINITION. The operations that instructions share: byte memories, the IN and OUT buffers, the interface
registers, the start and the three ends of a command. -/

namespace Sys2Proof.Machine

/-- The byte an address holds, none where it holds no value. -/
def Memory.get? : Memory → Nat → Option Byte
  | [], _ => none
  | (k, v) :: rest, a => if k = a then some v else Memory.get? rest a

/-- A write of one byte, keeping the addresses strictly rising. -/
def Memory.set : Memory → Nat → Byte → Memory
  | [], a, b => [(a, b)]
  | (k, v) :: rest, a, b =>
    if a < k then (a, b) :: (k, v) :: rest
    else if a = k then (a, b) :: rest
    else (k, v) :: Memory.set rest a b

/-- A write of consecutive bytes in ascending order (20_memory.md R57). -/
def Memory.setBytes : Memory → Nat → List Byte → Memory
  | m, _, [] => m
  | m, a, b :: bs => Memory.setBytes (m.set a b) (a + 1) bs

/-- The canonical form: addresses strictly rising. What an unlisted address reads as is no value, which no entry is. -/
def Memory.wf : Memory → Bool
  | [] => true
  | [_] => true
  | (k, _) :: (k', v') :: rest => decide (k < k') && Memory.wf ((k', v') :: rest)

/-- `IN[i]`; a byte nothing has written since reset is free (10_state.md R26, R42; log 3). -/
def State.inByte (s : State) (i : Nat) : Byte := (s.inMem.get? i).getD (Config.freeIn s.inEpoch i)

/-- `OUT[i]` as the host reads it; a byte that is no result is free (10_state.md R27; log 4). -/
def State.outByte (s : State) (i : Nat) : Byte := (s.outMem.get? i).getD (Config.freeOut s.outEpoch i)

/-- `IN[a .. a+n-1]`. -/
def State.inRange (s : State) (a n : Nat) : List Byte := (List.range n).map fun i => s.inByte (a + i)

/-- `IN[0 .. IN_LEN-1]`, the command's input (10_state.md R25). -/
def State.input (s : State) : List Byte := s.inRange 0 s.inLen.toNat

/-- Whether every index below `IN_LEN` is inside IN (10_state.md R26; log 13). -/
def State.inputFits (s : State) : Bool := decide (s.inLen.toNat ≤ s.par.inCap)

/-- `PHASE` with no command running (10_state.md R22). -/
def phaseIdle : Byte := 0x00#8

/-- OUT's bytes at and above `n` become unspecified (10_state.md R27; log 4). -/
def releaseOut (n : Nat) (s : State) : State :=
  { s with outMem := s.outMem.filter (fun c => decide (c.1 < n)), outEpoch := s.outEpoch + 1 }

/-- Command start (45_orchestration.md R203). From here the command may write any byte of OUT (70 R277). -/
def commandStart (s : State) : State :=
  { releaseOut 0 s with status := s.status.started, errcode := 0x00#8, errinfo := 0x00#8, outLen := 0 }

/-- Command completion with a result of `n` bytes (45_orchestration.md R204). -/
def complete (n : Nat) (s : State) : State :=
  { releaseOut n s with outLen := BitVec.ofNat 64 n, phase := phaseIdle, status := s.status.completed }

/-- Error entry, the effect of `raise` (60_exceptions.md R250): all of OUT becomes unspecified. -/
def errorEntry (c : Cause) (s : State) : State :=
  { releaseOut 0 s with
    errcode := c.code, errinfo := c.info, outLen := 0, phase := phaseIdle, status := s.status.failed }

/-- Refusal entry, the effect of `refuse`: "exactly the register writes of rule R250" (60_exceptions.md R251). -/
def refusalEntry (c : Cause) (s : State) : State := errorEntry c s

/-- `phase <- code ; call OP`, then the rest of the program, unless OP raised: a command that has ended is idle
(00_scope.md R15; 10_state.md R22). -/
def callUnit (code : Byte) (op rest : State → Outcome) (s : State) : Outcome :=
  match op { s with phase := code } with
  | .next t => if t.phase = phaseIdle then .next t else rest t
  | .fault f => .fault f
  | .refused r => .refused r

/-- The outcome of a unit operation whose loop ended so: a `raise` takes error entry (60_exceptions.md R250). -/
def Run.outcome {α : Type} (r : Run α) (finish : α → State → State) : Outcome :=
  match r with
  | .done a s => .next (finish a s)
  | .raised c s => .next (errorEntry c s)
  | .stuck f => .fault f

/-- Offset and size in bytes of an interface register (10_state.md R21). -/
def Reg.place : Reg → Nat × Nat
  | .cmd => (0x00, 1)
  | .status => (0x04, 1)
  | .errcode => (0x08, 1)
  | .errinfo => (0x0C, 1)
  | .inLen => (0x10, 8)
  | .outLen => (0x18, 8)
  | .phase => (0x20, 1)

/-- The seven interface registers. -/
def allRegs : List Reg := [.cmd, .status, .errcode, .errinfo, .inLen, .outLen, .phase]

/-- Whether an access of `size` bytes at `offset` touches a byte of the register. -/
def Reg.touched (offset size : Nat) (r : Reg) : Bool :=
  decide (offset < r.place.1 + r.place.2 ∧ r.place.1 < offset + size)

/-- What an access covers (10_state.md R21, 20_memory.md R50). The spec gives no effect for one that covers a whole
register and also unlisted offsets beside it, such as 4 bytes at 0x00: DESIGN CHOICE, it counts as a partial access and
is refused (log 12). -/
def regAccess (offset size : Nat) : RegAccess :=
  if 0x28 < offset + size then .beyond
  else match allRegs.filter (Reg.touched offset size) with
    | [] => .unlisted
    | r :: _ => if r.place = (offset, size) then .whole r else .partOf

/-- A register as the host reads it; `CMD` reads as 0 (10_state.md R21). The spec leaves open what a read of `OUT_LEN`
yields while `BUSY = 1` (70 R276; 93 U4): DESIGN CHOICE, a free value (log 29). -/
def State.readReg (s : State) : Reg → BitVec 64
  | .cmd => 0
  | .status => s.status.word.setWidth 64
  | .errcode => s.errcode.setWidth 64
  | .errinfo => s.errinfo.setWidth 64
  | .inLen => s.inLen
  | .outLen => if s.status.busy then Config.freeBusyLen s.draws s.phase else s.outLen
  | .phase => s.phase.setWidth 64

/-- A host read of REG space: an unlisted offset reads 0 (10_state.md R21); no side effect (20_memory.md R58).
While `BUSY = 1` the value of `OUT_LEN` is free (log 29). -/
def State.hostReadReg (s : State) (offset size : Nat) : Host.Outcome (BitVec 64) Fault Refusal :=
  match regAccess offset size with
  | .whole r => .next (s.readReg r)
  | .unlisted => .next 0
  | .partOf => .refused .partialAccess
  | .beyond => .fault .regAddress

/-- A host read of a byte of IN (10_state.md R26). -/
def State.hostReadIn (s : State) (i : Nat) : Host.Outcome Byte Fault Refusal :=
  if i < s.par.inCap then .next (s.inByte i) else .fault .inAddress

/-- A host read of a byte of OUT (10_state.md R27). The spec leaves open what it yields while `BUSY = 1` (70 R276;
93 U4): DESIGN CHOICE, a free value (log 29). -/
def State.hostReadOut (s : State) (i : Nat) : Host.Outcome Byte Fault Refusal :=
  if i < s.par.outCap then .next (if s.status.busy then Config.freeBusyOut s.draws s.phase i else s.outByte i)
  else .fault .outAddress

end Sys2Proof.Machine
end

