-- ==== Sys2Proof/Machine/BitIO.lean ====
section
/-! DEFINITION. The BitWriter and BitReader units (43_bit_io.md). -/

namespace Sys2Proof.Machine

/-- The buffer and count after one more bit: a byte opens as 0 at a byte boundary, then the bit is added at
`7 - (BW_NBITS mod 8)` of byte `BW_NBITS div 8` (43_bit_io.md R151): the place `State.nextBit` reads, so that a reader
yields what a writer was given (R163). -/
def pushBit (w : List Byte × Nat) (b : Bool) : List Byte × Nat :=
  let buf := if w.2 % 8 = 0 then w.1 ++ [0x00#8] else w.1
  (buf.modify (w.2 / 8) fun x => x + BitVec.ofNat 8 (b.toNat * 2 ^ (7 - w.2 % 8)), w.2 + 1)

/-- The buffer and count after a bit-string, first bit first (43_bit_io.md R152). -/
def pushBits (w : List Byte × Nat) (c : BitStr) : List Byte × Nat := c.foldl pushBit w

/-- The state with the BitWriter at `w`. -/
def State.withWriter (s : State) (w : List Byte × Nat) : State := { s with bwBuf := w.1, bwNbits := w.2 }

/-- The BitWriter's buffer and count (10_state.md R36). -/
def State.writer (s : State) : List Byte × Nat := (s.bwBuf, s.bwNbits)

/-- Whether the byte the next bit goes to exists, or opens now: always where `BW_BUF` has `ceil8(BW_NBITS)` bytes
(10_state.md R36; log 18). -/
def State.writerFits (s : State) : Bool :=
  decide (s.bwNbits / 8 < s.bwBuf.length ∨ (s.bwNbits % 8 = 0 ∧ s.bwNbits / 8 = s.bwBuf.length))

/-- BW_RESET (43_bit_io.md R150). -/
def execBwReset (s : State) : Outcome := .next (s.withWriter ([], 0))

/-- BW_WBIT (43_bit_io.md R151). -/
def execBwWbit (b : Bool) (s : State) : Outcome :=
  if s.writerFits then .next (s.withWriter (pushBit s.writer b)) else .fault .bitBuffer

/-- BW_WCODE (43_bit_io.md R152): BW_WBIT of each bit; if the first finds its byte, all do. -/
def execBwWcode (c : BitStr) (s : State) : Outcome :=
  if s.writerFits || c.isEmpty then .next (s.withWriter (pushBits s.writer c)) else .fault .bitBuffer

/-- BW_FINISH (43_bit_io.md R153): yields the buffer and the count, writes nothing. -/
def execBwFinish (s : State) : Outcome := .next { s with result := .buffer s.bwBuf s.bwNbits }

/-- BR_INIT's writes (43_bit_io.md R160); a new attachment makes the bits a short buffer lacks free anew (log 17). -/
def attachReader (buf : List Byte) (limit : Nat) (s : State) : State :=
  { s with brBuf := buf, brLimit := limit, brPos := 0, draws := s.draws + 1 }

/-- BR_INIT (43_bit_io.md R160). -/
def execBrInit (buf : List Byte) (limit : Nat) (s : State) : Outcome := .next (attachReader buf limit s)

/-- The bit at the cursor, none at the limit, which is EndOfStream (43_bit_io.md R162); of a pair that BW_FINISH yields,
the bit that `pushBit` put there (R163). -/
def State.nextBit (s : State) : Option Bool :=
  if s.brLimit ≤ s.brPos then none
  else some ((streamBit s.brBuf s.brPos).getD (Config.freeBit s.draws s.brPos))

/-- The cursor one bit on. -/
def advanceReader (s : State) : State := { s with brPos := s.brPos + 1 }

/-- BR_RBIT (43_bit_io.md R162). -/
def execBrRbit (s : State) : Outcome :=
  match s.nextBit with
  | none => .next { s with result := .endOfStream }
  | some b => .next { advanceReader s with result := .bit b }

end Sys2Proof.Machine
end

