-- ==== Sys2Proof/Machine/CodeAssigner.lean ====
section
/-! DEFINITION. The CodeAssigner unit: WALK, CANON, DT_BUILD (42_code_assigner.md). -/

namespace Sys2Proof.Machine

/-- The leaves below a node, left subtree first, each with its path from the node `path` leads to; none where a path
would need more than `levels - 1` further branches (42_code_assigner.md R130). -/
def visit (node : Nat → Node) : (levels : Nat) → Nat → BitStr → Option (List (Byte × BitStr))
  | 0, _, _ => none
  | f + 1, i, path =>
    match node i with
    | .leaf _ sym => some [(sym, path)]
    | .inner _ l none => visit node f l (path ++ [false])
    | .inner _ l (some r) =>
      match visit node f l (path ++ [false]), visit node f r (path ++ [true]) with
      | some a, some b => some (a ++ b)
      | _, _ => none

/-- The leaves of the tree: a path has at most 255 bits (42_code_assigner.md R130; log 15). -/
def State.leaves (s : State) : Option (List (Byte × BitStr)) := visit s.nodeAt 256 s.root []

/-- `RAWCODE` and `LEN` from the leaves, all other symbols absent (42_code_assigner.md R130). -/
def setPaths (leaves : List (Byte × BitStr)) (s : State) : State :=
  { s with
    rawcode := leaves.foldl (fun t e => tabSet t e.1 (some e.2)) (Vector.replicate 256 none)
    len := leaves.foldl (fun t e => tabSet t e.1 e.2.length) (Vector.replicate 256 0) }

/-- WALK (42_code_assigner.md R130). -/
def execWalk (s : State) : Outcome :=
  match s.leaves with
  | some leaves => .next (setPaths leaves s)
  | none => .fault .treeDepth

/-- The canonical order: by length, then by symbol value (42_code_assigner.md R134). -/
abbrev canonBefore (len : Byte → Nat) (a b : Byte) : Prop :=
  len a < len b ∨ (len a = len b ∧ a.toNat ≤ b.toNat)

/-- The symbols present, in canonical order (42_code_assigner.md R134). -/
def canonOrder (len : Byte → Nat) : List Byte :=
  (allBytes.filter fun b => decide (0 < len b)).insertionSort (canonBefore len)

/-- The running integer at a symbol of length `k`: 0 at the first symbol, else one more, shifted left by the
increase over the length `prev` of the symbol before (42_code_assigner.md R135). -/
def nextCode (c : Nat) (prev : Option Nat) (k : Nat) : Nat :=
  match prev with
  | none => c
  | some p => (c + 1) * 2 ^ (k - p)

/-- CANON's loop: the codes assigned, and whether it ended without an over-subscribed length
(42_code_assigner.md R135, R137). -/
def canonLoop (len : Byte → Nat) : List Byte → Nat → Option Nat → List (Byte × BitStr) × Bool
  | [], _, _ => ([], true)
  | b :: rest, c, prev =>
    let c' := nextCode c prev (len b)
    if 2 ^ len b ≤ c' then ([], false)
    else
      let r := canonLoop len rest c' (some (len b))
      ((b, bitsOf c' (len b)) :: r.1, r.2)

/-- The codes of a length table (42_code_assigner.md R135). -/
def canonCodes (len : Byte → Nat) : List (Byte × BitStr) × Bool := canonLoop len (canonOrder len) 0 none

/-- `CODE` from the codes assigned, all other symbols NONE (42_code_assigner.md R135). -/
def setCodes (codes : List (Byte × BitStr)) (s : State) : State :=
  { s with code := codes.foldl (fun t e => tabSet t e.1 (some e.2)) (Vector.replicate 256 none) }

/-- CANON (42_code_assigner.md R135); an over-subscribed table raises (R137), the codes before it written. -/
def execCanon (s : State) : Outcome :=
  let r := canonCodes (tab s.len)
  if r.2 then .next (setCodes r.1 s) else .next (errorEntry .overSubscribed (setCodes r.1 s))

/-- The pairs `(CODE[s], s)` of the symbols present (42_code_assigner.md R140). A symbol whose code is NONE although
it has a length gives no pair; CANON leaves none such (log 19). -/
def codePairs (len : Byte → Nat) (code : Byte → Option BitStr) : List (BitStr × Byte) :=
  allBytes.filterMap fun b => if 0 < len b then (code b).map fun c => (c, b) else none

/-- DT_BUILD (42_code_assigner.md R140). -/
def execDtBuild (s : State) : Outcome := .next { s with dtab := codePairs (tab s.len) (tab s.code) }

end Sys2Proof.Machine
end

