-- ==== Sys2Proof/Machine/Container.lean ====
section
/-! DEFINITION. The ContainerCodec unit: SERIALIZE and DESERIALIZE (44_container.md; layout 30_encoding.md R70). -/

namespace Sys2Proof.Machine

/-- The table bytes `[symbol][code length]` of the field registers (30_encoding.md R75). -/
def State.tableBytes (s : State) : List Byte :=
  (List.range s.cNsym).flatMap fun i => [(s.tabEntry i).1, (s.tabEntry i).2]

/-- The bytes SERIALIZE writes from offset 0 on, in the order of the layout (44_container.md R170). -/
def State.artifact (s : State) : List Byte :=
  s.par.magic.toList ++ [s.par.version] ++ beBytes 8 s.cOriglen ++ beBytes 2 s.cNsym ++ s.tableBytes
    ++ beBytes 4 s.cBitcount ++ s.cPayload

/-- The length SERIALIZE yields: `19 + 2N + len(C_PAYLOAD)` (44_container.md R170). -/
def State.artifactLen (s : State) : Nat := 19 + 2 * s.cNsym + s.cPayload.length

/-- The state SERIALIZE leaves. -/
def writeArtifact (s : State) : State :=
  { s with
    outMem := s.outMem.setBytes 0 s.artifact
    result := .length s.artifactLen
    draws := if s.cTab.length < s.cNsym then s.draws + 1 else s.draws }

/-- SERIALIZE (44_container.md R170). -/
def execSerialize (s : State) : Outcome :=
  if s.artifactLen ≤ s.par.outCap then .next (writeArtifact s) else .fault .outAddress

/-- `MemRead(IN, a, n)` (00_scope.md R14). -/
def State.memRead (s : State) (a n : Nat) : Nat := beNat (s.inRange a n)

/-- Whether a symbol is not greater than the one before it in the table (44_container.md R180 line 16). -/
def outOfOrder (table : List (Byte × Byte)) (sym : Byte) : Bool :=
  match table.getLast? with
  | none => false
  | some e => decide (sym.toNat ≤ e.1.toNat)

/-- Lines 13 to 17 of 44_container.md R180, for the entries listed. -/
def tableLoop : List Nat → State → Run Unit
  | [], s => .done () s
  | i :: rest, s =>
    let sym := s.inByte (15 + 2 * i)
    let len := s.inByte (16 + 2 * i)
    if len = 0x00#8 then .raised .zeroLength s
    else if outOfOrder s.cTab sym then .raised .symbolOrder s
    else tableLoop rest { s with cTab := s.cTab ++ [(sym, len)], len := tabSet s.len sym len.toNat }

/-- Lines 18 to 26 of 44_container.md R180. The payload is read only from IN (log 13). -/
def readPayload (s : State) : Run Unit :=
  let n := s.inLen.toNat
  let start := 19 + 2 * s.cNsym
  if n < start then .raised .shortHeader s
  else
    let s := { s with cBitcount := s.memRead (15 + 2 * s.cNsym) 4 }
    if n - start < ceil8 s.cBitcount then .raised .shortPayload s
    else if ceil8 s.cBitcount < n - start then .raised .trailingBytes s
    else if !s.inputFits then .stuck .inAddress
    else
      let s := { s with cPayload := s.inRange start (n - start) }
      if s.cNsym = 0 ∧ (s.cOriglen ≠ 0 ∨ s.cBitcount ≠ 0) then .raised .inconsistentEmpty s
      else if 0 < s.cNsym ∧ s.cOriglen = 0 then .raised .inconsistentEmpty s
      else .done () { s with nsym := s.cNsym }

/-- Lines 10 to 26 of 44_container.md R180. -/
def readTable (s : State) : Run Unit :=
  if s.inLen.toNat < 15 + 2 * s.cNsym then .raised .shortTable s
  else
    match tableLoop (List.range s.cNsym) { s with len := Vector.replicate 256 0, cTab := [] } with
    | .done _ t => readPayload t
    | .raised c t => .raised c t
    | .stuck f => .stuck f

/-- DESERIALIZE's checks, in the order of the lines of 44_container.md R180. -/
def deserialize (s : State) : Run Unit :=
  let n := s.inLen.toNat
  if n < 4 then .raised .shortHeader s
  else if s.inRange 0 4 ≠ s.par.magic.toList then .raised .badMagic s
  else if n < 5 then .raised .shortHeader s
  else if s.inByte 4 ≠ s.par.version then .raised (.unsupportedVersion (s.inByte 4)) s
  else if n < 13 then .raised .shortHeader s
  else
    let s := { s with cOriglen := s.memRead 5 8 }
    if n < 15 then .raised .shortHeader s
    else
      let s := { s with cNsym := s.memRead 13 2 }
      if 256 < s.cNsym then .raised .symbolCountTooLarge s else readTable s

/-- DESERIALIZE (44_container.md R180). -/
def execDeserialize (s : State) : Outcome := (deserialize s).outcome fun _ t => t

end Sys2Proof.Machine
end

