-- ==== Sys2Proof/Machine/Frequency.lean ====
section
/-! DEFINITION. The FrequencyTable unit: FCOUNT (40_frequency.md). -/

namespace Sys2Proof.Machine

/-- `FREQ[b] <- FREQ[b] + 1` (40_frequency.md R100). -/
def countByte (freq : Vector Nat 256) (b : Byte) : Vector Nat 256 := tabSet freq b (tab freq b + 1)

/-- All counters 0, then one more for each byte in turn (40_frequency.md R100). -/
def countBytes (bs : List Byte) : Vector Nat 256 := bs.foldl countByte (Vector.replicate 256 0)

/-- FCOUNT (40_frequency.md R100): counts the bytes of `IN[0 .. IN_LEN-1]`. -/
def execFcount (s : State) : Outcome :=
  if s.inputFits then .next { s with freq := countBytes s.input } else .fault .inAddress

end Sys2Proof.Machine
end

