-- ==== Sys2Proof/Machine/TreeBuilder.lean ====
section
/-! DEFINITION. The CodeTreeBuilder unit: the queue, TB_INIT, TB_MERGE, TB_FIX1 (41_tree_builder.md). -/

namespace Sys2Proof.Machine

/-- Node `i` is before node `j` in the queue: by frequency, then by index (41_tree_builder.md R112). -/
def queueBefore (node : Nat → Node) (i j : Nat) : Bool :=
  decide ((node i).freq < (node j).freq ∨ ((node i).freq = (node j).freq ∧ i < j))

/-- `insert(i)` (41_tree_builder.md R122): the set is held as an ascending list (log 19). -/
def pqInsert (i : Nat) : List Nat → List Nat
  | [] => [i]
  | j :: rest => if i < j then i :: j :: rest else if i = j then j :: rest else j :: pqInsert i rest

/-- The first member of a queue in the order of 41_tree_builder.md R112. -/
def pqLeast (node : Nat → Node) : List Nat → Option Nat
  | [] => none
  | i :: rest =>
    match pqLeast node rest with
    | none => some i
    | some j => if queueBefore node j i then some j else some i

/-- `extract_min()` (41_tree_builder.md R122); none of an empty queue. -/
def extractMin (s : State) : Option (Nat × State) :=
  (pqLeast s.nodeAt s.pq).map fun i => (i, { s with pq := s.pq.erase i })

/-- `NODE[NCOUNT] <- n ; insert(NCOUNT) ; NCOUNT <- NCOUNT + 1` (41_tree_builder.md R113, R114). -/
def addNode (n : Node) (s : State) : State :=
  { s with node := s.node.setIfInBounds s.ncount n, pq := pqInsert s.ncount s.pq, ncount := s.ncount + 1 }

/-- One pass of TB_INIT's loop (41_tree_builder.md R113). -/
def addLeaf (s : State) (b : Byte) : State :=
  if 0 < tab s.freq b then addNode (.leaf (tab s.freq b) b) s else s

/-- The state TB_INIT leaves: a leaf for each symbol counted, in ascending order (41_tree_builder.md R113). -/
def initTree (s : State) : State :=
  let t := allBytes.foldl addLeaf { s with pq := [], ncount := 0 }
  { t with nsym := t.ncount }

/-- TB_INIT (41_tree_builder.md R113). -/
def execTbInit (s : State) : Outcome := .next (initTree s)

/-- One pass of TB_MERGE's loop: the two least nodes under a new one, the first extracted on the left
(41_tree_builder.md R114, R115). -/
def mergePass (s : State) : State :=
  match extractMin s with
  | none => s
  | some (a, s₁) =>
    match extractMin s₁ with
    | none => s
    | some (b, s₂) => addNode (.inner ((s.nodeAt a).freq + (s.nodeAt b).freq) a (some b)) s₂

/-- TB_MERGE's loop, `while size() > 1`; a pass makes the queue shorter, so `passes` bounds their number by the
queue's size (41_tree_builder.md R114). -/
def mergeLoop : (passes : Nat) → State → State
  | 0, s => s
  | n + 1, s => if 1 < s.pq.length then mergeLoop n (mergePass s) else s

/-- `ROOT <- extract_min()` (41_tree_builder.md R114); of an empty queue, which R122 excludes, ROOT is free (log 14). -/
def takeRoot (s : State) : State :=
  match extractMin s with
  | some (r, t) => { t with root := r }
  | none => { s with root := (Config.freeRoot s.draws).val, draws := s.draws + 1 }

/-- Whether the nodes TB_MERGE will write are entries of the node memory (10_state.md R30; log 14). -/
def State.nodesFit (s : State) : Bool := decide (s.pq.length ≤ 1 ∨ s.ncount + (s.pq.length - 1) ≤ 511)

/-- The state TB_MERGE leaves. -/
def mergeTree (s : State) : State := takeRoot (mergeLoop s.pq.length s)

/-- TB_MERGE (41_tree_builder.md R114). -/
def execTbMerge (s : State) : Outcome :=
  if s.nodesFit then .next (mergeTree s) else .fault .nodeAddress

/-- The state TB_FIX1 leaves: a root over the lone leaf when there is one symbol (41_tree_builder.md R116). -/
def fixOne (s : State) : State :=
  if s.nsym = 1 then
    { s with node := s.node.set 1 (.inner (s.nodeAt 0).freq 0 none), ncount := 2, root := 1 }
  else s

/-- TB_FIX1 (41_tree_builder.md R116). -/
def execTbFix1 (s : State) : Outcome := .next (fixOne s)

end Sys2Proof.Machine
end

