-- ==== Sys2Proof/Machine/Orchestration.lean ====
section
/-! DEFINITION. The controller: PACK, DECSYM, UNPACK, the programs of ENCODE and DECODE, and how the controller moves
on from one unit operation to the next (45_orchestration.md). -/

namespace Sys2Proof.Machine

/-- IDLE: the controller waits; it is no operation and changes nothing (10_state.md R22; 60_exceptions.md R258). -/
def execIdle (s : State) : Outcome := .next s

/-- `CODE[IN[i]]`; free where it is NONE, which no program meets (45_orchestration.md R206; log 16). -/
def State.codeOfInput (s : State) (i : Nat) : BitStr := (tab s.code (s.inByte i)).getD (freeCode s.draws i)

/-- The bits PACK writes: the codes of the input bytes, in input order (30_encoding.md R81). -/
def State.packedBits (s : State) : BitStr := (List.range s.inLen.toNat).flatMap s.codeOfInput

/-- The state PACK leaves: BW_RESET, BW_WCODE of each code, BW_FINISH (45_orchestration.md R206). -/
def packInput (s : State) : State :=
  let w := (List.range s.inLen.toNat).foldl (fun w i => pushBits w (s.codeOfInput i)) ([], 0)
  { s.withWriter w with
    result := .buffer w.1 w.2
    draws := if s.input.any fun b => (tab s.code b).isNone then s.draws + 1 else s.draws }

/-- PACK (45_orchestration.md R206). -/
def execPack (s : State) : Outcome :=
  if s.inputFits then .next (packInput s) else .fault .inAddress

/-- The symbol of a code, none where the bits are no code of `DTAB` (42_code_assigner.md R141). -/
def symbolOf (dtab : List (BitStr × Byte)) (acc : BitStr) : Option Byte :=
  (dtab.find? fun e => e.1 == acc).map (·.2)

/-- Whether the bits are a proper prefix of a code of `DTAB` (42_code_assigner.md R141). -/
def inPrefixes (dtab : List (BitStr × Byte)) (acc : BitStr) : Bool := dtab.any fun e => properPrefix acc e.1

/-- DECSYM's loop (45_orchestration.md R216). Every pass but the last reads a bit, so `passes` bounds their number by
the bits left and one more. -/
def decsymLoop : (passes : Nat) → BitStr → State → Run Byte
  | 0, _, s => .raised .endOfStream s
  | n + 1, acc, s =>
    match s.nextBit with
    | none => .raised .endOfStream s
    | some r =>
      let t := advanceReader s
      match symbolOf t.dtab (acc ++ [r]) with
      | some b => .done b t
      | none => if inPrefixes t.dtab (acc ++ [r]) then decsymLoop n (acc ++ [r]) t else .raised .noMatch t

/-- DECSYM's result (45_orchestration.md R216). -/
def decodeSymbol (s : State) : Run Byte := decsymLoop (s.brLimit - s.brPos + 1) [] s

/-- DECSYM (45_orchestration.md R216). -/
def execDecsym (s : State) : Outcome := (decodeSymbol s).outcome fun b t => { t with result := .symbol b }

/-- UNPACK's loop: `count` symbols to OUT from index `j` on (45_orchestration.md R215). -/
def unpackLoop : (count : Nat) → (j : Nat) → State → Run Unit
  | 0, _, s => .done () s
  | n + 1, j, s =>
    match decodeSymbol s with
    | .done b t =>
      if j < t.par.outCap then unpackLoop n (j + 1) { t with outMem := t.outMem.set j b } else .stuck .outAddress
    | .raised c t => .raised c t
    | .stuck f => .stuck f

/-- UNPACK's result: the symbols, then the leftover test (45_orchestration.md R215, R217). -/
def unpackPayload (s : State) : Run Unit :=
  match unpackLoop s.cOriglen 0 (attachReader s.cPayload s.cBitcount s) with
  | .done _ t => if t.brPos ≠ t.brLimit then .raised .leftoverBits t else .done () t
  | r => r

/-- UNPACK (45_orchestration.md R215). -/
def execUnpack (s : State) : Outcome := (unpackPayload s).outcome fun _ t => t

/-- The pairs `(s, LEN[s])` of the symbols present, in ascending order (44_container.md R171). -/
def lengthTable (len : Byte → Nat) : List (Byte × Byte) :=
  allBytes.filterMap fun b => if 0 < len b then some (b, BitVec.ofNat 8 (len b)) else none

/-- The field registers before SERIALIZE (44_container.md R171; 45_orchestration.md R201 step E8). -/
def fillFields (s : State) : State :=
  { s with
    cOriglen := s.inLen.toNat, cNsym := s.nsym, cTab := lengthTable (tab s.len)
    cBitcount := s.bwNbits, cPayload := s.bwBuf }

/-- The field registers of the empty input (44_container.md R171; 45_orchestration.md R201 step E2). -/
def emptyFields (s : State) : State :=
  { s with cOriglen := 0, cNsym := 0, cTab := [], cBitcount := 0, cPayload := [] }

/-- Steps E9 and E10 (45_orchestration.md R201). -/
def encodeFinish (s : State) : Outcome :=
  callUnit 0x0B#8 execSerialize (fun t => .next (complete t.artifactLen t)) s

/-- Steps E3 to E10 (45_orchestration.md R201). -/
def encodeNonempty (s : State) : Outcome :=
  callUnit 0x02#8 execTbInit
    (callUnit 0x03#8 execTbMerge
      (callUnit 0x04#8 execTbFix1
        (callUnit 0x05#8 execWalk
          (callUnit 0x06#8 execCanon
            (callUnit 0x11#8 execPack fun t => encodeFinish (fillFields t)))))) s

/-- The ENCODE program, steps E0 to E10 (45_orchestration.md R201). -/
def encodeProgram (s : State) : Outcome :=
  if s.par.lmax.val < s.inLen.toNat then .next (refusalEntry .inputTooLong s)
  else
    callUnit 0x01#8 execFcount
      (fun t => if t.inLen = 0 then encodeFinish (emptyFields t) else encodeNonempty t) s

/-- ENCODE (45_orchestration.md R200): command start and the program, in one step. A command that comes while one is
running is ignored (R203). -/
def execEncode (s : State) : Outcome :=
  if s.status.busy then .next s else encodeProgram (commandStart s)

/-- Steps D4 to D7 (45_orchestration.md R211). -/
def decodeNonempty (s : State) : Outcome :=
  callUnit 0x06#8 execCanon
    (callUnit 0x0D#8 execDtBuild
      (callUnit 0x12#8 execUnpack fun t => .next (complete t.cOriglen t))) s

/-- Steps D2 and D3, then D4 to D7 (45_orchestration.md R211, R212). -/
def decodeParsed (s : State) : Outcome :=
  if s.nsym = 0 then .next (complete 0 s)
  else if s.par.lmax.val < s.cOriglen then .next (refusalEntry .outputTooLong s)
  else decodeNonempty s

/-- The DECODE program, steps D0 to D7 (45_orchestration.md R211). -/
def decodeProgram (s : State) : Outcome :=
  if s.par.inCap < s.inLen.toNat then .next (refusalEntry .artifactTooLong s)
  else callUnit 0x0C#8 execDeserialize decodeParsed s

/-- DECODE (45_orchestration.md R210): command start and the program, in one step. A command that comes while one is
running is ignored (R203). -/
def execDecode (s : State) : Outcome :=
  if s.status.busy then .next s else decodeProgram (commandStart s)

/-- What the controller does after the unit operation of `PHASE` in the ENCODE program (45_orchestration.md R201):
the next phase, or completion. An operation that is no step of the program returns the controller to idle (log 10). -/
def encodeAdvance (s : State) : State :=
  match s.phase.toNat with
  | 0x01 => if s.inLen = 0 then { emptyFields s with phase := 0x0B#8 } else { s with phase := 0x02#8 }
  | 0x02 => { s with phase := 0x03#8 }
  | 0x03 => { s with phase := 0x04#8 }
  | 0x04 => { s with phase := 0x05#8 }
  | 0x05 => { s with phase := 0x06#8 }
  | 0x06 => { s with phase := 0x11#8 }
  | 0x11 => { fillFields s with phase := 0x0B#8 }
  | 0x0B => complete s.artifactLen s
  | _ => { s with phase := phaseIdle }

/-- The same in the DECODE program (45_orchestration.md R211). -/
def decodeAdvance (s : State) : State :=
  match s.phase.toNat with
  | 0x0C =>
    if s.nsym = 0 then complete 0 s
    else if s.par.lmax.val < s.cOriglen then refusalEntry .outputTooLong s
    else { s with phase := 0x06#8 }
  | 0x06 => { s with phase := 0x0D#8 }
  | 0x0D => { s with phase := 0x12#8 }
  | 0x12 => complete s.cOriglen s
  | _ => { s with phase := phaseIdle }

/-- The controller moves on in the program of the command in `CMD`; with none, it is idle again (log 10). -/
def advance (s : State) : State :=
  match decodeCmd s.cmd with
  | .ok .encode => encodeAdvance s
  | .ok .decode => decodeAdvance s
  | _ => { s with phase := phaseIdle }

/-- After a unit operation that the step ran: the controller moves on, unless the operation raised and so ended the
command (10_state.md R22; 60_exceptions.md R250). -/
def afterUnit (o : Outcome) : Outcome :=
  match o with
  | .next t => if t.phase = phaseIdle then .next t else .next (advance t)
  | .fault f => .fault f
  | .refused r => .refused r

end Sys2Proof.Machine
end

