-- ==== Sys2Proof/Machine/Dispatch.lean ====
section
/-! DEFINITION. One arm for each instruction. -/

namespace Sys2Proof.Machine

def exec (i : Instr) (s : State) : Host.Outcome State Fault Refusal :=
  match i with
  | .encode => Sys2Proof.Machine.execEncode s
  | .decode => Sys2Proof.Machine.execDecode s
  | .idle => Sys2Proof.Machine.execIdle s
  | .fcount => Sys2Proof.Machine.execFcount s
  | .tbInit => Sys2Proof.Machine.execTbInit s
  | .tbMerge => Sys2Proof.Machine.execTbMerge s
  | .tbFix1 => Sys2Proof.Machine.execTbFix1 s
  | .walk => Sys2Proof.Machine.execWalk s
  | .canon => Sys2Proof.Machine.execCanon s
  | .bwReset => Sys2Proof.Machine.execBwReset s
  | .bwWbit b => Sys2Proof.Machine.execBwWbit b s
  | .bwWcode c => Sys2Proof.Machine.execBwWcode c s
  | .bwFinish => Sys2Proof.Machine.execBwFinish s
  | .serialize => Sys2Proof.Machine.execSerialize s
  | .deserialize => Sys2Proof.Machine.execDeserialize s
  | .dtBuild => Sys2Proof.Machine.execDtBuild s
  | .brInit buf limit => Sys2Proof.Machine.execBrInit buf limit s
  | .brRbit => Sys2Proof.Machine.execBrRbit s
  | .decsym => Sys2Proof.Machine.execDecsym s
  | .pack => Sys2Proof.Machine.execPack s
  | .unpack => Sys2Proof.Machine.execUnpack s

end Sys2Proof.Machine
end

