-- ==== Sys2Proof/Machine/Fetch.lean ====
section
/-! DEFINITION. What the step finds to do: the unit operation of `PHASE`, or, with the controller idle, the host's
next access (10_state.md R21, R22; 20_memory.md R60). -/

namespace Sys2Proof.Machine

/-- Reset as an event (70_reset_and_hazards.md R270, R271; log 23): the state after reset, with this machine's
parameters, the accesses still pending, and every unspecified value free anew. -/
def resetState (s : State) : State :=
  { State.reset with
    par := s.par, inbox := s.inbox
    inEpoch := s.inEpoch + 1, outEpoch := s.outEpoch + 1, draws := s.draws + 1 }

/-- A host write of a byte to `CMD`: with no command running it starts one (45_orchestration.md R203), or is refused
IllegalCommand (60_exceptions.md R245); while one runs it is ignored (70_reset_and_hazards.md R276). -/
def fetchCommand (v : Byte) (s : State) : Fetched :=
  if s.status.busy then .other (.next s)
  else
    match decodeCmd v with
    | .ok i => .command i { s with cmd := v }
    | .error _ => .other (.next (refusalEntry (.illegalCommand v) (commandStart { s with cmd := v })))

/-- A host write of a whole register: `CMD` and `IN_LEN` are writable, the others ignore it (10_state.md R21). -/
def fetchRegWrite (r : Reg) (v : BitVec 64) (s : State) : Fetched :=
  match r with
  | .cmd => fetchCommand (v.setWidth 8) s
  | .inLen => .other (.next { s with inLen := v })
  | .status | .errcode | .errinfo | .outLen | .phase => .other (.next s)

/-- One host access (10_state.md R21, R26; 70_reset_and_hazards.md R270). -/
def fetchAccess (a : HostAction) (s : State) : Fetched :=
  match a with
  | .regWrite offset size v =>
    match regAccess offset size with
    | .whole r => fetchRegWrite r v s
    | .unlisted => .other (.next s)
    | .partOf => .other (.refused .partialAccess)
    | .beyond => .other (.fault .regAddress)
  | .inWrite i v =>
    if i < s.par.inCap then .other (.next { s with inMem := s.inMem.set i v }) else .other (.fault .inAddress)
  | .reset => .other (.next (resetState s))

/-- The refusal of a byte that is no unit operation, or whose operand is outside its limits (log 11). -/
def DecodeError.refusal : DecodeError → Refusal
  | .badCode | .badLimit => .illegalOperand
  | .illegalPhase _ | .illegalCommand _ => .illegalPhase

/-- What the step does in a state: with `PHASE` not idle, the unit operation it names, with the operands of the call
port; with the controller idle, the oldest access of the host; with no access pending, nothing (60_exceptions.md R258). -/
def fetch (s : State) : Fetched :=
  if s.phase = phaseIdle then
    match s.inbox with
    | [] => .command .idle s
    | a :: rest => fetchAccess a { s with inbox := rest }
  else
    match decodeUop s.phase s.call with
    | .ok i => .unit i s
    | .error e => .other (.refused (DecodeError.refusal e))

/-- A table word placed where the step fetches it (log 8): a command byte is a pending write to `CMD` of an idle
engine; the idle code is an idle engine with nothing pending; any other byte is in `PHASE`, its operands zero. -/
def placeTableWord (nbits w : Nat) (s : State) : State :=
  let v := BitVec.ofNat 8 (w % 2 ^ nbits)
  match tableFormat (w % 2 ^ nbits) with
  | .cmd =>
    { s with
      phase := phaseIdle, status := { s.status with busy := false }
      inbox := .regWrite 0x00 1 (v.setWidth 64) :: s.inbox }
  | .uop => if v = phaseIdle then { s with phase := v, inbox := [] } else { s with phase := v, call := .zero }

end Sys2Proof.Machine
end

