-- ==== Sys2Proof/Safety.lean ====
section
/-! DEFINITION. The terms claims are stated in: a safe run, the invariant of the machine between commands, the trees
and the code tables the spec speaks of, and the unit-level run of a command. -/

namespace Sys2Proof.Machine

/-- A state the machine does not stop in. -/
def Safe (s : State) : Prop := ∃ t, step s = .next t

/-- What holds of the machine between commands, where the host sees it (10_state.md R22, R23, R25, R27, R36, R37). -/
structure Inv (s : State) : Prop where
  /-- No command runs: the host always reads `PHASE = 0x00` and never `BUSY = 1` (10_state.md R22, R23). -/
  idle : s.phase = phaseIdle
  notBusy : s.status.busy = false
  /-- IN is in the canonical form and inside its capacity (10_state.md R26). -/
  inWf : Memory.wf s.inMem = true
  inCap : ∀ c ∈ s.inMem, c.1 < s.par.inCap
  /-- OUT holds exactly the bytes below `OUT_LEN` (10_state.md R25, R27), inside its capacity. -/
  outExact : s.outMem.map (·.1) = List.range s.outLen.toNat
  outCap : s.outLen.toNat ≤ s.par.outCap
  /-- `FAIL = 1` exactly when `ERRCODE != 0` (10_state.md R23). -/
  failCode : s.status.fail = true ↔ s.errcode ≠ 0x00#8
  /-- A command that failed has ended, without a result (60_exceptions.md R250). -/
  failDone : s.status.fail = true → s.status.done = true ∧ s.outLen = 0
  /-- Before the first command there is no result (10_state.md R42). -/
  notDone : s.status.done = false → s.outLen = 0 ∧ s.errinfo = 0x00#8
  /-- "Every other value is never written" (60_exceptions.md R241). -/
  codeKnown : s.errcode ∈ [0x00#8, 0x01#8, 0x02#8, 0x03#8, 0x10#8, 0x11#8]
  /-- `BW_BUF` has `ceil8(BW_NBITS)` bytes (10_state.md R36). -/
  writer : s.bwBuf.length = ceil8 s.bwNbits
  /-- The cursor is not past the limit, and the buffer holds the limit's bits (10_state.md R37). -/
  reader : s.brPos ≤ s.brLimit ∧ s.brBuf.length = ceil8 s.brLimit

/-- Node `k` is a child of node `i` (41_tree_builder.md R118). -/
def ChildOf (node : Nat → Node) (k i : Nat) : Prop := ∃ f l r, node i = .inner f l r ∧ (k = l ∨ r = some k)

/-- A leaf of symbol `sym` lies below node `i` at the end of `path` (42_code_assigner.md R130). -/
inductive LeafAt (node : Nat → Node) : Nat → BitStr → Byte → Prop where
  | leaf {i f sym} : node i = .leaf f sym → LeafAt node i [] sym
  | left {i f l r path sym} : node i = .inner f l r → LeafAt node l path sym → LeafAt node i (false :: path) sym
  | right {i f l r path sym} : node i = .inner f l (some r) → LeafAt node r path sym → LeafAt node i (true :: path) sym

/-- The nodes below node `i` are a finite tree of depth at most `d` (41_tree_builder.md R118, R120). -/
inductive TreeWithin (node : Nat → Node) : Nat → Nat → Prop where
  | leaf {i d f sym} : node i = .leaf f sym → TreeWithin node i d
  | one {i d f l} : node i = .inner f l none → TreeWithin node l d → TreeWithin node i (d + 1)
  | two {i d f l r} : node i = .inner f l (some r) → TreeWithin node l d → TreeWithin node r d →
      TreeWithin node i (d + 1)

/-- A leaf at the end of `p` is visited before one at the end of `q`: they part with `p` to the left
(42_code_assigner.md R130). -/
def VisitedBefore (p q : BitStr) : Prop := ∃ c x y, p = c ++ false :: x ∧ q = c ++ true :: y

/-- The queue is a set of nodes that have been written (10_state.md R32). -/
def QueueOk (s : State) : Prop := s.pq.Pairwise (· < ·) ∧ ∀ i ∈ s.pq, i < s.ncount

/-- The Kraft sum of a length table (00_scope.md R19). -/
def kraftSum (len : Byte → Nat) : ℚ := (allBytes.map fun b => if 0 < len b then (1 / 2 : ℚ) ^ len b else 0).sum

/-- "no code is a prefix of another" (10_state.md R34). -/
def PrefixFree (code : Byte → Option BitStr) : Prop :=
  ∀ a b ca cb, a ≠ b → code a = some ca → code b = some cb → ¬ ca <+: cb

/-- The value of a symbol's canonical code: a unit for each symbol before it, in units of its own length
(93_implementation_defined.md G1; 42_code_assigner.md R135). -/
def canonValue (len : Byte → Nat) (b : Byte) : Nat :=
  ((allBytes.filter fun a => decide (0 < len a ∧ a ≠ b ∧ canonBefore len a b)).map fun a => 2 ^ (len b - len a)).sum

/-- The first symbol in canonical order (42_code_assigner.md R134). -/
def CanonFirst (len : Byte → Nat) (a : Byte) : Prop := 0 < len a ∧ ∀ c, 0 < len c → canonBefore len a c

/-- Symbol `b` comes right after `a` in canonical order (42_code_assigner.md R134). -/
def CanonNext (len : Byte → Nat) (a b : Byte) : Prop :=
  0 < len a ∧ 0 < len b ∧ a ≠ b ∧ canonBefore len a b ∧ ∀ c, 0 < len c → canonBefore len c a ∨ canonBefore len b c

/-- The canonical code table of a length table (42_code_assigner.md R135, R136). -/
def canonTable (len : Byte → Nat) (b : Byte) : Option BitStr :=
  if 0 < len b then some (bitsOf (canonValue len b) (len b)) else none

/-- The BitWriter's invariants (43_bit_io.md R154). -/
def WriterOk (s : State) : Prop :=
  s.bwBuf.length = ceil8 s.bwNbits ∧ ∀ k, s.bwNbits ≤ k → k < 8 * s.bwBuf.length → streamBit s.bwBuf k = some false

/-- The BitReader's invariant (10_state.md R37). -/
def ReaderOk (s : State) : Prop := s.brPos ≤ s.brLimit ∧ s.brBuf.length = ceil8 s.brLimit

/-- The first `n` bits of a buffer from stream position `k` on (00_scope.md R11). -/
def streamBits (buf : List Byte) (k n : Nat) : BitStr := (List.range n).map fun i => (streamBit buf (k + i)).getD false

/-- The bits the BitReader has not read (43_bit_io.md R162). -/
def State.unread (s : State) : BitStr := streamBits s.brBuf s.brPos (s.brLimit - s.brPos)

/-- The decoder's table is that of a prefix-free code without an empty code (42_code_assigner.md R136, R141). -/
def TableOk (dtab : List (BitStr × Byte)) : Prop :=
  (∀ e ∈ dtab, e.1 ≠ []) ∧ ∀ e ∈ dtab, ∀ e' ∈ dtab, e.1 <+: e'.1 → e = e'

/-- Bits that are no code, and a proper prefix of one: DECSYM reads on (45_orchestration.md R216). -/
def ReadsOn (dtab : List (BitStr × Byte)) (acc : BitStr) : Prop :=
  (∀ e ∈ dtab, e.1 ≠ acc) ∧ ∃ e ∈ dtab, acc <+: e.1 ∧ acc.length < e.1.length

/-- The field registers are those of an artifact the encoder may write (44_container.md R171, R188). -/
structure FieldsOk (s : State) : Prop where
  origlen : s.cOriglen < 2 ^ 64
  nsym : s.cNsym = s.cTab.length
  count : s.cNsym ≤ 256
  ascending : (s.cTab.map fun e => e.1.toNat).Pairwise (· < ·)
  lengths : ∀ e ∈ s.cTab, e.2 ≠ 0x00#8
  bitcount : s.cBitcount < 2 ^ 32
  payload : s.cPayload.length = ceil8 s.cBitcount
  empty : s.cNsym = 0 ↔ s.cOriglen = 0
  noBits : s.cNsym = 0 → s.cBitcount = 0

/-- IN holds these bytes from index 0 on, and `IN_LEN` counts them (10_state.md R25). -/
def HoldsInput (s : State) (bs : List Byte) : Prop :=
  s.inLen.toNat = bs.length ∧ ∀ i (h : i < bs.length), s.inByte i = bs[i]

/-- OUT holds these bytes as the result, and `OUT_LEN` counts them (10_state.md R25). -/
def HoldsOutput (s : State) (bs : List Byte) : Prop :=
  s.outLen.toNat = bs.length ∧ ∀ i (h : i < bs.length), s.outByte i = bs[i]

/-- A command ended without error: `STATUS` = DONE, no error code (45_orchestration.md R204). -/
def Succeeded (t : State) : Prop :=
  t.status.word = 0x02#8 ∧ t.errcode = 0x00#8 ∧ t.errinfo = 0x00#8 ∧ t.phase = phaseIdle

/-- The registers after an error or a refusal of this kind and sub-cause (60_exceptions.md R250, R251). -/
def Failed (t : State) (code info : Byte) : Prop :=
  t.status.word = 0x06#8 ∧ t.errcode = code ∧ t.errinfo = info ∧ t.outLen = 0 ∧ t.phase = phaseIdle

/-- The host's inputs are as they were (10_state.md R26; 60_exceptions.md R250). -/
def SameInput (s t : State) : Prop :=
  t.par = s.par ∧ t.cmd = s.cmd ∧ t.inLen = s.inLen ∧ t.inMem = s.inMem ∧ t.inbox = s.inbox ∧
    ∀ a, t.inByte a = s.inByte a

/-- All the host can see, the bytes of OUT below `n` apart, is as it was (20_memory.md R50, R51). -/
def SameInterfaceFrom (n : Nat) (s t : State) : Prop :=
  SameInput s t ∧ t.status = s.status ∧ t.errcode = s.errcode ∧ t.errinfo = s.errinfo ∧ t.outLen = s.outLen ∧
    t.phase = s.phase ∧ ∀ a, n ≤ a → t.outByte a = s.outByte a

/-- All the host can see is as it was: the registers and every byte of both buffers (20_memory.md R50). -/
def SameInterface (s t : State) : Prop :=
  SameInput s t ∧ t.status = s.status ∧ t.errcode = s.errcode ∧ t.errinfo = s.errinfo ∧ t.outLen = s.outLen ∧
    t.phase = s.phase ∧ ∀ a, t.outByte a = s.outByte a

/-- The outcome is an error or refusal of this kind and sub-cause, the host's inputs as they were. -/
def EndsFailed (o : Outcome) (s : State) (code info : Byte) : Prop :=
  ∃ t, o = .next t ∧ Failed t code info ∧ SameInput s t

/-- The magic and version of IN are this engine's (44_container.md R181, R182). -/
def TagOk (s : State) : Prop :=
  (∀ i (h : i < 4), s.inByte i = s.par.magic[i]) ∧ s.inByte 4 = s.par.version

/-- The symbol-count field of IN, big-endian (30_encoding.md R74). -/
def State.countField (s : State) : Nat := 256 * (s.inByte 13).toNat + (s.inByte 14).toNat

/-- The bit-count field of IN after a table of `n` entries, big-endian (30_encoding.md R76). -/
def State.bitField (s : State) (n : Nat) : Nat :=
  256 ^ 3 * (s.inByte (15 + 2 * n)).toNat + 256 ^ 2 * (s.inByte (16 + 2 * n)).toNat
    + 256 * (s.inByte (17 + 2 * n)).toNat + (s.inByte (18 + 2 * n)).toNat

/-- The original-length field of IN, big-endian (30_encoding.md R73). -/
def State.origField (s : State) : Nat :=
  ((List.range 8).map fun i => 256 ^ (7 - i) * (s.inByte (5 + i)).toNat).sum

/-- Table entry `i` of IN passes its checks (44_container.md R184). -/
def EntryOk (s : State) (i : Nat) : Prop :=
  s.inByte (16 + 2 * i) ≠ 0x00#8 ∧ (0 < i → (s.inByte (13 + 2 * i)).toNat < (s.inByte (15 + 2 * i)).toNat)

/-- The bytes of a packed bit stream: bit `k` at bit `7 - (k mod 8)` of byte `k div 8`, zero padding
(30_encoding.md R77). -/
def packBits (bits : BitStr) : List Byte :=
  (List.range (ceil8 bits.length)).map fun j =>
    BitVec.ofNat 8 (bitsVal ((List.range 8).map fun i => (bits[8 * j + i]?).getD false))

/-- The bytes of a container with these fields, in the layout of 30_encoding.md R70. -/
def containerBytes (p : Params) (origlen : Nat) (table : List (Byte × Byte)) (bitcount : Nat) (payload : List Byte) :
    List Byte :=
  p.magic.toList ++ [p.version] ++ beBytes 8 origlen ++ beBytes 2 table.length ++ (table.flatMap fun e => [e.1, e.2])
    ++ beBytes 4 bitcount ++ payload

/-- The artifact of these bits (30_encoding.md R70, R77). -/
def artifactBytes (p : Params) (origlen : Nat) (table : List (Byte × Byte)) (bits : BitStr) : List Byte :=
  containerBytes p origlen table bits.length (packBits bits)

/-- The code length a table gives a symbol, 0 where it lists none (44_container.md R188). -/
def tableLen (table : List (Byte × Byte)) (b : Byte) : Nat :=
  ((table.find? fun e => e.1 == b).map fun e => e.2.toNat).getD 0

/-- A table DESERIALIZE accepts (44_container.md R184). -/
structure TableWf (table : List (Byte × Byte)) : Prop where
  count : table.length ≤ 256
  ascending : (table.map fun e => e.1.toNat).Pairwise (· < ·)
  lengths : ∀ e ∈ table, e.2 ≠ 0x00#8

/-- The packed bits of an input under the canonical code of a length table (30_encoding.md R81). -/
def encodedBits (len : Byte → Nat) (bs : List Byte) : BitStr := bs.flatMap fun b => (canonTable len b).getD []

/-- A byte of REG space that belongs to a register (10_state.md R21). -/
def RegByte (k : Nat) : Prop := k ∈ [0x00, 0x04, 0x08, 0x0C, 0x20] ∨ (0x10 ≤ k ∧ k < 0x20)

/-- Instructions one after another, without the controller (00_scope.md R15). -/
def execAll : List Instr → State → Outcome
  | [], s => .next s
  | i :: rest, s =>
    match exec i s with
    | .next t => execAll rest t
    | .fault f => .fault f
    | .refused r => .refused r

/-- Steps of the machine. -/
def steps : Nat → State → Outcome
  | 0, s => .next s
  | n + 1, s =>
    match step s with
    | .next t => steps n t
    | .fault f => .fault f
    | .refused r => .refused r

/-- The engine with a command just started, at the first unit operation of its program (45_orchestration.md R203). -/
def unitStart (code : Byte) (s : State) : State := { commandStart s with phase := code }

end Sys2Proof.Machine
end

