-- ==== Sys2Proof/Certificates/Slice0/Obligations.lean ====
section
/-! DEFINITION. The statements for the provers, each from the rules of the spec that its docstring names. -/

open Sys2Proof Sys2Proof.Machine

/-! ### Reset, the host interface and the step -/

/-- Reset puts the interface registers at 0 and leaves IN and OUT unspecified (10_state.md R42; 70 R270). -/
def Obligations.ResetInterface : Prop :=
  State.reset.cmd = 0x00#8 ∧ State.reset.status.word = 0x00#8 ∧ State.reset.errcode = 0x00#8 ∧
    State.reset.errinfo = 0x00#8 ∧ State.reset.inLen = 0 ∧ State.reset.outLen = 0 ∧ State.reset.phase = 0x00#8 ∧
    (∀ i, State.reset.inByte i = Config.freeIn State.reset.inEpoch i) ∧
    ∀ i, State.reset.outByte i = Config.freeOut State.reset.outEpoch i

/-- The invariant holds at reset; the working state there is the model's choice (log 2). -/
def Obligations.ResetHoldsInv : Prop := Inv State.reset

/-- Reset as an event (70 R270, R271): the interface registers are 0, IN and OUT are unspecified anew, the parameters
stay. That it stands in the inbox is the model's choice (logs 5, 23). -/
def Obligations.ResetEvent : Prop :=
  ∀ s rest, s.phase = phaseIdle → s.inbox = .reset :: rest →
    ∃ t, step s = .next t ∧ t.cmd = 0x00#8 ∧ t.status.word = 0x00#8 ∧ t.errcode = 0x00#8 ∧ t.errinfo = 0x00#8 ∧
      t.inLen = 0 ∧ t.outLen = 0 ∧ t.phase = 0x00#8 ∧ t.par = s.par ∧ t.inbox = rest ∧
      t.inEpoch = s.inEpoch + 1 ∧ t.outEpoch = s.outEpoch + 1 ∧ (∀ i, t.inByte i = Config.freeIn t.inEpoch i) ∧
      ∀ i, t.outByte i = Config.freeOut t.outEpoch i

/-- Bytes written out from the tables of 30_encoding.md R90 and R91. -/
def Obligations.CodesAreDecoded : Prop :=
  decodeCmd 0b00000001#8 = .ok .encode ∧ decodeCmd 0b00000010#8 = .ok .decode ∧
    decodeUop 0b00000000#8 .zero = .ok .idle ∧ decodeUop 0b00000001#8 .zero = .ok .fcount ∧
    decodeUop 0b00000011#8 .zero = .ok .tbMerge ∧ decodeUop 0b00000110#8 .zero = .ok .canon ∧
    decodeUop 0b00001001#8 ⟨false, [true, false], [], 0⟩ = .ok (.bwWcode [true, false]) ∧
    decodeUop 0b00001100#8 .zero = .ok .deserialize ∧
    decodeUop 0b00001110#8 ⟨false, [false], [0x15#8, 0x80#8], 9⟩ = .ok (.brInit [0x15#8, 0x80#8] 9) ∧
    decodeUop 0b00010010#8 .zero = .ok .unpack ∧ decodeCmd 0b00000011#8 = .error (.illegalCommand 0x03#8) ∧
    decodeUop 0b00010011#8 .zero = .error (.illegalPhase 0x13#8)

/-- Decoding an encoded well-formed instruction gives it back, and what is decoded is well formed and has the byte it
was decoded from (30_encoding.md R90, R91). -/
def Obligations.DecodeEncode : Prop :=
  (∀ i : Instr, i.wf = true → decodeEncoded (encode i) = .ok i) ∧
    ∀ f v o i, decode f v o = .ok i → i.wf = true ∧ (encode i).format = f ∧ (encode i).code = v

/-- A byte written to `CMD` of an idle engine runs the command it decodes to, whole (45 R203; 20_memory.md R60). -/
def Obligations.CommandStarts : Prop :=
  ∀ s rest v i, s.phase = phaseIdle → s.status.busy = false → s.inbox = .regWrite 0x00 1 v :: rest →
    decodeCmd (v.setWidth 8) = .ok i → step s = exec i { s with inbox := rest, cmd := v.setWidth 8 }

/-- With `PHASE` not idle, the step runs the unit operation it names, and the controller moves on unless the operation
ended the command; with the controller idle and nothing pending, nothing happens (10_state.md R22; 60 R258). -/
def Obligations.StepRunsUnit : Prop :=
  (∀ s i, s.phase ≠ phaseIdle → decodeUop s.phase s.call = .ok i →
    (∀ t, exec i s = .next t → step s = .next (if t.phase = phaseIdle then t else advance t)) ∧
      ∀ f, exec i s = .fault f → step s = .fault f) ∧
    (∀ s, exec .idle s = .next s) ∧ ∀ s, s.phase = phaseIdle → s.inbox = [] → step s = .next s

/-- A `PHASE` code that is no unit operation, and an operand outside its limits, are refused: the model's choice
(log 11); the spec says that neither is produced (30_encoding.md R92; 43 R152, R160). -/
def Obligations.IllegalPhaseRefused : Prop :=
  ∀ s, (0x13 ≤ s.phase.toNat → step s = .refused .illegalPhase) ∧
    (s.phase = 0x09#8 → (s.call.code = [] ∨ 255 < s.call.code.length) → step s = .refused .illegalOperand) ∧
    (s.phase = 0x0E#8 → 2 ^ 32 ≤ s.call.limit → step s = .refused .illegalOperand)

/-- The order of the two programs: which phase follows which, what the controller writes between them, and completion
(45 R201, R204, R211; 44 R171). -/
def Obligations.PhaseOrder : Prop :=
  (∀ s, s.cmd = 0x01#8 →
    (s.phase = 0x01#8 → s.inLen = 0 → advance s = { s with
      phase := 0x0B#8, cOriglen := 0, cNsym := 0, cTab := [], cBitcount := 0, cPayload := [] }) ∧
    (s.phase = 0x01#8 → s.inLen ≠ 0 → advance s = { s with phase := 0x02#8 }) ∧
    (s.phase = 0x02#8 → advance s = { s with phase := 0x03#8 }) ∧
    (s.phase = 0x03#8 → advance s = { s with phase := 0x04#8 }) ∧
    (s.phase = 0x04#8 → advance s = { s with phase := 0x05#8 }) ∧
    (s.phase = 0x05#8 → advance s = { s with phase := 0x06#8 }) ∧
    (s.phase = 0x06#8 → advance s = { s with phase := 0x11#8 }) ∧
    (s.phase = 0x11#8 → advance s = { s with
      phase := 0x0B#8, cOriglen := s.inLen.toNat, cNsym := s.nsym, cTab := lengthTable (tab s.len)
      cBitcount := s.bwNbits, cPayload := s.bwBuf }) ∧
    (s.phase = 0x0B#8 → ∃ t, advance s = t ∧ t = { s with
        outLen := BitVec.ofNat 64 (19 + 2 * s.cNsym + s.cPayload.length), phase := 0x00#8
        status := ⟨false, true, s.status.fail⟩, outMem := t.outMem, outEpoch := t.outEpoch } ∧
      ∀ a, a < 19 + 2 * s.cNsym + s.cPayload.length → t.outMem.get? a = s.outMem.get? a)) ∧
    ∀ s, s.cmd = 0x02#8 →
      (s.phase = 0x0C#8 → s.nsym ≠ 0 → s.cOriglen ≤ s.par.lmax.val → advance s = { s with phase := 0x06#8 }) ∧
      (s.phase = 0x0C#8 → s.nsym ≠ 0 → s.par.lmax.val < s.cOriglen → Failed (advance s) 0x11#8 0x03#8) ∧
      (s.phase = 0x0C#8 → s.nsym = 0 → ∃ t, advance s = t ∧ t = { s with
        outLen := 0, phase := 0x00#8, status := ⟨false, true, s.status.fail⟩, outMem := t.outMem
        outEpoch := t.outEpoch }) ∧
      (s.phase = 0x06#8 → advance s = { s with phase := 0x0D#8 }) ∧
      (s.phase = 0x0D#8 → advance s = { s with phase := 0x12#8 }) ∧
      (s.phase = 0x12#8 → ∃ t, advance s = t ∧ t = { s with
          outLen := BitVec.ofNat 64 s.cOriglen, phase := 0x00#8, status := ⟨false, true, s.status.fail⟩
          outMem := t.outMem, outEpoch := t.outEpoch } ∧
        ∀ a, a < s.cOriglen → t.outMem.get? a = s.outMem.get? a)

/-- A byte that is no command is refused; no program runs, IN and the working state are untouched (60 R245). -/
def Obligations.IllegalCommand : Prop :=
  ∀ s rest v, s.phase = phaseIdle → s.status.busy = false → s.inbox = .regWrite 0x00 1 v :: rest →
    v.setWidth 8 ≠ 0x01#8 → v.setWidth 8 ≠ 0x02#8 →
    ∃ t, step s = .next t ∧ Failed t 0x10#8 (v.setWidth 8) ∧ (∀ a, t.inByte a = s.inByte a) ∧
      t = { s with
        inbox := rest, cmd := v.setWidth 8, status := t.status, errcode := t.errcode, errinfo := t.errinfo
        outLen := t.outLen, outMem := t.outMem, outEpoch := t.outEpoch }

/-- Host writes of REG space (10_state.md R21): `IN_LEN` is stored, a read-only register and an unlisted offset ignore
the write, and a `CMD` write while busy is ignored (70 R276). What a write of `IN_LEN`
does while `BUSY = 1` the spec leaves open (70 R276); that it is taken, and the step goes on, is the model's choice
(log 5). That an access of part of a register, of more than one, or of one and unlisted offsets beside it is refused, and
one past REG space faults, is the model's choice (log 12). -/
def Obligations.HostRegisterWrite : Prop :=
  ∀ s rest offset size v, s.phase = phaseIdle → s.inbox = .regWrite offset size v :: rest → 0 < size →
    ((offset, size) = (0x10, 8) → (s.status.busy = false → step s = .next { s with inbox := rest, inLen := v }) ∧
      ∃ t, step s = .next t) ∧
    ((offset, size) ∈ [(0x04, 1), (0x08, 1), (0x0C, 1), (0x18, 8), (0x20, 1)] →
      step s = .next { s with inbox := rest }) ∧
    (offset + size ≤ 0x28 → (∀ k, offset ≤ k → k < offset + size → ¬ RegByte k) →
      step s = .next { s with inbox := rest }) ∧
    ((offset, size) = (0x00, 1) → s.status.busy = true → step s = .next { s with inbox := rest }) ∧
    (offset + size ≤ 0x28 → (∃ k, offset ≤ k ∧ k < offset + size ∧ RegByte k) →
      (offset, size) ∉ [(0x00, 1), (0x04, 1), (0x08, 1), (0x0C, 1), (0x10, 8), (0x18, 8), (0x20, 1)] →
      step s = .refused .partialAccess) ∧
    (0x28 < offset + size → step s = .fault .regAddress)

/-- Host reads of REG space (10_state.md R21, R23): each register's value, `CMD` and an unlisted offset read 0. While
`BUSY = 1` the spec leaves the value of `OUT_LEN` open (70 R276); that the read goes on, with a free value, is the
model's choice (log 29). So are the refusal of a read of part of a register, of more than one, or of one and unlisted
offsets beside it, and the fault of one past REG space (log 12). -/
def Obligations.HostRegisterRead : Prop :=
  ∀ s : State, s.hostReadReg 0x00 1 = .next 0 ∧
    (∃ v, s.hostReadReg 0x04 1 = .next v ∧ v.getLsbD 0 = s.status.busy ∧ v.getLsbD 1 = s.status.done ∧
      v.getLsbD 2 = s.status.fail ∧ ∀ k, 3 ≤ k → v.getLsbD k = false) ∧
    s.hostReadReg 0x08 1 = .next (s.errcode.setWidth 64) ∧ s.hostReadReg 0x0C 1 = .next (s.errinfo.setWidth 64) ∧
    s.hostReadReg 0x10 8 = .next s.inLen ∧ (s.status.busy = false → s.hostReadReg 0x18 8 = .next s.outLen) ∧
    (∃ v, s.hostReadReg 0x18 8 = .next v) ∧ s.hostReadReg 0x20 1 = .next (s.phase.setWidth 64) ∧
    ∀ offset size, 0 < size →
      (offset + size ≤ 0x28 → (∀ k, offset ≤ k → k < offset + size → ¬ RegByte k) →
        s.hostReadReg offset size = .next 0) ∧
      (offset + size ≤ 0x28 → (∃ k, offset ≤ k ∧ k < offset + size ∧ RegByte k) →
        (offset, size) ∉ [(0x00, 1), (0x04, 1), (0x08, 1), (0x0C, 1), (0x10, 8), (0x18, 8), (0x20, 1)] →
        s.hostReadReg offset size = .refused .partialAccess) ∧
      (0x28 < offset + size → s.hostReadReg offset size = .fault .regAddress)

/-- A host write of a byte of IN only stores it; a byte of IN reads as what was stored (10_state.md R26; 20 R58). What
the write does while `BUSY = 1` the spec leaves open (70 R276); that it is taken, and the step goes on, is the model's
choice (log 5). That a write at or above `IN_CAP` faults is the model's choice (log 13): the spec says nothing of one. -/
def Obligations.HostBufferAccess : Prop :=
  ∀ s rest i v, s.phase = phaseIdle → s.inbox = .inWrite i v :: rest → Memory.wf s.inMem = true →
    (i < s.par.inCap → (∃ t, step s = .next t) ∧ (s.status.busy = false →
      ∃ t, step s = .next t ∧ t = { s with inbox := rest, inMem := t.inMem } ∧
        (∀ a, t.inByte a = if a = i then v else s.inByte a) ∧ t.hostReadIn i = .next v ∧
        (∀ a, a < s.par.outCap → t.hostReadOut a = s.hostReadOut a) ∧ Memory.wf t.inMem = true)) ∧
    (s.par.inCap ≤ i → step s = .fault .inAddress)

/-! ### The unit operations of ENCODE -/

/-- FCOUNT counts each byte value of the input, and cannot fail (40 R100). -/
def Obligations.FcountCounts : Prop :=
  ∀ s, s.inLen.toNat ≤ s.par.inCap → ∃ t, exec .fcount s = .next t ∧ t = { s with freq := t.freq } ∧
    (∀ b, tab t.freq b = s.input.count b) ∧ SameInterface s t

/-- After FCOUNT the counters add up to `IN_LEN`, and no other unit operation, nor DECODE, writes them (40 R101, which
the spec derives from R100). -/
def Obligations.FcountSum : Prop :=
  (∀ s t, exec .fcount s = .next t → (allBytes.map (tab t.freq)).sum = s.inLen.toNat) ∧
    ∀ i s t, i ≠ .encode → i ≠ .fcount → exec i s = .next t → t.freq = s.freq

/-- TB_INIT makes a leaf for each symbol counted, in ascending order, and queues it (41 R113). -/
def Obligations.TbInitLeaves : Prop :=
  ∀ s, ∃ t, exec .tbInit s = .next t ∧
    t = { s with node := t.node, ncount := t.ncount, nsym := t.nsym, pq := t.pq } ∧
    (∃ counted, counted = (allBytes.filter fun b => decide (0 < tab s.freq b)) ∧ t.ncount = counted.length ∧
      t.nsym = counted.length ∧ t.pq.Pairwise (· < ·) ∧ (∀ i, i ∈ t.pq ↔ i < counted.length) ∧
      (∀ k (h : k < counted.length), t.nodeAt k = .leaf (tab s.freq counted[k]) counted[k]) ∧
      ∀ k, counted.length ≤ k → t.nodeAt k = s.nodeAt k) ∧
    SameInterface s t

/-- A pass of TB_MERGE takes the first node `a` and the second node `b` of the queue, by frequency and then by index,
makes the node over both, `a` to the left, and queues it (41 R112, R114, R115, R122);
the finished tree has that node. -/
def Obligations.TbMergePass : Prop :=
  ∀ s a b q, QueueOk s → s.ncount + (s.pq.length - 1) ≤ 511 → a ∈ s.pq → b ∈ s.pq → a ≠ b →
    (∀ j ∈ s.pq, j ≠ a → (s.nodeAt a).freq < (s.nodeAt j).freq ∨ ((s.nodeAt a).freq = (s.nodeAt j).freq ∧ a < j)) →
    (∀ j ∈ s.pq, j ≠ a → j ≠ b →
      (s.nodeAt b).freq < (s.nodeAt j).freq ∨ ((s.nodeAt b).freq = (s.nodeAt j).freq ∧ b < j)) →
    q.Pairwise (· < ·) → (∀ i, i ∈ q ↔ (i ∈ s.pq ∧ i ≠ a ∧ i ≠ b) ∨ i = s.ncount) →
    exec .tbMerge s = exec .tbMerge { s with
      node := s.node.setIfInBounds s.ncount (.inner ((s.nodeAt a).freq + (s.nodeAt b).freq) a (some b))
      pq := q, ncount := s.ncount + 1 } ∧
    ∃ t, exec .tbMerge s = .next t ∧
      t.nodeAt s.ncount = .inner ((s.nodeAt a).freq + (s.nodeAt b).freq) a (some b)

/-- TB_MERGE ends with the one node that remains as `ROOT`: the lone member, or the last node made
(41 R114, R117). -/
def Obligations.TbMergeEnds : Prop :=
  (∀ s r, s.pq = [r] → exec .tbMerge s = .next { s with root := r, pq := [] }) ∧
    ∀ s, QueueOk s → s.pq ≠ [] → s.ncount + (s.pq.length - 1) ≤ 511 → ∃ t, exec .tbMerge s = .next t ∧
      t = { s with node := t.node, ncount := t.ncount, pq := [], root := t.root } ∧
      t.ncount = s.ncount + (s.pq.length - 1) ∧ (2 ≤ s.pq.length → t.root + 1 = t.ncount) ∧
      (∀ k, k < s.ncount → t.nodeAt k = s.nodeAt k) ∧ (∀ k, t.ncount ≤ k → t.nodeAt k = s.nodeAt k) ∧
      SameInterface s t

/-- TB_FIX1 puts a root over the lone leaf of one symbol, and else does nothing (41 R116). -/
def Obligations.TbFix1 : Prop :=
  ∀ s, (s.nsym = 1 → exec .tbFix1 s = .next { s with
      node := s.node.set 1 (.inner (s.nodeAt 0).freq 0 none), ncount := 2, root := 1 }) ∧
    (s.nsym ≠ 1 → exec .tbFix1 s = .next s)

/-- The finished tree of a table with a counter that is not 0: its size, its root, its depth, the frequencies, one leaf
for each symbol counted, children before parents, and one parent for every node but the root
(41 R117, R118, R120, which the spec derives from R113, R114, R116). -/
def Obligations.BuiltTree : Prop :=
  ∀ s, (∃ b, 0 < tab s.freq b) → ∃ t, execAll [.tbInit, .tbMerge, .tbFix1] s = .next t ∧
    ∃ n, n = (allBytes.filter fun b => decide (0 < tab s.freq b)).length ∧ t.nsym = n ∧
      t.ncount = (if n = 1 then 2 else 2 * n - 1) ∧ t.root + 1 = t.ncount ∧
      (t.nodeAt t.root).freq = (allBytes.map (tab s.freq)).sum ∧ TreeWithin t.nodeAt t.root (max 1 (n - 1)) ∧
      (∀ b, (∃ p, LeafAt t.nodeAt t.root p b) ↔ 0 < tab s.freq b) ∧
      (∀ b p q, LeafAt t.nodeAt t.root p b → LeafAt t.nodeAt t.root q b → p = q) ∧
      (∀ i f l, i < t.ncount → t.nodeAt i = .inner f l none → l < i ∧ f = (t.nodeAt l).freq) ∧
      (∀ i f l r, i < t.ncount → t.nodeAt i = .inner f l (some r) →
        l < i ∧ r < i ∧ l ≠ r ∧ f = (t.nodeAt l).freq + (t.nodeAt r).freq) ∧
      ∀ k, k < t.ncount → k ≠ t.root → ∃ i, i < t.ncount ∧ ChildOf t.nodeAt k i ∧
        ∀ j, j < t.ncount → ChildOf t.nodeAt k j → j = i

/-- WALK writes for each symbol the path to its leaf and its length, NONE and 0 for a symbol without a leaf; of two
leaves of a symbol the one visited last counts. Below a root that is no leaf no path is empty (42 R130). -/
def Obligations.WalkPaths : Prop :=
  ∀ s, TreeWithin s.nodeAt s.root 255 → ∃ t, exec .walk s = .next t ∧ t = { s with rawcode := t.rawcode, len := t.len } ∧
    (∀ b p, tab t.rawcode b = some p ↔
      LeafAt s.nodeAt s.root p b ∧ ∀ q, LeafAt s.nodeAt s.root q b → q = p ∨ VisitedBefore q p) ∧
    (∀ b p, tab t.rawcode b = some p → tab t.len b = p.length) ∧
    (∀ b, tab t.rawcode b = none → tab t.len b = 0) ∧
    ((∀ f b, s.nodeAt s.root ≠ .leaf f b) → ∀ b, tab t.rawcode b ≠ some []) ∧ SameInterface s t

/-- After WALK of a tree that was built from the counters: depths are code lengths, the symbols counted have a length
and no others, the raw codes are prefix-free; the Kraft sum is 1, or 1/2 for one symbol, whose length is 1
(42 R131; R132, which the spec derives). -/
def Obligations.WalkLengths : Prop :=
  ∀ s, (∃ b, 0 < tab s.freq b) → ∃ t, execAll [.tbInit, .tbMerge, .tbFix1, .walk] s = .next t ∧
    (∀ b p, LeafAt t.nodeAt t.root p b → tab t.len b = p.length) ∧ (∀ b, 0 < tab t.len b ↔ 0 < tab s.freq b) ∧
    (allBytes.filter fun b => decide (0 < tab t.len b)).length = t.nsym ∧ PrefixFree (tab t.rawcode) ∧
    (2 ≤ t.nsym → kraftSum (tab t.len) = 1) ∧
    (t.nsym = 1 → kraftSum (tab t.len) = 1 / 2 ∧ ∀ b, 0 < tab t.len b → tab t.len b = 1)

/-- CANON, when no length is over-subscribed: the first code is all zeros, each next one is the one before plus 1,
shifted left by the increase in length; no code without a length (42 R134, R135). -/
def Obligations.CanonAssigns : Prop :=
  ∀ s, kraftSum (tab s.len) ≤ 1 → ∃ t, exec .canon s = .next t ∧ t = { s with code := t.code } ∧
    (∀ b, tab t.code b = none ↔ tab s.len b = 0) ∧
    (∀ a, CanonFirst (tab s.len) a → tab t.code a = some (bitsOf 0 (tab s.len a))) ∧
    (∀ a b c, CanonNext (tab s.len) a b → tab t.code a = some c →
      tab t.code b = some (bitsOf ((bitsVal c + 1) * 2 ^ (tab s.len b - tab s.len a)) (tab s.len b))) ∧
    SameInterface s t

/-- CANON raises OverSubscribed exactly when the Kraft sum is above 1 (42 R137; the equivalence is the spec's own,
93_implementation_defined.md G1). That a CANON run by itself takes the
same error entry is the model's choice (log 21). -/
def Obligations.CanonRaises : Prop :=
  ∀ s, (1 < kraftSum (tab s.len) → EndsFailed (exec .canon s) s 0x01#8 0x09#8) ∧
    (kraftSum (tab s.len) ≤ 1 → ∃ t, exec .canon s = .next t ∧ SameInterface s t)

/-- After a CANON that did not raise: lengths, distinct and prefix-free codes, rising along the canonical order as
left-aligned fractions, a function of the length table alone (42 R136, which the spec derives from R135). -/
def Obligations.CanonPrefixFree : Prop :=
  ∀ s, kraftSum (tab s.len) ≤ 1 → ∃ t, exec .canon s = .next t ∧
    (∀ b, 0 < tab s.len b → ∃ c, tab t.code b = some c ∧ c.length = tab s.len b) ∧
    (∀ a b, a ≠ b → 0 < tab s.len a → tab t.code a ≠ tab t.code b) ∧ PrefixFree (tab t.code) ∧
    (∀ a b ca cb, canonBefore (tab s.len) a b → a ≠ b → tab t.code a = some ca → tab t.code b = some cb →
      bitsVal ca * 2 ^ cb.length < bitsVal cb * 2 ^ ca.length) ∧
    ∀ s', tab s'.len = tab s.len → ∃ t', exec .canon s' = .next t' ∧ t'.code = t.code

/-- DT_BUILD makes the set of pairs of the codes of the symbols present (42 R140). -/
def Obligations.DtBuild : Prop :=
  ∀ s, ∃ t, exec .dtBuild s = .next t ∧ t = { s with dtab := t.dtab } ∧
    (∀ c b, (c, b) ∈ t.dtab ↔ 0 < tab s.len b ∧ tab s.code b = some c) ∧ SameInterface s t

/-! ### The BitWriter and the BitReader -/

/-- BW_RESET empties the writer (43 R150). -/
def Obligations.BwReset : Prop :=
  ∀ s, exec .bwReset s = .next { s with bwBuf := [], bwNbits := 0 } ∧
    execAll [.bwReset, .bwFinish] s = .next { s with bwBuf := [], bwNbits := 0, result := .buffer [] 0 }

/-- BW_WBIT puts the bit at the stream position `BW_NBITS`, keeps the bits before it, and keeps the writer's
invariants (43 R151; R154, which the spec derives). -/
def Obligations.BwWbit : Prop :=
  ∀ s b, WriterOk s → ∃ t, exec (.bwWbit b) s = .next t ∧ t = { s with bwBuf := t.bwBuf, bwNbits := s.bwNbits + 1 } ∧
    streamBit t.bwBuf s.bwNbits = some b ∧ (∀ k, k < s.bwNbits → streamBit t.bwBuf k = streamBit s.bwBuf k) ∧
    WriterOk t ∧ SameInterface s t

/-- BW_WCODE is BW_WBIT of each bit, the first first: so the code stands at the end of the stream (43 R152; 30 R95). -/
def Obligations.BwWcode : Prop :=
  (∀ s c, WriterOk s → ∃ t, exec (.bwWcode c) s = .next t ∧
    t = { s with bwBuf := t.bwBuf, bwNbits := s.bwNbits + c.length } ∧ streamBits t.bwBuf s.bwNbits c.length = c ∧
    (∀ k, k < s.bwNbits → streamBit t.bwBuf k = streamBit s.bwBuf k) ∧ WriterOk t ∧ SameInterface s t) ∧
    ∀ s b c, c ≠ [] → exec (.bwWcode (b :: c)) s = execAll [.bwWbit b, .bwWcode c] s

/-- BW_FINISH yields the buffer and the count and writes nothing else; the buffer is padded with zero bits
(43 R153). Where the yielded pair stands is the model's choice (log 9). -/
def Obligations.BwFinish : Prop :=
  ∀ s, exec .bwFinish s = .next { s with result := .buffer s.bwBuf s.bwNbits } ∧
    (WriterOk s → s.bwBuf.length = ceil8 s.bwNbits ∧
      ∀ k, s.bwNbits ≤ k → k < 8 * s.bwBuf.length → streamBit s.bwBuf k = some false)

/-- BR_INIT attaches the reader; the counter of free values is the model's own (43 R160; log 17). -/
def Obligations.BrInit : Prop :=
  ∀ s buf limit, exec (.brInit buf limit) s =
    .next { s with brBuf := buf, brLimit := limit, brPos := 0, draws := s.draws + 1 }

/-- BR_RBIT yields EndOfStream at the limit, and else the bit at the cursor, moving on (43 R162). -/
def Obligations.BrRbit : Prop :=
  (∀ s, s.brLimit ≤ s.brPos → exec .brRbit s = .next { s with result := .endOfStream }) ∧
    ∀ s (h : s.brPos / 8 < s.brBuf.length), s.brPos < s.brLimit → exec .brRbit s =
      .next { s with brPos := s.brPos + 1, result := .bit (s.brBuf[s.brPos / 8].getLsbD (7 - s.brPos % 8)) }

/-- The write-read law (43 R163, which the spec derives from R154 and R162): what a fresh writer is given and finishes, a reader of the pair yields bit by bit,
and EndOfStream from then on. -/
def Obligations.WriteRead : Prop :=
  ∀ s (w : BitStr), ∃ t buf, execAll (.bwReset :: w.map .bwWbit ++ [.bwFinish]) s = .next t ∧
    t.result = .buffer buf w.length ∧ ∀ s' k, ∃ u,
      execAll (.brInit buf w.length :: List.replicate (k + 1) .brRbit) s' = .next u ∧
        u.result = match w[k]? with
          | some b => .bit b
          | none => .endOfStream

/-! ### The container -/

/-- SERIALIZE writes the container's bytes and yields their number; no other byte of OUT changes (44 R170). -/
def Obligations.SerializeLayout : Prop :=
  ∀ s, s.cNsym = s.cTab.length → 19 + 2 * s.cNsym + s.cPayload.length ≤ s.par.outCap → Memory.wf s.outMem = true →
    ∃ t, exec .serialize s = .next t ∧
      t = { s with outMem := t.outMem, result := .length (19 + 2 * s.cNsym + s.cPayload.length) } ∧ SameInput s t ∧
      (∀ i (h : i < 4), t.outByte i = s.par.magic[i]) ∧ t.outByte 4 = s.par.version ∧
      (∀ i, i < 8 → t.outByte (5 + i) = BitVec.ofNat 8 (s.cOriglen / 256 ^ (7 - i))) ∧
      (∀ i, i < 2 → t.outByte (13 + i) = BitVec.ofNat 8 (s.cNsym / 256 ^ (1 - i))) ∧
      (∀ i (h : i < s.cTab.length), t.outByte (15 + 2 * i) = s.cTab[i].1 ∧ t.outByte (16 + 2 * i) = s.cTab[i].2) ∧
      (∀ i, i < 4 → t.outByte (15 + 2 * s.cNsym + i) = BitVec.ofNat 8 (s.cBitcount / 256 ^ (3 - i))) ∧
      (∀ j (h : j < s.cPayload.length), t.outByte (19 + 2 * s.cNsym + j) = s.cPayload[j]) ∧
      ∀ a, 19 + 2 * s.cNsym + s.cPayload.length ≤ a → t.outByte a = s.outByte a

/-- DESERIALIZE's header checks in their order (44 R180 lines 1 to 9, R181, R182, R183). That a DESERIALIZE run by
itself takes the same error entry is the model's choice (log 21). -/
def Obligations.DeserializeHeader : Prop :=
  ∀ s, (s.inLen.toNat < 4 → EndsFailed (exec .deserialize s) s 0x01#8 0x01#8) ∧
    (4 ≤ s.inLen.toNat → (∃ (i : Nat) (h : i < 4), s.inByte i ≠ s.par.magic[i]) →
      EndsFailed (exec .deserialize s) s 0x01#8 0x02#8) ∧
    (s.inLen.toNat = 4 → (∀ i (h : i < 4), s.inByte i = s.par.magic[i]) →
      EndsFailed (exec .deserialize s) s 0x01#8 0x01#8) ∧
    (5 ≤ s.inLen.toNat → (∀ i (h : i < 4), s.inByte i = s.par.magic[i]) → s.inByte 4 ≠ s.par.version →
      EndsFailed (exec .deserialize s) s 0x03#8 (s.inByte 4)) ∧
    (5 ≤ s.inLen.toNat → s.inLen.toNat < 15 → TagOk s → EndsFailed (exec .deserialize s) s 0x01#8 0x01#8) ∧
    (15 ≤ s.inLen.toNat → TagOk s → 256 < s.countField → EndsFailed (exec .deserialize s) s 0x01#8 0x03#8)

/-- DESERIALIZE's table checks: the extent first, then entry by entry, in an entry the zero length before the order
(44 R180 lines 10 to 17, R184). That a DESERIALIZE run by itself takes the same error entry is the model's choice
(log 21). -/
def Obligations.DeserializeTable : Prop :=
  ∀ s, 15 ≤ s.inLen.toNat → TagOk s → s.countField ≤ 256 →
    (s.inLen.toNat < 15 + 2 * s.countField → EndsFailed (exec .deserialize s) s 0x01#8 0x04#8) ∧
    (15 + 2 * s.countField ≤ s.inLen.toNat → ∀ i, i < s.countField → (∀ j, j < i → EntryOk s j) →
      (s.inByte (16 + 2 * i) = 0x00#8 → EndsFailed (exec .deserialize s) s 0x01#8 0x05#8) ∧
      (s.inByte (16 + 2 * i) ≠ 0x00#8 → 0 < i → (s.inByte (15 + 2 * i)).toNat ≤ (s.inByte (13 + 2 * i)).toNat →
        EndsFailed (exec .deserialize s) s 0x01#8 0x06#8))

/-- DESERIALIZE's checks of the bit count, the payload's extent and the fields together (44 R180 lines 18 to 25, R185,
R187). That a DESERIALIZE run by itself takes the same error entry is the model's choice (log 21). -/
def Obligations.DeserializePayload : Prop :=
  ∀ s, 15 + 2 * s.countField ≤ s.inLen.toNat → TagOk s → s.countField ≤ 256 → (∀ i, i < s.countField → EntryOk s i) →
    (s.inLen.toNat < 19 + 2 * s.countField → EndsFailed (exec .deserialize s) s 0x01#8 0x01#8) ∧
    (19 + 2 * s.countField ≤ s.inLen.toNat →
      s.inLen.toNat < 19 + 2 * s.countField + ceil8 (s.bitField s.countField) →
      EndsFailed (exec .deserialize s) s 0x02#8 0x01#8) ∧
    (19 + 2 * s.countField + ceil8 (s.bitField s.countField) < s.inLen.toNat →
      EndsFailed (exec .deserialize s) s 0x01#8 0x08#8) ∧
    (s.inLen.toNat = 19 + 2 * s.countField + ceil8 (s.bitField s.countField) → s.inLen.toNat ≤ s.par.inCap →
      (s.countField = 0 ∧ (s.origField ≠ 0 ∨ s.bitField s.countField ≠ 0)) ∨ (0 < s.countField ∧ s.origField = 0) →
      EndsFailed (exec .deserialize s) s 0x01#8 0x07#8)

/-- DESERIALIZE of an artifact that passes every check: the fields, the length table, and what then holds
(44 R180; R188, which the spec derives; 30 R73 to R77). -/
def Obligations.DeserializeAccepts : Prop :=
  ∀ s, TagOk s → s.countField ≤ 256 → (∀ i, i < s.countField → EntryOk s i) →
    s.inLen.toNat = 19 + 2 * s.countField + ceil8 (s.bitField s.countField) → s.inLen.toNat ≤ s.par.inCap →
    (s.countField = 0 ↔ s.origField = 0) → (s.countField = 0 → s.bitField s.countField = 0) →
    ∃ t, exec .deserialize s = .next t ∧
      t = { s with
        cOriglen := s.origField, cNsym := s.countField, nsym := s.countField, cBitcount := s.bitField s.countField
        cTab := (List.range s.countField).map fun i => (s.inByte (15 + 2 * i), s.inByte (16 + 2 * i))
        cPayload := s.inRange (19 + 2 * s.countField) (ceil8 (s.bitField s.countField)), len := t.len } ∧
      (∀ i, i < s.countField → tab t.len (s.inByte (15 + 2 * i)) = (s.inByte (16 + 2 * i)).toNat) ∧
      (∀ b, (∀ i, i < s.countField → s.inByte (15 + 2 * i) ≠ b) → tab t.len b = 0) ∧ SameInterface s t

/-- The inverse law (44 R189, which the spec derives from R170 and R180): DESERIALIZE of what SERIALIZE wrote raises nothing and recovers the fields; in
particular it accepts every artifact that ENCODE produces. -/
def Obligations.InverseLaw : Prop :=
  (∀ s, FieldsOk s → 19 + 2 * s.cNsym + s.cPayload.length ≤ s.par.outCap → Memory.wf s.outMem = true →
    ∃ t, exec .serialize s = .next t ∧ ∀ u, u.par = s.par →
      u.inLen.toNat = 19 + 2 * s.cNsym + s.cPayload.length → (∀ i, i < u.inLen.toNat → u.inByte i = t.outByte i) →
      ∃ v, exec .deserialize u = .next v ∧ v.cOriglen = s.cOriglen ∧ v.cNsym = s.cNsym ∧ v.cTab = s.cTab ∧
        v.cBitcount = s.cBitcount ∧ v.cPayload = s.cPayload ∧ v.nsym = s.cNsym ∧ SameInterface u v) ∧
    ∀ s, s.status.busy = false → s.inLen.toNat ≤ s.par.lmax.val → ∃ t, exec .encode s = .next t ∧
      ∀ u, u.par = s.par → u.inLen = t.outLen → (∀ i, i < u.inLen.toNat → u.inByte i = t.outByte i) →
        ∃ v, exec .deserialize u = .next v ∧ SameInterface u v

/-! ### PACK, DECSYM and UNPACK -/

/-- PACK writes the codes of the input bytes, in input order, to a fresh writer, and yields the buffer and the count
(45 R206; 30 R81). -/
def Obligations.Pack : Prop :=
  ∀ s, s.inLen.toNat ≤ s.par.inCap → (∀ b ∈ s.input, (tab s.code b).isSome) → ∃ t, exec .pack s = .next t ∧
    t = { s with bwBuf := t.bwBuf, bwNbits := t.bwNbits, result := .buffer t.bwBuf t.bwNbits } ∧ WriterOk t ∧
    streamBits t.bwBuf 0 t.bwNbits = (s.input.flatMap fun b => (tab s.code b).getD []) ∧ SameInterface s t

/-- DECSYM yields the symbol of the code the bits start with; it raises EndOfStream where they run out inside a code,
NoMatch at the first bit that leaves every code (45 R216). A DECSYM run by itself takes the same error entry (log 21). -/
def Obligations.Decsym : Prop :=
  ∀ s, ReaderOk s → TableOk s.dtab →
    (∀ c b rest, (c, b) ∈ s.dtab → s.unread = c ++ rest →
      exec .decsym s = .next { s with brPos := s.brPos + c.length, result := .symbol b }) ∧
    ((∀ p, p ≠ [] → p <+: s.unread → ReadsOn s.dtab p) → EndsFailed (exec .decsym s) s 0x02#8 0x02#8) ∧
    (∀ c r rest, s.unread = c ++ r :: rest → (∀ p, p ≠ [] → p <+: c → ReadsOn s.dtab p) →
      (∀ e ∈ s.dtab, ¬ c ++ [r] <+: e.1) → EndsFailed (exec .decsym s) s 0x01#8 0x0A#8)

/-- UNPACK of bits that are exactly `C_ORIGLEN` codes writes their symbols to OUT (45 R215). -/
def Obligations.UnpackWrites : Prop :=
  ∀ s (es : List (BitStr × Byte)), TableOk s.dtab → s.cPayload.length = ceil8 s.cBitcount →
    s.cOriglen ≤ s.par.outCap → Memory.wf s.outMem = true → (∀ e ∈ es, e ∈ s.dtab) → es.length = s.cOriglen →
    streamBits s.cPayload 0 s.cBitcount = es.flatMap (·.1) → ∃ t, exec .unpack s = .next t ∧
      t = { s with
        brBuf := s.cPayload, brLimit := s.cBitcount, brPos := s.cBitcount, outMem := t.outMem, draws := s.draws + 1 } ∧
      (∀ j (h : j < es.length), t.outByte j = es[j].2) ∧ (∀ a, es.length ≤ a → t.outByte a = s.outByte a) ∧
      SameInput s t

/-- UNPACK raises LeftoverBits when bits remain after the last symbol, and what DECSYM raises before it
(45 R215, R216, R217). That an UNPACK run by itself takes the same error entry is the model's choice (log 21). -/
def Obligations.UnpackStops : Prop :=
  ∀ s (es : List (BitStr × Byte)) (rest : BitStr), TableOk s.dtab → s.cPayload.length = ceil8 s.cBitcount →
    s.cOriglen ≤ s.par.outCap → (∀ e ∈ es, e ∈ s.dtab) → streamBits s.cPayload 0 s.cBitcount = es.flatMap (·.1) ++ rest →
    (es.length = s.cOriglen → rest ≠ [] → EndsFailed (exec .unpack s) s 0x01#8 0x0B#8) ∧
    (es.length < s.cOriglen → (∀ p, p ≠ [] → p <+: rest → ReadsOn s.dtab p) →
      EndsFailed (exec .unpack s) s 0x02#8 0x02#8) ∧
    (∀ c r rest', es.length < s.cOriglen → rest = c ++ r :: rest' → (∀ p, p ≠ [] → p <+: c → ReadsOn s.dtab p) →
      (∀ e ∈ s.dtab, ¬ c ++ [r] <+: e.1) → EndsFailed (exec .unpack s) s 0x01#8 0x0A#8)

/-! ### What the spec leaves open, and accesses that do not exist -/

/-- An open value does not stop an operation: each of these goes on, with a free value in the one place that is open
and every other effect as the spec has it (logs 14, 16, 17, 20): PACK writes a free code for each symbol without one,
SERIALIZE a free entry for each that the table lacks. No program of the spec meets one. -/
def Obligations.OpenValuesGoOn : Prop :=
  (∀ s, s.pq = [] → ∃ r, r < 511 ∧ exec .tbMerge s = .next { s with root := r, draws := s.draws + 1 }) ∧
    (∀ s, s.brPos < s.brLimit → s.brBuf.length ≤ s.brPos / 8 → ∃ b,
      exec .brRbit s = .next { s with brPos := s.brPos + 1, result := .bit b }) ∧
    (∀ s, s.inLen.toNat ≤ s.par.inCap → ∃ t, exec .pack s = .next t ∧ WriterOk t ∧
      t = { s with bwBuf := t.bwBuf, bwNbits := t.bwNbits, result := .buffer t.bwBuf t.bwNbits, draws := t.draws } ∧
      ∃ codes : Nat → BitStr, (∀ i c, i < s.inLen.toNat → tab s.code (s.inByte i) = some c → codes i = c) ∧
        (∀ i, i < s.inLen.toNat → tab s.code (s.inByte i) = none → 1 ≤ (codes i).length ∧ (codes i).length ≤ 255) ∧
        streamBits t.bwBuf 0 t.bwNbits = (List.range s.inLen.toNat).flatMap codes) ∧
    ∀ s, 19 + 2 * s.cNsym + s.cPayload.length ≤ s.par.outCap → ∃ t, exec .serialize s = .next t ∧
      SameInterfaceFrom (19 + 2 * s.cNsym + s.cPayload.length) s t ∧
      t = { s with
        outMem := t.outMem, result := .length (19 + 2 * s.cNsym + s.cPayload.length), draws := t.draws } ∧
      ∃ table : List (Byte × Byte), table.length = s.cNsym ∧
        (∀ i, i < s.cNsym → i < s.cTab.length → table[i]? = s.cTab[i]?) ∧
        ∀ i (h : i < (containerBytes s.par s.cOriglen table s.cBitcount s.cPayload).length),
          t.outByte i = (containerBytes s.par s.cOriglen table s.cBitcount s.cPayload)[i]

/-- An access that does not exist stops by name: the model's choice (logs 13, 14, 15, 18); no run of a command meets
one (20_memory.md R66). -/
def Obligations.AbsentAccessStops : Prop :=
  (∀ s, s.par.inCap < s.inLen.toNat → exec .fcount s = .fault .inAddress ∧ exec .pack s = .fault .inAddress) ∧
    (∀ s, s.par.outCap < 19 + 2 * s.cNsym + s.cPayload.length → exec .serialize s = .fault .outAddress) ∧
    (∀ s, 1 < s.pq.length → 511 < s.ncount + (s.pq.length - 1) → exec .tbMerge s = .fault .nodeAddress) ∧
    (∀ s, ¬ TreeWithin s.nodeAt s.root 255 → exec .walk s = .fault .treeDepth) ∧
    (∀ s b c, (s.bwBuf.length < s.bwNbits / 8 ∨ (s.bwBuf.length = s.bwNbits / 8 ∧ s.bwNbits % 8 ≠ 0)) →
      exec (.bwWbit b) s = .fault .bitBuffer ∧ exec (.bwWcode (b :: c)) s = .fault .bitBuffer) ∧
    (∀ s, TagOk s → s.countField ≤ 256 → (∀ i, i < s.countField → EntryOk s i) →
      s.inLen.toNat = 19 + 2 * s.countField + ceil8 (s.bitField s.countField) → s.par.inCap < s.inLen.toNat →
      exec .deserialize s = .fault .inAddress) ∧
    ∀ s (es : List (BitStr × Byte)) (rest : BitStr), TableOk s.dtab → s.cPayload.length = ceil8 s.cBitcount →
      (∀ e ∈ es, e ∈ s.dtab) → streamBits s.cPayload 0 s.cBitcount = es.flatMap (·.1) ++ rest →
      es.length = s.par.outCap + 1 → s.par.outCap < s.cOriglen → exec .unpack s = .fault .outAddress

/-! ### Rules of the whole machine -/

/-- Which unit operation reaches which host-visible space, and which working state an operation that can raise may
write: SERIALIZE writes OUT below the artifact's length, UNPACK, when it completes, below `C_ORIGLEN`
(20_memory.md R51; 60 R247, R250). That one run by itself takes the same error entry is the model's choice (log 21). -/
def Obligations.UnitFrame : Prop :=
  (∀ i s t, i ∉ [Instr.encode, .decode, .canon, .serialize, .deserialize, .decsym, .unpack] → exec i s = .next t →
    SameInterface s t) ∧
    (∀ s t, exec .canon s = .next t → (SameInterface s t ∨ Failed t 0x01#8 0x09#8) ∧
      t = { s with
        code := t.code, status := t.status, errcode := t.errcode, errinfo := t.errinfo, outLen := t.outLen
        phase := t.phase, outMem := t.outMem, outEpoch := t.outEpoch }) ∧
    (∀ s t, exec .deserialize s = .next t → (SameInterface s t ∨ ∃ c i, Failed t c i) ∧
      t = { s with
        cOriglen := t.cOriglen, cNsym := t.cNsym, cTab := t.cTab, cBitcount := t.cBitcount, cPayload := t.cPayload
        nsym := t.nsym, len := t.len, status := t.status, errcode := t.errcode, errinfo := t.errinfo
        outLen := t.outLen, phase := t.phase, outMem := t.outMem, outEpoch := t.outEpoch }) ∧
    (∀ s t, exec .decsym s = .next t → (SameInterface s t ∨ ∃ c i, Failed t c i) ∧
      t = { s with
        brPos := t.brPos, result := t.result, status := t.status, errcode := t.errcode, errinfo := t.errinfo
        outLen := t.outLen, phase := t.phase, outMem := t.outMem, outEpoch := t.outEpoch }) ∧
    (∀ s t, exec .serialize s = .next t → SameInterfaceFrom (19 + 2 * s.cNsym + s.cPayload.length) s t ∧
      t = { s with outMem := t.outMem, result := t.result, draws := t.draws }) ∧
    ∀ s t, exec .unpack s = .next t → (SameInterfaceFrom s.cOriglen s t ∨ ∃ c i, Failed t c i) ∧
      t = { s with
        brBuf := s.cPayload, brLimit := s.cBitcount, brPos := t.brPos, draws := s.draws + 1, status := t.status
        errcode := t.errcode, errinfo := t.errinfo, outLen := t.outLen, phase := t.phase, outMem := t.outMem
        outEpoch := t.outEpoch }

/-- No instruction changes the host's inputs or the parameters: IN, `IN_LEN`, `CMD` (10_state.md R25, R26, R39). -/
def Obligations.InputFrame : Prop := ∀ i s t, exec i s = .next t → SameInput s t

/-! ### The two commands -/

/-- ENCODE as a function (45 R200): the artifact of the input under the canonical code of the leaf depths of the merge
tree, or the refusal SizeLimit. -/
def Obligations.EncodeFunction : Prop :=
  ∀ s, s.status.busy = false →
    (s.par.lmax.val < s.inLen.toNat → EndsFailed (exec .encode s) s 0x11#8 0x01#8) ∧
    (s.inLen.toNat ≤ s.par.lmax.val → ∃ t len, exec .encode s = .next t ∧ Succeeded t ∧ SameInput s t ∧
      HoldsOutput t (artifactBytes s.par s.inLen.toNat (lengthTable len) (encodedBits len s.input)) ∧
      (s.input = [] → ∀ b, len b = 0) ∧
      (s.input ≠ [] → ∃ u, execAll [.fcount, .tbInit, .tbMerge, .tbFix1, .walk] s = .next u ∧ len = tab u.len) ∧
      (∀ b, 0 < len b ↔ b ∈ s.input) ∧ (∀ b, len b ≤ 255) ∧
      (encodedBits len s.input).length = (s.input.map len).sum)

/-- The size laws (45 R232 (a), (b), (d), (e), which the spec does not prove): the bit count of one symbol is the input's length, of more it is at
most 8 bits a byte; it fits its field, and the artifact fits OUT. -/
def Obligations.EncodeSize : Prop :=
  ∀ s, s.status.busy = false → s.inLen.toNat ≤ s.par.lmax.val → ∃ t n, exec .encode s = .next t ∧
    n = s.input.dedup.length ∧ t.outLen.toNat = 19 + 2 * n + ceil8 t.cBitcount ∧ t.cNsym = n ∧ 2 * n ≤ 512 ∧
    (n = 1 → t.cBitcount = s.inLen.toNat) ∧ (2 ≤ n → t.cBitcount ≤ 8 * s.inLen.toNat) ∧ t.cBitcount < 2 ^ 32 ∧
    t.outLen.toNat ≤ 19 + 512 + s.inLen.toNat ∧ t.outLen.toNat ≤ s.par.outCap

/-- The refusal SizeLimit and its three sub-causes (60 R246). -/
def Obligations.SizeLimits : Prop :=
  ∀ s, s.status.busy = false →
    (s.par.lmax.val < s.inLen.toNat → EndsFailed (exec .encode s) s 0x11#8 0x01#8) ∧
    (s.par.inCap < s.inLen.toNat → EndsFailed (exec .decode s) s 0x11#8 0x02#8) ∧
    (∀ u, s.inLen.toNat ≤ s.par.inCap → exec .deserialize (unitStart 0x0C#8 s) = .next u → u.phase ≠ phaseIdle →
      0 < u.nsym → s.par.lmax.val < u.cOriglen → EndsFailed (exec .decode s) s 0x11#8 0x03#8)

/-- DECODE of an artifact whose bits are the codes of `bs` ends with `bs`, the empty artifact with no byte
(45 R210, R212). -/
def Obligations.DecodeSucceeds : Prop :=
  ∀ s (bs payload : List Byte) (table : List (Byte × Byte)) (bitcount : Nat), s.status.busy = false →
    HoldsInput s (containerBytes s.par bs.length table bitcount payload) → bs.length ≤ s.par.lmax.val →
    19 + 2 * table.length + payload.length ≤ s.par.inCap → bitcount < 2 ^ 32 → payload.length = ceil8 bitcount →
    TableWf table → (table = [] ↔ bs = []) → (table = [] → bitcount = 0) → kraftSum (tableLen table) ≤ 1 →
    (∀ b ∈ bs, 0 < tableLen table b) → streamBits payload 0 bitcount = encodedBits (tableLen table) bs →
    ∃ t, exec .decode s = .next t ∧ Succeeded t ∧ HoldsOutput t bs ∧ SameInput s t

/-- What a successful DECODE has established about its artifact (45 R218, which the spec derives; 44 R188). -/
def Obligations.DecodeSound : Prop :=
  ∀ s t, s.status.busy = false → exec .decode s = .next t → Succeeded t →
    ∃ (bs payload : List Byte) (table : List (Byte × Byte)) (bitcount : Nat),
      HoldsInput s (containerBytes s.par bs.length table bitcount payload) ∧ payload.length = ceil8 bitcount ∧
      TableWf table ∧ (table = [] ↔ bs = []) ∧ kraftSum (tableLen table) ≤ 1 ∧ (∀ b ∈ bs, 0 < tableLen table b) ∧
      streamBits payload 0 bitcount = encodedBits (tableLen table) bs ∧ HoldsOutput t bs

/-- DECODE ends with the error of the first check that fails: DESERIALIZE's, then OverSubscribed, then UNPACK's
(45 R210, R211; 60 R248). -/
def Obligations.DecodeErrors : Prop :=
  ∀ s, s.status.busy = false → s.inLen.toNat ≤ s.par.inCap →
    (∀ c i, EndsFailed (exec .deserialize (unitStart 0x0C#8 s)) (unitStart 0x0C#8 s) c i →
      EndsFailed (exec .decode s) s c i) ∧
    ∀ u, exec .deserialize (unitStart 0x0C#8 s) = .next u → u.phase ≠ phaseIdle → 0 < u.nsym →
      u.cOriglen ≤ s.par.lmax.val →
      (1 < kraftSum (tab u.len) → EndsFailed (exec .decode s) s 0x01#8 0x09#8) ∧
      ∀ v c i, kraftSum (tab u.len) ≤ 1 → execAll [.canon, .dtBuild] u = .next v →
        EndsFailed (exec .unpack v) v c i → EndsFailed (exec .decode s) s c i

/-- The round trip (45 R231). -/
def Obligations.RoundTrip : Prop :=
  ∀ s, s.status.busy = false → s.inLen.toNat ≤ s.par.lmax.val → ∃ t, exec .encode s = .next t ∧
    ∀ u, u.par = s.par → u.status.busy = false → u.inLen = t.outLen →
      (∀ i, i < t.outLen.toNat → u.inByte i = t.outByte i) →
      ∃ v, exec .decode u = .next v ∧ Succeeded v ∧ HoldsOutput v s.input

/-- The corruption law (45 R233; 44 R185): the artifact of an input that is not empty, cut by its last byte, is
TruncatedInput. -/
def Obligations.TruncationCaught : Prop :=
  ∀ s, s.status.busy = false → s.inLen.toNat ≤ s.par.lmax.val → s.inLen ≠ 0 → ∃ t, exec .encode s = .next t ∧
    ∀ u, u.par = s.par → u.status.busy = false → u.inLen.toNat + 1 = t.outLen.toNat →
      (∀ i, i < u.inLen.toNat → u.inByte i = t.outByte i) → EndsFailed (exec .decode u) u 0x02#8 0x01#8

/-- The two levels define the same function (00_scope.md R17): the unit operations, one a step, reach the state the
command reaches in one. -/
def Obligations.LevelsAgree : Prop :=
  ∀ s, s.status.busy = false →
    (s.cmd = 0x01#8 → s.inLen.toNat ≤ s.par.lmax.val → ∃ k t, k ≤ 8 ∧ exec .encode s = .next t ∧
      steps k (unitStart 0x01#8 s) = .next t) ∧
    (s.cmd = 0x02#8 → s.inLen.toNat ≤ s.par.inCap → ∃ k t, k ≤ 4 ∧ exec .decode s = .next t ∧
      steps k (unitStart 0x0C#8 s) = .next t)

/-- Every command ends, with `BUSY = 0`, `DONE = 1`, and `FAIL = 1` exactly when `ERRCODE` is not 0; ENCODE has no
error (45 R202, R236; 10_state.md R23; 60 R240, R241). -/
def Obligations.CommandsEnd : Prop :=
  ∀ s, s.status.busy = false →
    (∃ t, exec .encode s = .next t ∧ t.status.busy = false ∧ t.status.done = true ∧ t.phase = phaseIdle ∧
      (t.status.fail = true ↔ t.errcode ≠ 0x00#8) ∧ t.errcode ∈ [0x00#8, 0x11#8]) ∧
    ∃ t, exec .decode s = .next t ∧ t.status.busy = false ∧ t.status.done = true ∧ t.phase = phaseIdle ∧
      (t.status.fail = true ↔ t.errcode ≠ 0x00#8) ∧ t.errcode ∈ [0x00#8, 0x01#8, 0x02#8, 0x03#8, 0x11#8]

/-- What holds of the machine between commands, every step keeps (10_state.md R22, R23, R25, R26, R27, R36, R37). -/
def Obligations.StepKeepsInv : Prop := ∀ s t : State, Inv s → step s = .next t → Inv t

/-- Determinism (45 R234, which the spec derives; 10_state.md R40): the results of a command depend on the input and the parameters alone, on
no working state, register or earlier result. -/
def Obligations.Determinism : Prop :=
  ∀ s s', s.status.busy = false → s'.status.busy = false → s'.par = s.par → s'.inLen = s.inLen →
    (∀ i, i < s.inLen.toNat → s'.inByte i = s.inByte i) → ∀ i ∈ [Instr.encode, .decode], ∃ t t',
      exec i s = .next t ∧ exec i s' = .next t' ∧ t'.status = t.status ∧ t'.errcode = t.errcode ∧
        t'.errinfo = t.errinfo ∧ t'.outLen = t.outLen ∧ t'.phase = t.phase ∧
        ∀ a, a < t.outLen.toNat → t'.outByte a = t.outByte a

/-! ### Host reads of the buffers -/

/-- Host reads of the buffers: a byte of IN reads as IN holds it (10_state.md R26), and while `BUSY = 0` a byte of OUT as
OUT holds it (R27): after a command that succeeded, the result. What a read of OUT yields while `BUSY = 1` the spec
leaves open (70 R276); that it goes on, with a free value, is the model's choice (log 29). That a read at or above the
capacity faults is the model's choice (log 13). -/
def Obligations.HostBufferRead : Prop :=
  (∀ (s : State) (a : Nat), (a < s.par.inCap → s.hostReadIn a = .next (s.inByte a)) ∧
    (s.par.inCap ≤ a → s.hostReadIn a = .fault .inAddress) ∧
    (a < s.par.outCap → (s.status.busy = false → s.hostReadOut a = .next (s.outByte a)) ∧
      ∃ v, s.hostReadOut a = .next v) ∧
    (s.par.outCap ≤ a → s.hostReadOut a = .fault .outAddress)) ∧
    ∀ (s : State) (bs : List Byte), s.status.busy = false → HoldsOutput s bs → bs.length ≤ s.par.outCap →
      ∀ a (h : a < bs.length), s.hostReadOut a = .next bs[a]
end

