-- ==== Sys2Proof/Laws/Words.lean ====
section
/-! SUPPORT. The laws of bytes, tables, big-endian integers and bit-strings. -/

namespace Sys2Proof

theorem mem_allBytes (b : Byte) : b ∈ allBytes :=
  List.mem_map.2 ⟨b.toNat, List.mem_range.2 b.isLt, BitVec.eq_of_toNat_eq (by simp)⟩

theorem allBytes_toNat : allBytes.map (·.toNat) = List.range 256 := by decide +kernel

/-- The symbols ascend. -/
theorem allBytes_pairwise : allBytes.Pairwise fun a b => a.toNat < b.toNat := by
  have h : (allBytes.map (·.toNat)).Pairwise (· < ·) := by
    rw [allBytes_toNat]; exact List.pairwise_lt_range
  exact List.pairwise_map.1 h

theorem allBytes_nodup : allBytes.Nodup :=
  allBytes_pairwise.imp fun h e => by subst e; omega

theorem allBytes_length : allBytes.length = 256 := by simp [allBytes]

theorem ceil8_le_iff (k n : Nat) : ceil8 k ≤ n ↔ k ≤ 8 * n := by
  unfold ceil8; omega

theorem ceil8_succ (k : Nat) : ceil8 (k + 1) = if k % 8 = 0 then k / 8 + 1 else ceil8 k := by
  unfold ceil8; split <;> omega

namespace Machine

section tab
variable {α : Type}

@[simp] theorem tab_tabSet_self (t : Vector α 256) (s : Byte) (v : α) : tab (tabSet t s v) s = v := by
  simp [tab, tabSet]

theorem tab_tabSet_ne (t : Vector α 256) {s x : Byte} (v : α) (h : x ≠ s) : tab (tabSet t s v) x = tab t x := by
  have : s.toNat ≠ x.toNat := fun e => h (BitVec.eq_of_toNat_eq e.symm)
  simp [tab, tabSet, Vector.getElem_set_ne, this]

theorem tab_tabSet (t : Vector α 256) (s x : Byte) (v : α) :
    tab (tabSet t s v) x = if x = s then v else tab t x := by
  split
  · subst_vars; simp
  · exact tab_tabSet_ne _ _ ‹_›

@[simp] theorem tab_replicate (v : α) (s : Byte) : tab (Vector.replicate 256 v) s = v := by
  simp [tab]

theorem tab_ext {t u : Vector α 256} (h : ∀ s, tab t s = tab u s) : t = u := by
  apply Vector.ext
  intro i hi
  have := h (BitVec.ofNat 8 i)
  have e : (BitVec.ofNat 8 i).toNat = i := by simpa using Nat.mod_eq_of_lt hi
  simpa only [tab, e] using this

/-- A table filled from a list of entries with distinct symbols holds each entry's value. -/
theorem tab_foldl_of_mem {β : Type} (f : β → α) (l : List (Byte × β)) (t : Vector α 256)
    (hn : (l.map (·.1)).Nodup) {s : Byte} {v : β} (h : (s, v) ∈ l) :
    tab (l.foldl (fun t e => tabSet t e.1 (f e.2)) t) s = f v := by
  induction l generalizing t with
  | nil => cases h
  | cons e l ih =>
    simp only [List.map_cons, List.nodup_cons] at hn
    rcases List.mem_cons.1 h with rfl | h
    · clear ih h
      simp only [List.foldl_cons]
      have key : ∀ (l : List (Byte × β)) (t : Vector α 256), s ∉ l.map (·.1) →
          tab (l.foldl (fun t e => tabSet t e.1 (f e.2)) t) s = tab t s := by
        intro l
        induction l with
        | nil => intros; rfl
        | cons e l ih =>
          intro t hs
          simp only [List.map_cons, List.mem_cons, not_or] at hs
          rw [List.foldl_cons, ih _ hs.2, tab_tabSet_ne _ _ hs.1]
      rw [key _ _ hn.1]
      simp
    · exact ih _ hn.2 h

theorem tab_foldl_of_not_mem {β : Type} (f : β → α) (l : List (Byte × β)) (t : Vector α 256) {s : Byte}
    (h : s ∉ l.map (·.1)) : tab (l.foldl (fun t e => tabSet t e.1 (f e.2)) t) s = tab t s := by
  induction l generalizing t with
  | nil => rfl
  | cons e l ih =>
    simp only [List.map_cons, List.mem_cons, not_or] at h
    rw [List.foldl_cons, ih _ h.2, tab_tabSet_ne _ _ h.1]

end tab

section bytes

theorem beNat_append (a b : List Byte) : beNat (a ++ b) = beNat a * 256 ^ b.length + beNat b := by
  unfold beNat
  rw [List.foldl_append]
  generalize List.foldl (fun acc (b : Byte) => acc * 256 + b.toNat) 0 a = x
  induction b using List.reverseRecOn with
  | nil => simp
  | append_singleton l c ih =>
    simp only [List.foldl_append, List.foldl_cons, List.foldl_nil, List.length_append, List.length_singleton] at ih ⊢
    rw [ih]; ring

theorem beBytes_length (n v : Nat) : (beBytes n v).length = n := by simp [beBytes]

theorem beBytes_succ (n v : Nat) : beBytes (n + 1) v = beBytes n (v / 256) ++ [BitVec.ofNat 8 v] := by
  unfold beBytes
  rw [List.range_succ, List.map_append]
  congr 1
  · apply List.map_congr_left
    intro i hi
    have hi := List.mem_range.1 hi
    congr 1
    rw [Nat.div_div_eq_div_mul, ← pow_succ']
    congr 2
    omega
  · simp

/-- `MemRead` gives back what `MemWrite` wrote, up to the width written (44_container.md R189). -/
theorem beNat_beBytes (n v : Nat) : beNat (beBytes n v) = v % 256 ^ n := by
  induction n generalizing v with
  | zero => simp [beBytes, beNat, Nat.mod_one]
  | succ n ih =>
    rw [beBytes_succ, beNat_append, ih]
    simp only [beNat, List.foldl_cons, List.foldl_nil, List.length_singleton, BitVec.toNat_ofNat]
    rw [show 256 ^ (n + 1) = 256 * 256 ^ n by ring, Nat.mod_mul]
    omega

theorem beNat_lt (bs : List Byte) : beNat bs < 256 ^ bs.length := by
  induction bs using List.reverseRecOn with
  | nil => simp [beNat]
  | append_singleton l c ih =>
    rw [beNat_append]
    have := c.isLt
    simp only [beNat, List.foldl_cons, List.foldl_nil, List.length_append, List.length_singleton, pow_succ] at ih ⊢
    omega

end bytes

section bits

@[simp] theorem bitsOf_length (v k : Nat) : (bitsOf v k).length = k := by simp [bitsOf]

theorem bitsOf_succ (v k : Nat) : bitsOf v (k + 1) = bitsOf (v / 2) k ++ [v.testBit 0] := by
  unfold bitsOf
  rw [List.range_succ, List.map_append]
  congr 1
  · apply List.map_congr_left
    intro i hi
    have hi := List.mem_range.1 hi
    rw [show k + 1 - 1 - i = (k - 1 - i) + 1 by omega, Nat.testBit_succ]
  · simp

theorem bitsVal_append_one (c : BitStr) (b : Bool) : bitsVal (c ++ [b]) = 2 * bitsVal c + b.toNat := by
  simp [bitsVal]

/-- `val(bits(v, k)) = v` (00_scope.md R12), for `v < 2^k`. -/
theorem bitsVal_bitsOf (v k : Nat) : bitsVal (bitsOf v k) = v % 2 ^ k := by
  induction k generalizing v with
  | zero => simp [bitsOf, bitsVal, Nat.mod_one]
  | succ k ih =>
    rw [bitsOf_succ, bitsVal_append_one, ih, show 2 ^ (k + 1) = 2 * 2 ^ k by ring, Nat.mod_mul]
    have : (v.testBit 0).toNat = v % 2 := by
      rcases Nat.mod_two_eq_zero_or_one v with h | h <;> simp [Nat.testBit_zero, h]
    omega

theorem bitsOf_take (v k j : Nat) (h : j ≤ k) : (bitsOf v k).take j = bitsOf (v / 2 ^ (k - j)) j := by
  unfold bitsOf
  rw [← List.map_take, List.take_range, Nat.min_eq_left h]
  apply List.map_congr_left
  intro i hi
  have hi := List.mem_range.1 hi
  rw [Nat.testBit_div_two_pow]
  congr 1
  omega

theorem bitsOf_inj {v w k : Nat} (hv : v < 2 ^ k) (hw : w < 2 ^ k) (h : bitsOf v k = bitsOf w k) : v = w := by
  have := congrArg bitsVal h
  rwa [bitsVal_bitsOf, bitsVal_bitsOf, Nat.mod_eq_of_lt hv, Nat.mod_eq_of_lt hw] at this

/-- When one code is a prefix of another, its value is the other's, cut to its length. -/
theorem bitsOf_prefix {v w j k : Nat} (hv : v < 2 ^ j) (hw : w < 2 ^ k) (h : bitsOf v j <+: bitsOf w k) :
    j ≤ k ∧ v = w / 2 ^ (k - j) := by
  have hl : j ≤ k := by simpa using h.length_le
  refine ⟨hl, ?_⟩
  have h1 := List.prefix_iff_eq_take.1 h
  rw [bitsOf_length, bitsOf_take _ _ _ hl] at h1
  apply bitsOf_inj hv _ h1
  rw [Nat.div_lt_iff_lt_mul (by positivity), ← pow_add]
  rwa [show j + (k - j) = k by omega]

end bits

end Machine

end Sys2Proof
end

