-- ==== Sys2Proof/Laws/BitIO.lean ====
section
/-! SUPPORT. The laws of the BitWriter and the BitReader (43_bit_io.md): what a push does to the stream, and that the
reader reads back what was written. -/

namespace Sys2Proof.Machine

/-- The writer's invariants on a buffer and a count (43_bit_io.md R154). -/
def Packed (w : List Byte × Nat) : Prop :=
  w.1.length = ceil8 w.2 ∧ ∀ k, w.2 ≤ k → k < 8 * w.1.length → streamBit w.1 k = some false

theorem writerOk_iff (s : State) : WriterOk s ↔ Packed s.writer := Iff.rfl

theorem packed_empty : Packed ([], 0) := by simp [Packed, ceil8]

/-- Adding a bit into a byte whose bit is 0 sets that bit and no other. -/
theorem add_bit (x : Byte) (m i : Nat) (b : Bool) (hm : m < 8) (h : x.getLsbD m = false) :
    (x + BitVec.ofNat 8 (b.toNat * 2 ^ m)).getLsbD i = if i = m then b else x.getLsbD i := by
  cases b with
  | false => by_cases e : i = m <;> simp [e, h]
  | true =>
    have e2 : BitVec.ofNat 8 (true.toNat * 2 ^ m) = BitVec.twoPow 8 m := by
      apply BitVec.eq_of_toNat_eq
      simp [BitVec.toNat_twoPow]
    have h0 : x &&& BitVec.twoPow 8 m = 0#8 := by
      apply BitVec.eq_of_getLsbD_eq
      intro j hj
      by_cases e : m = j
      · subst e; simp [h]
      · simp [BitVec.getLsbD_twoPow, e]
    rw [e2, BitVec.add_eq_or_of_and_eq_zero _ _ h0, BitVec.getLsbD_or, BitVec.getLsbD_twoPow]
    by_cases e : i = m
    · subst e; simp [hm]
    · simp [e, Ne.symm e]

theorem streamBit_eq (buf : List Byte) (k : Nat) :
    streamBit buf k = buf[k / 8]?.map fun b => b.getLsbD (7 - k % 8) := rfl

theorem streamBit_append_zero (buf : List Byte) (k : Nat) :
    streamBit (buf ++ [0x00#8]) k =
      if k / 8 < buf.length then streamBit buf k else if k / 8 = buf.length then some false else none := by
  simp only [streamBit_eq]
  split
  · rw [List.getElem?_append_left ‹_›]
  · split
    · rw [‹k / 8 = _›]
      simp
    · rw [List.getElem?_eq_none]
      · rfl
      · simp; omega

/-- A bit of the buffer that a push modifies: the new bit at its place, every other as before. -/
theorem streamBit_modify (buf : List Byte) (n k : Nat) (b : Bool) (h0 : streamBit buf n = some false) :
    streamBit (buf.modify (n / 8) fun x => x + BitVec.ofNat 8 (b.toNat * 2 ^ (7 - n % 8))) k =
      if k = n then some b else streamBit buf k := by
  simp only [streamBit_eq] at h0 ⊢
  rw [List.getElem?_modify]
  by_cases e : n / 8 = k / 8
  · cases hx : buf[n / 8]? with
    | none => rw [hx] at h0; cases h0
    | some x =>
      rw [hx] at h0
      rw [← e, hx]
      simp only [Option.map_some, Option.some.injEq, ite_true, Option.map_eq_map] at h0 ⊢
      rw [add_bit x _ _ b (by omega) h0]
      by_cases e2 : k = n
      · subst e2; simp
      · have : 7 - k % 8 ≠ 7 - n % 8 := by omega
        simp [e2, this]
  · have : k ≠ n := by rintro rfl; exact e rfl
    simp [e, this]

/-- One push (43_bit_io.md R151): the count is one more, the new bit is at the old count, the bits before it are as
they were, and the invariants hold again. -/
theorem pushBit_spec {w : List Byte × Nat} (h : Packed w) (b : Bool) :
    Packed (pushBit w b) ∧ (pushBit w b).2 = w.2 + 1 ∧ streamBit (pushBit w b).1 w.2 = some b ∧
      ∀ k, k < w.2 → streamBit (pushBit w b).1 k = streamBit w.1 k := by
  obtain ⟨buf, n⟩ := w
  obtain ⟨hl, hz⟩ := h
  simp only at hl hz
  have hopen : ∃ buf', (if n % 8 = 0 then buf ++ [0x00#8] else buf) = buf' ∧ buf'.length = ceil8 (n + 1) ∧
      (∀ k, k < n → streamBit buf' k = streamBit buf k) ∧
      (∀ k, n ≤ k → k < 8 * buf'.length → streamBit buf' k = some false) := by
    refine ⟨_, rfl, ?_⟩
    split
    · have hl8 : buf.length = n / 8 := by rw [hl]; unfold ceil8; omega
      refine ⟨by simp [hl8]; unfold ceil8; omega, ?_, ?_⟩
      · intro k hk
        rw [streamBit_append_zero, if_pos (by omega)]
      · intro k hk hk2
        simp only [List.length_append, List.length_singleton] at hk2
        rw [streamBit_append_zero, if_neg (by omega), if_pos (by omega)]
    · refine ⟨by rw [hl]; unfold ceil8; omega, fun _ _ => rfl, hz⟩
  obtain ⟨buf', hb, hl', hold, hzero⟩ := hopen
  have hlt : n < 8 * buf'.length := by rw [hl']; unfold ceil8; omega
  have hpush : pushBit (buf, n) b =
      (buf'.modify (n / 8) fun x => x + BitVec.ofNat 8 (b.toNat * 2 ^ (7 - n % 8)), n + 1) := by
    simp only [pushBit, hb]
  rw [hpush]
  have hmod := fun k => streamBit_modify buf' n k b (hzero n (le_refl n) hlt)
  refine ⟨⟨by simp [hl'], ?_⟩, rfl, by simpa using hmod n, ?_⟩
  · intro k hk hk2
    simp only [List.length_modify] at hk hk2 ⊢
    rw [hmod k, if_neg (by omega)]
    exact hzero k (by omega) hk2
  · intro k hk
    simp only at hk ⊢
    rw [hmod k, if_neg (by omega), hold k hk]

/-- The bits a writer holds. -/
theorem pushBits_spec {w : List Byte × Nat} (h : Packed w) (cs : BitStr) :
    Packed (pushBits w cs) ∧ (pushBits w cs).2 = w.2 + cs.length ∧
      (∀ k, k < w.2 → streamBit (pushBits w cs).1 k = streamBit w.1 k) ∧
      ∀ j (hj : j < cs.length), streamBit (pushBits w cs).1 (w.2 + j) = some cs[j] := by
  induction cs generalizing w with
  | nil => exact ⟨h, rfl, fun _ _ => rfl, fun j hj => absurd hj (Nat.not_lt_zero j)⟩
  | cons b cs ih =>
    obtain ⟨hp, hn, hb, hold⟩ := pushBit_spec h b
    obtain ⟨ip, in', iold, inew⟩ := ih hp
    have e : pushBits w (b :: cs) = pushBits (pushBit w b) cs := rfl
    rw [e]
    refine ⟨ip, by rw [in', hn, List.length_cons]; omega, ?_, ?_⟩
    · intro k hk
      rw [iold k (by omega), hold k hk]
    · intro j hj
      cases j with
      | zero => rw [Nat.add_zero, iold w.2 (by omega), hb]; rfl
      | succ j =>
        have := inew j (by simpa using hj)
        rw [hn] at this
        rw [show w.2 + (j + 1) = w.2 + 1 + j by omega, this]
        rfl

theorem pushBits_append (w : List Byte × Nat) (a b : BitStr) : pushBits w (a ++ b) = pushBits (pushBits w a) b :=
  List.foldl_append ..

theorem foldl_pushBits {α : Type} (l : List α) (f : α → BitStr) (w : List Byte × Nat) :
    l.foldl (fun w i => pushBits w (f i)) w = pushBits w (l.flatMap f) := by
  induction l generalizing w with
  | nil => rfl
  | cons a l ih => rw [List.foldl_cons, ih, List.flatMap_cons, pushBits_append]

/-- The buffer of the bits of a bit-string: `ceil8` bytes, the bits in order, zero padding. -/
theorem packed_pushBits (cs : BitStr) :
    Packed (pushBits ([], 0) cs) ∧ (pushBits ([], 0) cs).2 = cs.length ∧
      ∀ j (hj : j < cs.length), streamBit (pushBits ([], 0) cs).1 j = some cs[j] := by
  obtain ⟨h1, h2, -, h4⟩ := pushBits_spec packed_empty cs
  refine ⟨h1, by simpa using h2, fun j hj => ?_⟩
  have := h4 j hj
  simpa using this

theorem streamBits_succ (buf : List Byte) (k n : Nat) :
    streamBits buf k (n + 1) = (streamBit buf k).getD false :: streamBits buf (k + 1) n := by
  unfold streamBits
  rw [List.range_succ_eq_map, List.map_cons, List.map_map]
  congr 1
  apply List.map_congr_left
  intro i _
  simp only [Function.comp, Nat.succ_eq_add_one]
  congr 2
  omega

@[simp] theorem streamBits_length (buf : List Byte) (k n : Nat) : (streamBits buf k n).length = n := by
  simp [streamBits]

/-- Reading back what was written. -/
theorem streamBits_pushBits (cs : BitStr) : streamBits (pushBits ([], 0) cs).1 0 cs.length = cs := by
  apply List.ext_getElem
  · simp
  · intro j h1 h2
    have := (packed_pushBits cs).2.2 j h2
    simp [streamBits, this]

theorem streamBit_isSome {buf : List Byte} {k : Nat} (h : k < 8 * buf.length) : (streamBit buf k).isSome := by
  rw [streamBit_eq, Option.isSome_map]
  simp
  omega

section reader
variable {s : State}

/-- BR_RBIT's bit is the first of the bits not read (43_bit_io.md R162). -/
theorem nextBit_eq (h : ReaderOk s) : s.nextBit = s.unread.head? := by
  obtain ⟨h1, h2⟩ := h
  unfold State.nextBit State.unread
  split
  · rename_i hle
    rw [Nat.sub_eq_zero_of_le hle]
    rfl
  · obtain ⟨d, hd⟩ : ∃ d, s.brLimit - s.brPos = d + 1 := ⟨s.brLimit - s.brPos - 1, by omega⟩
    rw [hd, streamBits_succ, List.head?_cons]
    have hlt : s.brPos < 8 * s.brBuf.length := by
      rw [h2]; unfold ceil8; omega
    obtain ⟨b, hb⟩ := Option.isSome_iff_exists.1 (streamBit_isSome hlt)
    rw [hb]
    rfl

theorem unread_advance (h : s.brPos < s.brLimit) : (advanceReader s).unread = s.unread.tail := by
  unfold State.unread advanceReader
  obtain ⟨d, hd⟩ : ∃ d, s.brLimit - s.brPos = d + 1 := ⟨s.brLimit - s.brPos - 1, by omega⟩
  rw [hd, streamBits_succ]
  simp only [List.tail_cons]
  congr 1
  omega

theorem readerOk_advance (h : ReaderOk s) (hlt : s.brPos < s.brLimit) : ReaderOk (advanceReader s) :=
  ⟨by simp only [advanceReader]; omega, h.2⟩

theorem unread_length (s : State) : s.unread.length = s.brLimit - s.brPos := by simp [State.unread]

end reader

end Sys2Proof.Machine
end

