-- ==== Sys2Proof/Laws/Canon.lean ====
section
/-! SUPPORT. The laws of the canonical code (42_code_assigner.md): the values CANON assigns, when it raises, and that
the code is prefix-free. -/

namespace Sys2Proof.Machine

/-- The symbols of `pre`, each counted in units of a code of length `k`. -/
def units (len : Byte → Nat) (k : Nat) (pre : List Byte) : Nat := (pre.map fun a => 2 ^ (k - len a)).sum

/-- The codes of `rest` in order, `pre` standing before them. -/
def codesFrom (len : Byte → Nat) : List Byte → List Byte → List (Byte × BitStr)
  | _, [] => []
  | pre, b :: rest => (b, bitsOf (units len (len b) pre) (len b)) :: codesFrom len (pre ++ [b]) rest

variable {len : Byte → Nat}

theorem units_append (k : Nat) (a b : List Byte) : units len k (a ++ b) = units len k a + units len k b := by
  simp [units]

theorem units_shift {p k : Nat} {pre : List Byte} (h : ∀ a ∈ pre, len a ≤ p) (hk : p ≤ k) :
    units len p pre * 2 ^ (k - p) = units len k pre := by
  induction pre with
  | nil => simp [units]
  | cons a pre ih =>
    have ha := h a (List.mem_cons_self ..)
    have := ih fun x hx => h x (List.mem_cons_of_mem _ hx)
    simp only [units, List.map_cons, List.sum_cons, Nat.add_mul] at this ⊢
    rw [this, ← pow_add]
    congr 2
    omega

/-- CANON's loop, after at least one symbol: it ends well when every symbol's value fits its length, and then the
codes are the values. -/
theorem canonLoop_some (rest pre : List Byte) (c p : Nat) (hp : ∀ a ∈ pre, len a ≤ p)
    (hr : ∀ b ∈ rest, p ≤ len b) (hs : rest.Pairwise fun a b => len a ≤ len b) (hc : c + 1 = units len p pre) :
    ((canonLoop len rest c (some p)).2 = true ↔
      ∀ l₁ b l₂, rest = l₁ ++ b :: l₂ → units len (len b) (pre ++ l₁) < 2 ^ len b) ∧
    ((canonLoop len rest c (some p)).2 = true → (canonLoop len rest c (some p)).1 = codesFrom len pre rest) := by
  induction rest generalizing pre c p with
  | nil => simp [canonLoop, codesFrom]
  | cons b rest ih =>
    rw [List.pairwise_cons] at hs
    have hpb : p ≤ len b := hr b (List.mem_cons_self ..)
    have hv : nextCode c (some p) (len b) = units len (len b) pre := by
      rw [nextCode, hc, units_shift hp hpb]
    simp only [canonLoop, hv]
    by_cases hlt : 2 ^ len b ≤ units len (len b) pre
    · simp only [hlt, ite_true, Bool.false_eq_true, false_iff, false_implies, and_true]
      intro hall
      have := hall [] b rest rfl
      rw [List.append_nil] at this
      omega
    · simp only [hlt, ite_false, codesFrom]
      have key := ih (pre ++ [b]) (units len (len b) pre) (len b)
        (by
          intro a ha
          rcases List.mem_append.1 ha with ha | ha
          · exact le_trans (hp a ha) hpb
          · rw [List.mem_singleton.1 ha])
        (fun x hx => hs.1 x hx) hs.2 (by rw [units_append]; simp [units])
      refine ⟨?_, fun h => by rw [key.2 h]⟩
      rw [key.1]
      constructor
      · intro h l₁ x l₂ e
        cases l₁ with
        | nil =>
          simp only [List.nil_append, List.cons.injEq] at e
          obtain ⟨rfl, -⟩ := e
          simpa using Nat.lt_of_not_le hlt
        | cons y l₁ =>
          simp only [List.cons_append, List.cons.injEq] at e
          obtain ⟨rfl, e⟩ := e
          have := h l₁ x l₂ e
          simpa using this
      · intro h l₁ x l₂ e
        have := h (b :: l₁) x l₂ (by rw [e]; rfl)
        simpa using this

/-- CANON's loop from its start. -/
theorem canonLoop_none (rest : List Byte) (hs : rest.Pairwise fun a b => len a ≤ len b) :
    ((canonLoop len rest 0 none).2 = true ↔
      ∀ l₁ b l₂, rest = l₁ ++ b :: l₂ → units len (len b) l₁ < 2 ^ len b) ∧
    ((canonLoop len rest 0 none).2 = true → (canonLoop len rest 0 none).1 = codesFrom len [] rest) := by
  cases rest with
  | nil => simp [canonLoop, codesFrom]
  | cons b rest =>
    rw [List.pairwise_cons] at hs
    have key := canonLoop_some (len := len) rest [b] 0 (len b) (by simp) (fun x hx => hs.1 x hx) hs.2 (by simp [units])
    have h0 : ¬ 2 ^ len b ≤ 0 := by
      have := Nat.two_pow_pos (len b)
      omega
    have e : canonLoop len (b :: rest) 0 none =
        ((b, bitsOf 0 (len b)) :: (canonLoop len rest 0 (some (len b))).1, (canonLoop len rest 0 (some (len b))).2) := by
      simp only [canonLoop, nextCode, h0, ite_false]
    rw [e]
    refine ⟨?_, fun h => by simp only [codesFrom]; rw [key.2 h]; rfl⟩
    rw [key.1]
    constructor
    · intro h l₁ x l₂ e
      cases l₁ with
      | nil => simp [units]
      | cons y l₁ =>
        simp only [List.cons_append, List.cons.injEq] at e
        obtain ⟨rfl, e⟩ := e
        simpa using h l₁ x l₂ e
    · intro h l₁ x l₂ e
      simpa using h (b :: l₁) x l₂ (by rw [e]; rfl)

theorem codesFrom_map (pre rest : List Byte) (v : Byte → Nat)
    (h : ∀ l₁ b l₂, rest = l₁ ++ b :: l₂ → units len (len b) (pre ++ l₁) = v b) :
    codesFrom len pre rest = rest.map fun b => (b, bitsOf (v b) (len b)) := by
  induction rest generalizing pre with
  | nil => rfl
  | cons b rest ih =>
    have hb := h [] b rest rfl
    rw [List.append_nil] at hb
    rw [codesFrom, hb, ih (pre ++ [b])]
    · rfl
    · intro l₁ x l₂ e
      have := h (b :: l₁) x l₂ (by rw [e]; rfl)
      simpa using this

section order

/-- Before in the canonical order, and not the same symbol. -/
theorem canonBefore_total (a b : Byte) : canonBefore len a b ∨ canonBefore len b a := by
  simp only [canonBefore]; omega

theorem canonBefore_trans {a b c : Byte} (h₁ : canonBefore len a b) (h₂ : canonBefore len b c) :
    canonBefore len a c := by
  simp only [canonBefore] at *; omega

theorem canonBefore_antisymm {a b : Byte} (h₁ : canonBefore len a b) (h₂ : canonBefore len b a) : a = b := by
  apply BitVec.eq_of_toNat_eq
  simp only [canonBefore] at *; omega

theorem canonOrder_perm (len : Byte → Nat) :
    (canonOrder len).Perm (allBytes.filter fun b => decide (0 < len b)) :=
  List.perm_insertionSort _ _

theorem mem_canonOrder {b : Byte} : b ∈ canonOrder len ↔ 0 < len b := by
  rw [(canonOrder_perm len).mem_iff, List.mem_filter]
  simp [mem_allBytes]

theorem canonOrder_nodup (len : Byte → Nat) : (canonOrder len).Nodup :=
  (canonOrder_perm len).nodup_iff.2 (allBytes_nodup.filter _)

theorem canonOrder_pairwise (len : Byte → Nat) : (canonOrder len).Pairwise (canonBefore len) := by
  have : Std.Total (canonBefore len) := ⟨canonBefore_total⟩
  have : IsTrans Byte (canonBefore len) := ⟨fun _ _ _ => canonBefore_trans⟩
  exact List.pairwise_insertionSort _ _

theorem canonOrder_lengths (len : Byte → Nat) : (canonOrder len).Pairwise fun a b => len a ≤ len b :=
  (canonOrder_pairwise len).imp fun h => by simp only [canonBefore] at h; omega

/-- The symbols that stand before `b` in the canonical order. -/
theorem before_perm {l₁ l₂ : List Byte} {b : Byte} (e : canonOrder len = l₁ ++ b :: l₂) :
    l₁.Perm (allBytes.filter fun a => decide (0 < len a ∧ a ≠ b ∧ canonBefore len a b)) := by
  have hn := canonOrder_nodup len
  have hp := canonOrder_pairwise len
  have hm : ∀ a, a ∈ canonOrder len ↔ 0 < len a := fun a => mem_canonOrder
  rw [e] at hn hp hm
  rw [List.pairwise_append] at hp
  rw [List.nodup_append] at hn
  rw [List.perm_ext_iff_of_nodup hn.1 (allBytes_nodup.filter _)]
  intro a
  simp only [List.mem_filter, mem_allBytes, true_and, decide_eq_true_eq]
  constructor
  · intro ha
    refine ⟨(hm a).1 (List.mem_append_left _ ha), hn.2.2 a ha b (List.mem_cons_self ..), ?_⟩
    exact hp.2.2 a ha b (List.mem_cons_self ..)
  · rintro ⟨h0, hne, hb⟩
    rcases List.mem_append.1 ((hm a).2 h0) with ha | ha
    · exact ha
    · rcases List.mem_cons.1 ha with rfl | ha
      · exact absurd rfl hne
      · exact absurd (canonBefore_antisymm hb ((List.pairwise_cons.1 hp.2.1).1 a ha)) hne

/-- The value CANON's running integer has at `b` is the closed form (93_implementation_defined.md G1). -/
theorem units_before {l₁ l₂ : List Byte} {b : Byte} (e : canonOrder len = l₁ ++ b :: l₂) :
    units len (len b) l₁ = canonValue len b :=
  ((before_perm e).map _).sum_eq

end order

section kraft

theorem sum_filter_eq {α : Type} {M : Type} [AddCommMonoid M] (p : α → Bool) (f : α → M) (l : List α) :
    ((l.filter p).map f).sum = (l.map fun a => if p a then f a else 0).sum := by
  induction l with
  | nil => rfl
  | cons a l ih => by_cases h : p a <;> simp [h, ih]

/-- The Kraft sum over the symbols in canonical order. -/
theorem kraftSum_eq (len : Byte → Nat) : kraftSum len = ((canonOrder len).map fun b => (1 / 2 : ℚ) ^ len b).sum := by
  rw [((canonOrder_perm len).map _).sum_eq, sum_filter_eq]
  simp [kraftSum]

theorem units_rat {k : Nat} {pre : List Byte} (h : ∀ a ∈ pre, len a ≤ k) :
    (units len k pre : ℚ) = 2 ^ k * (pre.map fun a => (1 / 2 : ℚ) ^ len a).sum := by
  induction pre with
  | nil => simp [units]
  | cons a pre ih =>
    have ha := h a (List.mem_cons_self ..)
    have := ih fun x hx => h x (List.mem_cons_of_mem _ hx)
    simp only [units, List.map_cons, List.sum_cons] at this ⊢
    push_cast at this ⊢
    rw [this, mul_add]
    congr 1
    rw [one_div, inv_pow, ← div_eq_mul_inv, eq_div_iff (by positivity), ← pow_add]
    congr 1
    omega

/-- CANON ends without a raise exactly when the Kraft sum is at most 1 (42_code_assigner.md R137). -/
theorem canonCodes_ok_iff (len : Byte → Nat) : (canonCodes len).2 = true ↔ kraftSum len ≤ 1 := by
  have hle := canonOrder_lengths len
  rw [canonCodes, (canonLoop_none _ hle).1, kraftSum_eq]
  have bound : ∀ {l₁ : List Byte} {b l₂}, canonOrder len = l₁ ++ b :: l₂ → ∀ a ∈ l₁, len a ≤ len b := by
    intro l₁ b l₂ e a ha
    rw [e, List.pairwise_append] at hle
    exact hle.2.2 a ha b (List.mem_cons_self ..)
  have nonneg : ∀ l : List Byte, (0 : ℚ) ≤ (l.map fun b => (1 / 2 : ℚ) ^ len b).sum := fun l =>
    List.sum_nonneg (by
      intro x hx
      obtain ⟨b, -, rfl⟩ := List.mem_map.1 hx
      positivity)
  have unit : ∀ k : Nat, (2 : ℚ) ^ k * (1 / 2) ^ k = 1 := fun k => by
    rw [← mul_pow]; norm_num
  constructor
  · intro h
    rcases List.eq_nil_or_concat (canonOrder len) with e | ⟨l₁, b, e⟩
    · rw [e]; norm_num
    · have e' : canonOrder len = l₁ ++ b :: [] := by simpa using e
      have hu := h l₁ b [] e'
      have hu' : (units len (len b) l₁ : ℚ) + 1 ≤ 2 ^ len b := by exact_mod_cast hu
      rw [units_rat (bound e')] at hu'
      rw [e', List.map_append, List.sum_append]
      simp only [List.map_cons, List.map_nil, List.sum_cons, List.sum_nil, add_zero]
      have hk := unit (len b)
      have hpos : (0 : ℚ) < 2 ^ len b := by positivity
      rw [← mul_le_mul_iff_right₀ hpos, mul_add, hk, mul_one]
      exact hu'
  · intro h l₁ b l₂ e
    rw [e, List.map_append, List.sum_append, List.map_cons, List.sum_cons] at h
    have h2 := nonneg l₂
    have hk := unit (len b)
    have hpos : (0 : ℚ) < 2 ^ len b := by positivity
    have : (units len (len b) l₁ : ℚ) + 1 ≤ 2 ^ len b := by
      rw [units_rat (bound e)]
      have h3 : (l₁.map fun b => (1 / 2 : ℚ) ^ len b).sum + (1 / 2) ^ len b ≤ 1 := by linarith
      have := mul_le_mul_of_nonneg_left h3 hpos.le
      rw [mul_add, hk, mul_one] at this
      exact this
    exact_mod_cast this

/-- The codes CANON assigns when it does not raise (42_code_assigner.md R135). -/
theorem canonCodes_eq {len : Byte → Nat} (h : kraftSum len ≤ 1) :
    (canonCodes len).1 = (canonOrder len).map fun b => (b, bitsOf (canonValue len b) (len b)) := by
  have hk := (canonLoop_none _ (canonOrder_lengths len)).2 ((canonCodes_ok_iff len).2 h)
  rw [canonCodes, hk]
  apply codesFrom_map
  intro l₁ b l₂ e
  rw [List.nil_append, units_before e]

/-- A symbol's value fits its length. -/
theorem canonValue_lt {len : Byte → Nat} (h : kraftSum len ≤ 1) {b : Byte} (hb : 0 < len b) :
    canonValue len b < 2 ^ len b := by
  obtain ⟨l₁, l₂, e⟩ := List.append_of_mem (mem_canonOrder.2 hb)
  rw [← units_before e]
  exact (canonLoop_none _ (canonOrder_lengths len)).1.1 ((canonCodes_ok_iff len).2 h) l₁ b l₂ e

/-- Along the canonical order the codes, read as left-aligned fractions, rise by at least a unit
(42_code_assigner.md R136). -/
theorem canonValue_step {a b : Byte} (ha : 0 < len a) (hb : 0 < len b) (hne : a ≠ b) (h : canonBefore len a b) :
    len a ≤ len b ∧ (canonValue len a + 1) * 2 ^ (len b - len a) ≤ canonValue len b := by
  obtain ⟨l, l₃, e⟩ := List.append_of_mem (mem_canonOrder.2 hb)
  have hal : a ∈ l := by
    rw [(before_perm e).mem_iff, List.mem_filter]
    simpa [mem_allBytes, ha] using ⟨hne, h⟩
  obtain ⟨l₁, l₂, rfl⟩ := List.append_of_mem hal
  have e' : canonOrder len = l₁ ++ a :: (l₂ ++ b :: l₃) := by rw [e]; simp
  have hle := canonOrder_lengths len
  have hab : len a ≤ len b := by
    simp only [canonBefore] at h; omega
  refine ⟨hab, ?_⟩
  rw [← units_before e, ← units_before e', Nat.add_mul, units_shift _ hab, units_append]
  · simp only [units, List.map_cons, List.sum_cons]
    omega
  · intro x hx
    rw [e', List.pairwise_append] at hle
    exact hle.2.2 x hx a (List.mem_cons_self ..)

/-- The first code is all zeros (42_code_assigner.md R135). -/
theorem canonValue_first {a : Byte} (h : CanonFirst len a) : canonValue len a = 0 := by
  have : (allBytes.filter fun c => decide (0 < len c ∧ c ≠ a ∧ canonBefore len c a)) = [] := by
    rw [List.filter_eq_nil_iff]
    intro c _ hc
    simp only [decide_eq_true_eq] at hc
    exact hc.2.1 (canonBefore_antisymm hc.2.2 (h.2 c hc.1))
  rw [canonValue, this]
  rfl

/-- The next code is the one before plus 1, shifted left by the increase in length (42_code_assigner.md R135). -/
theorem canonValue_next {a b : Byte} (h : CanonNext len a b) :
    canonValue len b = (canonValue len a + 1) * 2 ^ (len b - len a) := by
  obtain ⟨ha, hb, hne, hab, hall⟩ := h
  obtain ⟨l, l₃, e⟩ := List.append_of_mem (mem_canonOrder.2 hb)
  have hal : a ∈ l := by
    rw [(before_perm e).mem_iff, List.mem_filter]
    simpa [mem_allBytes, ha] using ⟨hne, hab⟩
  obtain ⟨l₁, l₂, rfl⟩ := List.append_of_mem hal
  have e' : canonOrder len = l₁ ++ a :: (l₂ ++ b :: l₃) := by rw [e]; simp
  have hnil : l₂ = [] := by
    by_contra hcon
    obtain ⟨x, hx⟩ := List.exists_mem_of_ne_nil l₂ hcon
    have hp := canonOrder_pairwise len
    have hn := canonOrder_nodup len
    rw [e'] at hp hn
    rw [List.pairwise_append] at hp
    rw [List.nodup_append] at hn
    obtain ⟨-, hp, -⟩ := hp
    obtain ⟨-, hn, -⟩ := hn
    rw [List.pairwise_cons, List.pairwise_append] at hp
    rw [List.nodup_cons, List.nodup_append] at hn
    have hxm : x ∈ l₂ ++ b :: l₃ := List.mem_append_left _ hx
    have hxa := hp.1 x hxm
    have hxb := hp.2.2.2 x hx b (List.mem_cons_self ..)
    have hx0 : 0 < len x := mem_canonOrder.1 (by rw [e']; exact List.mem_append_right _ (List.mem_cons_of_mem _ hxm))
    rcases hall x hx0 with h | h
    · rw [canonBefore_antisymm h hxa] at hxm
      exact hn.1 hxm
    · exact hn.2.2.2 x hx b (List.mem_cons_self ..) (canonBefore_antisymm hxb h)
  subst hnil
  have hle := canonOrder_lengths len
  have hab' : len a ≤ len b := by
    simp only [canonBefore] at hab; omega
  rw [← units_before e, ← units_before e', Nat.add_mul, units_shift _ hab', units_append]
  · simp [units]
  · intro x hx
    rw [e', List.pairwise_append] at hle
    exact hle.2.2 x hx a (List.mem_cons_self ..)

/-- The canonical code is prefix-free (42_code_assigner.md R136). -/
theorem canonTable_prefixFree {len : Byte → Nat} (h : kraftSum len ≤ 1) : PrefixFree (canonTable len) := by
  intro a b ca cb hne ha hb hpre
  unfold canonTable at ha hb
  split at ha <;> split at hb <;> try contradiction
  rename_i ha0 hb0
  cases ha; cases hb
  have hva := canonValue_lt h ha0
  have hvb := canonValue_lt h hb0
  obtain ⟨hl, hv⟩ := bitsOf_prefix hva hvb hpre
  rcases canonBefore_total (len := len) a b with hab | hba
  · have := (canonValue_step ha0 hb0 hne hab).2
    rw [hv] at this
    have h2 := Nat.div_add_mod (canonValue len b) (2 ^ (len b - len a))
    have h3 := Nat.mod_lt (canonValue len b) (Nat.two_pow_pos (len b - len a))
    rw [Nat.add_mul, one_mul, Nat.mul_comm] at this
    omega
  · have hba' := canonValue_step hb0 ha0 hne.symm hba
    have el : len a = len b := le_antisymm hl hba'.1
    rw [el, Nat.sub_self, pow_zero, Nat.div_one] at hv
    have := hba'.2
    rw [el, Nat.sub_self, pow_zero, mul_one] at this
    omega

theorem canonTable_length {len : Byte → Nat} {b : Byte} {c : BitStr} (h : canonTable len b = some c) :
    c.length = len b := by
  unfold canonTable at h
  split at h
  · cases h; simp
  · cases h

/-- What CANON leaves in `CODE` when it does not raise. -/
theorem tab_setCodes {len : Byte → Nat} (h : kraftSum len ≤ 1) (s : State) (b : Byte) :
    tab (setCodes (canonCodes len).1 s).code b = canonTable len b := by
  rw [canonCodes_eq h]
  simp only [setCodes]
  have hkeys : ((canonOrder len).map fun b => (b, bitsOf (canonValue len b) (len b))).map (·.1) = canonOrder len := by
    rw [List.map_map]; exact List.map_id _
  by_cases hb : 0 < len b
  · have hmem : (b, bitsOf (canonValue len b) (len b)) ∈
        (canonOrder len).map fun b => (b, bitsOf (canonValue len b) (len b)) :=
      List.mem_map.2 ⟨b, mem_canonOrder.2 hb, rfl⟩
    rw [tab_foldl_of_mem (f := some) _ _ (by rw [hkeys]; exact canonOrder_nodup len) hmem]
    simp [canonTable, hb]
  · rw [tab_foldl_of_not_mem (f := some) _ _ (by rw [hkeys, mem_canonOrder]; exact hb)]
    simp [canonTable, hb]

end kraft

end Sys2Proof.Machine
end

