-- ==== Sys2Proof/Laws/Greedy.lean ====
section
/-! SUPPORT. The trees the builder makes, as trees, and the arithmetic of merging the two least weights: the bound of
45_orchestration.md R232 (b). -/

namespace Sys2Proof.Machine

/-- A tree of the builder: a leaf with its count, the root over a lone leaf (41_tree_builder.md R116), or a merge. -/
inductive HTree where
  | leaf (freq : Nat) (sym : Byte)
  | one (l : HTree)
  | two (l r : HTree)
  deriving DecidableEq, Repr

namespace HTree

/-- The sum of the leaves' counts. -/
def weight : HTree → Nat
  | leaf f _ => f
  | one l => l.weight
  | two l r => l.weight + r.weight

/-- The number of leaves. -/
def size : HTree → Nat
  | leaf _ _ => 1
  | one l => l.size
  | two l r => l.size + r.size

def depth : HTree → Nat
  | leaf _ _ => 0
  | one l => l.depth + 1
  | two l r => max l.depth r.depth + 1

/-- The sum over leaves of count times depth. -/
def cost : HTree → Nat
  | leaf _ _ => 0
  | one l => l.cost + l.weight
  | two l r => l.cost + r.cost + (l.weight + r.weight)

/-- The leaves with their counts, left to right. -/
def leaves : HTree → List (Byte × Nat)
  | leaf f b => [(b, f)]
  | one l => l.leaves
  | two l r => l.leaves ++ r.leaves

/-- The leaves with their paths, `path` leading to the root, left to right. -/
def paths : HTree → BitStr → List (Byte × BitStr)
  | leaf _ b, path => [(b, path)]
  | one l, path => l.paths (path ++ [false])
  | two l r, path => l.paths (path ++ [false]) ++ r.paths (path ++ [true])

/-- Every inner node has two children. -/
def Full : HTree → Prop
  | leaf _ _ => True
  | one _ => False
  | two l r => l.Full ∧ r.Full

theorem paths_map_fst (t : HTree) (path : BitStr) : (t.paths path).map (·.1) = t.leaves.map (·.1) := by
  induction t generalizing path with
  | leaf => rfl
  | one l ih => exact ih _
  | two l r ihl ihr => simp [paths, leaves, ihl, ihr]

theorem leaves_length (t : HTree) : t.leaves.length = t.size := by
  induction t with
  | leaf => rfl
  | one l ih => exact ih
  | two l r ihl ihr => simp [leaves, size, ihl, ihr]

theorem weight_eq (t : HTree) : t.weight = (t.leaves.map (·.2)).sum := by
  induction t with
  | leaf => simp [weight, leaves]
  | one l ih => exact ih
  | two l r ihl ihr => simp [weight, leaves, ihl, ihr]

theorem size_pos (t : HTree) : 0 < t.size := by
  induction t with
  | leaf => simp [size]
  | one l ih => exact ih
  | two l r ihl ihr => simp only [size]; omega

/-- A full tree is less deep than it has leaves (41_tree_builder.md R120). -/
theorem depth_lt_size (t : HTree) (h : t.Full) : t.depth < t.size := by
  induction t with
  | leaf => simp [depth, size]
  | one l ih => exact h.elim
  | two l r ihl ihr =>
    have := ihl h.1
    have := ihr h.2
    have := l.size_pos
    have := r.size_pos
    simp only [depth, size]
    omega

theorem path_length_le (t : HTree) (path : BitStr) {b : Byte} {p : BitStr} (h : (b, p) ∈ t.paths path) :
    path.length ≤ p.length ∧ p.length ≤ path.length + t.depth := by
  induction t generalizing path with
  | leaf f c =>
    simp only [paths, List.mem_singleton, Prod.mk.injEq] at h
    simp [depth, h.2]
  | one l ih =>
    have := ih _ h
    simp only [depth, List.length_append, List.length_singleton] at this ⊢
    omega
  | two l r ihl ihr =>
    rcases List.mem_append.1 h with h | h
    · have := ihl _ h
      simp only [depth, List.length_append, List.length_singleton] at this ⊢
      omega
    · have := ihr _ h
      simp only [depth, List.length_append, List.length_singleton] at this ⊢
      omega

/-- The Kraft sum of the paths of a full tree is 1 (42_code_assigner.md R132). -/
theorem kraft_full (t : HTree) (path : BitStr) (h : t.Full) :
    ((t.paths path).map fun e => (1 / 2 : ℚ) ^ e.2.length).sum = (1 / 2) ^ path.length := by
  induction t generalizing path with
  | leaf => simp [paths]
  | one l ih => exact h.elim
  | two l r ihl ihr =>
    simp only [paths, List.map_append, List.sum_append, ihl _ h.1, ihr _ h.2, List.length_append,
      List.length_singleton, pow_succ]
    ring

/-- Count times path length, summed over the leaves of a tree with counts `f`, is the cost and the length of the path
to the root for each unit of weight. -/
theorem sum_paths (t : HTree) (path : BitStr) (f : Byte → Nat) (h : ∀ e ∈ t.leaves, f e.1 = e.2) :
    ((t.paths path).map fun e => f e.1 * e.2.length).sum = t.cost + t.weight * path.length := by
  induction t generalizing path with
  | leaf w b =>
    have := h (b, w) (by simp [leaves])
    simp only at this
    simp [paths, cost, weight, this]
  | one l ih =>
    rw [paths, ih _ h]
    simp only [cost, weight, List.length_append, List.length_singleton]
    ring
  | two l r ihl ihr =>
    rw [paths, List.map_append, List.sum_append, ihl _ fun e he => h e (List.mem_append_left _ he),
      ihr _ fun e he => h e (List.mem_append_right _ he)]
    simp only [cost, weight, List.length_append, List.length_singleton]
    ring

end HTree

section greedy

/-- The weights in ascending order. -/
def sortedWeights (l : List Nat) : List Nat := l.insertionSort (· ≤ ·)

theorem sortedWeights_pairwise (l : List Nat) : (sortedWeights l).Pairwise (· ≤ ·) := List.pairwise_insertionSort _ _

theorem sortedWeights_perm (l : List Nat) : (sortedWeights l).Perm l := List.perm_insertionSort _ _

theorem sortedWeights_eq {l m : List Nat} (hp : m.Perm l) (hs : m.Pairwise (· ≤ ·)) : sortedWeights l = m :=
  List.Perm.eq_of_pairwise (fun _ _ _ _ h h' => le_antisymm h h') (sortedWeights_pairwise l) hs
    ((sortedWeights_perm l).trans hp.symm)

/-- The first elements of an ascending list that starts with `x` weigh no more than those after `x`. -/
theorem sum_take_cons_le {x : Nat} {l : List Nat} (h : (x :: l).Pairwise (· ≤ ·)) {t : Nat} (ht : t ≤ l.length) :
    ((x :: l).take t).sum ≤ (l.take t).sum := by
  induction t generalizing x l with
  | zero => simp
  | succ t ih =>
    cases l with
    | nil => simp at ht
    | cons y l =>
      rw [List.pairwise_cons] at h
      have hxy := h.1 y (List.mem_cons_self ..)
      have := ih h.2 (by simpa using ht)
      simp only [List.take_succ_cons, List.sum_cons] at this ⊢
      omega

/-- A further element does not make the least `t` elements heavier. -/
theorem sum_take_orderedInsert_le (w : Nat) {l : List Nat} (h : l.Pairwise (· ≤ ·)) {t : Nat} (ht : t ≤ l.length) :
    ((l.orderedInsert (· ≤ ·) w).take t).sum ≤ (l.take t).sum := by
  induction l generalizing t with
  | nil => simp at ht; subst ht; simp
  | cons x l ih =>
    rw [List.orderedInsert]
    split
    · exact sum_take_cons_le (List.pairwise_cons.2 ⟨by
        intro y hy
        rcases List.mem_cons.1 hy with rfl | hy
        · assumption
        · exact le_trans ‹_› ((List.pairwise_cons.1 h).1 y hy), h⟩) ht
    · cases t with
      | zero => simp
      | succ t =>
        have := ih (List.pairwise_cons.1 h).2 (t := t) (by simpa using ht)
        simp only [List.take_succ_cons, List.sum_cons]
        omega

/-- Taking the two least weights out and their sum in: the least `2(r+1)` weights pay for the sum and the least `2r`
weights of what remains. -/
theorem merge_budget {l rest : List Nat} {x y r : Nat} (hp : l.Perm (x :: y :: rest)) (hxy : x ≤ y)
    (hle : ∀ z ∈ rest, y ≤ z) (hr : 2 * r ≤ rest.length) :
    x + y + ((sortedWeights ((x + y) :: rest)).take (2 * r)).sum ≤ ((sortedWeights l).take (2 * (r + 1))).sum := by
  have hrest := sortedWeights_pairwise rest
  have hrp := sortedWeights_perm rest
  have hle' : ∀ z ∈ sortedWeights rest, y ≤ z := fun z hz => hle z (hrp.mem_iff.1 hz)
  have e1 : sortedWeights l = x :: y :: sortedWeights rest := by
    apply sortedWeights_eq
    · exact ((hrp.cons y).cons x).trans hp.symm
    · refine List.pairwise_cons.2 ⟨?_, List.pairwise_cons.2 ⟨hle', hrest⟩⟩
      intro z hz
      rcases List.mem_cons.1 hz with rfl | hz
      · exact hxy
      · exact le_trans hxy (hle' z hz)
  have e2 : sortedWeights ((x + y) :: rest) = (sortedWeights rest).orderedInsert (· ≤ ·) (x + y) := rfl
  rw [e1, e2, show 2 * (r + 1) = 2 * r + 1 + 1 by ring, List.take_succ_cons, List.take_succ_cons, List.sum_cons,
    List.sum_cons]
  have := sum_take_orderedInsert_le (x + y) hrest (t := 2 * r) (by rwa [hrp.length_eq])
  omega

theorem sum_take_le (l : List Nat) (t : Nat) : ((sortedWeights l).take t).sum ≤ l.sum := by
  rw [← (sortedWeights_perm l).sum_eq]
  conv_rhs => rw [← List.take_append_drop t (sortedWeights l), List.sum_append]
  omega

end greedy

end Sys2Proof.Machine
end

