-- ==== Sys2Proof/Laws/Tree.lean ====
section
/-! SUPPORT. The laws of the tree builder and the walk (41_tree_builder.md, 42_code_assigner.md R130 to R132): which
tree the node memory holds after each operation, and what the walk reads from it. -/

namespace Sys2Proof.Machine

/-- Node `i` of a memory, and all below it, are among the first `n` nodes and are this tree. -/
inductive Holds (node : Nat → Node) (n : Nat) : Nat → HTree → Prop where
  | leaf {i f b} : i < n → node i = .leaf f b → Holds node n i (.leaf f b)
  | one {i j t} : i < n → node i = .inner t.weight j none → Holds node n j t → Holds node n i (.one t)
  | two {i j k t u} : i < n → node i = .inner (t.weight + u.weight) j (some k) → Holds node n j t →
      Holds node n k u → Holds node n i (.two t u)

theorem Holds.lt {node : Nat → Node} {n i : Nat} {t : HTree} (h : Holds node n i t) : i < n := by
  cases h <;> assumption

/-- A node's `freq` is its tree's weight (41_tree_builder.md R117). -/
theorem Holds.freq {node : Nat → Node} {n i : Nat} {t : HTree} (h : Holds node n i t) : (node i).freq = t.weight := by
  cases h with
  | leaf _ e | one _ e _ | two _ e _ _ => rw [e]; rfl

/-- Writing further nodes leaves a tree as it is. -/
theorem Holds.mono {node node' : Nat → Node} {n n' i : Nat} {t : HTree} (h : Holds node n i t) (hn : n ≤ n')
    (he : ∀ j, j < n → node' j = node j) : Holds node' n' i t := by
  induction h with
  | leaf hi e => exact .leaf (by omega) ((he _ hi).trans e)
  | one hi e _ ih => exact .one (by omega) ((he _ hi).trans e) ih
  | two hi e _ _ ih₁ ih₂ => exact .two (by omega) ((he _ hi).trans e) ih₁ ih₂

/-- The walk of a tree gives its paths (42_code_assigner.md R130). -/
theorem Holds.visit {node : Nat → Node} {n i : Nat} {t : HTree} (h : Holds node n i t) {levels : Nat}
    (hd : t.depth < levels) (path : BitStr) : visit node levels i path = some (t.paths path) := by
  induction h generalizing levels path with
  | leaf _ e =>
    obtain ⟨f, rfl⟩ : ∃ f, levels = f + 1 := ⟨levels - 1, by omega⟩
    simp [Machine.visit, e, HTree.paths]
  | one _ e _ ih =>
    simp only [HTree.depth] at hd
    obtain ⟨f, rfl⟩ : ∃ f, levels = f + 1 := ⟨levels - 1, by omega⟩
    simp only [Machine.visit, e, HTree.paths]
    exact ih (by omega) _
  | two _ e _ _ ih₁ ih₂ =>
    simp only [HTree.depth] at hd
    obtain ⟨f, rfl⟩ : ∃ f, levels = f + 1 := ⟨levels - 1, by omega⟩
    simp only [Machine.visit, e, HTree.paths]
    rw [ih₁ (by omega), ih₂ (by omega)]

/-- The leaves below a node are those of its tree, by path. -/
theorem Holds.leafAt_iff {node : Nat → Node} {n i : Nat} {t : HTree} (h : Holds node n i t) (p : BitStr) (b : Byte) :
    LeafAt node i p b ↔ (b, p) ∈ t.paths [] := by
  have shift : ∀ (t : HTree) (q p : BitStr) (b : Byte), (b, p) ∈ t.paths q ↔ ∃ p', p = q ++ p' ∧ (b, p') ∈ t.paths [] := by
    intro t
    induction t with
    | leaf f c =>
      intro q p b
      simp only [HTree.paths, List.mem_singleton, Prod.mk.injEq]
      constructor
      · rintro ⟨rfl, rfl⟩; exact ⟨[], by simp⟩
      · rintro ⟨p', rfl, rfl, rfl⟩; simp
    | one l ih =>
      intro q p b
      simp only [HTree.paths]
      rw [ih]
      constructor
      · rintro ⟨p', rfl, h⟩
        exact ⟨false :: p', by simp, (ih [false] _ _).2 ⟨p', rfl, h⟩⟩
      · rintro ⟨p', rfl, h⟩
        obtain ⟨p'', rfl, h'⟩ := (ih [false] _ _).1 h
        exact ⟨p'', by simp, h'⟩
    | two l r ihl ihr =>
      intro q p b
      simp only [HTree.paths, List.mem_append, List.nil_append]
      rw [ihl, ihr]
      constructor
      · rintro (⟨p', rfl, h⟩ | ⟨p', rfl, h⟩)
        · exact ⟨false :: p', by simp, .inl ((ihl [false] _ _).2 ⟨p', rfl, h⟩)⟩
        · exact ⟨true :: p', by simp, .inr ((ihr [true] _ _).2 ⟨p', rfl, h⟩)⟩
      · rintro ⟨p', rfl, h | h⟩
        · obtain ⟨p'', rfl, h'⟩ := (ihl [false] _ _).1 h
          exact .inl ⟨p'', by simp, h'⟩
        · obtain ⟨p'', rfl, h'⟩ := (ihr [true] _ _).1 h
          exact .inr ⟨p'', by simp, h'⟩
  induction h generalizing p with
  | leaf _ e =>
    constructor
    · intro h
      cases h with
      | leaf e' => rw [e] at e'; cases e'; simp [HTree.paths]
      | left e' _ => rw [e] at e'; cases e'
      | right e' _ => rw [e] at e'; cases e'
    · intro h
      simp only [HTree.paths, List.mem_singleton, Prod.mk.injEq] at h
      rw [h.1, h.2]
      exact .leaf e
  | one _ e _ ih =>
    simp only [HTree.paths]
    rw [shift]
    constructor
    · intro h
      cases h with
      | leaf e' => rw [e] at e'; cases e'
      | left e' h => rw [e] at e'; cases e'; exact ⟨_, rfl, (ih _).1 h⟩
      | right e' _ => rw [e] at e'; cases e'
    · rintro ⟨p', rfl, h⟩
      exact .left e ((ih _).2 h)
  | two _ e _ _ ih₁ ih₂ =>
    simp only [HTree.paths, List.mem_append]
    rw [shift _ _ p, shift _ _ p]
    constructor
    · intro h
      cases h with
      | leaf e' => rw [e] at e'; cases e'
      | left e' h => rw [e] at e'; cases e'; exact .inl ⟨_, rfl, (ih₁ _).1 h⟩
      | right e' h => rw [e] at e'; cases e'; exact .inr ⟨_, rfl, (ih₂ _).1 h⟩
    · rintro (⟨p', rfl, h⟩ | ⟨p', rfl, h⟩)
      · exact .left e ((ih₁ _).2 h)
      · exact .right e ((ih₂ _).2 h)

theorem Holds.within {node : Nat → Node} {n i : Nat} {t : HTree} (h : Holds node n i t) {d : Nat} (hd : t.depth ≤ d) :
    TreeWithin node i d := by
  induction h generalizing d with
  | leaf _ e => exact .leaf e
  | one _ e _ ih =>
    simp only [HTree.depth] at hd
    obtain ⟨f, rfl⟩ : ∃ f, d = f + 1 := ⟨d - 1, by omega⟩
    exact .one e (ih (by omega))
  | two _ e _ _ ih₁ ih₂ =>
    simp only [HTree.depth] at hd
    obtain ⟨f, rfl⟩ : ∃ f, d = f + 1 := ⟨d - 1, by omega⟩
    exact .two e (ih₁ (by omega)) (ih₂ (by omega))

section queue

/-- The least of a queue is a member before every other (41_tree_builder.md R112). -/
theorem pqLeast_spec {node : Nat → Node} {l : List Nat} {a : Nat} (h : pqLeast node l = some a) :
    a ∈ l ∧ ∀ j ∈ l, j = a ∨ queueBefore node a j = true := by
  induction l generalizing a with
  | nil => cases h
  | cons i rest ih =>
    simp only [pqLeast] at h
    cases hr : pqLeast node rest with
    | none =>
      rw [hr] at h
      cases h
      have hnil : rest = [] := by
        cases rest with
        | nil => rfl
        | cons x r =>
          simp only [pqLeast] at hr
          split at hr
          · cases hr
          · split at hr <;> cases hr
      subst hnil
      simp
    | some j =>
      rw [hr] at h
      obtain ⟨hj, hall⟩ := ih hr
      simp only at h
      split at h
      · cases h
        refine ⟨List.mem_cons_of_mem _ hj, ?_⟩
        intro x hx
        rcases List.mem_cons.1 hx with rfl | hx
        · exact .inr ‹_›
        · exact hall x hx
      · cases h
        refine ⟨List.mem_cons_self .., ?_⟩
        rename_i hnot
        intro x hx
        rcases List.mem_cons.1 hx with rfl | hx
        · exact .inl rfl
        · by_cases hxi : x = i
          · exact .inl hxi
          · right
            rcases hall x hx with rfl | hb
            · simp only [queueBefore, decide_eq_true_eq] at hnot ⊢; omega
            · simp only [queueBefore, decide_eq_true_eq] at hnot hb ⊢; omega

theorem pqLeast_isSome {node : Nat → Node} {l : List Nat} (h : l ≠ []) : ∃ a, pqLeast node l = some a := by
  cases l with
  | nil => exact absurd rfl h
  | cons i rest =>
    simp only [pqLeast]
    split
    · exact ⟨_, rfl⟩
    · split <;> exact ⟨_, rfl⟩

theorem pqInsert_last {l : List Nat} {n : Nat} (h : ∀ i ∈ l, i < n) : pqInsert n l = l ++ [n] := by
  induction l with
  | nil => rfl
  | cons i rest ih =>
    have := h i (List.mem_cons_self ..)
    simp [pqInsert, show ¬ n < i by omega, show n ≠ i by omega, ih fun j hj => h j (List.mem_cons_of_mem _ hj)]

end queue

section nodes
variable {s : State}

theorem nodeAt_addNode (n : Node) (h : s.ncount < 511) (i : Nat) :
    (addNode n s).nodeAt i = if i = s.ncount then n else s.nodeAt i := by
  simp only [State.nodeAt, addNode]
  rw [Vector.getElem?_setIfInBounds]
  by_cases e : i = s.ncount
  · subst e; simp [h]
  · simp [e, Ne.symm e]

end nodes

section init
variable {s : State}

theorem addLeaf_freq (s : State) (b : Byte) : (addLeaf s b).freq = s.freq := by
  unfold addLeaf; split <;> rfl

/-- TB_INIT's loop over some symbols: a leaf for each symbol counted, in their order (41_tree_builder.md R113). -/
theorem foldl_addLeaf (l : List Byte) (s : State) (hpq : s.pq = List.range s.ncount)
    (hn : s.ncount + (l.filter fun b => decide (0 < tab s.freq b)).length ≤ 511) :
    let t := l.foldl addLeaf s
    let present := l.filter fun b => decide (0 < tab s.freq b)
    t.ncount = s.ncount + present.length ∧ t.pq = List.range t.ncount ∧
      (∀ i, i < s.ncount → t.nodeAt i = s.nodeAt i) ∧
      (∀ k (h : k < present.length), t.nodeAt (s.ncount + k) = .leaf (tab s.freq present[k]) present[k]) ∧
      t = { s with node := t.node, pq := t.pq, ncount := t.ncount } := by
  induction l generalizing s with
  | nil => exact ⟨rfl, hpq, fun _ _ => rfl, fun k h => absurd h (Nat.not_lt_zero k), rfl⟩
  | cons b l ih =>
    by_cases hb : 0 < tab s.freq b
    · simp only [List.filter_cons, hb, decide_true, ite_true, List.length_cons] at hn ⊢
      have e : addLeaf s b = addNode (.leaf (tab s.freq b) b) s := by simp [addLeaf, hb]
      have hlt : s.ncount < 511 := by omega
      have hpq' : (addLeaf s b).pq = List.range (addLeaf s b).ncount := by
        rw [e]
        simp only [addNode]
        rw [pqInsert_last (by rw [hpq]; intro i hi; exact List.mem_range.1 hi), hpq, List.range_succ]
      have hf : (addLeaf s b).freq = s.freq := addLeaf_freq s b
      have hc : (addLeaf s b).ncount = s.ncount + 1 := by rw [e]; rfl
      have key := ih (addLeaf s b) hpq' (by rw [hf, hc]; omega)
      rw [hf, hc] at key
      obtain ⟨k1, k2, k3, k4, k5⟩ := key
      simp only [List.foldl_cons] at k1 k2 k3 k4 k5 ⊢
      refine ⟨by omega, k2, ?_, ?_, ?_⟩
      · intro i hi
        rw [k3 i (by omega), e, nodeAt_addNode _ hlt, if_neg (by omega)]
      · intro k hk
        cases k with
        | zero =>
          rw [Nat.add_zero, k3 s.ncount (by omega), e, nodeAt_addNode _ hlt, if_pos rfl]
          rfl
        | succ k =>
          have := k4 k (by simpa using hk)
          rw [show s.ncount + (k + 1) = s.ncount + 1 + k by omega, this]
          rfl
      · rw [k5]
        simp only [e, addNode]
    · simp only [List.filter_cons, hb, decide_false, Bool.false_eq_true, ite_false] at hn ⊢
      have e : addLeaf s b = s := by simp [addLeaf, hb]
      rw [List.foldl_cons, e]
      exact ih s hpq hn

/-- The symbols with a count, ascending. -/
def present (freq : Vector Nat 256) : List Byte := allBytes.filter fun b => decide (0 < tab freq b)

theorem present_length_le (freq : Vector Nat 256) : (present freq).length ≤ 256 := by
  rw [← allBytes_length]; exact List.length_filter_le _ _

theorem mem_present {freq : Vector Nat 256} {b : Byte} : b ∈ present freq ↔ 0 < tab freq b := by
  simp [present, mem_allBytes]

theorem initTree_of {s u : State} {l : List Byte} (hi : initTree s = { u with nsym := u.ncount })
    (h : u.ncount = l.length ∧ u.pq = List.range u.ncount ∧ (∀ i, i < 0 → u.nodeAt i = s.nodeAt i) ∧
      (∀ k (h : k < l.length), u.nodeAt k = .leaf (tab s.freq l[k]) l[k]) ∧
      u = { s with node := u.node, pq := u.pq, ncount := u.ncount }) :
    (initTree s).ncount = l.length ∧ (initTree s).nsym = l.length ∧ (initTree s).pq = List.range l.length ∧
      (∀ k (h : k < l.length), (initTree s).nodeAt k = .leaf (tab s.freq l[k]) l[k]) ∧
      initTree s = { s with
        node := (initTree s).node, pq := (initTree s).pq, ncount := (initTree s).ncount, nsym := (initTree s).nsym } := by
  obtain ⟨h1, h2, -, h4, h5⟩ := h
  rw [hi]
  exact ⟨h1, h1, h2.trans (congrArg List.range h1), h4, congrArg (fun v : State => { v with nsym := v.ncount }) h5⟩

/-- What TB_INIT leaves (41_tree_builder.md R113). -/
theorem initTree_spec (s : State) :
    (initTree s).ncount = (present s.freq).length ∧ (initTree s).nsym = (present s.freq).length ∧
      (initTree s).pq = List.range (present s.freq).length ∧
      (∀ k (h : k < (present s.freq).length),
        (initTree s).nodeAt k = .leaf (tab s.freq (present s.freq)[k]) (present s.freq)[k]) ∧
      initTree s = { s with
        node := (initTree s).node, pq := (initTree s).pq, ncount := (initTree s).ncount,
        nsym := (initTree s).nsym } := by
  have h := foldl_addLeaf allBytes { s with pq := [], ncount := 0 } rfl
    (by have := present_length_le s.freq; simp only [present] at this; simp only [Nat.zero_add]; omega)
  simp only [Nat.zero_add] at h
  exact initTree_of (u := allBytes.foldl addLeaf { s with pq := [], ncount := 0 }) rfl h

end init

section merge

/-- The queue of a state holds a forest: each member a tree of its own. -/
structure Forest (s : State) (tree : Nat → HTree) : Prop where
  sorted : s.pq.Pairwise (· < ·)
  holds : ∀ i ∈ s.pq, Holds s.nodeAt s.ncount i (tree i)

/-- The weights of a forest. -/
def weights (pq : List Nat) (tree : Nat → HTree) : List Nat := pq.map fun i => (tree i).weight

/-- One pass of the merge: two members out, the one over both in; they are the two least, in order
(41_tree_builder.md R114). -/
theorem mergePass_spec (s : State) (h : 2 ≤ s.pq.length) :
    ∃ a b, a ∈ s.pq ∧ b ∈ s.pq.erase a ∧ (∀ j ∈ s.pq, j = a ∨ queueBefore s.nodeAt a j = true) ∧
      (∀ j ∈ s.pq.erase a, j = b ∨ queueBefore s.nodeAt b j = true) ∧
      mergePass s = addNode (.inner ((s.nodeAt a).freq + (s.nodeAt b).freq) a (some b))
        { s with pq := (s.pq.erase a).erase b } := by
  have hne : s.pq ≠ [] := by intro e; rw [e] at h; simp at h
  obtain ⟨a, ha⟩ := pqLeast_isSome (node := s.nodeAt) hne
  obtain ⟨ham, hall⟩ := pqLeast_spec ha
  have hne' : s.pq.erase a ≠ [] := by
    intro e
    have := List.length_erase_of_mem ham
    rw [e] at this
    simp at this
    omega
  obtain ⟨b, hb⟩ := pqLeast_isSome (node := s.nodeAt) hne'
  obtain ⟨hbm, hball⟩ := pqLeast_spec hb
  refine ⟨a, b, ham, hbm, hall, hball, ?_⟩
  have e1 : extractMin s = some (a, { s with pq := s.pq.erase a }) := by simp [extractMin, ha]
  have e2 : extractMin { s with pq := s.pq.erase a } = some (b, { s with pq := (s.pq.erase a).erase b }) := by
    have : pqLeast (State.nodeAt { s with pq := s.pq.erase a }) (s.pq.erase a) = some b := hb
    simp [extractMin, this]
  simp only [mergePass, e1, e2]

/-- What the merge loop leaves of a forest: one tree over all its leaves, full if they were, and within the cost that
45_orchestration.md R232 (b) allows (41_tree_builder.md R114, R117). -/
theorem mergeLoop_spec (passes : Nat) (s : State) (tree : Nat → HTree) (hf : Forest s tree)
    (hlen : s.pq.length ≤ passes) (hpos : s.pq ≠ []) (hfit : s.ncount + (s.pq.length - 1) ≤ 511) :
    ∃ i T, (mergeLoop passes s).pq = [i] ∧
      Holds (mergeLoop passes s).nodeAt (mergeLoop passes s).ncount i T ∧
      (mergeLoop passes s).ncount = s.ncount + (s.pq.length - 1) ∧
      T.leaves.Perm (s.pq.flatMap fun i => (tree i).leaves) ∧
      ((∀ i ∈ s.pq, (tree i).Full) → T.Full) ∧
      (∀ j r, s.pq.length = 2 ^ j + r → r ≤ 2 ^ j →
        T.cost ≤ (s.pq.map fun i => (tree i).cost).sum + j * (weights s.pq tree).sum +
          ((sortedWeights (weights s.pq tree)).take (2 * r)).sum) ∧
      (2 ≤ s.pq.length → i + 1 = (mergeLoop passes s).ncount) ∧
      (∀ k, k < s.ncount → (mergeLoop passes s).nodeAt k = s.nodeAt k) ∧
      mergeLoop passes s = { s with
        node := (mergeLoop passes s).node, pq := (mergeLoop passes s).pq, ncount := (mergeLoop passes s).ncount } := by
  induction passes generalizing s tree with
  | zero =>
    exact absurd (List.length_eq_zero_iff.1 (Nat.le_zero.1 hlen)) hpos
  | succ passes ih =>
    by_cases h1 : 1 < s.pq.length
    · -- a pass, then the rest
      rw [mergeLoop, if_pos h1]
      obtain ⟨a, b, ham, hbm, hall, hball, hpass⟩ := mergePass_spec s (by omega)
      have hperm : s.pq.Perm (a :: b :: (s.pq.erase a).erase b) :=
        (List.perm_cons_erase ham).trans ((List.perm_cons_erase hbm).cons a)
      generalize hrest : (s.pq.erase a).erase b = rest at hpass hperm
      have hab : a ≠ b := by
        have := hperm.nodup_iff.1 (hf.sorted.imp fun h => Nat.ne_of_lt h)
        simp only [List.nodup_cons, List.mem_cons, not_or] at this
        exact this.1.1
      have hbpq : b ∈ s.pq := List.mem_of_mem_erase hbm
      have hlt : s.ncount < 511 := by omega
      have hlens : s.pq.length = rest.length + 2 := by rw [hperm.length_eq]; rfl
      have hsub : rest.Sublist s.pq := by
        rw [← hrest]; exact List.erase_sublist.trans List.erase_sublist
      have hltn : ∀ i ∈ s.pq, i < s.ncount := fun i hi => (hf.holds i hi).lt
      have hpq' : (mergePass s).pq = rest ++ [s.ncount] := by
        rw [hpass]
        exact pqInsert_last fun i hi => hltn i (hsub.subset hi)
      have hnc' : (mergePass s).ncount = s.ncount + 1 := by rw [hpass]; rfl
      have hnode' : ∀ i, (mergePass s).nodeAt i =
          if i = s.ncount then .inner ((s.nodeAt a).freq + (s.nodeAt b).freq) a (some b) else s.nodeAt i := by
        intro i
        rw [hpass]
        exact nodeAt_addNode (s := { s with pq := rest }) _ hlt i
      have hold : ∀ i, i < s.ncount → (mergePass s).nodeAt i = s.nodeAt i := fun i hi => by
        rw [hnode', if_neg (by omega)]
      let tree' : Nat → HTree := fun i => if i = s.ncount then .two (tree a) (tree b) else tree i
      have htree' : ∀ i ∈ rest, tree' i = tree i := fun i hi => by
        have := hltn i (hsub.subset hi)
        simp only [tree']
        rw [if_neg (by omega)]
      have htreen : tree' s.ncount = .two (tree a) (tree b) := by simp [tree']
      have hsorted' : (mergePass s).pq.Pairwise (· < ·) := by
        rw [hpq', List.pairwise_append]
        refine ⟨hf.sorted.sublist hsub, by simp, ?_⟩
        intro i hi j hj
        rw [List.mem_singleton.1 hj]
        exact hltn i (hsub.subset hi)
      have hf' : Forest (mergePass s) tree' := by
        refine ⟨hsorted', ?_⟩
        intro i hi
        rw [hpq'] at hi
        rcases List.mem_append.1 hi with hi | hi
        · rw [htree' i hi]
          exact (hf.holds i (hsub.subset hi)).mono (by omega) hold
        · rw [List.mem_singleton.1 hi, htreen]
          refine .two (j := a) (k := b) (by omega) ?_ ((hf.holds a ham).mono (by omega) hold)
            ((hf.holds b hbpq).mono (by omega) hold)
          rw [hnode', if_pos rfl, (hf.holds a ham).freq, (hf.holds b hbpq).freq]
      have hlen' : (mergePass s).pq.length = rest.length + 1 := by rw [hpq']; simp
      obtain ⟨i, T, k1, k2, k3, k4, k5, k6, k7, k8, k9⟩ :=
        ih (mergePass s) tree' hf' (by omega) (by rw [hpq']; simp) (by omega)
      refine ⟨i, T, k1, k2, by omega, ?_, ?_, ?_, ?_, ?_, ?_⟩
      · -- leaves
        refine k4.trans ?_
        rw [hpq', List.flatMap_append]
        have e1 : rest.flatMap (fun i => (tree' i).leaves) = rest.flatMap fun i => (tree i).leaves :=
          List.flatMap_congr fun i hi => by rw [htree' i hi]
        rw [e1]
        have e2 : [s.ncount].flatMap (fun i => (tree' i).leaves) = (tree a).leaves ++ (tree b).leaves := by
          simp [htreen, HTree.leaves]
        rw [e2]
        refine List.Perm.trans ?_ (hperm.flatMap_right _).symm
        simp only [List.flatMap_cons]
        rw [← List.append_assoc (tree a).leaves]
        exact List.perm_append_comm
      · -- full
        intro hfull
        apply k5
        intro j hj
        rw [hpq'] at hj
        rcases List.mem_append.1 hj with hj | hj
        · rw [htree' j hj]; exact hfull j (hsub.subset hj)
        · rw [List.mem_singleton.1 hj, htreen]
          exact ⟨hfull a ham, hfull b hbpq⟩
      · -- cost
        have hw' : weights (mergePass s).pq tree' =
            weights rest tree ++ [(tree a).weight + (tree b).weight] := by
          rw [weights, hpq', List.map_append]
          congr 1
          · exact List.map_congr_left fun i hi => by rw [htree' i hi]
          · simp [htreen, HTree.weight]
        have hsw : sortedWeights (weights (mergePass s).pq tree') =
            sortedWeights (((tree a).weight + (tree b).weight) :: weights rest tree) := by
          apply sortedWeights_eq
          · refine (sortedWeights_perm _).trans ?_
            rw [hw']
            exact (List.perm_append_singleton _ _).symm
          · exact sortedWeights_pairwise _
        have hwp : (weights s.pq tree).Perm ((tree a).weight :: (tree b).weight :: weights rest tree) :=
          hperm.map _
        have hwsum : (weights (mergePass s).pq tree').sum = (weights s.pq tree).sum := by
          rw [hw', hwp.sum_eq]
          simp only [List.sum_append, List.sum_cons, List.sum_nil]
          omega
        have hcost' : ((mergePass s).pq.map fun i => (tree' i).cost).sum =
            (s.pq.map fun i => (tree i).cost).sum + ((tree a).weight + (tree b).weight) := by
          rw [hpq', List.map_append, List.sum_append, (hperm.map fun i => (tree i).cost).sum_eq]
          have : rest.map (fun i => (tree' i).cost) = rest.map fun i => (tree i).cost :=
            List.map_congr_left fun i hi => by rw [htree' i hi]
          rw [this]
          simp only [List.map_cons, List.map_nil, List.sum_cons, List.sum_nil, htreen, HTree.cost]
          omega
        have before_le : ∀ {x y : Nat}, x ∈ s.pq → y ∈ s.pq → y = x ∨ queueBefore s.nodeAt x y = true →
            (tree x).weight ≤ (tree y).weight := by
          intro x y hx hy hxy
          rcases hxy with rfl | hxy
          · exact le_refl _
          · simp only [queueBefore, decide_eq_true_eq, (hf.holds x hx).freq, (hf.holds y hy).freq] at hxy
            omega
        have hwab : (tree a).weight ≤ (tree b).weight := before_le ham hbpq (hall b hbpq)
        have hwb : ∀ z ∈ weights rest tree, (tree b).weight ≤ z := by
          intro z hz
          obtain ⟨i, hi, rfl⟩ := List.mem_map.1 hz
          refine before_le hbpq (hsub.subset hi) (hball i ?_)
          rw [← hrest] at hi
          exact List.mem_of_mem_erase hi
        -- the claim with at least one merge left in the round
        have claim : ∀ j r, s.pq.length = 2 ^ j + (r + 1) → r + 1 ≤ 2 ^ j →
            T.cost ≤ (s.pq.map fun i => (tree i).cost).sum + j * (weights s.pq tree).sum +
              ((sortedWeights (weights s.pq tree)).take (2 * (r + 1))).sum := by
          intro j r hj hr
          have h6 := k6 j r (by omega) (by omega)
          rw [hsw, hwsum, hcost'] at h6
          have hbud := merge_budget (r := r) hwp hwab hwb (by simp [weights]; omega)
          omega
        intro j r hj hr
        cases r with
        | succ r => exact claim j r hj hr
        | zero =>
          cases j with
          | zero => simp at hj; omega
          | succ j =>
            have hpow : 2 ^ (j + 1) = 2 ^ j + 2 ^ j := by ring
            obtain ⟨r, hr'⟩ : ∃ r, 2 ^ j = r + 1 := ⟨2 ^ j - 1, by have := Nat.two_pow_pos j; omega⟩
            have := claim j r (by omega) (by omega)
            have htk := sum_take_le (weights s.pq tree) (2 * (r + 1))
            rw [Nat.add_mul, one_mul]
            omega
      · intro _
        by_cases h2 : 2 ≤ (mergePass s).pq.length
        · exact k7 h2
        · have hr0 : rest = [] := by
            rw [hlen'] at h2
            exact List.length_eq_zero_iff.1 (by omega)
          have hpq1 : (mergePass s).pq = [s.ncount] := by rw [hpq', hr0]; rfl
          have hstop : mergeLoop passes (mergePass s) = mergePass s := by
            cases passes with
            | zero => rfl
            | succ n => rw [mergeLoop, if_neg (by omega)]
          rw [hstop] at k1 ⊢
          rw [hpq1] at k1
          cases k1
          rw [hnc']
      · intro k hk
        rw [k8 k (by omega), hold k hk]
      · rw [k9, hpass]
        rfl
    · -- one member: the loop is over
      have hl1 : s.pq.length = 1 := by
        have : s.pq.length ≠ 0 := fun e => hpos (List.length_eq_zero_iff.1 e)
        omega
      obtain ⟨i, hi⟩ := List.length_eq_one_iff.1 hl1
      rw [mergeLoop, if_neg h1]
      refine ⟨i, tree i, hi, hf.holds i (by rw [hi]; simp), by omega, by simp [hi], fun h => h i (by rw [hi]; simp), ?_,
        fun h => by omega, fun _ _ => rfl, rfl⟩
      intro j r _ _
      simp [hi]
      omega

end merge

end Sys2Proof.Machine
end

