-- ==== Sys2Proof/Laws/Build.lean ====
section
/-! SUPPORT. The tree that TB_INIT, TB_MERGE and TB_FIX1 build from a frequency table, and the code lengths WALK reads
from it (41_tree_builder.md R117 to R120, 42_code_assigner.md R130 to R132, 45_orchestration.md R232). -/

namespace Sys2Proof.Machine

/-- The three tree operations in the order of the ENCODE program (45_orchestration.md R201). -/
def buildTree (s : State) : State := fixOne (mergeTree (initTree s))

/-- The leaves of the symbols counted. -/
def countedLeaves (freq : Vector Nat 256) : List (Byte × Nat) := (present freq).map fun b => (b, tab freq b)

/-- The sum of the counters (40_frequency.md R101). -/
def total (freq : Vector Nat 256) : Nat := ((present freq).map (tab freq)).sum

/-- The queue after TB_INIT as a forest of leaves. -/
def leafTree (freq : Vector Nat 256) (i : Nat) : HTree :=
  match (present freq)[i]? with
  | some b => .leaf (tab freq b) b
  | none => .leaf 0 0

theorem leafTree_eq {freq : Vector Nat 256} {i : Nat} (h : i < (present freq).length) :
    leafTree freq i = .leaf (tab freq (present freq)[i]) (present freq)[i] := by
  simp [leafTree, h]

theorem initTree_forest (s : State) : Forest (initTree s) (leafTree s.freq) := by
  obtain ⟨h1, -, h3, h4, -⟩ := initTree_spec s
  refine ⟨by rw [h3]; exact List.pairwise_lt_range, ?_⟩
  intro i hi
  rw [h3, List.mem_range] at hi
  rw [leafTree_eq hi]
  exact .leaf (by omega) (h4 i hi)

theorem map_range_leafTree {α : Type} (freq : Vector Nat 256) (f : HTree → α) :
    (List.range (present freq).length).map (fun i => f (leafTree freq i)) =
      (present freq).map fun b => f (.leaf (tab freq b) b) := by
  apply List.ext_getElem
  · simp
  · intro i h1 h2
    have hi : i < (present freq).length := by simpa using h1
    simp [leafTree_eq hi]

theorem takeRoot_eq {s : State} {i : Nat} (h : s.pq = [i]) : takeRoot s = { s with pq := [], root := i } := by
  have : extractMin s = some (i, { s with pq := [] }) := by simp [extractMin, h, pqLeast]
  simp [takeRoot, this]

/-- A number of symbols as TB_MERGE's cost bound takes it. -/
theorem exists_round {n : Nat} (h2 : 2 ≤ n) (h : n ≤ 256) : ∃ j r, n = 2 ^ j + r ∧ r ≤ 2 ^ j ∧ j ≤ 7 := by
  by_cases h7 : 128 ≤ n
  · exact ⟨7, n - 128, by norm_num; omega, by norm_num; omega, le_refl 7⟩
  · refine ⟨Nat.log 2 n, n - 2 ^ Nat.log 2 n, ?_, ?_, ?_⟩
    · have := Nat.pow_log_le_self 2 (x := n) (by omega)
      omega
    · have := Nat.lt_pow_succ_log_self (b := 2) (by omega) n
      rw [Nat.succ_eq_add_one, pow_succ] at this
      omega
    · have : Nat.log 2 n < 8 := Nat.log_lt_of_lt_pow (by omega) (by norm_num; omega)
      omega

/-- What TB_INIT and TB_MERGE leave of a table with a counter that is not 0 (41_tree_builder.md R117, R120;
45_orchestration.md R232). -/
theorem mergeTree_spec (s : State) (hpos : present s.freq ≠ []) :
    ∃ T, let t := mergeTree (initTree s)
      let n := (present s.freq).length
      Holds t.nodeAt t.ncount t.root T ∧ T.leaves.Perm (countedLeaves s.freq) ∧ T.Full ∧
        t.ncount = 2 * n - 1 ∧ (2 ≤ n → t.root = 2 * n - 2 ∧ T.cost ≤ 8 * total s.freq) ∧
        (n = 1 → t.root = 0) ∧
        t = { s with node := t.node, pq := [], ncount := t.ncount, nsym := n, root := t.root } := by
  obtain ⟨h1, h2, h3, h4, h5⟩ := initTree_spec s
  have hn0 : 0 < (present s.freq).length := List.length_pos_iff.2 hpos
  have hn256 := present_length_le s.freq
  have hpq : (initTree s).pq ≠ [] := by
    intro e
    rw [h3] at e
    have := List.range_eq_nil.1 e
    omega
  have hl : (initTree s).pq.length = (present s.freq).length := by rw [h3]; simp
  obtain ⟨i, T, k1, k2, k3, k4, k5, k6, k7, k8, k9⟩ :=
    mergeLoop_spec (initTree s).pq.length (initTree s) (leafTree s.freq) (initTree_forest s) (le_refl _) hpq (by omega)
  have hroot : mergeTree (initTree s) =
      { mergeLoop (initTree s).pq.length (initTree s) with pq := [], root := i } := takeRoot_eq k1
  generalize hu : mergeLoop (initTree s).pq.length (initTree s) = u at *
  have hw : weights (initTree s).pq (leafTree s.freq) = (present s.freq).map (tab s.freq) := by
    rw [weights, h3, map_range_leafTree s.freq HTree.weight]
    rfl
  have hlow : (present s.freq).length = 1 → i = 0 := by
    intro e
    have hz : u = initTree s := by
      rw [← hu, hl, e, mergeLoop, if_neg (by omega)]
    rw [hz, h3, e] at k1
    simpa using k1.symm
  refine ⟨T, ?_⟩
  rw [hroot]
  refine ⟨k2, ?_, k5 ?_, ?_, ?_, hlow, ?_⟩
  · refine k4.trans ?_
    rw [h3, List.flatMap_def, map_range_leafTree s.freq HTree.leaves]
    simp only [HTree.leaves, countedLeaves]
    rw [List.flatten_eq_flatMap, List.flatMap_map]
    rw [List.map_eq_flatMap]
    simp
  · intro j hj
    rw [h3, List.mem_range] at hj
    rw [leafTree_eq hj]
    trivial
  · show u.ncount = _
    omega
  · intro h2'
    refine ⟨?_, ?_⟩
    · show i = _
      have := k7 (by omega)
      omega
    · obtain ⟨j, r, e1, e2, e3⟩ := exists_round h2' hn256
      have hc := k6 j r (by omega) e2
      have hzero : ((initTree s).pq.map fun i => (leafTree s.freq i).cost).sum = 0 := by
        rw [h3, map_range_leafTree s.freq HTree.cost]
        simp [HTree.cost]
      rw [hzero, hw] at hc
      have htk := sum_take_le ((present s.freq).map (tab s.freq)) (2 * r)
      have : j * ((present s.freq).map (tab s.freq)).sum ≤ 7 * ((present s.freq).map (tab s.freq)).sum :=
        Nat.mul_le_mul_right _ e3
      unfold total
      omega
  · show { u with pq := [], root := i } = _
    rw [k9, h5]
    simp only [h2]

theorem present_nodup (freq : Vector Nat 256) : (present freq).Nodup := allBytes_nodup.filter _

theorem present_pairwise (freq : Vector Nat 256) : (present freq).Pairwise fun a b => a.toNat < b.toNat :=
  allBytes_pairwise.sublist List.filter_sublist

theorem full_of_size_one {t : HTree} (h : t.Full) (hs : t.size = 1) : ∃ f b, t = .leaf f b := by
  cases t with
  | leaf f b => exact ⟨f, b, rfl⟩
  | one l => exact h.elim
  | two l r =>
    have := l.size_pos
    have := r.size_pos
    simp only [HTree.size] at hs
    omega

theorem nodeAt_set (s : State) (i : Nat) (h : i < 511) (n : Node) (k : Nat) :
    State.nodeAt { s with node := s.node.set i n h } k = if k = i then n else s.nodeAt k := by
  simp only [State.nodeAt]
  rw [Vector.getElem?_set]
  by_cases e : k = i
  · subst e; simp
  · simp [e, Ne.symm e]

/-- What the three tree operations leave of a table with a counter that is not 0 (41_tree_builder.md R116, R117,
R120; 42_code_assigner.md R132; 45_orchestration.md R232). -/
theorem buildTree_spec (s : State) (hpos : present s.freq ≠ []) :
    ∃ T, let t := buildTree s
      let n := (present s.freq).length
      Holds t.nodeAt t.ncount t.root T ∧ T.leaves.Perm (countedLeaves s.freq) ∧ 1 ≤ T.depth ∧ T.depth ≤ max 1 (n - 1) ∧
        ((T.paths []).map fun e => (1 / 2 : ℚ) ^ e.2.length).sum = (if n = 1 then 1 / 2 else 1) ∧
        (n = 1 → T.cost = total s.freq) ∧ (2 ≤ n → T.cost ≤ 8 * total s.freq) ∧
        t.ncount = (if n = 1 then 2 else 2 * n - 1) ∧ t.root + 1 = t.ncount ∧
        t = { s with node := t.node, pq := [], ncount := t.ncount, nsym := n, root := t.root } := by
  obtain ⟨T, h1, h2, h3, h4, h5, h6, h7⟩ := mergeTree_spec s hpos
  have hn0 : 0 < (present s.freq).length := List.length_pos_iff.2 hpos
  unfold buildTree
  generalize mergeTree (initTree s) = u at *
  generalize hn : (present s.freq).length = n at *
  have hnsym : u.nsym = n := by rw [h7]
  have hsize : T.size = n := by rw [← T.leaves_length, h2.length_eq, ← hn]; simp [countedLeaves]
  have hcost : (T.leaves.map (·.2)).sum = total s.freq := by
    rw [(h2.map _).sum_eq, countedLeaves, List.map_map]
    rfl
  by_cases e : n = 1
  · have hfix : fixOne u = { u with node := u.node.set 1 (.inner (u.nodeAt 0).freq 0 none), ncount := 2, root := 1 } := by
      rw [fixOne, if_pos (by omega)]
    obtain ⟨f, b, rfl⟩ := full_of_size_one h3 (by omega)
    have hr := h6 e
    rw [hr] at h1
    have hf : (u.nodeAt 0).freq = f := h1.freq
    have hnode : ∀ k, (fixOne u).nodeAt k = if k = 1 then .inner f 0 none else u.nodeAt k := by
      intro k
      rw [hfix]
      have := nodeAt_set { u with ncount := 2, root := 1 } 1 (by omega) (.inner (u.nodeAt 0).freq 0 none) k
      rw [hf] at this ⊢
      exact this
    have hnc : (fixOne u).ncount = 2 := by rw [hfix]
    have hrt : (fixOne u).root = 1 := by rw [hfix]
    have h0 : u.nodeAt 0 = .leaf f b := by cases h1; assumption
    refine ⟨.one (.leaf f b), ?_, h2, by simp [HTree.depth], by simp [HTree.depth], ?_, ?_, by omega, ?_, ?_, ?_⟩
    · rw [hnc, hrt]
      refine .one (j := 0) (by omega) ?_ (.leaf (by omega) ?_)
      · rw [hnode]; rfl
      · rw [hnode]; exact h0
    · simp [HTree.paths, e]
    · intro _
      simp only [HTree.leaves, List.map_cons, List.map_nil, List.sum_cons, List.sum_nil] at hcost
      simp only [HTree.cost, HTree.weight]
      omega
    · rw [hnc, if_pos e]
    · rw [hnc, hrt]
    · rw [hfix, h7]
  · have hfix : fixOne u = u := by rw [fixOne, if_neg (by omega)]
    rw [hfix]
    have hd := T.depth_lt_size h3
    refine ⟨T, h1, h2, ?_, by omega, ?_, by omega, fun h => (h5 h).2, ?_, ?_, h7⟩
    · cases T with
      | leaf f b => simp only [HTree.size] at hsize; omega
      | one l => exact h3.elim
      | two l r => simp [HTree.depth]
    · rw [T.kraft_full [] h3]
      simp [e]
    · rw [if_neg e]; omega
    · have := (h5 (by omega)).1
      omega

section walk
variable {s : State} {T : HTree}

theorem paths_keys (h : T.leaves.Perm (countedLeaves s.freq)) :
    ((T.paths []).map (·.1)).Perm (present s.freq) := by
  rw [T.paths_map_fst]
  have := h.map (·.1)
  rwa [countedLeaves, List.map_map, show ((fun e : Byte × Nat => e.1) ∘ fun b => (b, tab s.freq b)) = id from rfl,
    List.map_id] at this

theorem paths_keys_nodup (h : T.leaves.Perm (countedLeaves s.freq)) : ((T.paths []).map (·.1)).Nodup :=
  (paths_keys h).nodup_iff.2 (present_nodup _)

/-- The lengths WALK writes are those of the paths, 0 for a symbol without a leaf. -/
theorem len_setPaths_mem (h : T.leaves.Perm (countedLeaves s.freq)) (t : State) {b : Byte} {p : BitStr}
    (hp : (b, p) ∈ T.paths []) : tab (setPaths (T.paths []) t).len b = p.length :=
  tab_foldl_of_mem List.length _ _ (paths_keys_nodup h) hp

theorem len_setPaths_not_mem (h : T.leaves.Perm (countedLeaves s.freq)) (t : State) {b : Byte}
    (hb : b ∉ present s.freq) : tab (setPaths (T.paths []) t).len b = 0 := by
  have hk : b ∉ (T.paths []).map (·.1) := fun e => hb ((paths_keys h).mem_iff.1 e)
  rw [show tab (setPaths (T.paths []) t).len b = tab (Vector.replicate 256 0) b from tab_foldl_of_not_mem List.length _ _ hk]
  simp

theorem exists_path (h : T.leaves.Perm (countedLeaves s.freq)) {b : Byte} (hb : b ∈ present s.freq) :
    ∃ p, (b, p) ∈ T.paths [] := by
  obtain ⟨⟨c, p⟩, he, rfl⟩ := List.mem_map.1 ((paths_keys h).mem_iff.2 hb)
  exact ⟨p, he⟩

theorem path_pos (hd : 1 ≤ T.depth) {b : Byte} {p : BitStr} (hp : (b, p) ∈ T.paths []) : 0 < p.length := by
  cases T with
  | leaf f c => simp [HTree.depth] at hd
  | one l =>
    have := (l.path_length_le _ hp).1
    simp at this
    omega
  | two l r =>
    rcases List.mem_append.1 hp with hp | hp
    · have := (l.path_length_le _ hp).1
      simp at this
      omega
    · have := (r.path_length_le _ hp).1
      simp at this
      omega

/-- The symbols with a code length are those counted (42_code_assigner.md R131). -/
theorem len_pos_iff (h : T.leaves.Perm (countedLeaves s.freq)) (hd : 1 ≤ T.depth) (t : State) (b : Byte) :
    0 < tab (setPaths (T.paths []) t).len b ↔ b ∈ present s.freq := by
  constructor
  · intro hb
    by_contra hc
    rw [len_setPaths_not_mem h t hc] at hb
    omega
  · intro hb
    obtain ⟨p, hp⟩ := exists_path h hb
    rw [len_setPaths_mem h t hp]
    exact path_pos hd hp

theorem len_le_depth (h : T.leaves.Perm (countedLeaves s.freq)) (t : State) (b : Byte) :
    tab (setPaths (T.paths []) t).len b ≤ T.depth := by
  by_cases hb : b ∈ present s.freq
  · obtain ⟨p, hp⟩ := exists_path h hb
    rw [len_setPaths_mem h t hp]
    simpa using (T.path_length_le _ hp).2
  · rw [len_setPaths_not_mem h t hb]
    omega

/-- A sum over the symbols counted is a sum over the paths. -/
theorem sum_present {M : Type} [AddCommMonoid M] (h : T.leaves.Perm (countedLeaves s.freq)) (t : State)
    (f : Byte → Nat → M) :
    ((present s.freq).map fun b => f b (tab (setPaths (T.paths []) t).len b)).sum =
      ((T.paths []).map fun e => f e.1 e.2.length).sum := by
  rw [← ((paths_keys h).map fun b => f b (tab (setPaths (T.paths []) t).len b)).sum_eq, List.map_map]
  congr 1
  apply List.map_congr_left
  rintro ⟨b, p⟩ he
  simp only [Function.comp]
  rw [len_setPaths_mem h t he]

/-- The Kraft sum of the lengths WALK writes (42_code_assigner.md R132). -/
theorem kraft_setPaths (h : T.leaves.Perm (countedLeaves s.freq)) (hd : 1 ≤ T.depth) (t : State) :
    kraftSum (tab (setPaths (T.paths []) t).len) = ((T.paths []).map fun e => (1 / 2 : ℚ) ^ e.2.length).sum := by
  rw [← sum_present h t fun _ k => (1 / 2 : ℚ) ^ k, present, sum_filter_eq, kraftSum]
  congr 1
  apply List.map_congr_left
  intro b _
  have := len_pos_iff h hd t b
  rw [mem_present] at this
  by_cases hb : 0 < tab s.freq b
  · simp only [this.2 hb, hb, decide_true, ite_true]
  · have hz : ¬ 0 < tab (setPaths (T.paths []) t).len b := fun e => hb (this.1 e)
    simp only [hz, hb, decide_false, ite_false, Bool.false_eq_true]

/-- Count times code length, summed over the symbols counted, is the cost of the tree. -/
theorem bits_setPaths (h : T.leaves.Perm (countedLeaves s.freq)) (t : State) :
    ((present s.freq).map fun b => tab s.freq b * tab (setPaths (T.paths []) t).len b).sum = T.cost := by
  rw [sum_present h t fun b k => tab s.freq b * k, T.sum_paths [] (tab s.freq)]
  · simp
  · intro e he
    obtain ⟨b, -, rfl⟩ := List.mem_map.1 (h.mem_iff.1 he)
    rfl

end walk

section sim

/-- Two states whose trees are built alike: the same counts, queue and written nodes. -/
structure TreeSim (s s' : State) : Prop where
  nsym : s'.nsym = s.nsym
  pq : s'.pq = s.pq
  ncount : s'.ncount = s.ncount
  node : ∀ k, k < s.ncount → s'.nodeAt k = s.nodeAt k
  lt : ∀ i ∈ s.pq, i < s.ncount

theorem pqLeast_congr {f g : Nat → Node} {l : List Nat} (h : ∀ i ∈ l, f i = g i) : pqLeast f l = pqLeast g l := by
  induction l with
  | nil => rfl
  | cons i l ih =>
    have ih' := ih fun j hj => h j (List.mem_cons_of_mem _ hj)
    simp only [pqLeast, ih']
    cases hl : pqLeast g l with
    | none => rfl
    | some j =>
      have hj := (pqLeast_spec hl).1
      have hq : queueBefore f j i = queueBefore g j i := by
        unfold queueBefore
        rw [h i (List.mem_cons_self ..), h j (List.mem_cons_of_mem _ hj)]
      simp only [hq]

theorem TreeSim.addNode {s s' : State} (h : TreeSim s s') (n : Node) (hlt : s.ncount < 511) :
    TreeSim (addNode n s) (addNode n s') := by
  refine ⟨h.nsym, ?_, ?_, ?_, ?_⟩
  · simp only [Machine.addNode, h.pq, h.ncount]
  · simp only [Machine.addNode, h.ncount]
  · intro k hk
    rw [nodeAt_addNode n (by rw [h.ncount]; exact hlt), nodeAt_addNode n hlt, h.ncount]
    split
    · rfl
    · exact h.node k (by simp only [Machine.addNode] at hk; omega)
  · intro i hi
    simp only [Machine.addNode] at hi ⊢
    rw [pqInsert_last h.lt] at hi
    rcases List.mem_append.1 hi with hi | hi
    · have := h.lt i hi
      omega
    · rw [List.mem_singleton.1 hi]
      omega

theorem extractMin_congr {s s' : State} (hpq : s'.pq = s.pq) (hn : ∀ i ∈ s.pq, s'.nodeAt i = s.nodeAt i) :
    extractMin s' = (pqLeast s.nodeAt s.pq).map fun i => (i, { s' with pq := s.pq.erase i }) := by
  rw [extractMin, hpq, pqLeast_congr hn]

theorem mergePass_sim {s s' : State} (h : TreeSim s s') (h2 : 2 ≤ s.pq.length) (hlt : s.ncount < 511) :
    TreeSim (mergePass s) (mergePass s') := by
  have hn : ∀ i ∈ s.pq, s'.nodeAt i = s.nodeAt i := fun i hi => h.node i (h.lt i hi)
  obtain ⟨a, ha⟩ := pqLeast_isSome (node := s.nodeAt) (l := s.pq) (by intro e; rw [e] at h2; simp at h2)
  have ham := (pqLeast_spec ha).1
  have hne : s.pq.erase a ≠ [] := by
    intro e
    have := List.length_erase_of_mem ham
    rw [e] at this
    simp at this
    omega
  obtain ⟨b, hb⟩ := pqLeast_isSome (node := s.nodeAt) hne
  have hbm := List.mem_of_mem_erase (pqLeast_spec hb).1
  have e1 : extractMin s = some (a, { s with pq := s.pq.erase a }) := by simp [extractMin, ha]
  have e1' : extractMin s' = some (a, { s' with pq := s.pq.erase a }) := by
    rw [extractMin_congr h.pq hn, ha]; rfl
  have e2 : extractMin { s with pq := s.pq.erase a } = some (b, { s with pq := (s.pq.erase a).erase b }) := by
    have : pqLeast (State.nodeAt { s with pq := s.pq.erase a }) (s.pq.erase a) = some b := hb
    simp [extractMin, this]
  have e2' : extractMin { s' with pq := s.pq.erase a } = some (b, { s' with pq := (s.pq.erase a).erase b }) := by
    have : pqLeast (State.nodeAt { s' with pq := s.pq.erase a }) (s.pq.erase a) = some b := by
      rw [← hb]
      exact pqLeast_congr fun i hi => hn i (List.mem_of_mem_erase hi)
    simp [extractMin, this]
  simp only [mergePass, e1, e1', e2, e2', hn a ham, hn b hbm]
  refine TreeSim.addNode (s := { s with pq := (s.pq.erase a).erase b })
    (s' := { s' with pq := (s.pq.erase a).erase b }) ?_ _ hlt
  exact ⟨h.nsym, rfl, h.ncount, h.node, fun i hi => h.lt i (List.mem_of_mem_erase (List.mem_of_mem_erase hi))⟩

theorem mergePass_length {s : State} (h2 : 2 ≤ s.pq.length) (hlt : ∀ i ∈ s.pq, i < s.ncount) :
    (mergePass s).pq.length = s.pq.length - 1 ∧ (mergePass s).ncount = s.ncount + 1 := by
  obtain ⟨a, b, ha, hb, -, -, e⟩ := mergePass_spec s h2
  rw [e]
  simp only [Machine.addNode]
  rw [pqInsert_last fun i hi => hlt i (List.mem_of_mem_erase (List.mem_of_mem_erase hi))]
  have h1 := List.length_erase_of_mem ha
  have h3 := List.length_erase_of_mem hb
  simp only [List.length_append, List.length_singleton]
  have := List.length_pos_of_mem hb
  exact ⟨by omega, trivial⟩

theorem mergeLoop_sim {s s' : State} (n : Nat) (h : TreeSim s s') (hfit : s.ncount + (s.pq.length - 1) ≤ 511) :
    TreeSim (mergeLoop n s) (mergeLoop n s') := by
  induction n generalizing s s' with
  | zero => exact h
  | succ n ih =>
    simp only [mergeLoop]
    by_cases h2 : 1 < s.pq.length
    · rw [if_pos h2, if_pos (by rw [h.pq]; exact h2)]
      obtain ⟨h3, h4⟩ := mergePass_length h2 h.lt
      exact ih (mergePass_sim h h2 (by omega)) (by omega)
    · rw [if_neg h2, if_neg (by rw [h.pq]; exact h2)]
      exact h

theorem initTree_sim {s s' : State} (h : s'.freq = s.freq) : TreeSim (initTree s) (initTree s') := by
  obtain ⟨h1, h2, h3, h4, -⟩ := initTree_spec s
  obtain ⟨g1, g2, g3, g4, -⟩ := initTree_spec s'
  rw [h] at g1 g2 g3
  refine ⟨g2.trans h2.symm, g3.trans h3.symm, g1.trans h1.symm, ?_, ?_⟩
  · intro k hk
    rw [h1] at hk
    rw [h4 k hk, g4 k (by rw [h]; exact hk)]
    simp only [h]
  · intro i hi
    rw [h3, List.mem_range] at hi
    omega

/-- The tree depends on the counts alone (10_state.md R40; 45_orchestration.md R234). -/
theorem buildTree_sim {s s' : State} (h : s'.freq = s.freq) (hpos : present s.freq ≠ []) :
    TreeSim (buildTree s) (buildTree s') ∧ (buildTree s').root = (buildTree s).root := by
  obtain ⟨h1, h2, h3, -, -⟩ := initTree_spec s
  have hn0 : 0 < (present s.freq).length := List.length_pos_iff.2 hpos
  have hn256 := present_length_le s.freq
  have hl : (initTree s).pq.length = (present s.freq).length := by rw [h3]; simp
  have hne : (initTree s).pq ≠ [] := by
    intro e
    rw [e] at hl
    simp at hl
    omega
  have hsim := mergeLoop_sim (initTree s).pq.length (initTree_sim h) (by omega)
  have hlen' : (initTree s').pq.length = (initTree s).pq.length := by rw [(initTree_sim h).pq]
  obtain ⟨i, -, k1, -, k3, -⟩ :=
    mergeLoop_spec (initTree s).pq.length (initTree s) (leafTree s.freq) (initTree_forest s) (le_refl _) hne (by omega)
  have e : mergeTree (initTree s) = { mergeLoop (initTree s).pq.length (initTree s) with pq := [], root := i } :=
    takeRoot_eq k1
  have e' : mergeTree (initTree s') = { mergeLoop (initTree s).pq.length (initTree s') with pq := [], root := i } := by
    rw [mergeTree, hlen']
    exact takeRoot_eq (by rw [hsim.pq, k1])
  unfold buildTree
  rw [e, e']
  generalize mergeLoop (initTree s).pq.length (initTree s) = u at hsim k3 ⊢
  generalize mergeLoop (initTree s).pq.length (initTree s') = u' at hsim ⊢
  unfold fixOne
  by_cases hs : u.nsym = 1
  · rw [if_pos (by exact hs), if_pos (by exact hsim.nsym.trans hs)]
    refine ⟨⟨hsim.nsym, rfl, rfl, ?_, by simp⟩, rfl⟩
    intro k hk
    have hk' : k < 2 := hk
    have e0 : ∀ (v : State) (n : Node) (k : Nat),
        State.nodeAt { v with pq := [], root := 1, node := v.node.set 1 n, ncount := 2 } k =
          if k = 1 then n else v.nodeAt k := fun v n k => nodeAt_set v 1 (by omega) n k
    have h0 : u'.nodeAt 0 = u.nodeAt 0 := hsim.node 0 (by rw [k3]; omega)
    have h0' : State.nodeAt { u' with pq := [], root := i } 0 = State.nodeAt { u with pq := [], root := i } 0 := h0
    rw [h0']
    refine (e0 u' _ k).trans (Eq.trans ?_ (e0 u _ k).symm)
    by_cases hk1 : k = 1
    · rw [if_pos hk1, if_pos hk1]
    · rw [if_neg hk1, if_neg hk1, show k = 0 by omega, h0]
  · rw [if_neg (by exact hs), if_neg (by rw [show State.nsym { u' with pq := [], root := i } = u.nsym from hsim.nsym]; exact hs)]
    exact ⟨⟨hsim.nsym, rfl, hsim.ncount, hsim.node, by simp⟩, rfl⟩

end sim

end Sys2Proof.Machine
end

