-- ==== Sys2Proof/Laws/Memory.lean ====
section
/-! SUPPORT. The laws of byte memories: read after write, the canonical form, and the addresses that hold a value. -/

namespace Sys2Proof.Machine

namespace Memory

/-- A read after a write; it needs no canonical form. -/
theorem get?_set (m : Memory) (a : Nat) (b : Byte) (x : Nat) :
    (m.set a b).get? x = if x = a then some b else m.get? x := by
  induction m with
  | nil => by_cases e : x = a <;> simp [set, get?, e, eq_comm (a := a)]
  | cons c rest ih =>
    obtain ⟨k, v⟩ := c
    simp only [set]
    split
    · by_cases e : x = a
      · subst e; simp [get?]
      · simp [get?, e, Ne.symm e]
    · split
      · subst_vars
        by_cases e : x = k
        · subst e; simp [get?]
        · simp [get?, e, Ne.symm e]
      · have hka : k ≠ a := by omega
        simp only [get?, ih]
        by_cases e : k = x
        · have : x ≠ a := by omega
          simp [e, this]
        · simp [e]

/-- The addresses of a canonical memory rise strictly. -/
theorem wf_iff (m : Memory) : Memory.wf m = true ↔ (m.map (·.1)).Pairwise (· < ·) := by
  induction m with
  | nil => simp [wf]
  | cons c rest ih =>
    cases rest with
    | nil => simp [wf]
    | cons d rest =>
      obtain ⟨k, v⟩ := c
      obtain ⟨k', v'⟩ := d
      simp only [wf, Bool.and_eq_true, decide_eq_true_eq, ih, List.map_cons, List.pairwise_cons, List.mem_cons,
        forall_eq_or_imp]
      constructor
      · rintro ⟨h1, h2, h3⟩
        exact ⟨⟨h1, fun a ha => lt_trans h1 (h2 a ha)⟩, h2, h3⟩
      · rintro ⟨⟨h1, _⟩, h2, h3⟩
        exact ⟨h1, h2, h3⟩

theorem mem_set {m : Memory} {a : Nat} {b : Byte} {c : Host.Cell} (h : c ∈ m.set a b) : c = (a, b) ∨ c ∈ m := by
  induction m with
  | nil => simpa [set] using h
  | cons d rest ih =>
    obtain ⟨k, v⟩ := d
    simp only [set] at h
    split at h
    · simpa using h
    · split at h
      · simp only [List.mem_cons] at h ⊢
        tauto
      · simp only [List.mem_cons] at h ⊢
        rcases h with h | h
        · exact .inr (.inl h)
        · rcases ih h with h | h <;> tauto

/-- A write keeps the canonical form. -/
theorem wf_set {m : Memory} (a : Nat) (b : Byte) (h : Memory.wf m = true) : Memory.wf (m.set a b) = true := by
  rw [wf_iff] at h ⊢
  induction m with
  | nil => simp [set]
  | cons d rest ih =>
    obtain ⟨k, v⟩ := d
    simp only [List.map_cons, List.pairwise_cons] at h
    simp only [set]
    split
    · simp only [List.map_cons, List.pairwise_cons, List.mem_cons, forall_eq_or_imp]
      exact ⟨⟨‹_›, fun x hx => lt_trans ‹_› (h.1 x hx)⟩, h⟩
    · split
      · subst_vars
        simpa using h
      · simp only [List.map_cons, List.pairwise_cons]
        refine ⟨?_, ih h.2⟩
        intro x hx
        obtain ⟨c, hc, rfl⟩ := List.mem_map.1 hx
        rcases mem_set hc with rfl | hc
        · show k < a
          omega
        · exact h.1 _ (List.mem_map_of_mem hc)

theorem wf_setBytes {m : Memory} (a : Nat) (bs : List Byte) (h : Memory.wf m = true) :
    Memory.wf (m.setBytes a bs) = true := by
  induction bs generalizing m a with
  | nil => exact h
  | cons b bs ih => exact ih _ (wf_set _ _ h)

/-- Releasing addresses keeps the canonical form. -/
theorem wf_filter {m : Memory} (p : Host.Cell → Bool) (h : Memory.wf m = true) : Memory.wf (m.filter p) = true := by
  rw [wf_iff] at h ⊢
  exact h.sublist ((List.filter_sublist).map _)

/-- A read after a write of consecutive bytes. -/
theorem get?_setBytes {m : Memory} (a : Nat) (bs : List Byte) (x : Nat) :
    (m.setBytes a bs).get? x = if a ≤ x ∧ x < a + bs.length then bs[x - a]? else m.get? x := by
  induction bs generalizing m a with
  | nil =>
    simp [setBytes]
  | cons b bs ih =>
    rw [setBytes, ih (a + 1), get?_set m a b x]
    simp only [List.length_cons]
    by_cases e : x = a
    · subst e
      simp [show ¬ x + 1 ≤ x by omega]
    · by_cases l : a + 1 ≤ x ∧ x < a + 1 + bs.length
      · have e1 : a ≤ x ∧ x < a + (bs.length + 1) := by omega
        have e2 : x - a = (x - (a + 1)) + 1 := by omega
        simp [l, e1, e2]
      · have e1 : ¬ (a ≤ x ∧ x < a + (bs.length + 1)) := by omega
        rw [if_neg l, if_neg e1, if_neg e]

/-- An address that no cell has holds no value. -/
theorem get?_eq_none {m : Memory} {x : Nat} (h : x ∉ m.map (·.1)) : m.get? x = none := by
  induction m with
  | nil => rfl
  | cons c rest ih =>
    obtain ⟨k, v⟩ := c
    simp only [List.map_cons, List.mem_cons, not_or] at h
    simp [get?, ih h.2, Ne.symm h.1]

/-- Appending above the addresses listed. -/
theorem set_append {m : Memory} {n : Nat} (b : Byte) (h : m.map (·.1) = List.range n) :
    m.set n b = m ++ [(n, b)] := by
  have hlt : ∀ c ∈ m, c.1 < n := fun c hc => by
    have := List.mem_map_of_mem (f := (·.1)) hc
    rw [h] at this
    simpa using this
  clear h
  induction m with
  | nil => rfl
  | cons c rest ih =>
    obtain ⟨k, v⟩ := c
    have hk : k < n := hlt _ (List.mem_cons_self ..)
    simp [set, show ¬ n < k by omega, show n ≠ k by omega, ih fun c hc => hlt c (List.mem_cons_of_mem _ hc)]

theorem addresses_set {m : Memory} {n : Nat} (b : Byte) (h : m.map (·.1) = List.range n) :
    (m.set n b).map (·.1) = List.range (n + 1) := by
  rw [set_append b h, List.map_append, h, List.range_succ]
  rfl

theorem addresses_setBytes {m : Memory} {n : Nat} (bs : List Byte) (h : m.map (·.1) = List.range n) :
    (m.setBytes n bs).map (·.1) = List.range (n + bs.length) := by
  induction bs generalizing m n with
  | nil => simpa [setBytes] using h
  | cons b bs ih =>
    rw [setBytes, ih (addresses_set b h)]
    simp [Nat.add_assoc, Nat.add_comm 1]

theorem wf_of_addresses {m : Memory} {n : Nat} (h : m.map (·.1) = List.range n) : Memory.wf m = true := by
  rw [wf_iff, h]
  exact List.pairwise_lt_range

/-- Releasing what lies at or above `n` of a memory whose addresses are all below `n` changes nothing. -/
theorem filter_lt {m : Memory} {n : Nat} (h : m.map (·.1) = List.range n) :
    m.filter (fun c => decide (c.1 < n)) = m := by
  rw [List.filter_eq_self]
  intro c hc
  have := List.mem_map_of_mem (f := (·.1)) hc
  rw [h] at this
  simpa using this

theorem filter_lt_zero (m : Memory) : m.filter (fun c => decide (c.1 < 0)) = [] := by
  simp

/-- What is listed below `n` is kept. -/
theorem get?_filter_lt (m : Memory) (n x : Nat) :
    Memory.get? (m.filter fun c => decide (c.1 < n)) x = if x < n then m.get? x else none := by
  induction m with
  | nil => simp [get?]
  | cons c rest ih =>
    obtain ⟨k, v⟩ := c
    by_cases hk : k < n
    · simp only [List.filter_cons, hk, decide_true, ite_true, get?, ih]
      by_cases e : k = x
      · subst e; simp [hk]
      · simp [e]
    · simp only [List.filter_cons, hk, decide_false, Bool.false_eq_true, ite_false, get?, ih]
      by_cases e : k = x
      · subst e; simp [hk]
      · simp [e]

end Memory

end Sys2Proof.Machine
end

