-- ==== Sys2Proof/Laws/Container.lean ====
section
/-! SUPPORT. The laws of the container (44_container.md): the packed bytes, the layout SERIALIZE writes, and what
DESERIALIZE reads back from it. -/

namespace Sys2Proof.Machine

theorem testBit_bitsVal (l : BitStr) (i : Nat) (hi : i < l.length) :
    (bitsVal l).testBit (l.length - 1 - i) = l[i] := by
  induction l using List.reverseRecOn generalizing i with
  | nil => simp at hi
  | append_singleton l b ih =>
    rw [bitsVal_append_one]
    simp only [List.length_append, List.length_singleton] at hi ⊢
    by_cases e : i = l.length
    · subst e
      simp [Nat.testBit_zero]
      cases b <;> simp
    · have hi' : i < l.length := by omega
      rw [show l.length + 1 - 1 - i = (l.length - 1 - i) + 1 by omega, Nat.testBit_succ,
        show (2 * bitsVal l + b.toNat) / 2 = bitsVal l by (cases b <;> simp); omega, ih i hi']
      simp [hi']

@[simp] theorem packBits_length (bits : BitStr) : (packBits bits).length = ceil8 bits.length := by simp [packBits]

/-- The bits of a packed stream, padding included (30_encoding.md R77). -/
theorem streamBit_packBits (bits : BitStr) (k : Nat) (hk : k < 8 * ceil8 bits.length) :
    streamBit (packBits bits) k = some ((bits[k]?).getD false) := by
  have hj : k / 8 < ceil8 bits.length := by omega
  have hget : (packBits bits)[k / 8]? =
      some (BitVec.ofNat 8 (bitsVal ((List.range 8).map fun i => (bits[8 * (k / 8) + i]?).getD false))) := by
    simp [packBits, hj]
  rw [streamBit_eq, hget, Option.map_some]
  congr 1
  have hb := testBit_bitsVal ((List.range 8).map fun i => (bits[8 * (k / 8) + i]?).getD false) (k % 8)
    (by simp; omega)
  simp only [List.length_map, List.length_range, List.getElem_map, List.getElem_range] at hb
  rw [BitVec.getLsbD_ofNat, hb]
  simp only [show 7 - k % 8 < 8 by omega, decide_true, Bool.true_and]
  rw [show 8 * (k / 8) + k % 8 = k by omega]

/-- A buffer is known by its bits. -/
theorem buffer_ext {a b : List Byte} (hl : a.length = b.length)
    (h : ∀ k, k < 8 * a.length → streamBit a k = streamBit b k) : a = b := by
  apply List.ext_getElem hl
  intro i h1 h2
  apply BitVec.eq_of_getLsbD_eq
  intro j hj
  have := h (8 * i + (7 - j)) (by omega)
  rw [streamBit_eq, streamBit_eq, show (8 * i + (7 - j)) / 8 = i by omega, show 7 - (8 * i + (7 - j)) % 8 = j by omega,
    List.getElem?_eq_getElem h1, List.getElem?_eq_getElem h2] at this
  simpa using this

/-- What a writer with these bits holds is the packed stream (43_bit_io.md R154). -/
theorem pushBits_eq_packBits (bits : BitStr) : (pushBits ([], 0) bits).1 = packBits bits := by
  obtain ⟨⟨h1, h2⟩, h3, h4⟩ := packed_pushBits bits
  rw [h3] at h1 h2
  apply buffer_ext (by rw [h1, packBits_length])
  intro k hk
  rw [streamBit_packBits _ _ (by rwa [← h1])]
  by_cases e : k < bits.length
  · rw [h4 k e, List.getElem?_eq_getElem e]
    rfl
  · rw [h2 k (by omega) hk, List.getElem?_eq_none (by omega)]
    rfl

theorem streamBits_packBits (bits : BitStr) : streamBits (packBits bits) 0 bits.length = bits := by
  rw [← pushBits_eq_packBits]
  exact streamBits_pushBits bits

section layout

/-- The table bytes of a table. -/
abbrev tableOf (table : List (Byte × Byte)) : List Byte := table.flatMap fun e => [e.1, e.2]

theorem tableOf_length (table : List (Byte × Byte)) : (tableOf table).length = 2 * table.length := by
  induction table with
  | nil => rfl
  | cons e l ih => simp [tableOf] at ih ⊢; omega

theorem tableOf_get {table : List (Byte × Byte)} {i : Nat} (h : i < table.length) :
    (tableOf table)[2 * i]? = some table[i].1 ∧ (tableOf table)[2 * i + 1]? = some table[i].2 := by
  induction table generalizing i with
  | nil => simp at h
  | cons e l ih =>
    cases i with
    | zero => simp [tableOf]
    | succ i =>
      have := ih (i := i) (by simpa using h)
      simp only [tableOf, List.flatMap_cons, List.getElem_cons_succ] at this ⊢
      rw [show 2 * (i + 1) = 2 * i + 1 + 1 by omega]
      simpa using this

theorem containerBytes_length (p : Params) (origlen : Nat) (table : List (Byte × Byte)) (bitcount : Nat)
    (payload : List Byte) :
    (containerBytes p origlen table bitcount payload).length = 19 + 2 * table.length + payload.length := by
  have := tableOf_length table
  simp only [containerBytes, List.length_append, Vector.length_toList, List.length_singleton, beBytes_length, this]
  omega

theorem artifactBytes_length (p : Params) (origlen : Nat) (table : List (Byte × Byte)) (bits : BitStr) :
    (artifactBytes p origlen table bits).length = 19 + 2 * table.length + ceil8 bits.length := by
  rw [artifactBytes, containerBytes_length, packBits_length]

theorem tableBytes_eq {s : State} (h : s.cNsym = s.cTab.length) : s.tableBytes = tableOf s.cTab := by
  unfold State.tableBytes tableOf
  rw [h]
  have : s.cTab = (List.range s.cTab.length).map fun i => s.tabEntry i := by
    apply List.ext_getElem
    · simp
    · intro i h1 h2
      simp [State.tabEntry, h1]
  conv_rhs => rw [this]
  rw [List.flatMap_map]

/-- The bytes SERIALIZE writes, of a table that may be shorter than its count (44_container.md R170; log 20). -/
theorem artifact_entries (s : State) :
    s.artifact = containerBytes s.par s.cOriglen ((List.range s.cNsym).map s.tabEntry) s.cBitcount s.cPayload := by
  simp only [State.artifact, containerBytes, State.tableBytes, List.length_map, List.length_range, List.flatMap_map]

/-- The bytes SERIALIZE writes (44_container.md R170). -/
theorem artifact_container {s : State} (h : s.cNsym = s.cTab.length) :
    s.artifact = containerBytes s.par s.cOriglen s.cTab s.cBitcount s.cPayload := by
  rw [State.artifact, containerBytes, tableBytes_eq h, h]

theorem artifact_eq {s : State} {bits : BitStr} (h : s.cNsym = s.cTab.length) (hb : s.cBitcount = bits.length)
    (hp : s.cPayload = packBits bits) : s.artifact = artifactBytes s.par s.cOriglen s.cTab bits := by
  rw [artifact_container h, artifactBytes, hb, hp]

theorem artifact_length (s : State) : s.artifact.length = s.artifactLen := by
  have : s.tableBytes.length = 2 * s.cNsym := by
    unfold State.tableBytes
    induction s.cNsym with
    | zero => rfl
    | succ n ih => rw [List.range_succ, List.flatMap_append, List.length_append, ih]; simp; omega
  simp only [State.artifact, State.artifactLen, List.length_append, Vector.length_toList, List.length_singleton,
    beBytes_length, this]
  omega

end layout

section input
variable {s : State} {A : List Byte}

/-- The bytes of IN are a list's. -/
def InputIs (s : State) (A : List Byte) : Prop := ∀ i (h : i < A.length), s.inByte i = A[i]

theorem inRange_eq (h : InputIs s A) {a n : Nat} (hn : a + n ≤ A.length) : s.inRange a n = (A.drop a).take n := by
  apply List.ext_getElem
  · simp [State.inRange]; omega
  · intro i h1 h2
    have hi : i < n := by simpa [State.inRange] using h1
    simp only [State.inRange, List.getElem_map, List.getElem_range, List.getElem_take, List.getElem_drop]
    exact h _ (by omega)

/-- A field of IN: what stands between the bytes before it and those after it. -/
theorem inRange_field (h : InputIs s A) {pre f post : List Byte} (e : A = pre ++ f ++ post) {a n : Nat}
    (ha : pre.length = a) (hn : f.length = n) : s.inRange a n = f := by
  subst ha; subst hn
  rw [inRange_eq h (by rw [e]; simp), e, List.append_assoc, List.drop_left', List.take_left'] <;> rfl

theorem inByte_field (h : InputIs s A) {pre post : List Byte} {b : Byte} (e : A = pre ++ b :: post) {a : Nat}
    (ha : pre.length = a) : s.inByte a = b := by
  subst ha
  rw [h _ (by rw [e]; simp)]
  simp [e]

end input

section table
variable {s : State}

/-- The first `n` table entries of IN. -/
def State.entries (s : State) (n : Nat) : List (Byte × Byte) :=
  (List.range n).map fun i => (s.inByte (15 + 2 * i), s.inByte (16 + 2 * i))

/-- The length table of a list of entries (44_container.md R188). -/
def lenOf (table : List (Byte × Byte)) : Vector Nat 256 :=
  table.foldl (fun t e => tabSet t e.1 e.2.toNat) (Vector.replicate 256 0)

theorem entries_succ (s : State) (n : Nat) :
    s.entries (n + 1) = s.entries n ++ [(s.inByte (15 + 2 * n), s.inByte (16 + 2 * n))] := by
  simp [State.entries, List.range_succ]

theorem lenOf_append (a : List (Byte × Byte)) (e : Byte × Byte) :
    lenOf (a ++ [e]) = tabSet (lenOf a) e.1 e.2.toNat := by
  simp [lenOf]

theorem outOfOrder_entries (s : State) (n : Nat) (sym : Byte) :
    outOfOrder (s.entries n) sym = decide (0 < n ∧ sym.toNat ≤ (s.inByte (13 + 2 * n)).toNat) := by
  cases n with
  | zero => simp [outOfOrder, State.entries]
  | succ n =>
    rw [entries_succ]
    simp only [outOfOrder, List.getLast?_append, List.getLast?_singleton, Option.some_or,
      show 15 + 2 * n = 13 + 2 * (n + 1) by omega, Nat.zero_lt_succ, true_and]

/-- The state of the table loop before entry `k`. -/
def State.atEntry (s : State) (k : Nat) : State := { s with cTab := s.entries k, len := lenOf (s.entries k) }

theorem tableLoop_cons (s : State) (k : Nat) (rest : List Nat) :
    tableLoop (k :: rest) (s.atEntry k) =
      if s.inByte (16 + 2 * k) = 0x00#8 then .raised .zeroLength (s.atEntry k)
      else if 0 < k ∧ (s.inByte (15 + 2 * k)).toNat ≤ (s.inByte (13 + 2 * k)).toNat then
        .raised .symbolOrder (s.atEntry k)
      else tableLoop rest (s.atEntry (k + 1)) := by
  have e1 : ∀ i, (s.atEntry k).inByte i = s.inByte i := fun _ => rfl
  have e2 : (s.atEntry k).cTab = s.entries k := rfl
  have e3 : (s.atEntry k).len = lenOf (s.entries k) := rfl
  have e4 : ({ s.atEntry k with
      cTab := s.entries k ++ [(s.inByte (15 + 2 * k), s.inByte (16 + 2 * k))]
      len := tabSet (lenOf (s.entries k)) (s.inByte (15 + 2 * k)) (s.inByte (16 + 2 * k)).toNat } : State) =
      s.atEntry (k + 1) := by
    unfold State.atEntry
    rw [entries_succ, lenOf_append]
  simp only [tableLoop, e1, e2, e3, outOfOrder_entries, decide_eq_true_eq, e4]

theorem entryOk_iff (s : State) (k : Nat) :
    EntryOk s k ↔ s.inByte (16 + 2 * k) ≠ 0x00#8 ∧
      ¬ (0 < k ∧ (s.inByte (15 + 2 * k)).toNat ≤ (s.inByte (13 + 2 * k)).toNat) := by
  unfold EntryOk
  constructor
  · rintro ⟨h1, h2⟩
    exact ⟨h1, fun ⟨h3, h4⟩ => by have := h2 h3; omega⟩
  · rintro ⟨h1, h2⟩
    exact ⟨h1, fun h3 => by by_contra h4; exact h2 ⟨h3, by omega⟩⟩

/-- A table whose entries pass their checks is read whole (44_container.md R184). -/
theorem tableLoop_done (m k : Nat) (h : ∀ i, k ≤ i → i < k + m → EntryOk s i) :
    tableLoop (List.range' k m) (s.atEntry k) = .done () (s.atEntry (k + m)) := by
  induction m generalizing k with
  | zero => rfl
  | succ m ih =>
    have hk := (entryOk_iff s k).1 (h k (le_refl k) (by omega))
    rw [List.range'_succ, tableLoop_cons, if_neg hk.1, if_neg hk.2, ih (k + 1) fun i h1 h2 => h i (by omega) (by omega)]
    congr 2
    omega

/-- The first entry that fails a check raises (44_container.md R184). -/
theorem tableLoop_raised (m k i : Nat) (hki : k ≤ i) (him : i < k + m) (h : ∀ j, k ≤ j → j < i → EntryOk s j)
    (hi : ¬ EntryOk s i) :
    tableLoop (List.range' k m) (s.atEntry k) =
      .raised (if s.inByte (16 + 2 * i) = 0x00#8 then .zeroLength else .symbolOrder) (s.atEntry i) := by
  induction m generalizing k with
  | zero => omega
  | succ m ih =>
    rw [List.range'_succ, tableLoop_cons]
    by_cases e : k = i
    · subst e
      rw [entryOk_iff] at hi
      by_cases h0 : s.inByte (16 + 2 * k) = 0x00#8
      · rw [if_pos h0, if_pos h0]
      · rw [if_neg h0, if_neg h0, if_pos (by tauto)]
    · have hk := (entryOk_iff s k).1 (h k (le_refl k) (by omega))
      rw [if_neg hk.1, if_neg hk.2, ih (k + 1) (by omega) (by omega) fun j h1 h2 => h j (by omega) h2]

theorem atEntry_zero (s : State) : ({ s with len := Vector.replicate 256 0, cTab := [] } : State) = s.atEntry 0 := rfl

theorem readTable_done (h : ∀ i, i < s.cNsym → EntryOk s i) (hn : 15 + 2 * s.cNsym ≤ s.inLen.toNat) :
    readTable s = readPayload (s.atEntry s.cNsym) := by
  rw [readTable, if_neg (by omega), atEntry_zero, List.range_eq_range', tableLoop_done _ _ fun i _ h2 => h i (by omega)]
  simp

theorem readTable_raised {i : Nat} (hin : i < s.cNsym) (h : ∀ j, j < i → EntryOk s j) (hi : ¬ EntryOk s i)
    (hn : 15 + 2 * s.cNsym ≤ s.inLen.toNat) :
    readTable s = .raised (if s.inByte (16 + 2 * i) = 0x00#8 then .zeroLength else .symbolOrder) (s.atEntry i) := by
  rw [readTable, if_neg (by omega), atEntry_zero, List.range_eq_range',
    tableLoop_raised _ _ i (by omega) (by omega) (fun j _ h2 => h j h2) hi]

/-- `LEN` after a table: the entry's length for a symbol listed, 0 for every other (44_container.md R188). -/
theorem tab_lenOf_mem {table : List (Byte × Byte)} (hn : (table.map (·.1)).Nodup) {b l : Byte} (h : (b, l) ∈ table) :
    tab (lenOf table) b = l.toNat :=
  tab_foldl_of_mem BitVec.toNat _ _ hn h

theorem tab_lenOf_not_mem {table : List (Byte × Byte)} {b : Byte} (h : b ∉ table.map (·.1)) :
    tab (lenOf table) b = 0 := by
  rw [show tab (lenOf table) b = tab (Vector.replicate 256 0) b from tab_foldl_of_not_mem BitVec.toNat _ _ h]
  simp

/-- `LEN` after a table (44_container.md R188). -/
theorem tab_lenOf {table : List (Byte × Byte)} (hn : (table.map (·.1)).Nodup) (b : Byte) :
    tab (lenOf table) b = tableLen table b := by
  unfold tableLen
  cases hf : table.find? fun e => e.1 == b with
  | none =>
    rw [List.find?_eq_none] at hf
    rw [tab_lenOf_not_mem]
    · rfl
    · intro hm
      obtain ⟨e, he, rfl⟩ := List.mem_map.1 hm
      exact hf e he (by simp)
  | some e =>
    have h1 := List.mem_of_find?_eq_some hf
    have h2 := List.find?_some hf
    simp only [beq_iff_eq] at h2
    subst h2
    rw [tab_lenOf_mem hn (show (e.1, e.2) ∈ table from h1)]
    rfl

theorem TableWf.nodup {table : List (Byte × Byte)} (h : TableWf table) : (table.map (·.1)).Nodup := by
  refine List.pairwise_map.2 ((List.pairwise_map.1 h.ascending).imp ?_)
  intro a b hab e
  rw [e] at hab
  omega

end table

section header
variable {s : State}

/-- `deserialize` past the header checks. -/
theorem deserialize_header (hn : 15 ≤ s.inLen.toNat) (ht : TagOk s) :
    deserialize s =
      if 256 < s.countField then
        .raised .symbolCountTooLarge { s with cOriglen := s.memRead 5 8, cNsym := s.countField }
      else readTable { s with cOriglen := s.memRead 5 8, cNsym := s.countField } := by
  have hm : s.inRange 0 4 = s.par.magic.toList := by
    apply List.ext_getElem
    · simp [State.inRange]
    · intro i h1 h2
      have hi : i < 4 := by simpa using h2
      simp [State.inRange, ht.1 i hi]
  have hc : s.memRead 13 2 = s.countField := by
    simp [State.memRead, State.countField, beNat, State.inRange, List.range_succ]
    omega
  have hc' : State.memRead { s with cOriglen := s.memRead 5 8 } 13 2 = s.countField := hc
  simp only [deserialize, hm, ht.2, hc', show ¬ s.inLen.toNat < 4 by omega, show ¬ s.inLen.toNat < 5 by omega,
    show ¬ s.inLen.toNat < 13 by omega, show ¬ s.inLen.toNat < 15 by omega, ite_false, ne_eq, not_true]

theorem memRead_bitField (s : State) (n : Nat) : s.memRead (15 + 2 * n) 4 = s.bitField n := by
  simp only [State.memRead, State.bitField, beNat, State.inRange, List.range_succ, List.range_zero, List.nil_append,
    List.cons_append, List.map_cons, List.map_nil, List.foldl_cons, List.foldl_nil]
  rw [show 15 + 2 * n + 1 = 16 + 2 * n by omega, show 15 + 2 * n + 2 = 17 + 2 * n by omega,
    show 15 + 2 * n + 3 = 18 + 2 * n by omega]
  simp only [Nat.add_zero]
  omega

end header

section accept
variable {s : State}

/-- The payload part of DESERIALIZE when no check fails (44_container.md R185, R187, R188). -/
theorem readPayload_done (hn : s.inLen.toNat = 19 + 2 * s.cNsym + ceil8 (s.bitField s.cNsym))
    (hfit : s.inLen.toNat ≤ s.par.inCap) (h0 : s.cNsym = 0 ↔ s.cOriglen = 0)
    (hb : s.cNsym = 0 → s.bitField s.cNsym = 0) :
    readPayload s = .done ()
      { s with
        cBitcount := s.bitField s.cNsym
        cPayload := s.inRange (19 + 2 * s.cNsym) (ceil8 (s.bitField s.cNsym))
        nsym := s.cNsym } := by
  have e1 : s.inLen.toNat - (19 + 2 * s.cNsym) = ceil8 (s.bitField s.cNsym) := by omega
  have e3 : ∀ b, State.inputFits { s with cBitcount := b } = true := fun b => by
    simp only [State.inputFits, decide_eq_true_eq]; exact hfit
  have e4 : ¬ (s.cNsym = 0 ∧ (s.cOriglen ≠ 0 ∨ s.bitField s.cNsym ≠ 0)) := by
    rintro ⟨h1, h2 | h2⟩
    · exact h2 (h0.1 h1)
    · exact h2 (hb h1)
  have e5 : ¬ (0 < s.cNsym ∧ s.cOriglen = 0) := by
    rintro ⟨h1, h2⟩
    have := h0.2 h2
    omega
  simp only [readPayload, memRead_bitField, e1, e3, show ¬ s.inLen.toNat < 19 + 2 * s.cNsym by omega, lt_irrefl,
    ite_false, Bool.not_true, Bool.false_eq_true, e4, e5]
  rfl

/-- DESERIALIZE of the bytes of a container recovers its fields (44_container.md R189). -/
theorem deserialize_container {L B : Nat} {table : List (Byte × Byte)} {payload : List Byte}
    (hin : HoldsInput s (containerBytes s.par L table B payload)) (hL : L < 2 ^ 64) (hB : B < 2 ^ 32)
    (ht : TableWf table) (h0 : table = [] ↔ L = 0) (hb0 : table = [] → B = 0) (hp : payload.length = ceil8 B)
    (hcap : 19 + 2 * table.length + ceil8 B ≤ s.par.inCap) :
    deserialize s = .done ()
      { s with
        cOriglen := L, cNsym := table.length, cTab := table, cBitcount := B, cPayload := payload
        nsym := table.length, len := lenOf table } := by
  obtain ⟨hlenA, hA⟩ := hin
  obtain ⟨hN, hasc, hlen⟩ := ht
  rw [containerBytes_length, hp] at hlenA
  generalize hAe : containerBytes s.par L table B payload = A at hA
  simp only [containerBytes] at hAe
  have hmagic : s.inRange 0 4 = s.par.magic.toList := by
    refine inRange_field hA (pre := []) (f := s.par.magic.toList)
      (post := [s.par.version] ++ beBytes 8 L ++ beBytes 2 table.length ++ tableOf table ++ beBytes 4 B ++ payload) ?_ rfl (by simp)
    rw [← hAe]; simp only [List.nil_append, List.append_assoc]
  have hver : s.inByte 4 = s.par.version := by
    refine inByte_field hA (pre := s.par.magic.toList)
      (post := beBytes 8 L ++ beBytes 2 table.length ++ tableOf table ++ beBytes 4 B ++ payload) ?_ (by simp)
    rw [← hAe]; simp only [List.append_assoc]; rfl
  have horig : s.inRange 5 8 = beBytes 8 L := by
    refine inRange_field hA (pre := s.par.magic.toList ++ [s.par.version])
      (post := beBytes 2 table.length ++ tableOf table ++ beBytes 4 B ++ payload) ?_ (by simp) (beBytes_length ..)
    rw [← hAe]; simp only [List.append_assoc]
  have hcount : s.inRange 13 2 = beBytes 2 table.length := by
    refine inRange_field hA (pre := s.par.magic.toList ++ [s.par.version] ++ beBytes 8 L)
      (post := tableOf table ++ beBytes 4 B ++ payload) ?_
      (by simp [beBytes_length]) (beBytes_length ..)
    rw [← hAe]; simp only [List.append_assoc]
  have htab : s.inRange 15 (2 * table.length) = tableOf table := by
    refine inRange_field hA (pre := s.par.magic.toList ++ [s.par.version] ++ beBytes 8 L ++ beBytes 2 table.length)
      (post := beBytes 4 B ++ payload) ?_ (by simp [beBytes_length]) (tableOf_length _)
    rw [← hAe]; simp only [List.append_assoc]
  have hbits : s.inRange (15 + 2 * table.length) 4 = beBytes 4 B := by
    refine inRange_field hA (pre := s.par.magic.toList ++ [s.par.version] ++ beBytes 8 L ++ beBytes 2 table.length
      ++ tableOf table)
      (post := payload) ?_ (by have := tableOf_length table; simp [beBytes_length, this]; omega)
      (beBytes_length ..)
    rw [← hAe]
  have hpay : s.inRange (19 + 2 * table.length) (ceil8 B) = payload := by
    refine inRange_field hA (pre := s.par.magic.toList ++ [s.par.version] ++ beBytes 8 L ++ beBytes 2 table.length
      ++ tableOf table ++ beBytes 4 B) (post := []) ?_ ?_ (hp)
    · rw [← hAe, List.append_nil]
    · have := tableOf_length table
      simp only [List.length_append, Vector.length_toList, List.length_singleton, beBytes_length, this]
      omega
  have htag : TagOk s := by
    refine ⟨?_, hver⟩
    intro i hi
    have := congrArg (fun l => l[i]?) hmagic
    simpa [State.inRange, hi] using this
  have hc : s.countField = table.length := by
    have : s.memRead 13 2 = s.countField := by
      simp [State.memRead, State.countField, beNat, State.inRange, List.range_succ]
      omega
    rw [← this, State.memRead, hcount, beNat_beBytes, Nat.mod_eq_of_lt (by norm_num; omega)]
  have ho : s.memRead 5 8 = L := by
    rw [State.memRead, horig, beNat_beBytes, Nat.mod_eq_of_lt (by norm_num; omega)]
  have hbf : s.bitField table.length = B := by
    rw [← memRead_bitField, State.memRead, hbits, beNat_beBytes, Nat.mod_eq_of_lt (by norm_num; omega)]
  have hentry : ∀ i (h : i < table.length), s.inByte (15 + 2 * i) = table[i].1 ∧ s.inByte (16 + 2 * i) = table[i].2 := by
    intro i hi
    obtain ⟨g1, g2⟩ := tableOf_get hi
    rw [← htab] at g1 g2
    simp only [State.inRange, List.getElem?_map, List.getElem?_range (show 2 * i < 2 * table.length by omega),
      List.getElem?_range (show 2 * i + 1 < 2 * table.length by omega), Option.map_some, Option.some.injEq] at g1 g2
    exact ⟨g1, by rw [← g2]; congr 1; omega⟩
  have hents : s.entries table.length = table := by
    apply List.ext_getElem
    · simp [State.entries]
    · intro i h1 h2
      obtain ⟨g1, g2⟩ := hentry i h2
      simp [State.entries, g1, g2]
  have hok : ∀ i, i < table.length → EntryOk s i := by
    intro i hi
    obtain ⟨g1, g2⟩ := hentry i hi
    refine ⟨by rw [g2]; exact hlen _ (List.getElem_mem hi), ?_⟩
    intro h0i
    have g3 := (hentry (i - 1) (by omega)).1
    rw [show 15 + 2 * (i - 1) = 13 + 2 * i by omega] at g3
    rw [g1, g3]
    have := List.pairwise_iff_getElem.1 hasc (i - 1) i (by simp; omega) (by simpa using hi) (by omega)
    simpa using this
  rw [deserialize_header (by omega) htag, hc, if_neg (by omega), ho]
  rw [readTable_done (s := { s with cOriglen := L, cNsym := table.length }) hok (by simp only; omega)]
  rw [readPayload_done]
  · show Run.done () { s with
      cOriglen := L, cNsym := table.length, cTab := s.entries table.length, len := lenOf (s.entries table.length)
      cBitcount := s.bitField table.length
      cPayload := s.inRange (19 + 2 * table.length) (ceil8 (s.bitField table.length)), nsym := table.length } = _
    rw [hents, hbf, hpay]
  · show s.inLen.toNat = 19 + 2 * table.length + ceil8 (s.bitField table.length)
    rw [hbf]; exact hlenA
  · show s.inLen.toNat ≤ s.par.inCap
    omega
  · show table.length = 0 ↔ L = 0
    rw [List.length_eq_zero_iff]; exact h0
  · intro h
    show s.bitField table.length = 0
    rw [hbf, hb0 (List.length_eq_zero_iff.1 h)]

end accept

end Sys2Proof.Machine
end

