-- ==== Sys2Proof/Laws/Decoder.lean ====
section
/-! SUPPORT. The laws of the decoder (45_orchestration.md R215 to R218): how DECSYM ends on the bits not read, and what
UNPACK writes. -/

namespace Sys2Proof.Machine

/-- The reader `n` bits on. -/
def skipBits (n : Nat) (s : State) : State := { s with brPos := s.brPos + n }

theorem skipBits_zero (s : State) : skipBits 0 s = s := rfl

theorem skipBits_advance (n : Nat) (s : State) : skipBits n (advanceReader s) = skipBits (n + 1) s := by
  simp only [skipBits, advanceReader, Nat.add_assoc, Nat.add_comm 1]

section reader
variable {s : State}

/-- A bit that is there is read (43_bit_io.md R162). -/
theorem nextBit_cons (h : ReaderOk s) {r : Bool} {rest : BitStr} (hu : s.unread = r :: rest) :
    s.nextBit = some r ∧ (advanceReader s).unread = rest ∧ ReaderOk (advanceReader s) := by
  have hlt : s.brPos < s.brLimit := by
    have := unread_length s
    rw [hu, List.length_cons] at this
    omega
  exact ⟨by rw [nextBit_eq h, hu]; rfl, by rw [unread_advance hlt, hu]; rfl, readerOk_advance h hlt⟩

theorem nextBit_nil (h : ReaderOk s) (hu : s.unread = []) : s.nextBit = none := by
  rw [nextBit_eq h, hu]; rfl

theorem skipBits_spec (h : ReaderOk s) {cs rest : BitStr} (hu : s.unread = cs ++ rest) :
    ReaderOk (skipBits cs.length s) ∧ (skipBits cs.length s).unread = rest := by
  induction cs generalizing s with
  | nil => exact ⟨h, hu⟩
  | cons r cs ih =>
    obtain ⟨-, h2, h3⟩ := nextBit_cons h hu
    have := ih h3 h2
    rwa [skipBits_advance] at this

end reader

section table
variable {dtab : List (BitStr × Byte)}

theorem symbolOf_none {acc : BitStr} : symbolOf dtab acc = none ↔ ∀ e ∈ dtab, e.1 ≠ acc := by
  simp [symbolOf]

theorem symbolOf_some {acc : BitStr} {b : Byte} (h : symbolOf dtab acc = some b) : (acc, b) ∈ dtab := by
  simp only [symbolOf, Option.map_eq_some_iff] at h
  obtain ⟨e, he, rfl⟩ := h
  have h1 := List.mem_of_find?_eq_some he
  have h2 := List.find?_some he
  simp only [beq_iff_eq] at h2
  rw [← h2]
  exact h1

theorem inPrefixes_iff {acc : BitStr} :
    inPrefixes dtab acc = true ↔ ∃ e ∈ dtab, acc <+: e.1 ∧ acc.length < e.1.length := by
  simp only [inPrefixes, List.any_eq_true, properPrefix, Bool.and_eq_true, decide_eq_true_eq, List.isPrefixOf_iff_prefix]
  exact ⟨fun ⟨e, h1, h2, h3⟩ => ⟨e, h1, h3, h2⟩, fun ⟨e, h1, h2, h3⟩ => ⟨e, h1, h3, h2⟩⟩

theorem readsOn_iff {acc : BitStr} : ReadsOn dtab acc ↔ symbolOf dtab acc = none ∧ inPrefixes dtab acc = true := by
  rw [symbolOf_none, inPrefixes_iff, ReadsOn]

/-- A code of a prefix-free table is found, and not before its last bit. -/
theorem TableOk.code (h : TableOk dtab) {cs : BitStr} {b : Byte} (hc : (cs, b) ∈ dtab) :
    symbolOf dtab cs = some b ∧ ∀ p, p <+: cs → p.length < cs.length → ReadsOn dtab p := by
  constructor
  · cases hs : symbolOf dtab cs with
    | none => exact absurd rfl (symbolOf_none.1 hs _ hc)
    | some a =>
      have := h.2 _ (symbolOf_some hs) _ hc (List.prefix_refl _)
      rw [show a = b from congrArg Prod.snd this]
  · intro p hp hlt
    refine ⟨?_, _, hc, hp, hlt⟩
    rintro e he rfl
    have := h.2 e he _ hc hp
    rw [this] at hlt
    exact lt_irrefl _ hlt

/-- The decoder's table of a canonical code is prefix-free. -/
theorem codePairs_mem {len : Byte → Nat} {code : Byte → Option BitStr} {e : BitStr × Byte} :
    e ∈ codePairs len code ↔ 0 < len e.2 ∧ code e.2 = some e.1 := by
  obtain ⟨c, b⟩ := e
  simp only [codePairs, List.mem_filterMap]
  constructor
  · rintro ⟨a, -, h⟩
    split at h
    · simp only [Option.map_eq_some_iff, Prod.mk.injEq] at h
      obtain ⟨c', h1, rfl, rfl⟩ := h
      exact ⟨‹_›, h1⟩
    · cases h
  · rintro ⟨h1, h2⟩
    exact ⟨b, mem_allBytes b, by simp [h1, h2]⟩

theorem tableOk_canon {len : Byte → Nat} (h : kraftSum len ≤ 1) : TableOk (codePairs len (canonTable len)) := by
  constructor
  · intro e he hnil
    obtain ⟨h1, h2⟩ := codePairs_mem.1 he
    have := canonTable_length h2
    rw [hnil] at this
    simp at this
    omega
  · intro e he e' he' hp
    obtain ⟨-, h2⟩ := codePairs_mem.1 he
    obtain ⟨-, h2'⟩ := codePairs_mem.1 he'
    by_cases hb : e.2 = e'.2
    · rw [hb, h2'] at h2
      exact Prod.ext (Option.some.inj h2).symm hb
    · exact absurd hp (canonTable_prefixFree h _ _ _ _ hb h2 h2')

end table

section decsym
variable {s : State}

/-- A pass of DECSYM's loop. -/
theorem decsymLoop_cons (h : ReaderOk s) {r : Bool} {rest : BitStr} (hu : s.unread = r :: rest) (n : Nat)
    (acc : BitStr) :
    decsymLoop (n + 1) acc s =
      match symbolOf s.dtab (acc ++ [r]) with
      | some b => .done b (advanceReader s)
      | none =>
        if inPrefixes s.dtab (acc ++ [r]) then decsymLoop n (acc ++ [r]) (advanceReader s)
        else .raised .noMatch (advanceReader s) := by
  simp only [decsymLoop, (nextBit_cons h hu).1]
  rfl

/-- Bits after which DECSYM reads on. -/
theorem decsymLoop_skip (h : ReaderOk s) {cs rest : BitStr} (hu : s.unread = cs ++ rest) (n : Nat) (acc : BitStr)
    (hr : ∀ p, p ≠ [] → p <+: cs → ReadsOn s.dtab (acc ++ p)) :
    decsymLoop (cs.length + n) acc s = decsymLoop n (acc ++ cs) (skipBits cs.length s) := by
  induction cs generalizing s acc with
  | nil => simp [skipBits_zero]
  | cons r cs ih =>
    have h1 := hr [r] (by simp) (by simp)
    rw [readsOn_iff] at h1
    obtain ⟨-, h2, h3⟩ := nextBit_cons h hu
    rw [List.length_cons, show cs.length + 1 + n = (cs.length + n) + 1 by omega, decsymLoop_cons h hu, h1.1, h1.2]
    simp only [ite_true]
    rw [ih h3 h2, skipBits_advance, List.append_assoc]
    · rfl
    · intro p hp hpc
      have := hr (r :: p) (by simp) (by simpa using hpc)
      rw [List.append_assoc]
      exact this

/-- DECSYM finds the code the bits start with (45_orchestration.md R216). -/
theorem decodeSymbol_found (h : ReaderOk s) (ht : TableOk s.dtab) {cs rest : BitStr} {b : Byte}
    (hc : (cs, b) ∈ s.dtab) (hu : s.unread = cs ++ rest) :
    decodeSymbol s = .done b (skipBits cs.length s) := by
  obtain ⟨hs, hp⟩ := ht.code hc
  rcases List.eq_nil_or_concat cs with e | ⟨pre, r, e⟩
  · exact absurd e (ht.1 _ hc)
  · rw [List.concat_eq_append] at e
    subst e
    have hu' : s.unread = pre ++ (r :: rest) := by rw [hu]; simp
    have hl : s.brLimit - s.brPos + 1 = pre.length + (rest.length + 2) := by
      rw [← unread_length, hu]; simp; omega
    rw [decodeSymbol, hl, decsymLoop_skip h hu']
    · obtain ⟨h1, h2⟩ := skipBits_spec h hu'
      rw [show rest.length + 2 = rest.length + 1 + 1 by omega, decsymLoop_cons h1 h2, List.nil_append]
      have : symbolOf (skipBits pre.length s).dtab (pre ++ [r]) = some b := hs
      rw [this]
      simp [skipBits, advanceReader, Nat.add_assoc]
    · intro p hp0 hpp
      rw [List.nil_append]
      refine hp p (hpp.trans (List.prefix_append _ _)) ?_
      have := hpp.length_le
      simp
      omega

/-- DECSYM runs out of bits (45_orchestration.md R216). -/
theorem decodeSymbol_endOfStream (h : ReaderOk s) (hr : ∀ p, p ≠ [] → p <+: s.unread → ReadsOn s.dtab p) :
    decodeSymbol s = .raised .endOfStream (skipBits s.unread.length s) := by
  have hu : s.unread = s.unread ++ [] := by simp
  obtain ⟨h1, h2⟩ := skipBits_spec h hu
  rw [decodeSymbol, ← unread_length, decsymLoop_skip h hu 1 [] (by simpa using hr)]
  simp only [decsymLoop, nextBit_nil h1 h2]

/-- DECSYM meets bits that are no code and start none (45_orchestration.md R216). -/
theorem decodeSymbol_noMatch (h : ReaderOk s) {cs rest : BitStr} {r : Bool} (hu : s.unread = cs ++ r :: rest)
    (hr : ∀ p, p ≠ [] → p <+: cs → ReadsOn s.dtab p) (hn : ∀ e ∈ s.dtab, ¬ cs ++ [r] <+: e.1) :
    decodeSymbol s = .raised .noMatch (skipBits (cs.length + 1) s) := by
  have hl : s.brLimit - s.brPos + 1 = cs.length + (rest.length + 2) := by
    rw [← unread_length, hu]; simp; omega
  rw [decodeSymbol, hl, decsymLoop_skip h hu _ [] (by simpa using hr)]
  obtain ⟨h1, h2⟩ := skipBits_spec h hu
  have e1 : symbolOf s.dtab (cs ++ [r]) = none := symbolOf_none.2 fun e he h => hn e he (by rw [h])
  have e2 : inPrefixes s.dtab (cs ++ [r]) = false := by
    rw [Bool.eq_false_iff]
    intro hc
    obtain ⟨e, he, hp, -⟩ := inPrefixes_iff.1 hc
    exact hn e he hp
  rw [show rest.length + 2 = rest.length + 1 + 1 by omega, decsymLoop_cons h1 h2, List.nil_append]
  have e1' : symbolOf (skipBits cs.length s).dtab (cs ++ [r]) = none := e1
  have e2' : inPrefixes (skipBits cs.length s).dtab (cs ++ [r]) = false := e2
  rw [e1', e2']
  simp [skipBits, advanceReader, Nat.add_assoc]

/-- A symbol that DECSYM yields is that of the bits it read (45_orchestration.md R218). -/
theorem decsymLoop_done {n : Nat} {acc : BitStr} {s t : State} {b : Byte} (h : ReaderOk s)
    (hd : decsymLoop n acc s = .done b t) :
    ∃ cs, (acc ++ cs, b) ∈ s.dtab ∧ s.unread = cs ++ t.unread ∧ t = skipBits cs.length s ∧ ReaderOk t := by
  induction n generalizing acc s with
  | zero => simp [decsymLoop] at hd
  | succ n ih =>
    cases hu : s.unread with
    | nil => simp [decsymLoop, nextBit_nil h hu] at hd
    | cons r rest =>
      obtain ⟨-, h2, h3⟩ := nextBit_cons h hu
      rw [decsymLoop_cons h hu] at hd
      split at hd
      · rename_i hs
        cases hd
        exact ⟨[r], symbolOf_some hs, by rw [h2]; rfl, rfl, h3⟩
      · split at hd
        · obtain ⟨cs, g1, g2, g3, g4⟩ := ih h3 hd
          rw [List.append_assoc] at g1
          refine ⟨r :: cs, g1, ?_, ?_, g4⟩
          · rw [← h2, g2]; rfl
          · rw [g3, skipBits_advance]; rfl
        · cases hd

end decsym

section unpack
variable {s : State}

/-- UNPACK's loop over bits that start with codes: their symbols to OUT, then the rest (45_orchestration.md R215). -/
theorem unpackLoop_codes (ht : TableOk s.dtab) (es : List (BitStr × Byte)) (hes : ∀ e ∈ es, e ∈ s.dtab)
    (h : ReaderOk s) {rest : BitStr} (hu : s.unread = es.flatMap (·.1) ++ rest) (m j : Nat)
    (hj : j + es.length ≤ s.par.outCap) :
    unpackLoop (es.length + m) j s =
      unpackLoop m (j + es.length)
        { s with brPos := s.brPos + (es.flatMap (·.1)).length, outMem := s.outMem.setBytes j (es.map (·.2)) } := by
  induction es generalizing s j with
  | nil => simp [Memory.setBytes]
  | cons e es ih =>
    obtain ⟨cs, b⟩ := e
    simp only [List.flatMap_cons, List.append_assoc] at hu
    simp only [List.length_cons] at hj
    have hd := decodeSymbol_found h ht (hes _ (List.mem_cons_self ..)) hu
    obtain ⟨h1, h2⟩ := skipBits_spec h hu
    rw [List.length_cons, show es.length + 1 + m = (es.length + m) + 1 by omega, unpackLoop, hd]
    simp only [skipBits, show j < s.par.outCap by omega, ite_true]
    rw [ih (s := { s with brPos := s.brPos + cs.length, outMem := s.outMem.set j b }) ht
      (fun e he => hes e (List.mem_cons_of_mem _ he)) h1 h2 (j + 1) (by simp only; omega)]
    simp only [List.flatMap_cons, List.length_append, List.map_cons, Memory.setBytes, Nat.add_assoc,
      Nat.add_comm 1 es.length]

/-- What a loop that ends well has read and written (45_orchestration.md R218). -/
theorem unpackLoop_done {n j : Nat} {s t : State} (h : ReaderOk s) (hd : unpackLoop n j s = .done () t) :
    ∃ es : List (BitStr × Byte), es.length = n ∧ (∀ e ∈ es, e ∈ s.dtab) ∧
      s.unread = es.flatMap (·.1) ++ t.unread ∧ ReaderOk t ∧ (n = 0 ∨ j + n ≤ s.par.outCap) ∧
      t = { s with brPos := s.brPos + (es.flatMap (·.1)).length, outMem := s.outMem.setBytes j (es.map (·.2)) } := by
  induction n generalizing s j with
  | zero =>
    simp only [unpackLoop, Run.done.injEq, true_and] at hd
    subst hd
    exact ⟨[], rfl, by simp, by simp, h, .inl rfl, rfl⟩
  | succ n ih =>
    rw [unpackLoop] at hd
    split at hd
    · rename_i b u hb
      obtain ⟨cs, g1, g2, g3, g4⟩ := decsymLoop_done h hb
      split at hd
      · rename_i hj
        have hou : ({ u with outMem := u.outMem.set j b } : State).unread = u.unread := rfl
        obtain ⟨es, k1, k2, k3, k4, k5, k6⟩ := ih (s := { u with outMem := u.outMem.set j b }) g4 hd
        subst g3
        refine ⟨(cs, b) :: es, by simp [k1], ?_, ?_, k4, .inr ?_, ?_⟩
        · intro e he
          rcases List.mem_cons.1 he with rfl | he
          · exact g1
          · exact k2 e he
        · rw [g2]
          rw [hou] at k3
          rw [k3]
          simp
        · have hj' : j < s.par.outCap := hj
          rcases k5 with k5 | k5
          · omega
          · have : j + 1 + n ≤ s.par.outCap := k5
            omega
        · rw [k6]
          simp only [skipBits, List.flatMap_cons, List.length_append, List.map_cons, Memory.setBytes, Nat.add_assoc]
      · cases hd
    · cases hd
    · cases hd

end unpack

end Sys2Proof.Machine
end

