-- ==== Sys2Proof/Laws/State.lean ====
section
/-! SUPPORT. One lemma for each field of State and each update that the operations make: what the field is after it.
Generated from the updates, so that no proof unfolds a record update. -/

namespace Sys2Proof.Machine

/-- The state in a phase. -/
def setPhase (p : Byte) (s : State) : State := { s with phase := p }

@[simp] theorem setPhase_setPhase (p q : Byte) (s : State) : setPhase p (setPhase q s) = setPhase p s := rfl

@[simp] theorem releaseOut_par (n : Nat) (s : State) :
    (releaseOut n s).par = s.par := rfl
@[simp] theorem releaseOut_cmd (n : Nat) (s : State) :
    (releaseOut n s).cmd = s.cmd := rfl
@[simp] theorem releaseOut_status (n : Nat) (s : State) :
    (releaseOut n s).status = s.status := rfl
@[simp] theorem releaseOut_errcode (n : Nat) (s : State) :
    (releaseOut n s).errcode = s.errcode := rfl
@[simp] theorem releaseOut_errinfo (n : Nat) (s : State) :
    (releaseOut n s).errinfo = s.errinfo := rfl
@[simp] theorem releaseOut_inLen (n : Nat) (s : State) :
    (releaseOut n s).inLen = s.inLen := rfl
@[simp] theorem releaseOut_outLen (n : Nat) (s : State) :
    (releaseOut n s).outLen = s.outLen := rfl
@[simp] theorem releaseOut_phase (n : Nat) (s : State) :
    (releaseOut n s).phase = s.phase := rfl
@[simp] theorem releaseOut_inMem (n : Nat) (s : State) :
    (releaseOut n s).inMem = s.inMem := rfl
@[simp] theorem releaseOut_outMem (n : Nat) (s : State) :
    (releaseOut n s).outMem = s.outMem.filter fun c => decide (c.1 < n) := rfl
@[simp] theorem releaseOut_freq (n : Nat) (s : State) :
    (releaseOut n s).freq = s.freq := rfl
@[simp] theorem releaseOut_nsym (n : Nat) (s : State) :
    (releaseOut n s).nsym = s.nsym := rfl
@[simp] theorem releaseOut_node (n : Nat) (s : State) :
    (releaseOut n s).node = s.node := rfl
@[simp] theorem releaseOut_ncount (n : Nat) (s : State) :
    (releaseOut n s).ncount = s.ncount := rfl
@[simp] theorem releaseOut_root (n : Nat) (s : State) :
    (releaseOut n s).root = s.root := rfl
@[simp] theorem releaseOut_pq (n : Nat) (s : State) :
    (releaseOut n s).pq = s.pq := rfl
@[simp] theorem releaseOut_rawcode (n : Nat) (s : State) :
    (releaseOut n s).rawcode = s.rawcode := rfl
@[simp] theorem releaseOut_len (n : Nat) (s : State) :
    (releaseOut n s).len = s.len := rfl
@[simp] theorem releaseOut_code (n : Nat) (s : State) :
    (releaseOut n s).code = s.code := rfl
@[simp] theorem releaseOut_dtab (n : Nat) (s : State) :
    (releaseOut n s).dtab = s.dtab := rfl
@[simp] theorem releaseOut_bwBuf (n : Nat) (s : State) :
    (releaseOut n s).bwBuf = s.bwBuf := rfl
@[simp] theorem releaseOut_bwNbits (n : Nat) (s : State) :
    (releaseOut n s).bwNbits = s.bwNbits := rfl
@[simp] theorem releaseOut_brBuf (n : Nat) (s : State) :
    (releaseOut n s).brBuf = s.brBuf := rfl
@[simp] theorem releaseOut_brLimit (n : Nat) (s : State) :
    (releaseOut n s).brLimit = s.brLimit := rfl
@[simp] theorem releaseOut_brPos (n : Nat) (s : State) :
    (releaseOut n s).brPos = s.brPos := rfl
@[simp] theorem releaseOut_cOriglen (n : Nat) (s : State) :
    (releaseOut n s).cOriglen = s.cOriglen := rfl
@[simp] theorem releaseOut_cNsym (n : Nat) (s : State) :
    (releaseOut n s).cNsym = s.cNsym := rfl
@[simp] theorem releaseOut_cTab (n : Nat) (s : State) :
    (releaseOut n s).cTab = s.cTab := rfl
@[simp] theorem releaseOut_cBitcount (n : Nat) (s : State) :
    (releaseOut n s).cBitcount = s.cBitcount := rfl
@[simp] theorem releaseOut_cPayload (n : Nat) (s : State) :
    (releaseOut n s).cPayload = s.cPayload := rfl
@[simp] theorem releaseOut_call (n : Nat) (s : State) :
    (releaseOut n s).call = s.call := rfl
@[simp] theorem releaseOut_result (n : Nat) (s : State) :
    (releaseOut n s).result = s.result := rfl
@[simp] theorem releaseOut_inbox (n : Nat) (s : State) :
    (releaseOut n s).inbox = s.inbox := rfl
@[simp] theorem releaseOut_inEpoch (n : Nat) (s : State) :
    (releaseOut n s).inEpoch = s.inEpoch := rfl
@[simp] theorem releaseOut_outEpoch (n : Nat) (s : State) :
    (releaseOut n s).outEpoch = s.outEpoch + 1 := rfl
@[simp] theorem releaseOut_draws (n : Nat) (s : State) :
    (releaseOut n s).draws = s.draws := rfl

@[simp] theorem commandStart_par (s : State) :
    (commandStart s).par = s.par := rfl
@[simp] theorem commandStart_cmd (s : State) :
    (commandStart s).cmd = s.cmd := rfl
@[simp] theorem commandStart_status (s : State) :
    (commandStart s).status = ⟨true, false, false⟩ := rfl
@[simp] theorem commandStart_errcode (s : State) :
    (commandStart s).errcode = 0x00#8 := rfl
@[simp] theorem commandStart_errinfo (s : State) :
    (commandStart s).errinfo = 0x00#8 := rfl
@[simp] theorem commandStart_inLen (s : State) :
    (commandStart s).inLen = s.inLen := rfl
@[simp] theorem commandStart_outLen (s : State) :
    (commandStart s).outLen = 0 := rfl
@[simp] theorem commandStart_phase (s : State) :
    (commandStart s).phase = s.phase := rfl
@[simp] theorem commandStart_inMem (s : State) :
    (commandStart s).inMem = s.inMem := rfl
@[simp] theorem commandStart_outMem (s : State) :
    (commandStart s).outMem = s.outMem.filter fun c => decide (c.1 < 0) := rfl
@[simp] theorem commandStart_freq (s : State) :
    (commandStart s).freq = s.freq := rfl
@[simp] theorem commandStart_nsym (s : State) :
    (commandStart s).nsym = s.nsym := rfl
@[simp] theorem commandStart_node (s : State) :
    (commandStart s).node = s.node := rfl
@[simp] theorem commandStart_ncount (s : State) :
    (commandStart s).ncount = s.ncount := rfl
@[simp] theorem commandStart_root (s : State) :
    (commandStart s).root = s.root := rfl
@[simp] theorem commandStart_pq (s : State) :
    (commandStart s).pq = s.pq := rfl
@[simp] theorem commandStart_rawcode (s : State) :
    (commandStart s).rawcode = s.rawcode := rfl
@[simp] theorem commandStart_len (s : State) :
    (commandStart s).len = s.len := rfl
@[simp] theorem commandStart_code (s : State) :
    (commandStart s).code = s.code := rfl
@[simp] theorem commandStart_dtab (s : State) :
    (commandStart s).dtab = s.dtab := rfl
@[simp] theorem commandStart_bwBuf (s : State) :
    (commandStart s).bwBuf = s.bwBuf := rfl
@[simp] theorem commandStart_bwNbits (s : State) :
    (commandStart s).bwNbits = s.bwNbits := rfl
@[simp] theorem commandStart_brBuf (s : State) :
    (commandStart s).brBuf = s.brBuf := rfl
@[simp] theorem commandStart_brLimit (s : State) :
    (commandStart s).brLimit = s.brLimit := rfl
@[simp] theorem commandStart_brPos (s : State) :
    (commandStart s).brPos = s.brPos := rfl
@[simp] theorem commandStart_cOriglen (s : State) :
    (commandStart s).cOriglen = s.cOriglen := rfl
@[simp] theorem commandStart_cNsym (s : State) :
    (commandStart s).cNsym = s.cNsym := rfl
@[simp] theorem commandStart_cTab (s : State) :
    (commandStart s).cTab = s.cTab := rfl
@[simp] theorem commandStart_cBitcount (s : State) :
    (commandStart s).cBitcount = s.cBitcount := rfl
@[simp] theorem commandStart_cPayload (s : State) :
    (commandStart s).cPayload = s.cPayload := rfl
@[simp] theorem commandStart_call (s : State) :
    (commandStart s).call = s.call := rfl
@[simp] theorem commandStart_result (s : State) :
    (commandStart s).result = s.result := rfl
@[simp] theorem commandStart_inbox (s : State) :
    (commandStart s).inbox = s.inbox := rfl
@[simp] theorem commandStart_inEpoch (s : State) :
    (commandStart s).inEpoch = s.inEpoch := rfl
@[simp] theorem commandStart_outEpoch (s : State) :
    (commandStart s).outEpoch = s.outEpoch + 1 := rfl
@[simp] theorem commandStart_draws (s : State) :
    (commandStart s).draws = s.draws := rfl

@[simp] theorem complete_par (n : Nat) (s : State) :
    (complete n s).par = s.par := rfl
@[simp] theorem complete_cmd (n : Nat) (s : State) :
    (complete n s).cmd = s.cmd := rfl
@[simp] theorem complete_status (n : Nat) (s : State) :
    (complete n s).status = ⟨false, true, s.status.fail⟩ := rfl
@[simp] theorem complete_errcode (n : Nat) (s : State) :
    (complete n s).errcode = s.errcode := rfl
@[simp] theorem complete_errinfo (n : Nat) (s : State) :
    (complete n s).errinfo = s.errinfo := rfl
@[simp] theorem complete_inLen (n : Nat) (s : State) :
    (complete n s).inLen = s.inLen := rfl
@[simp] theorem complete_outLen (n : Nat) (s : State) :
    (complete n s).outLen = BitVec.ofNat 64 n := rfl
@[simp] theorem complete_phase (n : Nat) (s : State) :
    (complete n s).phase = phaseIdle := rfl
@[simp] theorem complete_inMem (n : Nat) (s : State) :
    (complete n s).inMem = s.inMem := rfl
@[simp] theorem complete_outMem (n : Nat) (s : State) :
    (complete n s).outMem = s.outMem.filter fun c => decide (c.1 < n) := rfl
@[simp] theorem complete_freq (n : Nat) (s : State) :
    (complete n s).freq = s.freq := rfl
@[simp] theorem complete_nsym (n : Nat) (s : State) :
    (complete n s).nsym = s.nsym := rfl
@[simp] theorem complete_node (n : Nat) (s : State) :
    (complete n s).node = s.node := rfl
@[simp] theorem complete_ncount (n : Nat) (s : State) :
    (complete n s).ncount = s.ncount := rfl
@[simp] theorem complete_root (n : Nat) (s : State) :
    (complete n s).root = s.root := rfl
@[simp] theorem complete_pq (n : Nat) (s : State) :
    (complete n s).pq = s.pq := rfl
@[simp] theorem complete_rawcode (n : Nat) (s : State) :
    (complete n s).rawcode = s.rawcode := rfl
@[simp] theorem complete_len (n : Nat) (s : State) :
    (complete n s).len = s.len := rfl
@[simp] theorem complete_code (n : Nat) (s : State) :
    (complete n s).code = s.code := rfl
@[simp] theorem complete_dtab (n : Nat) (s : State) :
    (complete n s).dtab = s.dtab := rfl
@[simp] theorem complete_bwBuf (n : Nat) (s : State) :
    (complete n s).bwBuf = s.bwBuf := rfl
@[simp] theorem complete_bwNbits (n : Nat) (s : State) :
    (complete n s).bwNbits = s.bwNbits := rfl
@[simp] theorem complete_brBuf (n : Nat) (s : State) :
    (complete n s).brBuf = s.brBuf := rfl
@[simp] theorem complete_brLimit (n : Nat) (s : State) :
    (complete n s).brLimit = s.brLimit := rfl
@[simp] theorem complete_brPos (n : Nat) (s : State) :
    (complete n s).brPos = s.brPos := rfl
@[simp] theorem complete_cOriglen (n : Nat) (s : State) :
    (complete n s).cOriglen = s.cOriglen := rfl
@[simp] theorem complete_cNsym (n : Nat) (s : State) :
    (complete n s).cNsym = s.cNsym := rfl
@[simp] theorem complete_cTab (n : Nat) (s : State) :
    (complete n s).cTab = s.cTab := rfl
@[simp] theorem complete_cBitcount (n : Nat) (s : State) :
    (complete n s).cBitcount = s.cBitcount := rfl
@[simp] theorem complete_cPayload (n : Nat) (s : State) :
    (complete n s).cPayload = s.cPayload := rfl
@[simp] theorem complete_call (n : Nat) (s : State) :
    (complete n s).call = s.call := rfl
@[simp] theorem complete_result (n : Nat) (s : State) :
    (complete n s).result = s.result := rfl
@[simp] theorem complete_inbox (n : Nat) (s : State) :
    (complete n s).inbox = s.inbox := rfl
@[simp] theorem complete_inEpoch (n : Nat) (s : State) :
    (complete n s).inEpoch = s.inEpoch := rfl
@[simp] theorem complete_outEpoch (n : Nat) (s : State) :
    (complete n s).outEpoch = s.outEpoch + 1 := rfl
@[simp] theorem complete_draws (n : Nat) (s : State) :
    (complete n s).draws = s.draws := rfl

@[simp] theorem errorEntry_par (c : Cause) (s : State) :
    (errorEntry c s).par = s.par := rfl
@[simp] theorem errorEntry_cmd (c : Cause) (s : State) :
    (errorEntry c s).cmd = s.cmd := rfl
@[simp] theorem errorEntry_status (c : Cause) (s : State) :
    (errorEntry c s).status = ⟨false, true, true⟩ := rfl
@[simp] theorem errorEntry_errcode (c : Cause) (s : State) :
    (errorEntry c s).errcode = c.code := rfl
@[simp] theorem errorEntry_errinfo (c : Cause) (s : State) :
    (errorEntry c s).errinfo = c.info := rfl
@[simp] theorem errorEntry_inLen (c : Cause) (s : State) :
    (errorEntry c s).inLen = s.inLen := rfl
@[simp] theorem errorEntry_outLen (c : Cause) (s : State) :
    (errorEntry c s).outLen = 0 := rfl
@[simp] theorem errorEntry_phase (c : Cause) (s : State) :
    (errorEntry c s).phase = phaseIdle := rfl
@[simp] theorem errorEntry_inMem (c : Cause) (s : State) :
    (errorEntry c s).inMem = s.inMem := rfl
@[simp] theorem errorEntry_outMem (c : Cause) (s : State) :
    (errorEntry c s).outMem = s.outMem.filter fun c => decide (c.1 < 0) := rfl
@[simp] theorem errorEntry_freq (c : Cause) (s : State) :
    (errorEntry c s).freq = s.freq := rfl
@[simp] theorem errorEntry_nsym (c : Cause) (s : State) :
    (errorEntry c s).nsym = s.nsym := rfl
@[simp] theorem errorEntry_node (c : Cause) (s : State) :
    (errorEntry c s).node = s.node := rfl
@[simp] theorem errorEntry_ncount (c : Cause) (s : State) :
    (errorEntry c s).ncount = s.ncount := rfl
@[simp] theorem errorEntry_root (c : Cause) (s : State) :
    (errorEntry c s).root = s.root := rfl
@[simp] theorem errorEntry_pq (c : Cause) (s : State) :
    (errorEntry c s).pq = s.pq := rfl
@[simp] theorem errorEntry_rawcode (c : Cause) (s : State) :
    (errorEntry c s).rawcode = s.rawcode := rfl
@[simp] theorem errorEntry_len (c : Cause) (s : State) :
    (errorEntry c s).len = s.len := rfl
@[simp] theorem errorEntry_code (c : Cause) (s : State) :
    (errorEntry c s).code = s.code := rfl
@[simp] theorem errorEntry_dtab (c : Cause) (s : State) :
    (errorEntry c s).dtab = s.dtab := rfl
@[simp] theorem errorEntry_bwBuf (c : Cause) (s : State) :
    (errorEntry c s).bwBuf = s.bwBuf := rfl
@[simp] theorem errorEntry_bwNbits (c : Cause) (s : State) :
    (errorEntry c s).bwNbits = s.bwNbits := rfl
@[simp] theorem errorEntry_brBuf (c : Cause) (s : State) :
    (errorEntry c s).brBuf = s.brBuf := rfl
@[simp] theorem errorEntry_brLimit (c : Cause) (s : State) :
    (errorEntry c s).brLimit = s.brLimit := rfl
@[simp] theorem errorEntry_brPos (c : Cause) (s : State) :
    (errorEntry c s).brPos = s.brPos := rfl
@[simp] theorem errorEntry_cOriglen (c : Cause) (s : State) :
    (errorEntry c s).cOriglen = s.cOriglen := rfl
@[simp] theorem errorEntry_cNsym (c : Cause) (s : State) :
    (errorEntry c s).cNsym = s.cNsym := rfl
@[simp] theorem errorEntry_cTab (c : Cause) (s : State) :
    (errorEntry c s).cTab = s.cTab := rfl
@[simp] theorem errorEntry_cBitcount (c : Cause) (s : State) :
    (errorEntry c s).cBitcount = s.cBitcount := rfl
@[simp] theorem errorEntry_cPayload (c : Cause) (s : State) :
    (errorEntry c s).cPayload = s.cPayload := rfl
@[simp] theorem errorEntry_call (c : Cause) (s : State) :
    (errorEntry c s).call = s.call := rfl
@[simp] theorem errorEntry_result (c : Cause) (s : State) :
    (errorEntry c s).result = s.result := rfl
@[simp] theorem errorEntry_inbox (c : Cause) (s : State) :
    (errorEntry c s).inbox = s.inbox := rfl
@[simp] theorem errorEntry_inEpoch (c : Cause) (s : State) :
    (errorEntry c s).inEpoch = s.inEpoch := rfl
@[simp] theorem errorEntry_outEpoch (c : Cause) (s : State) :
    (errorEntry c s).outEpoch = s.outEpoch + 1 := rfl
@[simp] theorem errorEntry_draws (c : Cause) (s : State) :
    (errorEntry c s).draws = s.draws := rfl

@[simp] theorem refusalEntry_par (c : Cause) (s : State) :
    (refusalEntry c s).par = s.par := rfl
@[simp] theorem refusalEntry_cmd (c : Cause) (s : State) :
    (refusalEntry c s).cmd = s.cmd := rfl
@[simp] theorem refusalEntry_status (c : Cause) (s : State) :
    (refusalEntry c s).status = ⟨false, true, true⟩ := rfl
@[simp] theorem refusalEntry_errcode (c : Cause) (s : State) :
    (refusalEntry c s).errcode = c.code := rfl
@[simp] theorem refusalEntry_errinfo (c : Cause) (s : State) :
    (refusalEntry c s).errinfo = c.info := rfl
@[simp] theorem refusalEntry_inLen (c : Cause) (s : State) :
    (refusalEntry c s).inLen = s.inLen := rfl
@[simp] theorem refusalEntry_outLen (c : Cause) (s : State) :
    (refusalEntry c s).outLen = 0 := rfl
@[simp] theorem refusalEntry_phase (c : Cause) (s : State) :
    (refusalEntry c s).phase = phaseIdle := rfl
@[simp] theorem refusalEntry_inMem (c : Cause) (s : State) :
    (refusalEntry c s).inMem = s.inMem := rfl
@[simp] theorem refusalEntry_outMem (c : Cause) (s : State) :
    (refusalEntry c s).outMem = s.outMem.filter fun c => decide (c.1 < 0) := rfl
@[simp] theorem refusalEntry_freq (c : Cause) (s : State) :
    (refusalEntry c s).freq = s.freq := rfl
@[simp] theorem refusalEntry_nsym (c : Cause) (s : State) :
    (refusalEntry c s).nsym = s.nsym := rfl
@[simp] theorem refusalEntry_node (c : Cause) (s : State) :
    (refusalEntry c s).node = s.node := rfl
@[simp] theorem refusalEntry_ncount (c : Cause) (s : State) :
    (refusalEntry c s).ncount = s.ncount := rfl
@[simp] theorem refusalEntry_root (c : Cause) (s : State) :
    (refusalEntry c s).root = s.root := rfl
@[simp] theorem refusalEntry_pq (c : Cause) (s : State) :
    (refusalEntry c s).pq = s.pq := rfl
@[simp] theorem refusalEntry_rawcode (c : Cause) (s : State) :
    (refusalEntry c s).rawcode = s.rawcode := rfl
@[simp] theorem refusalEntry_len (c : Cause) (s : State) :
    (refusalEntry c s).len = s.len := rfl
@[simp] theorem refusalEntry_code (c : Cause) (s : State) :
    (refusalEntry c s).code = s.code := rfl
@[simp] theorem refusalEntry_dtab (c : Cause) (s : State) :
    (refusalEntry c s).dtab = s.dtab := rfl
@[simp] theorem refusalEntry_bwBuf (c : Cause) (s : State) :
    (refusalEntry c s).bwBuf = s.bwBuf := rfl
@[simp] theorem refusalEntry_bwNbits (c : Cause) (s : State) :
    (refusalEntry c s).bwNbits = s.bwNbits := rfl
@[simp] theorem refusalEntry_brBuf (c : Cause) (s : State) :
    (refusalEntry c s).brBuf = s.brBuf := rfl
@[simp] theorem refusalEntry_brLimit (c : Cause) (s : State) :
    (refusalEntry c s).brLimit = s.brLimit := rfl
@[simp] theorem refusalEntry_brPos (c : Cause) (s : State) :
    (refusalEntry c s).brPos = s.brPos := rfl
@[simp] theorem refusalEntry_cOriglen (c : Cause) (s : State) :
    (refusalEntry c s).cOriglen = s.cOriglen := rfl
@[simp] theorem refusalEntry_cNsym (c : Cause) (s : State) :
    (refusalEntry c s).cNsym = s.cNsym := rfl
@[simp] theorem refusalEntry_cTab (c : Cause) (s : State) :
    (refusalEntry c s).cTab = s.cTab := rfl
@[simp] theorem refusalEntry_cBitcount (c : Cause) (s : State) :
    (refusalEntry c s).cBitcount = s.cBitcount := rfl
@[simp] theorem refusalEntry_cPayload (c : Cause) (s : State) :
    (refusalEntry c s).cPayload = s.cPayload := rfl
@[simp] theorem refusalEntry_call (c : Cause) (s : State) :
    (refusalEntry c s).call = s.call := rfl
@[simp] theorem refusalEntry_result (c : Cause) (s : State) :
    (refusalEntry c s).result = s.result := rfl
@[simp] theorem refusalEntry_inbox (c : Cause) (s : State) :
    (refusalEntry c s).inbox = s.inbox := rfl
@[simp] theorem refusalEntry_inEpoch (c : Cause) (s : State) :
    (refusalEntry c s).inEpoch = s.inEpoch := rfl
@[simp] theorem refusalEntry_outEpoch (c : Cause) (s : State) :
    (refusalEntry c s).outEpoch = s.outEpoch + 1 := rfl
@[simp] theorem refusalEntry_draws (c : Cause) (s : State) :
    (refusalEntry c s).draws = s.draws := rfl

@[simp] theorem addNode_par (n : Node) (s : State) :
    (addNode n s).par = s.par := rfl
@[simp] theorem addNode_cmd (n : Node) (s : State) :
    (addNode n s).cmd = s.cmd := rfl
@[simp] theorem addNode_status (n : Node) (s : State) :
    (addNode n s).status = s.status := rfl
@[simp] theorem addNode_errcode (n : Node) (s : State) :
    (addNode n s).errcode = s.errcode := rfl
@[simp] theorem addNode_errinfo (n : Node) (s : State) :
    (addNode n s).errinfo = s.errinfo := rfl
@[simp] theorem addNode_inLen (n : Node) (s : State) :
    (addNode n s).inLen = s.inLen := rfl
@[simp] theorem addNode_outLen (n : Node) (s : State) :
    (addNode n s).outLen = s.outLen := rfl
@[simp] theorem addNode_phase (n : Node) (s : State) :
    (addNode n s).phase = s.phase := rfl
@[simp] theorem addNode_inMem (n : Node) (s : State) :
    (addNode n s).inMem = s.inMem := rfl
@[simp] theorem addNode_outMem (n : Node) (s : State) :
    (addNode n s).outMem = s.outMem := rfl
@[simp] theorem addNode_freq (n : Node) (s : State) :
    (addNode n s).freq = s.freq := rfl
@[simp] theorem addNode_nsym (n : Node) (s : State) :
    (addNode n s).nsym = s.nsym := rfl
@[simp] theorem addNode_node (n : Node) (s : State) :
    (addNode n s).node = s.node.setIfInBounds s.ncount n := rfl
@[simp] theorem addNode_ncount (n : Node) (s : State) :
    (addNode n s).ncount = s.ncount + 1 := rfl
@[simp] theorem addNode_root (n : Node) (s : State) :
    (addNode n s).root = s.root := rfl
@[simp] theorem addNode_pq (n : Node) (s : State) :
    (addNode n s).pq = pqInsert s.ncount s.pq := rfl
@[simp] theorem addNode_rawcode (n : Node) (s : State) :
    (addNode n s).rawcode = s.rawcode := rfl
@[simp] theorem addNode_len (n : Node) (s : State) :
    (addNode n s).len = s.len := rfl
@[simp] theorem addNode_code (n : Node) (s : State) :
    (addNode n s).code = s.code := rfl
@[simp] theorem addNode_dtab (n : Node) (s : State) :
    (addNode n s).dtab = s.dtab := rfl
@[simp] theorem addNode_bwBuf (n : Node) (s : State) :
    (addNode n s).bwBuf = s.bwBuf := rfl
@[simp] theorem addNode_bwNbits (n : Node) (s : State) :
    (addNode n s).bwNbits = s.bwNbits := rfl
@[simp] theorem addNode_brBuf (n : Node) (s : State) :
    (addNode n s).brBuf = s.brBuf := rfl
@[simp] theorem addNode_brLimit (n : Node) (s : State) :
    (addNode n s).brLimit = s.brLimit := rfl
@[simp] theorem addNode_brPos (n : Node) (s : State) :
    (addNode n s).brPos = s.brPos := rfl
@[simp] theorem addNode_cOriglen (n : Node) (s : State) :
    (addNode n s).cOriglen = s.cOriglen := rfl
@[simp] theorem addNode_cNsym (n : Node) (s : State) :
    (addNode n s).cNsym = s.cNsym := rfl
@[simp] theorem addNode_cTab (n : Node) (s : State) :
    (addNode n s).cTab = s.cTab := rfl
@[simp] theorem addNode_cBitcount (n : Node) (s : State) :
    (addNode n s).cBitcount = s.cBitcount := rfl
@[simp] theorem addNode_cPayload (n : Node) (s : State) :
    (addNode n s).cPayload = s.cPayload := rfl
@[simp] theorem addNode_call (n : Node) (s : State) :
    (addNode n s).call = s.call := rfl
@[simp] theorem addNode_result (n : Node) (s : State) :
    (addNode n s).result = s.result := rfl
@[simp] theorem addNode_inbox (n : Node) (s : State) :
    (addNode n s).inbox = s.inbox := rfl
@[simp] theorem addNode_inEpoch (n : Node) (s : State) :
    (addNode n s).inEpoch = s.inEpoch := rfl
@[simp] theorem addNode_outEpoch (n : Node) (s : State) :
    (addNode n s).outEpoch = s.outEpoch := rfl
@[simp] theorem addNode_draws (n : Node) (s : State) :
    (addNode n s).draws = s.draws := rfl

@[simp] theorem setPaths_par (l : List (Byte × BitStr)) (s : State) :
    (setPaths l s).par = s.par := rfl
@[simp] theorem setPaths_cmd (l : List (Byte × BitStr)) (s : State) :
    (setPaths l s).cmd = s.cmd := rfl
@[simp] theorem setPaths_status (l : List (Byte × BitStr)) (s : State) :
    (setPaths l s).status = s.status := rfl
@[simp] theorem setPaths_errcode (l : List (Byte × BitStr)) (s : State) :
    (setPaths l s).errcode = s.errcode := rfl
@[simp] theorem setPaths_errinfo (l : List (Byte × BitStr)) (s : State) :
    (setPaths l s).errinfo = s.errinfo := rfl
@[simp] theorem setPaths_inLen (l : List (Byte × BitStr)) (s : State) :
    (setPaths l s).inLen = s.inLen := rfl
@[simp] theorem setPaths_outLen (l : List (Byte × BitStr)) (s : State) :
    (setPaths l s).outLen = s.outLen := rfl
@[simp] theorem setPaths_phase (l : List (Byte × BitStr)) (s : State) :
    (setPaths l s).phase = s.phase := rfl
@[simp] theorem setPaths_inMem (l : List (Byte × BitStr)) (s : State) :
    (setPaths l s).inMem = s.inMem := rfl
@[simp] theorem setPaths_outMem (l : List (Byte × BitStr)) (s : State) :
    (setPaths l s).outMem = s.outMem := rfl
@[simp] theorem setPaths_freq (l : List (Byte × BitStr)) (s : State) :
    (setPaths l s).freq = s.freq := rfl
@[simp] theorem setPaths_nsym (l : List (Byte × BitStr)) (s : State) :
    (setPaths l s).nsym = s.nsym := rfl
@[simp] theorem setPaths_node (l : List (Byte × BitStr)) (s : State) :
    (setPaths l s).node = s.node := rfl
@[simp] theorem setPaths_ncount (l : List (Byte × BitStr)) (s : State) :
    (setPaths l s).ncount = s.ncount := rfl
@[simp] theorem setPaths_root (l : List (Byte × BitStr)) (s : State) :
    (setPaths l s).root = s.root := rfl
@[simp] theorem setPaths_pq (l : List (Byte × BitStr)) (s : State) :
    (setPaths l s).pq = s.pq := rfl
@[simp] theorem setPaths_rawcode (l : List (Byte × BitStr)) (s : State) :
    (setPaths l s).rawcode = l.foldl (fun t e => tabSet t e.1 (some e.2)) (Vector.replicate 256 none) := rfl
@[simp] theorem setPaths_len (l : List (Byte × BitStr)) (s : State) :
    (setPaths l s).len = l.foldl (fun t e => tabSet t e.1 e.2.length) (Vector.replicate 256 0) := rfl
@[simp] theorem setPaths_code (l : List (Byte × BitStr)) (s : State) :
    (setPaths l s).code = s.code := rfl
@[simp] theorem setPaths_dtab (l : List (Byte × BitStr)) (s : State) :
    (setPaths l s).dtab = s.dtab := rfl
@[simp] theorem setPaths_bwBuf (l : List (Byte × BitStr)) (s : State) :
    (setPaths l s).bwBuf = s.bwBuf := rfl
@[simp] theorem setPaths_bwNbits (l : List (Byte × BitStr)) (s : State) :
    (setPaths l s).bwNbits = s.bwNbits := rfl
@[simp] theorem setPaths_brBuf (l : List (Byte × BitStr)) (s : State) :
    (setPaths l s).brBuf = s.brBuf := rfl
@[simp] theorem setPaths_brLimit (l : List (Byte × BitStr)) (s : State) :
    (setPaths l s).brLimit = s.brLimit := rfl
@[simp] theorem setPaths_brPos (l : List (Byte × BitStr)) (s : State) :
    (setPaths l s).brPos = s.brPos := rfl
@[simp] theorem setPaths_cOriglen (l : List (Byte × BitStr)) (s : State) :
    (setPaths l s).cOriglen = s.cOriglen := rfl
@[simp] theorem setPaths_cNsym (l : List (Byte × BitStr)) (s : State) :
    (setPaths l s).cNsym = s.cNsym := rfl
@[simp] theorem setPaths_cTab (l : List (Byte × BitStr)) (s : State) :
    (setPaths l s).cTab = s.cTab := rfl
@[simp] theorem setPaths_cBitcount (l : List (Byte × BitStr)) (s : State) :
    (setPaths l s).cBitcount = s.cBitcount := rfl
@[simp] theorem setPaths_cPayload (l : List (Byte × BitStr)) (s : State) :
    (setPaths l s).cPayload = s.cPayload := rfl
@[simp] theorem setPaths_call (l : List (Byte × BitStr)) (s : State) :
    (setPaths l s).call = s.call := rfl
@[simp] theorem setPaths_result (l : List (Byte × BitStr)) (s : State) :
    (setPaths l s).result = s.result := rfl
@[simp] theorem setPaths_inbox (l : List (Byte × BitStr)) (s : State) :
    (setPaths l s).inbox = s.inbox := rfl
@[simp] theorem setPaths_inEpoch (l : List (Byte × BitStr)) (s : State) :
    (setPaths l s).inEpoch = s.inEpoch := rfl
@[simp] theorem setPaths_outEpoch (l : List (Byte × BitStr)) (s : State) :
    (setPaths l s).outEpoch = s.outEpoch := rfl
@[simp] theorem setPaths_draws (l : List (Byte × BitStr)) (s : State) :
    (setPaths l s).draws = s.draws := rfl

@[simp] theorem setCodes_par (l : List (Byte × BitStr)) (s : State) :
    (setCodes l s).par = s.par := rfl
@[simp] theorem setCodes_cmd (l : List (Byte × BitStr)) (s : State) :
    (setCodes l s).cmd = s.cmd := rfl
@[simp] theorem setCodes_status (l : List (Byte × BitStr)) (s : State) :
    (setCodes l s).status = s.status := rfl
@[simp] theorem setCodes_errcode (l : List (Byte × BitStr)) (s : State) :
    (setCodes l s).errcode = s.errcode := rfl
@[simp] theorem setCodes_errinfo (l : List (Byte × BitStr)) (s : State) :
    (setCodes l s).errinfo = s.errinfo := rfl
@[simp] theorem setCodes_inLen (l : List (Byte × BitStr)) (s : State) :
    (setCodes l s).inLen = s.inLen := rfl
@[simp] theorem setCodes_outLen (l : List (Byte × BitStr)) (s : State) :
    (setCodes l s).outLen = s.outLen := rfl
@[simp] theorem setCodes_phase (l : List (Byte × BitStr)) (s : State) :
    (setCodes l s).phase = s.phase := rfl
@[simp] theorem setCodes_inMem (l : List (Byte × BitStr)) (s : State) :
    (setCodes l s).inMem = s.inMem := rfl
@[simp] theorem setCodes_outMem (l : List (Byte × BitStr)) (s : State) :
    (setCodes l s).outMem = s.outMem := rfl
@[simp] theorem setCodes_freq (l : List (Byte × BitStr)) (s : State) :
    (setCodes l s).freq = s.freq := rfl
@[simp] theorem setCodes_nsym (l : List (Byte × BitStr)) (s : State) :
    (setCodes l s).nsym = s.nsym := rfl
@[simp] theorem setCodes_node (l : List (Byte × BitStr)) (s : State) :
    (setCodes l s).node = s.node := rfl
@[simp] theorem setCodes_ncount (l : List (Byte × BitStr)) (s : State) :
    (setCodes l s).ncount = s.ncount := rfl
@[simp] theorem setCodes_root (l : List (Byte × BitStr)) (s : State) :
    (setCodes l s).root = s.root := rfl
@[simp] theorem setCodes_pq (l : List (Byte × BitStr)) (s : State) :
    (setCodes l s).pq = s.pq := rfl
@[simp] theorem setCodes_rawcode (l : List (Byte × BitStr)) (s : State) :
    (setCodes l s).rawcode = s.rawcode := rfl
@[simp] theorem setCodes_len (l : List (Byte × BitStr)) (s : State) :
    (setCodes l s).len = s.len := rfl
@[simp] theorem setCodes_code (l : List (Byte × BitStr)) (s : State) :
    (setCodes l s).code = l.foldl (fun t e => tabSet t e.1 (some e.2)) (Vector.replicate 256 none) := rfl
@[simp] theorem setCodes_dtab (l : List (Byte × BitStr)) (s : State) :
    (setCodes l s).dtab = s.dtab := rfl
@[simp] theorem setCodes_bwBuf (l : List (Byte × BitStr)) (s : State) :
    (setCodes l s).bwBuf = s.bwBuf := rfl
@[simp] theorem setCodes_bwNbits (l : List (Byte × BitStr)) (s : State) :
    (setCodes l s).bwNbits = s.bwNbits := rfl
@[simp] theorem setCodes_brBuf (l : List (Byte × BitStr)) (s : State) :
    (setCodes l s).brBuf = s.brBuf := rfl
@[simp] theorem setCodes_brLimit (l : List (Byte × BitStr)) (s : State) :
    (setCodes l s).brLimit = s.brLimit := rfl
@[simp] theorem setCodes_brPos (l : List (Byte × BitStr)) (s : State) :
    (setCodes l s).brPos = s.brPos := rfl
@[simp] theorem setCodes_cOriglen (l : List (Byte × BitStr)) (s : State) :
    (setCodes l s).cOriglen = s.cOriglen := rfl
@[simp] theorem setCodes_cNsym (l : List (Byte × BitStr)) (s : State) :
    (setCodes l s).cNsym = s.cNsym := rfl
@[simp] theorem setCodes_cTab (l : List (Byte × BitStr)) (s : State) :
    (setCodes l s).cTab = s.cTab := rfl
@[simp] theorem setCodes_cBitcount (l : List (Byte × BitStr)) (s : State) :
    (setCodes l s).cBitcount = s.cBitcount := rfl
@[simp] theorem setCodes_cPayload (l : List (Byte × BitStr)) (s : State) :
    (setCodes l s).cPayload = s.cPayload := rfl
@[simp] theorem setCodes_call (l : List (Byte × BitStr)) (s : State) :
    (setCodes l s).call = s.call := rfl
@[simp] theorem setCodes_result (l : List (Byte × BitStr)) (s : State) :
    (setCodes l s).result = s.result := rfl
@[simp] theorem setCodes_inbox (l : List (Byte × BitStr)) (s : State) :
    (setCodes l s).inbox = s.inbox := rfl
@[simp] theorem setCodes_inEpoch (l : List (Byte × BitStr)) (s : State) :
    (setCodes l s).inEpoch = s.inEpoch := rfl
@[simp] theorem setCodes_outEpoch (l : List (Byte × BitStr)) (s : State) :
    (setCodes l s).outEpoch = s.outEpoch := rfl
@[simp] theorem setCodes_draws (l : List (Byte × BitStr)) (s : State) :
    (setCodes l s).draws = s.draws := rfl

@[simp] theorem setPhase_par (p : Byte) (s : State) :
    (setPhase p s).par = s.par := rfl
@[simp] theorem setPhase_cmd (p : Byte) (s : State) :
    (setPhase p s).cmd = s.cmd := rfl
@[simp] theorem setPhase_status (p : Byte) (s : State) :
    (setPhase p s).status = s.status := rfl
@[simp] theorem setPhase_errcode (p : Byte) (s : State) :
    (setPhase p s).errcode = s.errcode := rfl
@[simp] theorem setPhase_errinfo (p : Byte) (s : State) :
    (setPhase p s).errinfo = s.errinfo := rfl
@[simp] theorem setPhase_inLen (p : Byte) (s : State) :
    (setPhase p s).inLen = s.inLen := rfl
@[simp] theorem setPhase_outLen (p : Byte) (s : State) :
    (setPhase p s).outLen = s.outLen := rfl
@[simp] theorem setPhase_phase (p : Byte) (s : State) :
    (setPhase p s).phase = p := rfl
@[simp] theorem setPhase_inMem (p : Byte) (s : State) :
    (setPhase p s).inMem = s.inMem := rfl
@[simp] theorem setPhase_outMem (p : Byte) (s : State) :
    (setPhase p s).outMem = s.outMem := rfl
@[simp] theorem setPhase_freq (p : Byte) (s : State) :
    (setPhase p s).freq = s.freq := rfl
@[simp] theorem setPhase_nsym (p : Byte) (s : State) :
    (setPhase p s).nsym = s.nsym := rfl
@[simp] theorem setPhase_node (p : Byte) (s : State) :
    (setPhase p s).node = s.node := rfl
@[simp] theorem setPhase_ncount (p : Byte) (s : State) :
    (setPhase p s).ncount = s.ncount := rfl
@[simp] theorem setPhase_root (p : Byte) (s : State) :
    (setPhase p s).root = s.root := rfl
@[simp] theorem setPhase_pq (p : Byte) (s : State) :
    (setPhase p s).pq = s.pq := rfl
@[simp] theorem setPhase_rawcode (p : Byte) (s : State) :
    (setPhase p s).rawcode = s.rawcode := rfl
@[simp] theorem setPhase_len (p : Byte) (s : State) :
    (setPhase p s).len = s.len := rfl
@[simp] theorem setPhase_code (p : Byte) (s : State) :
    (setPhase p s).code = s.code := rfl
@[simp] theorem setPhase_dtab (p : Byte) (s : State) :
    (setPhase p s).dtab = s.dtab := rfl
@[simp] theorem setPhase_bwBuf (p : Byte) (s : State) :
    (setPhase p s).bwBuf = s.bwBuf := rfl
@[simp] theorem setPhase_bwNbits (p : Byte) (s : State) :
    (setPhase p s).bwNbits = s.bwNbits := rfl
@[simp] theorem setPhase_brBuf (p : Byte) (s : State) :
    (setPhase p s).brBuf = s.brBuf := rfl
@[simp] theorem setPhase_brLimit (p : Byte) (s : State) :
    (setPhase p s).brLimit = s.brLimit := rfl
@[simp] theorem setPhase_brPos (p : Byte) (s : State) :
    (setPhase p s).brPos = s.brPos := rfl
@[simp] theorem setPhase_cOriglen (p : Byte) (s : State) :
    (setPhase p s).cOriglen = s.cOriglen := rfl
@[simp] theorem setPhase_cNsym (p : Byte) (s : State) :
    (setPhase p s).cNsym = s.cNsym := rfl
@[simp] theorem setPhase_cTab (p : Byte) (s : State) :
    (setPhase p s).cTab = s.cTab := rfl
@[simp] theorem setPhase_cBitcount (p : Byte) (s : State) :
    (setPhase p s).cBitcount = s.cBitcount := rfl
@[simp] theorem setPhase_cPayload (p : Byte) (s : State) :
    (setPhase p s).cPayload = s.cPayload := rfl
@[simp] theorem setPhase_call (p : Byte) (s : State) :
    (setPhase p s).call = s.call := rfl
@[simp] theorem setPhase_result (p : Byte) (s : State) :
    (setPhase p s).result = s.result := rfl
@[simp] theorem setPhase_inbox (p : Byte) (s : State) :
    (setPhase p s).inbox = s.inbox := rfl
@[simp] theorem setPhase_inEpoch (p : Byte) (s : State) :
    (setPhase p s).inEpoch = s.inEpoch := rfl
@[simp] theorem setPhase_outEpoch (p : Byte) (s : State) :
    (setPhase p s).outEpoch = s.outEpoch := rfl
@[simp] theorem setPhase_draws (p : Byte) (s : State) :
    (setPhase p s).draws = s.draws := rfl

@[simp] theorem withWriter_par (s : State) (w : List Byte × Nat) :
    (s.withWriter w).par = s.par := rfl
@[simp] theorem withWriter_cmd (s : State) (w : List Byte × Nat) :
    (s.withWriter w).cmd = s.cmd := rfl
@[simp] theorem withWriter_status (s : State) (w : List Byte × Nat) :
    (s.withWriter w).status = s.status := rfl
@[simp] theorem withWriter_errcode (s : State) (w : List Byte × Nat) :
    (s.withWriter w).errcode = s.errcode := rfl
@[simp] theorem withWriter_errinfo (s : State) (w : List Byte × Nat) :
    (s.withWriter w).errinfo = s.errinfo := rfl
@[simp] theorem withWriter_inLen (s : State) (w : List Byte × Nat) :
    (s.withWriter w).inLen = s.inLen := rfl
@[simp] theorem withWriter_outLen (s : State) (w : List Byte × Nat) :
    (s.withWriter w).outLen = s.outLen := rfl
@[simp] theorem withWriter_phase (s : State) (w : List Byte × Nat) :
    (s.withWriter w).phase = s.phase := rfl
@[simp] theorem withWriter_inMem (s : State) (w : List Byte × Nat) :
    (s.withWriter w).inMem = s.inMem := rfl
@[simp] theorem withWriter_outMem (s : State) (w : List Byte × Nat) :
    (s.withWriter w).outMem = s.outMem := rfl
@[simp] theorem withWriter_freq (s : State) (w : List Byte × Nat) :
    (s.withWriter w).freq = s.freq := rfl
@[simp] theorem withWriter_nsym (s : State) (w : List Byte × Nat) :
    (s.withWriter w).nsym = s.nsym := rfl
@[simp] theorem withWriter_node (s : State) (w : List Byte × Nat) :
    (s.withWriter w).node = s.node := rfl
@[simp] theorem withWriter_ncount (s : State) (w : List Byte × Nat) :
    (s.withWriter w).ncount = s.ncount := rfl
@[simp] theorem withWriter_root (s : State) (w : List Byte × Nat) :
    (s.withWriter w).root = s.root := rfl
@[simp] theorem withWriter_pq (s : State) (w : List Byte × Nat) :
    (s.withWriter w).pq = s.pq := rfl
@[simp] theorem withWriter_rawcode (s : State) (w : List Byte × Nat) :
    (s.withWriter w).rawcode = s.rawcode := rfl
@[simp] theorem withWriter_len (s : State) (w : List Byte × Nat) :
    (s.withWriter w).len = s.len := rfl
@[simp] theorem withWriter_code (s : State) (w : List Byte × Nat) :
    (s.withWriter w).code = s.code := rfl
@[simp] theorem withWriter_dtab (s : State) (w : List Byte × Nat) :
    (s.withWriter w).dtab = s.dtab := rfl
@[simp] theorem withWriter_bwBuf (s : State) (w : List Byte × Nat) :
    (s.withWriter w).bwBuf = w.1 := rfl
@[simp] theorem withWriter_bwNbits (s : State) (w : List Byte × Nat) :
    (s.withWriter w).bwNbits = w.2 := rfl
@[simp] theorem withWriter_brBuf (s : State) (w : List Byte × Nat) :
    (s.withWriter w).brBuf = s.brBuf := rfl
@[simp] theorem withWriter_brLimit (s : State) (w : List Byte × Nat) :
    (s.withWriter w).brLimit = s.brLimit := rfl
@[simp] theorem withWriter_brPos (s : State) (w : List Byte × Nat) :
    (s.withWriter w).brPos = s.brPos := rfl
@[simp] theorem withWriter_cOriglen (s : State) (w : List Byte × Nat) :
    (s.withWriter w).cOriglen = s.cOriglen := rfl
@[simp] theorem withWriter_cNsym (s : State) (w : List Byte × Nat) :
    (s.withWriter w).cNsym = s.cNsym := rfl
@[simp] theorem withWriter_cTab (s : State) (w : List Byte × Nat) :
    (s.withWriter w).cTab = s.cTab := rfl
@[simp] theorem withWriter_cBitcount (s : State) (w : List Byte × Nat) :
    (s.withWriter w).cBitcount = s.cBitcount := rfl
@[simp] theorem withWriter_cPayload (s : State) (w : List Byte × Nat) :
    (s.withWriter w).cPayload = s.cPayload := rfl
@[simp] theorem withWriter_call (s : State) (w : List Byte × Nat) :
    (s.withWriter w).call = s.call := rfl
@[simp] theorem withWriter_result (s : State) (w : List Byte × Nat) :
    (s.withWriter w).result = s.result := rfl
@[simp] theorem withWriter_inbox (s : State) (w : List Byte × Nat) :
    (s.withWriter w).inbox = s.inbox := rfl
@[simp] theorem withWriter_inEpoch (s : State) (w : List Byte × Nat) :
    (s.withWriter w).inEpoch = s.inEpoch := rfl
@[simp] theorem withWriter_outEpoch (s : State) (w : List Byte × Nat) :
    (s.withWriter w).outEpoch = s.outEpoch := rfl
@[simp] theorem withWriter_draws (s : State) (w : List Byte × Nat) :
    (s.withWriter w).draws = s.draws := rfl

@[simp] theorem attachReader_par (buf : List Byte) (limit : Nat) (s : State) :
    (attachReader buf limit s).par = s.par := rfl
@[simp] theorem attachReader_cmd (buf : List Byte) (limit : Nat) (s : State) :
    (attachReader buf limit s).cmd = s.cmd := rfl
@[simp] theorem attachReader_status (buf : List Byte) (limit : Nat) (s : State) :
    (attachReader buf limit s).status = s.status := rfl
@[simp] theorem attachReader_errcode (buf : List Byte) (limit : Nat) (s : State) :
    (attachReader buf limit s).errcode = s.errcode := rfl
@[simp] theorem attachReader_errinfo (buf : List Byte) (limit : Nat) (s : State) :
    (attachReader buf limit s).errinfo = s.errinfo := rfl
@[simp] theorem attachReader_inLen (buf : List Byte) (limit : Nat) (s : State) :
    (attachReader buf limit s).inLen = s.inLen := rfl
@[simp] theorem attachReader_outLen (buf : List Byte) (limit : Nat) (s : State) :
    (attachReader buf limit s).outLen = s.outLen := rfl
@[simp] theorem attachReader_phase (buf : List Byte) (limit : Nat) (s : State) :
    (attachReader buf limit s).phase = s.phase := rfl
@[simp] theorem attachReader_inMem (buf : List Byte) (limit : Nat) (s : State) :
    (attachReader buf limit s).inMem = s.inMem := rfl
@[simp] theorem attachReader_outMem (buf : List Byte) (limit : Nat) (s : State) :
    (attachReader buf limit s).outMem = s.outMem := rfl
@[simp] theorem attachReader_freq (buf : List Byte) (limit : Nat) (s : State) :
    (attachReader buf limit s).freq = s.freq := rfl
@[simp] theorem attachReader_nsym (buf : List Byte) (limit : Nat) (s : State) :
    (attachReader buf limit s).nsym = s.nsym := rfl
@[simp] theorem attachReader_node (buf : List Byte) (limit : Nat) (s : State) :
    (attachReader buf limit s).node = s.node := rfl
@[simp] theorem attachReader_ncount (buf : List Byte) (limit : Nat) (s : State) :
    (attachReader buf limit s).ncount = s.ncount := rfl
@[simp] theorem attachReader_root (buf : List Byte) (limit : Nat) (s : State) :
    (attachReader buf limit s).root = s.root := rfl
@[simp] theorem attachReader_pq (buf : List Byte) (limit : Nat) (s : State) :
    (attachReader buf limit s).pq = s.pq := rfl
@[simp] theorem attachReader_rawcode (buf : List Byte) (limit : Nat) (s : State) :
    (attachReader buf limit s).rawcode = s.rawcode := rfl
@[simp] theorem attachReader_len (buf : List Byte) (limit : Nat) (s : State) :
    (attachReader buf limit s).len = s.len := rfl
@[simp] theorem attachReader_code (buf : List Byte) (limit : Nat) (s : State) :
    (attachReader buf limit s).code = s.code := rfl
@[simp] theorem attachReader_dtab (buf : List Byte) (limit : Nat) (s : State) :
    (attachReader buf limit s).dtab = s.dtab := rfl
@[simp] theorem attachReader_bwBuf (buf : List Byte) (limit : Nat) (s : State) :
    (attachReader buf limit s).bwBuf = s.bwBuf := rfl
@[simp] theorem attachReader_bwNbits (buf : List Byte) (limit : Nat) (s : State) :
    (attachReader buf limit s).bwNbits = s.bwNbits := rfl
@[simp] theorem attachReader_brBuf (buf : List Byte) (limit : Nat) (s : State) :
    (attachReader buf limit s).brBuf = buf := rfl
@[simp] theorem attachReader_brLimit (buf : List Byte) (limit : Nat) (s : State) :
    (attachReader buf limit s).brLimit = limit := rfl
@[simp] theorem attachReader_brPos (buf : List Byte) (limit : Nat) (s : State) :
    (attachReader buf limit s).brPos = 0 := rfl
@[simp] theorem attachReader_cOriglen (buf : List Byte) (limit : Nat) (s : State) :
    (attachReader buf limit s).cOriglen = s.cOriglen := rfl
@[simp] theorem attachReader_cNsym (buf : List Byte) (limit : Nat) (s : State) :
    (attachReader buf limit s).cNsym = s.cNsym := rfl
@[simp] theorem attachReader_cTab (buf : List Byte) (limit : Nat) (s : State) :
    (attachReader buf limit s).cTab = s.cTab := rfl
@[simp] theorem attachReader_cBitcount (buf : List Byte) (limit : Nat) (s : State) :
    (attachReader buf limit s).cBitcount = s.cBitcount := rfl
@[simp] theorem attachReader_cPayload (buf : List Byte) (limit : Nat) (s : State) :
    (attachReader buf limit s).cPayload = s.cPayload := rfl
@[simp] theorem attachReader_call (buf : List Byte) (limit : Nat) (s : State) :
    (attachReader buf limit s).call = s.call := rfl
@[simp] theorem attachReader_result (buf : List Byte) (limit : Nat) (s : State) :
    (attachReader buf limit s).result = s.result := rfl
@[simp] theorem attachReader_inbox (buf : List Byte) (limit : Nat) (s : State) :
    (attachReader buf limit s).inbox = s.inbox := rfl
@[simp] theorem attachReader_inEpoch (buf : List Byte) (limit : Nat) (s : State) :
    (attachReader buf limit s).inEpoch = s.inEpoch := rfl
@[simp] theorem attachReader_outEpoch (buf : List Byte) (limit : Nat) (s : State) :
    (attachReader buf limit s).outEpoch = s.outEpoch := rfl
@[simp] theorem attachReader_draws (buf : List Byte) (limit : Nat) (s : State) :
    (attachReader buf limit s).draws = s.draws + 1 := rfl

@[simp] theorem advanceReader_par (s : State) :
    (advanceReader s).par = s.par := rfl
@[simp] theorem advanceReader_cmd (s : State) :
    (advanceReader s).cmd = s.cmd := rfl
@[simp] theorem advanceReader_status (s : State) :
    (advanceReader s).status = s.status := rfl
@[simp] theorem advanceReader_errcode (s : State) :
    (advanceReader s).errcode = s.errcode := rfl
@[simp] theorem advanceReader_errinfo (s : State) :
    (advanceReader s).errinfo = s.errinfo := rfl
@[simp] theorem advanceReader_inLen (s : State) :
    (advanceReader s).inLen = s.inLen := rfl
@[simp] theorem advanceReader_outLen (s : State) :
    (advanceReader s).outLen = s.outLen := rfl
@[simp] theorem advanceReader_phase (s : State) :
    (advanceReader s).phase = s.phase := rfl
@[simp] theorem advanceReader_inMem (s : State) :
    (advanceReader s).inMem = s.inMem := rfl
@[simp] theorem advanceReader_outMem (s : State) :
    (advanceReader s).outMem = s.outMem := rfl
@[simp] theorem advanceReader_freq (s : State) :
    (advanceReader s).freq = s.freq := rfl
@[simp] theorem advanceReader_nsym (s : State) :
    (advanceReader s).nsym = s.nsym := rfl
@[simp] theorem advanceReader_node (s : State) :
    (advanceReader s).node = s.node := rfl
@[simp] theorem advanceReader_ncount (s : State) :
    (advanceReader s).ncount = s.ncount := rfl
@[simp] theorem advanceReader_root (s : State) :
    (advanceReader s).root = s.root := rfl
@[simp] theorem advanceReader_pq (s : State) :
    (advanceReader s).pq = s.pq := rfl
@[simp] theorem advanceReader_rawcode (s : State) :
    (advanceReader s).rawcode = s.rawcode := rfl
@[simp] theorem advanceReader_len (s : State) :
    (advanceReader s).len = s.len := rfl
@[simp] theorem advanceReader_code (s : State) :
    (advanceReader s).code = s.code := rfl
@[simp] theorem advanceReader_dtab (s : State) :
    (advanceReader s).dtab = s.dtab := rfl
@[simp] theorem advanceReader_bwBuf (s : State) :
    (advanceReader s).bwBuf = s.bwBuf := rfl
@[simp] theorem advanceReader_bwNbits (s : State) :
    (advanceReader s).bwNbits = s.bwNbits := rfl
@[simp] theorem advanceReader_brBuf (s : State) :
    (advanceReader s).brBuf = s.brBuf := rfl
@[simp] theorem advanceReader_brLimit (s : State) :
    (advanceReader s).brLimit = s.brLimit := rfl
@[simp] theorem advanceReader_brPos (s : State) :
    (advanceReader s).brPos = s.brPos + 1 := rfl
@[simp] theorem advanceReader_cOriglen (s : State) :
    (advanceReader s).cOriglen = s.cOriglen := rfl
@[simp] theorem advanceReader_cNsym (s : State) :
    (advanceReader s).cNsym = s.cNsym := rfl
@[simp] theorem advanceReader_cTab (s : State) :
    (advanceReader s).cTab = s.cTab := rfl
@[simp] theorem advanceReader_cBitcount (s : State) :
    (advanceReader s).cBitcount = s.cBitcount := rfl
@[simp] theorem advanceReader_cPayload (s : State) :
    (advanceReader s).cPayload = s.cPayload := rfl
@[simp] theorem advanceReader_call (s : State) :
    (advanceReader s).call = s.call := rfl
@[simp] theorem advanceReader_result (s : State) :
    (advanceReader s).result = s.result := rfl
@[simp] theorem advanceReader_inbox (s : State) :
    (advanceReader s).inbox = s.inbox := rfl
@[simp] theorem advanceReader_inEpoch (s : State) :
    (advanceReader s).inEpoch = s.inEpoch := rfl
@[simp] theorem advanceReader_outEpoch (s : State) :
    (advanceReader s).outEpoch = s.outEpoch := rfl
@[simp] theorem advanceReader_draws (s : State) :
    (advanceReader s).draws = s.draws := rfl

@[simp] theorem fillFields_par (s : State) :
    (fillFields s).par = s.par := rfl
@[simp] theorem fillFields_cmd (s : State) :
    (fillFields s).cmd = s.cmd := rfl
@[simp] theorem fillFields_status (s : State) :
    (fillFields s).status = s.status := rfl
@[simp] theorem fillFields_errcode (s : State) :
    (fillFields s).errcode = s.errcode := rfl
@[simp] theorem fillFields_errinfo (s : State) :
    (fillFields s).errinfo = s.errinfo := rfl
@[simp] theorem fillFields_inLen (s : State) :
    (fillFields s).inLen = s.inLen := rfl
@[simp] theorem fillFields_outLen (s : State) :
    (fillFields s).outLen = s.outLen := rfl
@[simp] theorem fillFields_phase (s : State) :
    (fillFields s).phase = s.phase := rfl
@[simp] theorem fillFields_inMem (s : State) :
    (fillFields s).inMem = s.inMem := rfl
@[simp] theorem fillFields_outMem (s : State) :
    (fillFields s).outMem = s.outMem := rfl
@[simp] theorem fillFields_freq (s : State) :
    (fillFields s).freq = s.freq := rfl
@[simp] theorem fillFields_nsym (s : State) :
    (fillFields s).nsym = s.nsym := rfl
@[simp] theorem fillFields_node (s : State) :
    (fillFields s).node = s.node := rfl
@[simp] theorem fillFields_ncount (s : State) :
    (fillFields s).ncount = s.ncount := rfl
@[simp] theorem fillFields_root (s : State) :
    (fillFields s).root = s.root := rfl
@[simp] theorem fillFields_pq (s : State) :
    (fillFields s).pq = s.pq := rfl
@[simp] theorem fillFields_rawcode (s : State) :
    (fillFields s).rawcode = s.rawcode := rfl
@[simp] theorem fillFields_len (s : State) :
    (fillFields s).len = s.len := rfl
@[simp] theorem fillFields_code (s : State) :
    (fillFields s).code = s.code := rfl
@[simp] theorem fillFields_dtab (s : State) :
    (fillFields s).dtab = s.dtab := rfl
@[simp] theorem fillFields_bwBuf (s : State) :
    (fillFields s).bwBuf = s.bwBuf := rfl
@[simp] theorem fillFields_bwNbits (s : State) :
    (fillFields s).bwNbits = s.bwNbits := rfl
@[simp] theorem fillFields_brBuf (s : State) :
    (fillFields s).brBuf = s.brBuf := rfl
@[simp] theorem fillFields_brLimit (s : State) :
    (fillFields s).brLimit = s.brLimit := rfl
@[simp] theorem fillFields_brPos (s : State) :
    (fillFields s).brPos = s.brPos := rfl
@[simp] theorem fillFields_cOriglen (s : State) :
    (fillFields s).cOriglen = s.inLen.toNat := rfl
@[simp] theorem fillFields_cNsym (s : State) :
    (fillFields s).cNsym = s.nsym := rfl
@[simp] theorem fillFields_cTab (s : State) :
    (fillFields s).cTab = lengthTable (tab s.len) := rfl
@[simp] theorem fillFields_cBitcount (s : State) :
    (fillFields s).cBitcount = s.bwNbits := rfl
@[simp] theorem fillFields_cPayload (s : State) :
    (fillFields s).cPayload = s.bwBuf := rfl
@[simp] theorem fillFields_call (s : State) :
    (fillFields s).call = s.call := rfl
@[simp] theorem fillFields_result (s : State) :
    (fillFields s).result = s.result := rfl
@[simp] theorem fillFields_inbox (s : State) :
    (fillFields s).inbox = s.inbox := rfl
@[simp] theorem fillFields_inEpoch (s : State) :
    (fillFields s).inEpoch = s.inEpoch := rfl
@[simp] theorem fillFields_outEpoch (s : State) :
    (fillFields s).outEpoch = s.outEpoch := rfl
@[simp] theorem fillFields_draws (s : State) :
    (fillFields s).draws = s.draws := rfl

@[simp] theorem emptyFields_par (s : State) :
    (emptyFields s).par = s.par := rfl
@[simp] theorem emptyFields_cmd (s : State) :
    (emptyFields s).cmd = s.cmd := rfl
@[simp] theorem emptyFields_status (s : State) :
    (emptyFields s).status = s.status := rfl
@[simp] theorem emptyFields_errcode (s : State) :
    (emptyFields s).errcode = s.errcode := rfl
@[simp] theorem emptyFields_errinfo (s : State) :
    (emptyFields s).errinfo = s.errinfo := rfl
@[simp] theorem emptyFields_inLen (s : State) :
    (emptyFields s).inLen = s.inLen := rfl
@[simp] theorem emptyFields_outLen (s : State) :
    (emptyFields s).outLen = s.outLen := rfl
@[simp] theorem emptyFields_phase (s : State) :
    (emptyFields s).phase = s.phase := rfl
@[simp] theorem emptyFields_inMem (s : State) :
    (emptyFields s).inMem = s.inMem := rfl
@[simp] theorem emptyFields_outMem (s : State) :
    (emptyFields s).outMem = s.outMem := rfl
@[simp] theorem emptyFields_freq (s : State) :
    (emptyFields s).freq = s.freq := rfl
@[simp] theorem emptyFields_nsym (s : State) :
    (emptyFields s).nsym = s.nsym := rfl
@[simp] theorem emptyFields_node (s : State) :
    (emptyFields s).node = s.node := rfl
@[simp] theorem emptyFields_ncount (s : State) :
    (emptyFields s).ncount = s.ncount := rfl
@[simp] theorem emptyFields_root (s : State) :
    (emptyFields s).root = s.root := rfl
@[simp] theorem emptyFields_pq (s : State) :
    (emptyFields s).pq = s.pq := rfl
@[simp] theorem emptyFields_rawcode (s : State) :
    (emptyFields s).rawcode = s.rawcode := rfl
@[simp] theorem emptyFields_len (s : State) :
    (emptyFields s).len = s.len := rfl
@[simp] theorem emptyFields_code (s : State) :
    (emptyFields s).code = s.code := rfl
@[simp] theorem emptyFields_dtab (s : State) :
    (emptyFields s).dtab = s.dtab := rfl
@[simp] theorem emptyFields_bwBuf (s : State) :
    (emptyFields s).bwBuf = s.bwBuf := rfl
@[simp] theorem emptyFields_bwNbits (s : State) :
    (emptyFields s).bwNbits = s.bwNbits := rfl
@[simp] theorem emptyFields_brBuf (s : State) :
    (emptyFields s).brBuf = s.brBuf := rfl
@[simp] theorem emptyFields_brLimit (s : State) :
    (emptyFields s).brLimit = s.brLimit := rfl
@[simp] theorem emptyFields_brPos (s : State) :
    (emptyFields s).brPos = s.brPos := rfl
@[simp] theorem emptyFields_cOriglen (s : State) :
    (emptyFields s).cOriglen = 0 := rfl
@[simp] theorem emptyFields_cNsym (s : State) :
    (emptyFields s).cNsym = 0 := rfl
@[simp] theorem emptyFields_cTab (s : State) :
    (emptyFields s).cTab = [] := rfl
@[simp] theorem emptyFields_cBitcount (s : State) :
    (emptyFields s).cBitcount = 0 := rfl
@[simp] theorem emptyFields_cPayload (s : State) :
    (emptyFields s).cPayload = [] := rfl
@[simp] theorem emptyFields_call (s : State) :
    (emptyFields s).call = s.call := rfl
@[simp] theorem emptyFields_result (s : State) :
    (emptyFields s).result = s.result := rfl
@[simp] theorem emptyFields_inbox (s : State) :
    (emptyFields s).inbox = s.inbox := rfl
@[simp] theorem emptyFields_inEpoch (s : State) :
    (emptyFields s).inEpoch = s.inEpoch := rfl
@[simp] theorem emptyFields_outEpoch (s : State) :
    (emptyFields s).outEpoch = s.outEpoch := rfl
@[simp] theorem emptyFields_draws (s : State) :
    (emptyFields s).draws = s.draws := rfl

@[simp] theorem writeArtifact_par (s : State) :
    (writeArtifact s).par = s.par := rfl
@[simp] theorem writeArtifact_cmd (s : State) :
    (writeArtifact s).cmd = s.cmd := rfl
@[simp] theorem writeArtifact_status (s : State) :
    (writeArtifact s).status = s.status := rfl
@[simp] theorem writeArtifact_errcode (s : State) :
    (writeArtifact s).errcode = s.errcode := rfl
@[simp] theorem writeArtifact_errinfo (s : State) :
    (writeArtifact s).errinfo = s.errinfo := rfl
@[simp] theorem writeArtifact_inLen (s : State) :
    (writeArtifact s).inLen = s.inLen := rfl
@[simp] theorem writeArtifact_outLen (s : State) :
    (writeArtifact s).outLen = s.outLen := rfl
@[simp] theorem writeArtifact_phase (s : State) :
    (writeArtifact s).phase = s.phase := rfl
@[simp] theorem writeArtifact_inMem (s : State) :
    (writeArtifact s).inMem = s.inMem := rfl
@[simp] theorem writeArtifact_outMem (s : State) :
    (writeArtifact s).outMem = s.outMem.setBytes 0 s.artifact := rfl
@[simp] theorem writeArtifact_freq (s : State) :
    (writeArtifact s).freq = s.freq := rfl
@[simp] theorem writeArtifact_nsym (s : State) :
    (writeArtifact s).nsym = s.nsym := rfl
@[simp] theorem writeArtifact_node (s : State) :
    (writeArtifact s).node = s.node := rfl
@[simp] theorem writeArtifact_ncount (s : State) :
    (writeArtifact s).ncount = s.ncount := rfl
@[simp] theorem writeArtifact_root (s : State) :
    (writeArtifact s).root = s.root := rfl
@[simp] theorem writeArtifact_pq (s : State) :
    (writeArtifact s).pq = s.pq := rfl
@[simp] theorem writeArtifact_rawcode (s : State) :
    (writeArtifact s).rawcode = s.rawcode := rfl
@[simp] theorem writeArtifact_len (s : State) :
    (writeArtifact s).len = s.len := rfl
@[simp] theorem writeArtifact_code (s : State) :
    (writeArtifact s).code = s.code := rfl
@[simp] theorem writeArtifact_dtab (s : State) :
    (writeArtifact s).dtab = s.dtab := rfl
@[simp] theorem writeArtifact_bwBuf (s : State) :
    (writeArtifact s).bwBuf = s.bwBuf := rfl
@[simp] theorem writeArtifact_bwNbits (s : State) :
    (writeArtifact s).bwNbits = s.bwNbits := rfl
@[simp] theorem writeArtifact_brBuf (s : State) :
    (writeArtifact s).brBuf = s.brBuf := rfl
@[simp] theorem writeArtifact_brLimit (s : State) :
    (writeArtifact s).brLimit = s.brLimit := rfl
@[simp] theorem writeArtifact_brPos (s : State) :
    (writeArtifact s).brPos = s.brPos := rfl
@[simp] theorem writeArtifact_cOriglen (s : State) :
    (writeArtifact s).cOriglen = s.cOriglen := rfl
@[simp] theorem writeArtifact_cNsym (s : State) :
    (writeArtifact s).cNsym = s.cNsym := rfl
@[simp] theorem writeArtifact_cTab (s : State) :
    (writeArtifact s).cTab = s.cTab := rfl
@[simp] theorem writeArtifact_cBitcount (s : State) :
    (writeArtifact s).cBitcount = s.cBitcount := rfl
@[simp] theorem writeArtifact_cPayload (s : State) :
    (writeArtifact s).cPayload = s.cPayload := rfl
@[simp] theorem writeArtifact_call (s : State) :
    (writeArtifact s).call = s.call := rfl
@[simp] theorem writeArtifact_result (s : State) :
    (writeArtifact s).result = .length s.artifactLen := rfl
@[simp] theorem writeArtifact_inbox (s : State) :
    (writeArtifact s).inbox = s.inbox := rfl
@[simp] theorem writeArtifact_inEpoch (s : State) :
    (writeArtifact s).inEpoch = s.inEpoch := rfl
@[simp] theorem writeArtifact_outEpoch (s : State) :
    (writeArtifact s).outEpoch = s.outEpoch := rfl
@[simp] theorem writeArtifact_draws (s : State) :
    (writeArtifact s).draws = if s.cTab.length < s.cNsym then s.draws + 1 else s.draws := rfl

end Sys2Proof.Machine
end

