-- ==== Sys2Proof/Laws/Encode.lean ====
section
/-! SUPPORT. The run of the ENCODE program (45_orchestration.md R200, R201): the counts, the phases, and the state it
leaves. -/

namespace Sys2Proof.Machine

section count

theorem tab_foldl_countByte (bs : List Byte) (t : Vector Nat 256) (b : Byte) :
    tab (bs.foldl countByte t) b = tab t b + bs.count b := by
  induction bs generalizing t with
  | nil => simp
  | cons a bs ih =>
    rw [List.foldl_cons, ih, countByte, tab_tabSet, List.count_cons]
    by_cases e : b = a
    · subst e; simp; omega
    · simp [e, Ne.symm e]

/-- FCOUNT's counters (40_frequency.md R100). -/
theorem tab_countBytes (bs : List Byte) (b : Byte) : tab (countBytes bs) b = bs.count b := by
  simp [countBytes, tab_foldl_countByte]

theorem mem_present_countBytes {bs : List Byte} {b : Byte} : b ∈ present (countBytes bs) ↔ b ∈ bs := by
  rw [mem_present, tab_countBytes, List.count_pos_iff]

theorem sum_single {f : Byte → Nat} {a : Byte} {l : List Byte} (hn : l.Nodup) (ha : a ∈ l) :
    (l.map fun b => if b = a then f b else 0).sum = f a := by
  induction l with
  | nil => simp at ha
  | cons x l ih =>
    rw [List.nodup_cons] at hn
    rw [List.map_cons, List.sum_cons]
    by_cases e : x = a
    · subst e
      have : (l.map fun b => if b = x then f b else 0).sum = 0 := by
        rw [List.sum_eq_zero]
        intro y hy
        obtain ⟨b, hb, rfl⟩ := List.mem_map.1 hy
        rw [if_neg]
        rintro rfl
        exact hn.1 hb
      rw [this]; simp
    · rw [if_neg e, ih hn.2 ((List.mem_cons.1 ha).resolve_left (Ne.symm e)), Nat.zero_add]

/-- A sum over the input is a sum over the symbols, each by its count (40_frequency.md R101). -/
theorem sum_counts (bs : List Byte) (f : Byte → Nat) :
    ((present (countBytes bs)).map fun b => tab (countBytes bs) b * f b).sum = (bs.map f).sum := by
  rw [present, sum_filter_eq]
  have h : ∀ b : Byte, (if decide (0 < tab (countBytes bs) b) then tab (countBytes bs) b * f b else 0) =
      bs.count b * f b := by
    intro b
    rw [tab_countBytes]
    by_cases e : 0 < bs.count b
    · simp [e]
    · have : bs.count b = 0 := by omega
      simp [this]
  simp only [h]
  induction bs with
  | nil => simp
  | cons a bs ih =>
    have e : ∀ b, (a :: bs).count b * f b = bs.count b * f b + if b = a then f b else 0 := by
      intro b
      rw [List.count_cons, Nat.add_mul]
      by_cases e : b = a
      · subst e; simp
      · simp [e, Ne.symm e]
    simp only [e, List.sum_map_add, List.map_cons, List.sum_cons]
    rw [ih (fun b => by
      rw [tab_countBytes]
      by_cases e : 0 < bs.count b
      · simp [e]
      · have : bs.count b = 0 := by omega
        simp [this]), sum_single allBytes_nodup (mem_allBytes a)]
    omega

theorem total_countBytes (bs : List Byte) : total (countBytes bs) = bs.length := by
  have := sum_counts bs fun _ => 1
  simpa [total] using this

end count

section phase

theorem addLeaf_setPhase (p : Byte) (s : State) (b : Byte) : addLeaf (setPhase p s) b = setPhase p (addLeaf s b) := by
  unfold addLeaf
  by_cases h : 0 < tab s.freq b
  · rw [if_pos h, if_pos (show 0 < tab (setPhase p s).freq b from h)]; rfl
  · rw [if_neg h, if_neg (show ¬ 0 < tab (setPhase p s).freq b from h)]

theorem foldl_addLeaf_setPhase (p : Byte) (l : List Byte) (s : State) :
    l.foldl addLeaf (setPhase p s) = setPhase p (l.foldl addLeaf s) := by
  induction l generalizing s with
  | nil => rfl
  | cons b l ih => rw [List.foldl_cons, List.foldl_cons, addLeaf_setPhase, ih]

theorem initTree_setPhase (p : Byte) (s : State) : initTree (setPhase p s) = setPhase p (initTree s) := by
  have h := foldl_addLeaf_setPhase p allBytes { s with pq := [], ncount := 0 }
  exact congrArg (fun t : State => { t with nsym := t.ncount }) h

theorem extractMin_setPhase (p : Byte) (s : State) :
    extractMin (setPhase p s) = (extractMin s).map fun e => (e.1, setPhase p e.2) := by
  simp only [extractMin, Option.map_map]
  rfl

theorem mergePass_setPhase (p : Byte) (s : State) : mergePass (setPhase p s) = setPhase p (mergePass s) := by
  unfold mergePass
  rw [extractMin_setPhase]
  cases h : extractMin s with
  | none => rfl
  | some e =>
    obtain ⟨a, s₁⟩ := e
    simp only [Option.map_some]
    rw [extractMin_setPhase]
    cases h' : extractMin s₁ with
    | none => rfl
    | some e' => rfl

theorem mergeLoop_setPhase (p : Byte) (n : Nat) (s : State) :
    mergeLoop n (setPhase p s) = setPhase p (mergeLoop n s) := by
  induction n generalizing s with
  | zero => rfl
  | succ n ih =>
    simp only [mergeLoop]
    by_cases h : 1 < s.pq.length
    · rw [if_pos h, if_pos (show 1 < (setPhase p s).pq.length from h), mergePass_setPhase, ih]
    · rw [if_neg h, if_neg (show ¬ 1 < (setPhase p s).pq.length from h)]

theorem mergeTree_setPhase (p : Byte) (s : State) : mergeTree (setPhase p s) = setPhase p (mergeTree s) := by
  unfold mergeTree
  rw [show (setPhase p s).pq.length = s.pq.length from rfl, mergeLoop_setPhase]
  unfold takeRoot
  rw [extractMin_setPhase]
  cases extractMin (mergeLoop s.pq.length s) <;> rfl

theorem fixOne_setPhase (p : Byte) (s : State) : fixOne (setPhase p s) = setPhase p (fixOne s) := by
  unfold fixOne
  by_cases h : s.nsym = 1
  · rw [if_pos h, if_pos (show (setPhase p s).nsym = 1 from h)]; rfl
  · rw [if_neg h, if_neg (show ¬ (setPhase p s).nsym = 1 from h)]

/-- A unit operation that goes on to the next step of its program. -/
theorem callUnit_next {code : Byte} {op rest : State → Outcome} {s t : State} (h : op (setPhase code s) = .next t)
    (ht : t.phase ≠ phaseIdle) : callUnit code op rest s = rest t := by
  unfold callUnit
  rw [show op { s with phase := code } = .next t from h]
  simp [ht]

/-- A unit operation that ends the command. -/
theorem callUnit_ended {code : Byte} {op rest : State → Outcome} {s t : State} (h : op (setPhase code s) = .next t)
    (ht : t.phase = phaseIdle) : callUnit code op rest s = .next t := by
  unfold callUnit
  rw [show op { s with phase := code } = .next t from h]
  simp [ht]

end phase

section table
variable {len : Byte → Nat}

theorem mem_lengthTable {e : Byte × Byte} :
    e ∈ lengthTable len ↔ 0 < len e.1 ∧ e.2 = BitVec.ofNat 8 (len e.1) := by
  obtain ⟨b, l⟩ := e
  simp only [lengthTable, List.mem_filterMap]
  constructor
  · rintro ⟨a, -, h⟩
    split at h
    · simp only [Option.some.injEq, Prod.mk.injEq] at h
      obtain ⟨rfl, rfl⟩ := h
      exact ⟨‹_›, rfl⟩
    · cases h
  · rintro ⟨h1, h2⟩
    exact ⟨b, mem_allBytes b, by rw [if_pos h1, h2]⟩

theorem lengthTable_eq (len : Byte → Nat) :
    lengthTable len = (allBytes.filter fun b => decide (0 < len b)).map fun b => (b, BitVec.ofNat 8 (len b)) := by
  unfold lengthTable
  induction allBytes with
  | nil => rfl
  | cons b l ih => by_cases h : 0 < len b <;> simp [h, ih]

theorem lengthTable_ascending (len : Byte → Nat) :
    ((lengthTable len).map fun e => e.1.toNat).Pairwise (· < ·) := by
  rw [lengthTable_eq, List.map_map]
  exact List.pairwise_map.2 (allBytes_pairwise.sublist List.filter_sublist)

theorem lengthTable_nodup (len : Byte → Nat) : ((lengthTable len).map (·.1)).Nodup := by
  rw [lengthTable_eq, List.map_map]
  simp only [Function.comp_def, List.map_id']
  exact allBytes_nodup.filter _

theorem lengthTable_length_le (len : Byte → Nat) : (lengthTable len).length ≤ 256 := by
  rw [lengthTable_eq, List.length_map, ← allBytes_length]
  exact List.length_filter_le _ _

/-- A length table that is written and read back is the same (44_container.md R189). -/
theorem lenOf_lengthTable (h : ∀ b, len b ≤ 255) (b : Byte) : tab (lenOf (lengthTable len)) b = len b := by
  by_cases hb : 0 < len b
  · rw [tab_lenOf_mem (lengthTable_nodup len) (mem_lengthTable (e := (b, BitVec.ofNat 8 (len b))) |>.2 ⟨hb, rfl⟩)]
    have := h b
    simp only [BitVec.toNat_ofNat]
    omega
  · rw [tab_lenOf_not_mem]
    · omega
    · intro hm
      obtain ⟨e, he, rfl⟩ := List.mem_map.1 hm
      exact hb (mem_lengthTable.1 he).1

end table

section lengths

/-- The code lengths of an input, as ENCODE determines them (45_orchestration.md R200). -/
structure LengthsOf (len : Byte → Nat) (bs : List Byte) : Prop where
  pos : ∀ b, 0 < len b ↔ b ∈ bs
  le : ∀ b, len b ≤ 255
  kraft : kraftSum len ≤ 1
  /-- 45_orchestration.md R232 (a). -/
  one : (present (countBytes bs)).length = 1 → (bs.map len).sum = bs.length
  /-- 45_orchestration.md R232 (b). -/
  many : (bs.map len).sum ≤ 8 * bs.length

/-- The tree operations and the walk on a table of counts. -/
theorem walk_lengths (s : State) (bs : List Byte) (hne : bs ≠ []) (hf : s.freq = countBytes bs) :
    ∃ T : HTree, (buildTree s).leaves = some (T.paths []) ∧
      LengthsOf (tab (setPaths (T.paths []) (buildTree s)).len) bs := by
  obtain ⟨b, hb⟩ := List.exists_mem_of_ne_nil bs hne
  have hpos : present s.freq ≠ [] := by
    rw [hf]
    exact List.ne_nil_of_mem (mem_present_countBytes.2 hb)
  have h256 := present_length_le s.freq
  obtain ⟨T, h1, h2, h3, h4, h5, h6, h7, -, -, -⟩ := buildTree_spec s hpos
  have hsum : (bs.map (tab (setPaths (T.paths []) (buildTree s)).len)).sum = T.cost := by
    rw [← sum_counts, ← bits_setPaths h2 (buildTree s), hf]
  have htot : total s.freq = bs.length := by rw [hf, total_countBytes]
  refine ⟨T, h1.visit (by omega) [], ?_, ?_, ?_, ?_, ?_⟩
  · intro b
    rw [len_pos_iff h2 h3, hf, mem_present_countBytes]
  · intro b
    have := len_le_depth h2 (buildTree s) b
    omega
  · rw [kraft_setPaths h2 h3, h5]
    split <;> norm_num
  · intro e
    rw [hsum, h6 (by rw [hf]; exact e), htot]
  · have hl : 0 < (present s.freq).length := List.length_pos_iff.2 hpos
    rw [hsum, ← htot]
    by_cases e : (present s.freq).length = 1
    · have := h6 e
      omega
    · exact h7 (by omega)

end lengths

section run

/-- The tree operations and the walk, as one update of the state they start in. -/
theorem buildTree_frame (s : State) (hpos : present s.freq ≠ []) :
    ∃ node ncount root, buildTree s =
      { s with node := node, pq := [], ncount := ncount, nsym := (present s.freq).length, root := root } := by
  obtain ⟨T, -, -, -, -, -, -, -, -, -, h⟩ := buildTree_spec s hpos
  exact ⟨_, _, _, h⟩

theorem encodedBits_length {len : Byte → Nat} {bs : List Byte} (h : ∀ b ∈ bs, 0 < len b) :
    (encodedBits len bs).length = (bs.map len).sum := by
  induction bs with
  | nil => rfl
  | cons b bs ih =>
    have h1 := h b (List.mem_cons_self ..)
    simp only [encodedBits] at ih
    simp only [encodedBits, List.flatMap_cons, List.length_append, List.map_cons, List.sum_cons]
    rw [ih fun x hx => h x (List.mem_cons_of_mem _ hx)]
    simp [canonTable, h1]

/-- The bits PACK writes when every input byte has a code (45_orchestration.md R206). -/
theorem packedBits_eq {s : State} {len : Byte → Nat} (hc : ∀ b, tab s.code b = canonTable len b)
    (hl : ∀ b ∈ s.input, 0 < len b) :
    s.packedBits = encodedBits len s.input ∧ (s.input.any fun b => (tab s.code b).isNone) = false := by
  constructor
  · have hin : ∀ i < s.inLen.toNat, s.inByte i ∈ s.input := by
      intro i hi
      simp only [State.input, State.inRange, List.mem_map, List.mem_range]
      exact ⟨i, hi, by simp⟩
    unfold State.packedBits encodedBits State.input State.inRange
    rw [List.flatMap_map]
    apply List.flatMap_congr
    intro i hi
    have := hl _ (hin i (List.mem_range.1 hi))
    simp [State.codeOfInput, hc, canonTable, this]
  · rw [List.any_eq_false]
    intro b hb
    rw [hc, canonTable, if_pos (hl b hb)]
    simp

/-- The state after SERIALIZE and completion. -/
def finish (s : State) : State := complete s.artifactLen (writeArtifact (setPhase 0x0B#8 s))

/-- SERIALIZE and completion (45_orchestration.md R201, steps E9 and E10). -/
theorem encodeFinish_run {s : State} (h : s.artifactLen ≤ s.par.outCap) : encodeFinish s = .next (finish s) := by
  have h' : execSerialize (setPhase 0x0B#8 s) = .next (writeArtifact (setPhase 0x0B#8 s)) := by
    unfold execSerialize
    rw [if_pos (show (setPhase 0x0B#8 s).artifactLen ≤ (setPhase 0x0B#8 s).par.outCap from h)]
  rw [encodeFinish, callUnit_next h' (by simp [phaseIdle])]
  rfl

/-- What the ENCODE program may change. -/
def EncodeFrame (s t : State) : Prop := t = { s with
    status := ⟨false, true, s.status.fail⟩, phase := phaseIdle, outLen := t.outLen, outMem := t.outMem
    outEpoch := s.outEpoch + 1, freq := t.freq, nsym := t.nsym, node := t.node, ncount := t.ncount, root := t.root
    pq := t.pq, rawcode := t.rawcode, len := t.len, code := t.code, bwBuf := t.bwBuf, bwNbits := t.bwNbits
    cOriglen := t.cOriglen, cNsym := t.cNsym, cTab := t.cTab, cBitcount := t.cBitcount, cPayload := t.cPayload
    result := t.result, draws := t.draws }

/-- What the ENCODE program leaves (45_orchestration.md R200). -/
structure EncodeRun (s t : State) (len : Byte → Nat) : Prop where
  empty : s.input = [] → ∀ b, len b = 0
  lengths : s.input ≠ [] → LengthsOf len s.input
  /-- The lengths are those of the merge tree's leaves. -/
  walked : s.input ≠ [] → ∃ leaves, (buildTree { s with freq := countBytes s.input }).leaves = some leaves ∧
    len = tab (setPaths leaves s).len
  out : t.outMem =
    Memory.setBytes [] 0 (artifactBytes s.par s.inLen.toNat (lengthTable len) (encodedBits len s.input))
  outLen : t.outLen = BitVec.ofNat 64
    (artifactBytes s.par s.inLen.toNat (lengthTable len) (encodedBits len s.input)).length
  writer : t.bwBuf.length = ceil8 t.bwNbits ∨ (t.bwBuf = s.bwBuf ∧ t.bwNbits = s.bwNbits)
  frame : EncodeFrame s t
  count : t.cNsym = (lengthTable len).length
  bits : t.cBitcount = (encodedBits len s.input).length
  fits : (artifactBytes s.par s.inLen.toNat (lengthTable len) (encodedBits len s.input)).length ≤ s.par.outCap

theorem setBytes_filter (bs : List Byte) :
    ((Memory.setBytes [] 0 bs).filter fun c => decide (c.1 < bs.length)) = Memory.setBytes [] 0 bs := by
  apply Memory.filter_lt
  have := Memory.addresses_setBytes (m := []) (n := 0) bs rfl
  simpa using this

/-- `OUT` and `OUT_LEN` after SERIALIZE and completion. -/
theorem finish_out {s : State} {A : List Byte} (ho : s.outMem = []) (hA : s.artifact = A) :
    (finish s).outMem = Memory.setBytes [] 0 A ∧ (finish s).outLen = BitVec.ofNat 64 A.length := by
  have hL := artifact_length s
  have ha : (setPhase 0x0B#8 s).artifact = s.artifact := rfl
  rw [hA] at hL ha
  refine ⟨?_, ?_⟩
  · rw [finish, complete_outMem, writeArtifact_outMem, setPhase_outMem, ho, ha, ← hL]
    exact setBytes_filter A
  · rw [finish, complete_outLen, hL]

/-- The frame of a run whose state before SERIALIZE differs so from the one it started in. -/
theorem finish_frame (s : State) (phase : Byte) (freq : Vector Nat 256) (nsym : Nat) (node : Vector Node 511)
    (ncount root : Nat) (pq : List Nat) (rawcode : Vector (Option BitStr) 256) (len : Vector Nat 256)
    (code : Vector (Option BitStr) 256) (bwBuf : List Byte) (bwNbits cOriglen cNsym : Nat) (cTab : List (Byte × Byte))
    (cBitcount : Nat) (cPayload : List Byte) (result : Yield) :
    EncodeFrame s (finish { s with
      phase := phase, freq := freq, nsym := nsym, node := node, ncount := ncount, root := root, pq := pq
      rawcode := rawcode, len := len, code := code, bwBuf := bwBuf, bwNbits := bwNbits, cOriglen := cOriglen
      cNsym := cNsym, cTab := cTab, cBitcount := cBitcount, cPayload := cPayload, result := result }) := rfl

theorem empty_shape (s : State) (f : Vector Nat 256) :
    emptyFields (setPhase 0x01#8 { s with freq := f }) =
      { s with phase := 0x01#8, freq := f, cOriglen := 0, cNsym := 0, cTab := [], cBitcount := 0, cPayload := [] } := rfl

/-- The state before SERIALIZE of an input that is not empty. -/
def packedState (s : State) (f : Vector Nat 256) (node : Vector Node 511) (ncount n root : Nat)
    (p c : List (Byte × BitStr)) (bw : List Byte) (nb : Nat) : State :=
  { s with
    phase := 0x11#8, freq := f, nsym := n, node := node, ncount := ncount, root := root, pq := []
    rawcode := p.foldl (fun t e => tabSet t e.1 (some e.2)) (Vector.replicate 256 none)
    len := p.foldl (fun t e => tabSet t e.1 e.2.length) (Vector.replicate 256 0)
    code := c.foldl (fun t e => tabSet t e.1 (some e.2)) (Vector.replicate 256 none)
    bwBuf := bw, bwNbits := nb, cOriglen := s.inLen.toNat, cNsym := n
    cTab := lengthTable (tab (p.foldl (fun t e => tabSet t e.1 e.2.length) (Vector.replicate 256 0)))
    cBitcount := nb, cPayload := bw, result := .buffer bw nb }

theorem packed_shape (s : State) (f : Vector Nat 256) (node : Vector Node 511) (ncount n root : Nat)
    (p c : List (Byte × BitStr)) (bw : List Byte) (nb : Nat) :
    fillFields { setCodes c (setPaths p
      { s with freq := f, node := node, pq := [], ncount := ncount, nsym := n, root := root }) with
        phase := 0x11#8, bwBuf := bw, bwNbits := nb, result := .buffer bw nb } =
      packedState s f node ncount n root p c bw nb := rfl

theorem packed_frame (s : State) (f : Vector Nat 256) (node : Vector Node 511) (ncount n root : Nat)
    (p c : List (Byte × BitStr)) (bw : List Byte) (nb : Nat) :
    EncodeFrame s (finish (packedState s f node ncount n root p c bw nb)) := finish_frame ..

/-- The empty input (45_orchestration.md R201, step E2). -/
theorem encodeEmpty_run (s : State) (f : Vector Nat 256) (ho : s.outMem = []) (h0 : s.inLen = 0) :
    ∃ t, encodeFinish (emptyFields (setPhase 0x01#8 { s with freq := f })) = .next t ∧ EncodeRun s t fun _ => 0 := by
  have hi : s.input = [] := by simp [State.input, State.inRange, h0]
  have hlen : (lengthTable fun _ : Byte => 0) = [] := by rw [lengthTable_eq]; simp
  rw [empty_shape]
  have har : State.artifact { s with
      phase := 0x01#8, freq := f, cOriglen := 0, cNsym := 0, cTab := [], cBitcount := 0, cPayload := [] } =
      artifactBytes s.par s.inLen.toNat (lengthTable fun _ => 0) (encodedBits (fun _ => 0) s.input) := by
    rw [hlen, hi, h0]
    rfl
  obtain ⟨h1, h2⟩ := finish_out (s := { s with
    phase := 0x01#8, freq := f, cOriglen := 0, cNsym := 0, cTab := [], cBitcount := 0, cPayload := [] }) ho har
  refine ⟨_, encodeFinish_run ?_, fun _ _ => rfl, fun h => absurd hi h, fun h => absurd hi h, h1, h2,
    .inr ⟨rfl, rfl⟩, finish_frame s .., by rw [hlen]; rfl, by rw [hi]; rfl, ?_⟩
  · show 19 + 2 * 0 + 0 ≤ s.par.lmax.val + 531
    omega
  · rw [artifactBytes_length, hlen, hi]
    show 19 + 2 * 0 + 0 ≤ s.par.lmax.val + 531
    omega

theorem execCanon_ok {s : State} {len : Byte → Nat} (hl : tab s.len = len) (h : kraftSum len ≤ 1) :
    execCanon s = .next (setCodes (canonCodes len).1 s) := by
  subst hl
  simp only [execCanon, (canonCodes_ok_iff _).2 h, ite_true]

/-- PACK, every input byte having a code (45_orchestration.md R206). -/
theorem execPack_ok {s : State} {len : Byte → Nat} (hfit : s.inputFits = true)
    (hc : ∀ b, tab s.code b = canonTable len b) (hl : ∀ b ∈ s.input, 0 < len b) :
    execPack s = .next { s with
      bwBuf := packBits (encodedBits len s.input), bwNbits := (encodedBits len s.input).length
      result := .buffer (packBits (encodedBits len s.input)) (encodedBits len s.input).length } := by
  obtain ⟨hb1, hb2⟩ := packedBits_eq hc hl
  have hpk : (List.range s.inLen.toNat).foldl (fun w i => pushBits w (s.codeOfInput i)) ([], 0) =
      (packBits (encodedBits len s.input), (encodedBits len s.input).length) := by
    rw [foldl_pushBits, show (List.range s.inLen.toNat).flatMap s.codeOfInput = s.packedBits from rfl, hb1]
    exact Prod.ext (pushBits_eq_packBits _) (packed_pushBits _).2.1
  rw [execPack, if_pos hfit, packInput, hpk, hb2]
  rfl

theorem nodesFit_setPhase (p : Byte) (s : State) : (setPhase p s).nodesFit = s.nodesFit := rfl

theorem leaves_setPhase (p : Byte) (s : State) : (setPhase p s).leaves = s.leaves := rfl

theorem setPaths_setPhase (l : List (Byte × BitStr)) (p : Byte) (s : State) :
    setPaths l (setPhase p s) = setPhase p (setPaths l s) := rfl

theorem setCodes_setPhase (l : List (Byte × BitStr)) (p : Byte) (s : State) :
    setCodes l (setPhase p s) = setPhase p (setCodes l s) := rfl

/-- The phases of the tree operations, the walk and CANON, in order (45_orchestration.md R201). -/
theorem encode_phases {v : State} {leaves : List (Byte × BitStr)} {len : Byte → Nat} (hfit : (initTree v).nodesFit = true)
    (hleaves : (buildTree v).leaves = some leaves) (hl : tab (setPaths leaves (buildTree v)).len = len)
    (hk : kraftSum len ≤ 1) :
    encodeNonempty (setPhase 0x01#8 v) =
      callUnit 0x11#8 execPack (fun t => encodeFinish (fillFields t))
        (setPhase 0x06#8 (setCodes (canonCodes len).1 (setPaths leaves (buildTree v)))) := by
  have e2 : execTbInit (setPhase 0x02#8 (setPhase 0x01#8 v)) = .next (setPhase 0x02#8 (initTree v)) := by
    rw [execTbInit, setPhase_setPhase, initTree_setPhase]
  have e3 : execTbMerge (setPhase 0x03#8 (setPhase 0x02#8 (initTree v))) =
      .next (setPhase 0x03#8 (mergeTree (initTree v))) := by
    rw [setPhase_setPhase, execTbMerge, if_pos (by rw [nodesFit_setPhase]; exact hfit), mergeTree_setPhase]
  have e4 : execTbFix1 (setPhase 0x04#8 (setPhase 0x03#8 (mergeTree (initTree v)))) =
      .next (setPhase 0x04#8 (buildTree v)) := by
    rw [execTbFix1, setPhase_setPhase, fixOne_setPhase, buildTree]
  have e5 : execWalk (setPhase 0x05#8 (setPhase 0x04#8 (buildTree v))) =
      .next (setPhase 0x05#8 (setPaths leaves (buildTree v))) := by
    rw [setPhase_setPhase, execWalk, leaves_setPhase, hleaves]
    rfl
  have e6 : execCanon (setPhase 0x06#8 (setPhase 0x05#8 (setPaths leaves (buildTree v)))) =
      .next (setPhase 0x06#8 (setCodes (canonCodes len).1 (setPaths leaves (buildTree v)))) := by
    rw [setPhase_setPhase, execCanon_ok (len := len) (by rw [setPhase_len, hl]) hk, setCodes_setPhase]
  rw [encodeNonempty, callUnit_next e2 (by rw [setPhase_phase]; decide),
    callUnit_next e3 (by rw [setPhase_phase]; decide), callUnit_next e4 (by rw [setPhase_phase]; decide),
    callUnit_next e5 (by rw [setPhase_phase]; decide), callUnit_next e6 (by rw [setPhase_phase]; decide)]

theorem initTree_fits (s : State) : (initTree s).nodesFit = true := by
  obtain ⟨h1, -, h3, -, -⟩ := initTree_spec s
  have := present_length_le s.freq
  simp only [State.nodesFit, h1, h3, List.length_range, decide_eq_true_eq]
  omega

theorem present_eq_filter {len : Byte → Nat} {bs : List Byte} (h : ∀ b, 0 < len b ↔ b ∈ bs) :
    (present (countBytes bs)).length = (lengthTable len).length := by
  rw [lengthTable_eq, List.length_map, present]
  congr 1
  apply List.filter_congr
  intro b _
  have := h b
  rw [← mem_present_countBytes, mem_present] at this
  simp [this]

/-- The ENCODE program on an input that is not empty (45_orchestration.md R201, steps E3 to E10). -/
theorem encodeNonempty_run (s : State) (ho : s.outMem = []) (hne : s.input ≠ [])
    (hn : s.inLen.toNat ≤ s.par.lmax.val) :
    ∃ t len, encodeNonempty (setPhase 0x01#8 { s with freq := countBytes s.input }) = .next t ∧ EncodeRun s t len := by
  obtain ⟨T, hleaves, hlen⟩ := walk_lengths { s with freq := countBytes s.input } s.input hne rfl
  have hpos : present (countBytes s.input) ≠ [] := by
    obtain ⟨b, hb⟩ := List.exists_mem_of_ne_nil _ hne
    exact List.ne_nil_of_mem (mem_present_countBytes.2 hb)
  obtain ⟨node, ncount, root, hfr⟩ := buildTree_frame { s with freq := countBytes s.input } hpos
  generalize hl : tab (setPaths (T.paths []) (buildTree { s with freq := countBytes s.input })).len = len at hlen
  have hls : len = tab (setPaths (T.paths []) s).len := by rw [← hl, setPaths_len, setPaths_len]
  have hph := encode_phases (initTree_fits _) hleaves hl hlen.kraft
  have hcode := fun b => tab_setCodes hlen.kraft
    (setPaths (T.paths []) (buildTree { s with freq := countBytes s.input })) b
  have hn256 := present_length_le (countBytes s.input)
  have hcnt := present_eq_filter hlen.pos
  have hmany := hlen.many
  have hsum := encodedBits_length (len := len) (bs := s.input) fun b hb => (hlen.pos b).2 hb
  have hil : s.input.length = s.inLen.toNat := by simp [State.input, State.inRange]
  rw [hfr] at hph hcode
  simp only at hcnt hn256 hph hcode
  have hposin : ∀ b ∈ s.input, 0 < len b := fun b hb => (hlen.pos b).2 hb
  have hbl := packBits_length (encodedBits len s.input)
  rw [hph]
  generalize hf : countBytes s.input = f at hcnt hn256 hcode hleaves
  generalize (present f).length = n at *
  generalize hp : T.paths [] = p at *
  generalize (canonCodes len).1 = c at *
  have e7 := execPack_ok (len := len)
    (s := setPhase 0x11#8 (setPhase 0x06#8 (setCodes c (setPaths p
      { s with freq := f, node := node, pq := [], ncount := ncount, nsym := n, root := root }))))
    (by
      rw [State.inputFits, setPhase_inLen, setPhase_inLen, setCodes_inLen, setPaths_inLen, setPhase_par, setPhase_par,
        setCodes_par, setPaths_par, Params.inCap]
      exact decide_eq_true (by simp only; omega)) hcode hposin
  have hwin : State.input (setPhase 0x11#8 (setPhase 0x06#8 (setCodes c (setPaths p
      { s with freq := f, node := node, pq := [], ncount := ncount, nsym := n, root := root })))) = s.input := rfl
  rw [hwin] at e7
  generalize hbits : encodedBits len s.input = bits at e7 hbl hsum
  generalize hbw : packBits bits = bw at e7 hbl
  have e8 := packed_shape s f node ncount n root p c bw bits.length
  have hfits : 19 + 2 * n + bw.length ≤ s.par.lmax.val + 531 := by
    have : ceil8 bits.length ≤ s.inLen.toNat := by
      rw [ceil8_le_iff, hsum, ← hil]
      exact hmany
    omega
  refine ⟨finish (packedState s f node ncount n root p c bw bits.length), len, ?_, ?_⟩
  · rw [callUnit_next e7 (by simp [phaseIdle])]
    exact (congrArg encodeFinish e8).trans (encodeFinish_run hfits)
  · have har : (packedState s f node ncount n root p c bw bits.length).artifact =
        artifactBytes s.par s.inLen.toNat (lengthTable len) (encodedBits len s.input) := by
      rw [artifact_eq (bits := encodedBits len s.input)]
      · show artifactBytes s.par s.inLen.toNat (lengthTable (tab (setPaths p s).len)) _ = _
        rw [← hls]
      · show n = (lengthTable (tab (setPaths p s).len)).length
        rw [← hls]
        exact hcnt
      · rw [hbits]; rfl
      · rw [hbits, hbw]; rfl
    obtain ⟨h1, h2⟩ := finish_out (s := packedState s f node ncount n root p c bw bits.length) ho har
    refine ⟨fun h => absurd h hne, fun _ => hlen, fun _ => ⟨p, ?_, hls⟩, h1, h2, .inl hbl, packed_frame .., hcnt,
      by rw [hbits]; rfl, ?_⟩
    · rw [hf]
      exact hleaves
    · rw [artifactBytes_length, hbits, ← hcnt, ← hbl]
      exact hfits

/-- The ENCODE program succeeds on every input within the size limit (45_orchestration.md R200, R202). -/
theorem encodeProgram_run (s : State) (ho : s.outMem = []) (hn : s.inLen.toNat ≤ s.par.lmax.val) :
    ∃ t len, encodeProgram s = .next t ∧ EncodeRun s t len := by
  have e1 : execFcount (setPhase 0x01#8 s) = .next (setPhase 0x01#8 { s with freq := countBytes s.input }) := by
    have hfit : (setPhase 0x01#8 s).inputFits = true := by
      rw [State.inputFits, setPhase_inLen, setPhase_par, Params.inCap]
      exact decide_eq_true (by omega)
    rw [execFcount, if_pos hfit]
    rfl
  rw [encodeProgram, if_neg (by omega), callUnit_next e1 (by rw [setPhase_phase]; decide), setPhase_inLen]
  by_cases h0 : s.inLen = 0
  · rw [if_pos (by exact h0)]
    obtain ⟨t, h1, h2⟩ := encodeEmpty_run s (countBytes s.input) ho h0
    exact ⟨t, _, h1, h2⟩
  · rw [if_neg (by exact h0)]
    refine encodeNonempty_run s ho ?_ hn
    intro hi
    apply h0
    have := congrArg List.length hi
    simp only [State.input, State.inRange, List.length_map, List.length_range, List.length_nil] at this
    exact BitVec.eq_of_toNat_eq this

end run

end Sys2Proof.Machine
end

