-- ==== Sys2Proof/Laws/Decode.lean ====
section
/-! SUPPORT. The run of the DECODE program (45_orchestration.md R210, R211): how each of its operations ends, that it
always ends, and what it leaves of an artifact it accepts. -/

namespace Sys2Proof.Machine

/-- What the operations of DECODE may change before the command ends. -/
def DecodeFrame (s t : State) : Prop := t = { s with
    phase := t.phase, cOriglen := t.cOriglen, cNsym := t.cNsym, cTab := t.cTab, cBitcount := t.cBitcount
    cPayload := t.cPayload, nsym := t.nsym, len := t.len, code := t.code, dtab := t.dtab, brBuf := t.brBuf
    brLimit := t.brLimit, brPos := t.brPos, outMem := t.outMem, draws := t.draws }

theorem DecodeFrame.refl (s : State) : DecodeFrame s s := rfl

theorem DecodeFrame.trans {s t u : State} (h₁ : DecodeFrame s t) (h₂ : DecodeFrame t u) : DecodeFrame s u := by
  unfold DecodeFrame at *
  refine h₂.trans ?_
  rw [h₁]

section ends
variable {s : State}

theorem decsymLoop_cases (n : Nat) (acc : BitStr) {s : State} (h : ReaderOk s) :
    (∃ b t, decsymLoop n acc s = .done b t) ∨
      ∃ c k, decsymLoop n acc s = .raised c (skipBits k s) ∧ ReaderOk (skipBits k s) ∧
        (c = .endOfStream ∨ c = .noMatch) := by
  induction n generalizing acc s with
  | zero => exact .inr ⟨_, 0, rfl, h, .inl rfl⟩
  | succ n ih =>
    cases hu : s.unread with
    | nil =>
      right
      exact ⟨.endOfStream, 0, by simp [decsymLoop, nextBit_nil h hu, skipBits_zero], h, .inl rfl⟩
    | cons r rest =>
      obtain ⟨-, h2, h3⟩ := nextBit_cons h hu
      rw [decsymLoop_cons h hu]
      cases symbolOf s.dtab (acc ++ [r]) with
      | some b => exact .inl ⟨b, _, rfl⟩
      | none =>
        by_cases hp : inPrefixes s.dtab (acc ++ [r]) = true
        · simp only [hp, ite_true]
          rcases ih (acc ++ [r]) h3 with h | ⟨c, k, g1, g2, g3⟩
          · exact .inl h
          · refine .inr ⟨c, k + 1, ?_, ?_, g3⟩
            · rw [g1, skipBits_advance]
            · rwa [skipBits_advance] at g2
        · simp only [hp, Bool.false_eq_true, ite_false]
          exact .inr ⟨.noMatch, 1, rfl, h3, .inr rfl⟩

theorem unpackLoop_cases (n j : Nat) {s : State} (h : ReaderOk s) (hj : j + n ≤ s.par.outCap) :
    (∃ t, unpackLoop n j s = .done () t) ∨
      ∃ c t, unpackLoop n j s = .raised c t ∧ ReaderOk t ∧ t = { s with brPos := t.brPos, outMem := t.outMem } := by
  induction n generalizing j s with
  | zero => exact .inl ⟨s, rfl⟩
  | succ n ih =>
    rw [unpackLoop]
    rcases decsymLoop_cases (s.brLimit - s.brPos + 1) [] h with ⟨b, t, hd⟩ | ⟨c, k, hd, hr, -⟩
    · rw [decodeSymbol, hd]
      obtain ⟨cs, -, -, g3, g4⟩ := decsymLoop_done h hd
      have hp : t.par = s.par := by rw [g3]; rfl
      dsimp only
      rw [if_pos (by rw [hp]; omega)]
      rcases ih (s := { t with outMem := t.outMem.set j b }) (j + 1) g4 (by simp only [hp]; omega) with hh | ⟨c, u, k1, k2, k3⟩
      · exact .inl hh
      · refine .inr ⟨c, u, k1, k2, ?_⟩
        rw [k3, g3]
        rfl
    · rw [decodeSymbol, hd]
      exact .inr ⟨c, _, rfl, hr, rfl⟩

theorem tableLoop_cases (l : List Nat) (s : State) :
    (∃ t, tableLoop l s = .done () t ∧ t = { s with cTab := t.cTab, len := t.len }) ∨
      ∃ c t, tableLoop l s = .raised c t ∧ t = { s with cTab := t.cTab, len := t.len } := by
  induction l generalizing s with
  | nil => exact .inl ⟨s, rfl, rfl⟩
  | cons i l ih =>
    simp only [tableLoop]
    split
    · exact .inr ⟨_, s, rfl, rfl⟩
    · split
      · exact .inr ⟨_, s, rfl, rfl⟩
      · rcases ih { s with
          cTab := s.cTab ++ [(s.inByte (15 + 2 * i), s.inByte (16 + 2 * i))]
          len := tabSet s.len (s.inByte (15 + 2 * i)) (s.inByte (16 + 2 * i)).toNat } with ⟨t, h1, h2⟩ | ⟨c, t, h1, h2⟩
        · exact .inl ⟨t, h1, h2⟩
        · exact .inr ⟨c, t, h1, h2⟩

/-- What DESERIALIZE may change. -/
def FieldFrame (s t : State) : Prop := t = { s with
    cOriglen := t.cOriglen, cNsym := t.cNsym, cTab := t.cTab, cBitcount := t.cBitcount, cPayload := t.cPayload
    nsym := t.nsym, len := t.len }

theorem FieldFrame.trans {s t u : State} (h₁ : FieldFrame s t) (h₂ : FieldFrame t u) : FieldFrame s u := by
  unfold FieldFrame at *
  refine h₂.trans ?_
  rw [h₁]

theorem FieldFrame.decode {s t : State} (h : FieldFrame s t) : DecodeFrame s t := by
  unfold FieldFrame at h
  unfold DecodeFrame
  rw [h]

/-- How DESERIALIZE ends: with a raise, or with fields that agree with each other (44_container.md R188). -/
def DeserializeEnds (s : State) (r : Run Unit) : Prop :=
  (∃ c t, r = .raised c t ∧ FieldFrame s t) ∨
    ∃ t, r = .done () t ∧ FieldFrame s t ∧ t.nsym = t.cNsym ∧ t.cPayload.length = ceil8 t.cBitcount ∧
      (t.cNsym = 0 ↔ t.cOriglen = 0)

theorem readPayload_ends (hn : s.inLen.toNat ≤ s.par.inCap) : DeserializeEnds s (readPayload s) := by
  have hfit : ∀ b, State.inputFits { s with cBitcount := b } = true := fun b => decide_eq_true hn
  unfold readPayload
  simp only [hfit, Bool.not_true, Bool.false_eq_true, ite_false]
  split
  · exact .inl ⟨_, _, rfl, rfl⟩
  · split
    · exact .inl ⟨_, _, rfl, rfl⟩
    · split
      · exact .inl ⟨_, _, rfl, rfl⟩
      · split
        · exact .inl ⟨_, _, rfl, rfl⟩
        · split
          · exact .inl ⟨_, _, rfl, rfl⟩
          · rename_i h1 h2 h3 h4 h5
            refine .inr ⟨_, rfl, rfl, rfl, ?_, ?_⟩
            · simp only [State.inRange, List.length_map, List.length_range]
              omega
            · simp only
              omega

theorem DeserializeEnds.of_frame {t : State} {r : Run Unit} (h : FieldFrame s t) (hr : DeserializeEnds t r) :
    DeserializeEnds s r := by
  rcases hr with ⟨c, u, h1, h2⟩ | ⟨u, h1, h2, h3⟩
  · exact .inl ⟨c, u, h1, h.trans h2⟩
  · exact .inr ⟨u, h1, h.trans h2, h3⟩

theorem readTable_ends (hn : s.inLen.toNat ≤ s.par.inCap) : DeserializeEnds s (readTable s) := by
  unfold readTable
  split
  · exact .inl ⟨_, _, rfl, rfl⟩
  · rcases tableLoop_cases (List.range s.cNsym) { s with len := Vector.replicate 256 0, cTab := [] } with
      ⟨t, h1, h2⟩ | ⟨c, t, h1, h2⟩
    · rw [h1]
      have hf : FieldFrame s t := by rw [h2]; rfl
      exact (readPayload_ends (by rw [h2]; exact hn)).of_frame hf
    · rw [h1]
      exact .inl ⟨c, t, rfl, by rw [h2]; rfl⟩

/-- DESERIALIZE ends, whatever IN holds (44_container.md R180). -/
theorem deserialize_ends (hn : s.inLen.toNat ≤ s.par.inCap) : DeserializeEnds s (deserialize s) := by
  unfold deserialize
  dsimp only
  split
  · exact .inl ⟨_, _, rfl, rfl⟩
  · split
    · exact .inl ⟨_, _, rfl, rfl⟩
    · split
      · exact .inl ⟨_, _, rfl, rfl⟩
      · split
        · exact .inl ⟨_, _, rfl, rfl⟩
        · split
          · exact .inl ⟨_, _, rfl, rfl⟩
          · split
            · exact .inl ⟨_, _, rfl, rfl⟩
            · split
              · exact .inl ⟨_, _, rfl, rfl⟩
              · exact DeserializeEnds.of_frame (t := { s with cOriglen := s.memRead 5 8, cNsym := s.memRead 13 2 }) rfl
                  (readTable_ends hn)

/-- CANON's two ends (42_code_assigner.md R135, R137). -/
theorem execCanon_raised {len : Byte → Nat} (hl : tab s.len = len) (h : ¬ kraftSum len ≤ 1) :
    execCanon s = .next (errorEntry .overSubscribed (setCodes (canonCodes len).1 s)) := by
  subst hl
  have : (canonCodes (tab s.len)).2 = false := by
    rw [Bool.eq_false_iff]
    exact fun e => h ((canonCodes_ok_iff _).1 e)
  simp only [execCanon, this, Bool.false_eq_true, ite_false]

/-- How UNPACK ends (45_orchestration.md R215, R217). -/
theorem unpackPayload_ends (hb : s.cPayload.length = ceil8 s.cBitcount) (hL : s.cOriglen ≤ s.par.outCap) :
    (∃ c t, unpackPayload s = .raised c t ∧ DecodeFrame s t ∧ ReaderOk t) ∨
      ∃ (es : List (BitStr × Byte)) (t : State), es.length = s.cOriglen ∧ (∀ e ∈ es, e ∈ s.dtab) ∧
        streamBits s.cPayload 0 s.cBitcount = es.flatMap (·.1) ∧ unpackPayload s = .done () t ∧
        t = { attachReader s.cPayload s.cBitcount s with
          brPos := s.cBitcount, outMem := s.outMem.setBytes 0 (es.map (·.2)) } := by
  have hr : ReaderOk (attachReader s.cPayload s.cBitcount s) := ⟨Nat.zero_le _, hb⟩
  have hu : (attachReader s.cPayload s.cBitcount s).unread = streamBits s.cPayload 0 s.cBitcount := rfl
  unfold unpackPayload
  rcases unpackLoop_cases s.cOriglen 0 hr (by rw [attachReader_par]; omega) with ⟨t, h1⟩ | ⟨c, t, h1, h2, h3⟩
  · rw [h1]
    dsimp only
    obtain ⟨es, g1, g2, g3, g4, -, g6⟩ := unpackLoop_done hr h1
    have hf : DecodeFrame s t := by rw [g6]; rfl
    by_cases he : t.brPos ≠ t.brLimit
    · rw [if_pos he]
      exact .inl ⟨_, t, rfl, hf, g4⟩
    · have hz : t.unread = [] := by
        rw [← List.length_eq_zero_iff, unread_length]
        omega
      rw [hz, List.append_nil, hu] at g3
      have hpos : t.brPos = s.cBitcount := by
        have e1 : t.brLimit = s.cBitcount := by rw [g6]; rfl
        omega
      rw [if_neg he]
      refine .inr ⟨es, t, g1, g2, g3, rfl, ?_⟩
      have hp2 : (attachReader s.cPayload s.cBitcount s).brPos + (es.flatMap (·.1)).length = s.cBitcount :=
        (congrArg State.brPos g6).symm.trans hpos
      rw [hp2] at g6
      exact g6
  · rw [h1]
    exact .inl ⟨c, t, rfl, by rw [h3]; rfl, h2⟩

end ends

section run
variable {s : State}

/-- How a DECODE ends: with an error or refusal, or with a result (45_orchestration.md R210). -/
def DecodeEnds (s : State) (o : Outcome) : Prop :=
  (∃ c t, o = .next (errorEntry c t) ∧ DecodeFrame s t ∧ ((t.brBuf = s.brBuf ∧ t.brLimit = s.brLimit ∧ t.brPos = s.brPos)
      ∨ ReaderOk t)) ∨
    ∃ (bs : List Byte) (t : State), o = .next (complete bs.length t) ∧ bs.length ≤ s.par.lmax.val ∧ DecodeFrame s t ∧
      t.outMem = s.outMem.setBytes 0 bs ∧
      ((t.brBuf = s.brBuf ∧ t.brLimit = s.brLimit ∧ t.brPos = s.brPos) ∨ ReaderOk t)

theorem decodeNonempty_ends (hb : s.cPayload.length = ceil8 s.cBitcount) (hL : s.cOriglen ≤ s.par.lmax.val) :
    DecodeEnds s (decodeNonempty s) := by
  unfold decodeNonempty
  generalize hl : tab s.len = len
  by_cases hk : kraftSum len ≤ 1
  · have e1 := execCanon_ok (s := setPhase 0x06#8 s) (by rw [setPhase_len]; exact hl) hk
    rw [callUnit_next e1 (by rw [setCodes_phase, setPhase_phase]; decide)]
    generalize (canonCodes len).1 = c
    generalize hv : ({ s with
      phase := 0x0D#8, code := c.foldl (fun t e => tabSet t e.1 (some e.2)) (Vector.replicate 256 none)
      dtab := codePairs (tab s.len) (tab (c.foldl (fun t e => tabSet t e.1 (some e.2)) (Vector.replicate 256 none))) }
        : State) = v
    have e2 : execDtBuild (setPhase 0x0D#8 (setCodes c (setPhase 0x06#8 s))) = .next v := by rw [← hv]; rfl
    have hvf : DecodeFrame s v := by rw [← hv]; rfl
    have hvb : v.cPayload.length = ceil8 v.cBitcount := by rw [← hv]; exact hb
    have hvL : v.cOriglen ≤ v.par.lmax.val := by rw [← hv]; exact hL
    have hvr : v.brBuf = s.brBuf ∧ v.brLimit = s.brLimit ∧ v.brPos = s.brPos := by rw [← hv]; exact ⟨rfl, rfl, rfl⟩
    have hvo : v.outMem = s.outMem := by rw [← hv]
    have hvp : v.par = s.par := by rw [← hv]
    have hvph : v.phase ≠ phaseIdle := by rw [← hv]; simp [phaseIdle]
    clear hv
    rw [callUnit_next e2 hvph]
    have hf3 : DecodeFrame s (setPhase 0x12#8 v) := hvf.trans rfl
    rcases unpackPayload_ends (s := setPhase 0x12#8 v) hvb (by
      rw [setPhase_cOriglen, setPhase_par, Params.outCap]; omega) with ⟨c, t, h1, h2, h3⟩ | ⟨es, w, h1, -, -, h4, hw⟩
    · left
      have e3 : execUnpack (setPhase 0x12#8 v) = .next (errorEntry c t) := by rw [execUnpack, h1]; rfl
      rw [callUnit_ended e3 rfl]
      exact ⟨c, t, rfl, hf3.trans h2, .inr h3⟩
    · right
      have e3 : execUnpack (setPhase 0x12#8 v) = .next w := by rw [execUnpack, h4]; rfl
      have hwp : w.phase = 0x12#8 := by rw [hw]; rfl
      have hwf : DecodeFrame (setPhase 0x12#8 v) w := by rw [hw]; rfl
      have hwo : w.outMem = s.outMem.setBytes 0 (es.map (·.2)) := by rw [hw, ← hvo]; rfl
      have hwl : w.cOriglen = (es.map (·.2)).length := by rw [List.length_map, h1, hw]; rfl
      have hwr : ReaderOk w := by rw [hw]; exact ⟨le_refl _, hvb⟩
      rw [callUnit_next e3 (by rw [hwp]; decide), hwl]
      refine ⟨es.map (·.2), w, rfl, ?_, hf3.trans hwf, hwo, .inr hwr⟩
      rw [List.length_map, h1, ← hvp]
      exact hvL
  · have e1 := execCanon_raised (s := setPhase 0x06#8 s) (by rw [setPhase_len]; exact hl) hk
    rw [callUnit_ended e1 rfl]
    exact .inl ⟨_, _, rfl, rfl, .inl ⟨rfl, rfl, rfl⟩⟩

/-- DECODE always ends (45_orchestration.md R236). -/
theorem decodeProgram_ends (s : State) : DecodeEnds s (decodeProgram s) := by
  unfold decodeProgram
  by_cases hn : s.par.inCap < s.inLen.toNat
  · rw [if_pos hn]
    exact .inl ⟨_, s, rfl, rfl, .inl ⟨rfl, rfl, rfl⟩⟩
  · rw [if_neg hn]
    have h := deserialize_ends (s := setPhase 0x0C#8 s) (by rw [setPhase_inLen, setPhase_par]; omega)
    rcases h with ⟨c, t, h1, h2⟩ | ⟨t, h1, h2, h3, h4, h5⟩
    · have e1 : execDeserialize (setPhase 0x0C#8 s) = .next (errorEntry c t) := by rw [execDeserialize, h1]; rfl
      rw [callUnit_ended e1 rfl]
      refine .inl ⟨c, t, rfl, DecodeFrame.trans (t := setPhase 0x0C#8 s) rfl h2.decode, .inl ?_⟩
      rw [h2]
      exact ⟨rfl, rfl, rfl⟩
    · have e1 : execDeserialize (setPhase 0x0C#8 s) = .next t := by rw [execDeserialize, h1]; rfl
      have hph : t.phase = 0x0C#8 := by rw [h2]; rfl
      have hf : DecodeFrame s t := DecodeFrame.trans (t := setPhase 0x0C#8 s) rfl h2.decode
      have hbr : t.brBuf = s.brBuf ∧ t.brLimit = s.brLimit ∧ t.brPos = s.brPos := by rw [h2]; exact ⟨rfl, rfl, rfl⟩
      have ho : t.outMem = s.outMem := by rw [h2]; rfl
      have hp : t.par = s.par := by rw [h2]; rfl
      rw [callUnit_next e1 (by rw [hph]; decide), decodeParsed]
      split
      · exact .inr ⟨[], t, rfl, Nat.zero_le _, hf, by rw [ho]; rfl, .inl hbr⟩
      · split
        · exact .inl ⟨_, t, rfl, hf, .inl hbr⟩
        · rename_i hL
          rcases decodeNonempty_ends h4 (by omega) with ⟨c, u, g1, g2, g3⟩ | ⟨bs, u, g1, g2, g3, g4, g5⟩
          · refine .inl ⟨c, u, g1, hf.trans g2, ?_⟩
            rw [hbr.1, hbr.2.1, hbr.2.2] at g3
            exact g3
          · refine .inr ⟨bs, u, g1, by rwa [hp] at g2, hf.trans g3, by rw [g4, ho], ?_⟩
            rw [hbr.1, hbr.2.1, hbr.2.2] at g5
            exact g5

end run

section accept
variable {s : State}

/-- UNPACK of bits that are exactly the codes of the symbols counted (45_orchestration.md R215). -/
theorem unpackPayload_codes (ht : TableOk s.dtab) (hb : s.cPayload.length = ceil8 s.cBitcount)
    (hL : s.cOriglen ≤ s.par.outCap) (es : List (BitStr × Byte)) (hes : ∀ e ∈ es, e ∈ s.dtab)
    (hn : es.length = s.cOriglen) (hu : streamBits s.cPayload 0 s.cBitcount = es.flatMap (·.1)) :
    unpackPayload s = .done () { attachReader s.cPayload s.cBitcount s with
      brPos := s.cBitcount, outMem := s.outMem.setBytes 0 (es.map (·.2)) } := by
  have hr : ReaderOk (attachReader s.cPayload s.cBitcount s) := ⟨Nat.zero_le _, hb⟩
  have hu' : (attachReader s.cPayload s.cBitcount s).unread = es.flatMap (·.1) ++ [] := by
    rw [List.append_nil]; exact hu
  have hlen : (es.flatMap (·.1)).length = s.cBitcount := by rw [← hu, streamBits_length]
  have h := unpackLoop_codes (s := attachReader s.cPayload s.cBitcount s) ht es hes hr hu' 0 0
    (by rw [attachReader_par]; omega)
  rw [Nat.add_zero, hn, hlen, attachReader_brPos, Nat.zero_add, Nat.zero_add, unpackLoop] at h
  unfold unpackPayload
  rw [h]
  dsimp only
  rw [if_neg (by rw [attachReader_brLimit]; simp)]
  rfl

/-- Steps D4 to D7 on an artifact whose bits are the codes of `bs` (45_orchestration.md R210, R211). -/
theorem decodeNonempty_codes {len : Byte → Nat} {bs : List Byte} (hl : tab s.len = len) (hk : kraftSum len ≤ 1)
    (hpos : ∀ b ∈ bs, 0 < len b) (hb : s.cPayload.length = ceil8 s.cBitcount) (hn : bs.length = s.cOriglen)
    (hL : s.cOriglen ≤ s.par.lmax.val) (hu : streamBits s.cPayload 0 s.cBitcount = encodedBits len bs) :
    ∃ t, decodeNonempty s = .next (complete bs.length t) ∧ DecodeFrame s t ∧ t.outMem = s.outMem.setBytes 0 bs := by
  have e1 := execCanon_ok (s := setPhase 0x06#8 s) (by rw [setPhase_len]; exact hl) hk
  have hcode := fun b => tab_setCodes hk (setPhase 0x06#8 s) b
  unfold decodeNonempty
  rw [callUnit_next e1 (by rw [setCodes_phase, setPhase_phase]; decide)]
  generalize (canonCodes len).1 = c at hcode
  generalize hv : ({ setCodes c (setPhase 0x06#8 s) with
      phase := 0x0D#8, dtab := codePairs (tab s.len) (tab (setCodes c (setPhase 0x06#8 s)).code) } : State) = v
  have e2 : execDtBuild (setPhase 0x0D#8 (setCodes c (setPhase 0x06#8 s))) = .next v := by rw [← hv]; rfl
  have hcode' : tab (setCodes c (setPhase 0x06#8 s)).code = canonTable len := funext hcode
  have hvd : v.dtab = codePairs len (canonTable len) := by
    rw [← hcode', ← hl, ← hv]
  have hvf : DecodeFrame s v := by rw [← hv]; rfl
  have hvb : v.cPayload.length = ceil8 v.cBitcount := by rw [← hv]; exact hb
  have hvL : v.cOriglen ≤ v.par.lmax.val := by rw [← hv]; exact hL
  have hvn : bs.length = v.cOriglen := by rw [← hv]; exact hn
  have hvu : streamBits v.cPayload 0 v.cBitcount = encodedBits len bs := by rw [← hv]; exact hu
  have hvo : v.outMem = s.outMem := by rw [← hv]; rfl
  have hvph : v.phase ≠ phaseIdle := by rw [← hv]; simp [phaseIdle]
  clear hv
  rw [callUnit_next e2 hvph]
  have h := unpackPayload_codes (s := setPhase 0x12#8 v) (by rw [setPhase_dtab, hvd]; exact tableOk_canon hk) hvb
    (by rw [setPhase_cOriglen, setPhase_par, Params.outCap]; omega)
    (bs.map fun b => ((canonTable len b).getD [], b))
    (by
      intro e he
      obtain ⟨b, hbm, rfl⟩ := List.mem_map.1 he
      rw [setPhase_dtab, hvd, codePairs_mem]
      have := hpos b hbm
      exact ⟨this, by simp [canonTable, this]⟩)
    (by rw [List.length_map]; exact hvn)
    (by
      rw [setPhase_cPayload, setPhase_cBitcount, hvu, encodedBits, List.flatMap_map])
  rw [List.map_map, show ((fun e : BitStr × Byte => e.2) ∘ fun b => ((canonTable len b).getD [], b)) = id from rfl,
    List.map_id] at h
  generalize hw : ({ attachReader (setPhase 0x12#8 v).cPayload (setPhase 0x12#8 v).cBitcount (setPhase 0x12#8 v) with
      brPos := (setPhase 0x12#8 v).cBitcount, outMem := (setPhase 0x12#8 v).outMem.setBytes 0 bs } : State) = w at h
  have e3 : execUnpack (setPhase 0x12#8 v) = .next w := by rw [execUnpack, h]; rfl
  have hwp : w.phase = 0x12#8 := by rw [← hw]; rfl
  have hwf : DecodeFrame (setPhase 0x12#8 v) w := by rw [← hw]; rfl
  have hwo : w.outMem = s.outMem.setBytes 0 bs := by rw [← hw, ← hvo]; rfl
  have hwl : w.cOriglen = bs.length := by rw [hvn, ← hw]; rfl
  rw [callUnit_next e3 (by rw [hwp]; decide), hwl]
  exact ⟨w, rfl, (hvf.trans (t := v) (u := setPhase 0x12#8 v) rfl).trans hwf, hwo⟩

/-- The DECODE program on the artifact of `bs` under a length table (45_orchestration.md R210, R231). -/
theorem decodeProgram_artifact {len : Byte → Nat} {bs : List Byte}
    (hin : HoldsInput s (artifactBytes s.par bs.length (lengthTable len) (encodedBits len bs)))
    (hpos : ∀ b, 0 < len b ↔ b ∈ bs) (hle : ∀ b, len b ≤ 255) (hk : kraftSum len ≤ 1)
    (hL : bs.length ≤ s.par.lmax.val) (hB : (encodedBits len bs).length ≤ 8 * bs.length) :
    ∃ t, decodeProgram s = .next (complete bs.length t) ∧ DecodeFrame s t ∧ t.outMem = s.outMem.setBytes 0 bs := by
  have hlm := s.par.lmax.isLt
  have hT := lengthTable_length_le len
  have hc : ceil8 (encodedBits len bs).length ≤ bs.length := (ceil8_le_iff _ _).2 hB
  have h0 : lengthTable len = [] ↔ bs.length = 0 := by
    rw [List.length_eq_zero_iff]
    constructor
    · intro h
      by_contra hne
      obtain ⟨b, hb⟩ := List.exists_mem_of_ne_nil bs hne
      have : (b, BitVec.ofNat 8 (len b)) ∈ lengthTable len := mem_lengthTable.2 ⟨(hpos b).2 hb, rfl⟩
      rw [h] at this
      simp at this
    · intro h
      rw [List.eq_nil_iff_forall_not_mem]
      intro e he
      have := (hpos e.1).1 (mem_lengthTable.1 he).1
      rw [h] at this
      simp at this
  have hlenA := hin.1
  rw [artifactBytes_length] at hlenA
  have hwf : TableWf (lengthTable len) := by
    refine ⟨hT, lengthTable_ascending len, ?_⟩
    intro e he
    obtain ⟨h1, h2⟩ := mem_lengthTable.1 he
    rw [h2]
    intro h3
    have h4 := congrArg BitVec.toNat h3
    have := hle e.1
    simp only [BitVec.toNat_ofNat] at h4
    omega
  have hd := deserialize_container (s := setPhase 0x0C#8 s) (L := bs.length) (B := (encodedBits len bs).length)
    (payload := packBits (encodedBits len bs)) hin (by omega) (by omega) hwf h0
    (by
      intro h
      have : bs = [] := List.length_eq_zero_iff.1 (h0.1 h)
      rw [this]; rfl)
    (packBits_length _) (by rw [setPhase_par, Params.inCap]; omega)
  have hlen : tab (lenOf (lengthTable len)) = len := funext (lenOf_lengthTable hle)
  unfold decodeProgram
  rw [if_neg (by rw [Params.inCap]; omega)]
  generalize hbits : encodedBits len bs = bits at *
  generalize hv : ({ setPhase 0x0C#8 s with
      cOriglen := bs.length, cNsym := (lengthTable len).length, cTab := lengthTable len, cBitcount := bits.length
      cPayload := packBits bits, nsym := (lengthTable len).length, len := lenOf (lengthTable len) } : State) = v at hd
  have e1 : execDeserialize (setPhase 0x0C#8 s) = .next v := by rw [execDeserialize, hd]; rfl
  have hvf : DecodeFrame s v := by rw [← hv]; rfl
  have hvo : v.outMem = s.outMem := by rw [← hv]; rfl
  have hvn : v.nsym = (lengthTable len).length := by rw [← hv]
  have hvl : v.cOriglen = bs.length := by rw [← hv]
  have hvp : v.par = s.par := by rw [← hv]; rfl
  have hvt : tab v.len = len := by rw [← hv]; exact hlen
  have hvb : v.cPayload.length = ceil8 v.cBitcount := by rw [← hv]; exact packBits_length _
  have hvu : streamBits v.cPayload 0 v.cBitcount = encodedBits len bs := by
    rw [← hv, hbits]; exact streamBits_packBits bits
  have hvph : v.phase ≠ phaseIdle := by rw [← hv]; simp [phaseIdle]
  clear hv
  rw [callUnit_next e1 hvph, decodeParsed, hvn]
  by_cases hz : (lengthTable len).length = 0
  · rw [if_pos hz]
    have hbs : bs = [] := List.length_eq_zero_iff.1 (h0.1 (List.length_eq_zero_iff.1 hz))
    subst hbs
    exact ⟨v, rfl, hvf, by rw [hvo]; rfl⟩
  · rw [if_neg hz, if_neg (by rw [hvl, hvp]; omega)]
    obtain ⟨t, h1, h2, h3⟩ := decodeNonempty_codes hvt hk (fun b hb => (hpos b).2 hb) hvb hvl.symm
      (by rw [hvl, hvp]; exact hL) hvu
    exact ⟨t, h1, hvf.trans h2, by rw [h3, hvo]⟩

end accept

end Sys2Proof.Machine
end

