-- ==== Sys2Proof/Laws/Walk.lean ====
section
/-! SUPPORT. The laws of the walk (42_code_assigner.md R130): which leaves it finds, in which order, and what it leaves
in `RAWCODE` and `LEN`. -/

namespace Sys2Proof.Machine

variable {node : Nat → Node}

/-- A tree that is not too deep is walked whole. -/
theorem visit_isSome {i d : Nat} (h : TreeWithin node i d) {levels : Nat} (hd : d < levels) (path : BitStr) :
    ∃ l, visit node levels i path = some l := by
  induction h generalizing levels path with
  | leaf e =>
    obtain ⟨f, rfl⟩ : ∃ f, levels = f + 1 := ⟨levels - 1, by omega⟩
    exact ⟨_, by simp only [visit, e]; rfl⟩
  | one e _ ih =>
    obtain ⟨f, rfl⟩ : ∃ f, levels = f + 1 := ⟨levels - 1, by omega⟩
    obtain ⟨l, hl⟩ := ih (levels := f) (by omega) (path ++ [false])
    exact ⟨l, by simp only [visit, e]; exact hl⟩
  | two e _ _ ih₁ ih₂ =>
    obtain ⟨f, rfl⟩ : ∃ f, levels = f + 1 := ⟨levels - 1, by omega⟩
    obtain ⟨a, ha⟩ := ih₁ (levels := f) (by omega) (path ++ [false])
    obtain ⟨b, hb⟩ := ih₂ (levels := f) (by omega) (path ++ [true])
    exact ⟨a ++ b, by simp only [visit, e, ha, hb]⟩

/-- What is walked whole is a tree that is not too deep. -/
theorem within_of_visit {levels i : Nat} {path : BitStr} {l : List (Byte × BitStr)}
    (h : visit node levels i path = some l) : ∃ d, levels = d + 1 ∧ TreeWithin node i d := by
  induction levels generalizing i path l with
  | zero => simp [visit] at h
  | succ d ih =>
    refine ⟨d, rfl, ?_⟩
    cases e : node i with
    | leaf f b => exact .leaf e
    | inner f lft rgt =>
      cases rgt with
      | none =>
        simp only [visit, e] at h
        obtain ⟨d', rfl, hw⟩ := ih h
        exact .one e hw
      | some r =>
        simp only [visit, e] at h
        cases ha : visit node d lft (path ++ [false]) with
        | none => simp [ha] at h
        | some a =>
          cases hb : visit node d r (path ++ [true]) with
          | none => simp [ha, hb] at h
          | some b =>
            obtain ⟨d', rfl, hw⟩ := ih ha
            obtain ⟨d'', e'', hw'⟩ := ih hb
            cases e''
            exact .two e hw hw'

/-- The walk finds the leaves, each with its path. -/
theorem mem_visit {levels i : Nat} {path : BitStr} {l : List (Byte × BitStr)} (h : visit node levels i path = some l)
    (b : Byte) (q : BitStr) : (b, q) ∈ l ↔ ∃ p, q = path ++ p ∧ LeafAt node i p b := by
  induction levels generalizing i path l with
  | zero => simp [visit] at h
  | succ d ih =>
    cases e : node i with
    | leaf f c =>
      simp only [visit, e, Option.some.injEq] at h
      subst h
      simp only [List.mem_singleton, Prod.mk.injEq]
      constructor
      · rintro ⟨rfl, rfl⟩
        exact ⟨[], by simp, .leaf e⟩
      · rintro ⟨p, rfl, hp⟩
        cases hp with
        | leaf e' => rw [e] at e'; cases e'; simp
        | left e' _ => rw [e] at e'; cases e'
        | right e' _ => rw [e] at e'; cases e'
    | inner f lft rgt =>
      cases rgt with
      | none =>
        simp only [visit, e] at h
        rw [ih h]
        constructor
        · rintro ⟨p, rfl, hp⟩
          exact ⟨false :: p, by simp, .left e hp⟩
        · rintro ⟨p, rfl, hp⟩
          cases hp with
          | leaf e' => rw [e] at e'; cases e'
          | left e' hp => rw [e] at e'; cases e'; exact ⟨_, by simp, hp⟩
          | right e' _ => rw [e] at e'; cases e'
      | some r =>
        simp only [visit, e] at h
        cases ha : visit node d lft (path ++ [false]) with
        | none => simp [ha] at h
        | some a =>
          cases hb : visit node d r (path ++ [true]) with
          | none => simp [ha, hb] at h
          | some b' =>
            simp only [ha, hb, Option.some.injEq] at h
            subst h
            rw [List.mem_append, ih ha, ih hb]
            constructor
            · rintro (⟨p, rfl, hp⟩ | ⟨p, rfl, hp⟩)
              · exact ⟨false :: p, by simp, .left e hp⟩
              · exact ⟨true :: p, by simp, .right e hp⟩
            · rintro ⟨p, rfl, hp⟩
              cases hp with
              | leaf e' => rw [e] at e'; cases e'
              | left e' hp => rw [e] at e'; cases e'; exact .inl ⟨_, by simp, hp⟩
              | right e' hp => rw [e] at e'; cases e'; exact .inr ⟨_, by simp, hp⟩

/-- The walk finds the leaves from left to right. -/
theorem visit_pairwise {levels i : Nat} {path : BitStr} {l : List (Byte × BitStr)}
    (h : visit node levels i path = some l) : l.Pairwise fun a b => VisitedBefore a.2 b.2 := by
  induction levels generalizing i path l with
  | zero => simp [visit] at h
  | succ d ih =>
    cases e : node i with
    | leaf f c =>
      simp only [visit, e, Option.some.injEq] at h
      subst h
      simp
    | inner f lft rgt =>
      cases rgt with
      | none =>
        simp only [visit, e] at h
        exact ih h
      | some r =>
        simp only [visit, e] at h
        cases ha : visit node d lft (path ++ [false]) with
        | none => simp [ha] at h
        | some a =>
          cases hb : visit node d r (path ++ [true]) with
          | none => simp [ha, hb] at h
          | some b' =>
            simp only [ha, hb, Option.some.injEq] at h
            subst h
            refine List.pairwise_append.2 ⟨ih ha, ih hb, ?_⟩
            rintro ⟨x, p⟩ hx ⟨y, q⟩ hy
            obtain ⟨p', rfl, -⟩ := (mem_visit ha _ _).1 hx
            obtain ⟨q', rfl, -⟩ := (mem_visit hb _ _).1 hy
            exact ⟨path, p', q', by simp, by simp⟩

/-- The last entry of a symbol decides what a table filled in order holds. -/
theorem tab_foldl_last {α β : Type} (f : β → α) (l : List (Byte × β)) (t : Vector α 256) {s : Byte} {v : β}
    (h : ∃ pre post, l = pre ++ (s, v) :: post ∧ s ∉ post.map (·.1)) :
    tab (l.foldl (fun t e => tabSet t e.1 (f e.2)) t) s = f v := by
  obtain ⟨pre, post, rfl, hp⟩ := h
  rw [List.foldl_append, List.foldl_cons, tab_foldl_of_not_mem f _ _ hp]
  simp

theorem exists_last {β : Type} (l : List (Byte × β)) {s : Byte} (h : s ∈ l.map (·.1)) :
    ∃ v pre post, l = pre ++ (s, v) :: post ∧ s ∉ post.map (·.1) := by
  induction l with
  | nil => simp at h
  | cons e l ih =>
    by_cases hl : s ∈ l.map (·.1)
    · obtain ⟨v, pre, post, rfl, hp⟩ := ih hl
      exact ⟨v, e :: pre, post, rfl, hp⟩
    · have : s = e.1 := by
        rcases List.mem_cons.1 h with h | h
        · exact h
        · exact absurd h hl
      subst this
      exact ⟨e.2, [], l, rfl, hl⟩

/-- Paths that part are no prefixes of each other. -/
theorem VisitedBefore.not_prefix {p q : BitStr} (h : VisitedBefore p q) : ¬ p <+: q ∧ ¬ q <+: p := by
  obtain ⟨w, x, y, rfl, rfl⟩ := h
  constructor <;>
  · rw [List.prefix_append_right_inj, List.cons_prefix_cons]
    simp

/-- Of two leaves visited, the path of one is a prefix of the other's only if they are one leaf
(42_code_assigner.md R131). -/
theorem visit_prefix {node : Nat → Node} {levels i : Nat} {path : BitStr} {l : List (Byte × BitStr)}
    (h : visit node levels i path = some l) {a b : Byte × BitStr} (ha : a ∈ l) (hb : b ∈ l) (hp : a.2 <+: b.2) :
    a = b := by
  have hs := List.pairwise_iff_getElem.1 (visit_pairwise h)
  obtain ⟨j, hj, rfl⟩ := List.getElem_of_mem ha
  obtain ⟨k, hk, rfl⟩ := List.getElem_of_mem hb
  rcases Nat.lt_trichotomy j k with hjk | rfl | hjk
  · exact absurd hp (hs j k hj hk hjk).not_prefix.1
  · rfl
  · exact absurd hp (hs k j hk hj hjk).not_prefix.2

end Sys2Proof.Machine
end

