-- ==== Sys2Proof/Laws/Frame.lean ====
section
/-! SUPPORT. What each unit operation may change, in whichever state it starts and however it ends: one lemma for each
operation. -/

namespace Sys2Proof.Machine

/-- Equal fields make an equal interface. -/
theorem sameInterface_of {s t : State} (h₁ : t.par = s.par) (h₂ : t.cmd = s.cmd) (h₃ : t.inLen = s.inLen)
    (h₄ : t.inMem = s.inMem) (h₅ : t.inbox = s.inbox) (h₆ : t.inEpoch = s.inEpoch) (h₇ : t.status = s.status)
    (h₈ : t.errcode = s.errcode) (h₉ : t.errinfo = s.errinfo) (h₁₀ : t.outLen = s.outLen) (h₁₁ : t.phase = s.phase)
    (h₁₂ : t.outMem = s.outMem) (h₁₃ : t.outEpoch = s.outEpoch) : SameInterface s t :=
  ⟨⟨h₁, h₂, h₃, h₄, h₅, fun a => by simp only [State.inByte, h₄, h₆]⟩, h₇, h₈, h₉, h₁₀, h₁₁,
    fun a => by simp only [State.outByte, h₁₂, h₁₃]⟩

/-- Equal fields make an equal input. -/
theorem sameInput_of {s t : State} (h₁ : t.par = s.par) (h₂ : t.cmd = s.cmd) (h₃ : t.inLen = s.inLen)
    (h₄ : t.inMem = s.inMem) (h₅ : t.inbox = s.inbox) (h₆ : t.inEpoch = s.inEpoch) : SameInput s t :=
  ⟨h₁, h₂, h₃, h₄, h₅, fun a => by simp only [State.inByte, h₄, h₆]⟩

theorem SameInput.trans {s t u : State} (h : SameInput s t) (h' : SameInput t u) : SameInput s u := by
  obtain ⟨a1, a2, a3, a4, a5, a6⟩ := h
  obtain ⟨b1, b2, b3, b4, b5, b6⟩ := h'
  exact ⟨b1.trans a1, b2.trans a2, b3.trans a3, b4.trans a4, b5.trans a5, fun a => (b6 a).trans (a6 a)⟩

/-- Error entry in full (60_exceptions.md R250). -/
theorem errorEntry_failed (c : Cause) (s : State) : Failed (errorEntry c s) c.code c.info :=
  ⟨rfl, rfl, rfl, rfl, rfl⟩

/-- Every cause has a code of its own kind, none of them 0 (60_exceptions.md R241). -/
theorem Cause.code_mem (c : Cause) : c.code ∈ [0x01#8, 0x02#8, 0x03#8, 0x10#8, 0x11#8] := by
  cases c <;> simp [Cause.code]

section builder

theorem mergePass_frame (s : State) :
    mergePass s = { s with node := (mergePass s).node, ncount := (mergePass s).ncount, pq := (mergePass s).pq } := by
  unfold mergePass extractMin
  cases pqLeast s.nodeAt s.pq with
  | none => rfl
  | some a =>
    simp only [Option.map_some]
    generalize pqLeast (State.nodeAt { s with pq := s.pq.erase a }) (s.pq.erase a) = o
    cases o <;> rfl

theorem mergeLoop_frame (n : Nat) (s : State) :
    mergeLoop n s =
      { s with node := (mergeLoop n s).node, ncount := (mergeLoop n s).ncount, pq := (mergeLoop n s).pq } := by
  induction n generalizing s with
  | zero => rfl
  | succ n ih =>
    rw [mergeLoop]
    split
    · have h := ih (mergePass s)
      have hp := mergePass_frame s
      generalize mergeLoop n (mergePass s) = t at h ⊢
      rw [hp] at h
      exact h
    · rfl

theorem mergeTree_frame (s : State) :
    mergeTree s =
      { s with
        node := (mergeTree s).node, ncount := (mergeTree s).ncount, pq := (mergeTree s).pq, root := (mergeTree s).root
        draws := (mergeTree s).draws } := by
  unfold mergeTree
  have h := mergeLoop_frame s.pq.length s
  generalize mergeLoop s.pq.length s = t at h ⊢
  rw [h]
  unfold takeRoot extractMin
  generalize pqLeast _ _ = o
  cases o <;> rfl

/-- A node made leaves every other entry alone. -/
theorem nodeAt_addNode_ne (n : Node) (s : State) {k : Nat} (h : k ≠ s.ncount) :
    (addNode n s).nodeAt k = s.nodeAt k := by
  simp only [State.nodeAt, addNode, Vector.getElem?_setIfInBounds]
  rw [if_neg (Ne.symm h)]

/-- TB_INIT's loop leaves the entries above the nodes it makes (41_tree_builder.md R113). -/
theorem foldl_addLeaf_above (l : List Byte) (s : State) :
    s.ncount ≤ (l.foldl addLeaf s).ncount ∧
      ∀ k, (l.foldl addLeaf s).ncount ≤ k → (l.foldl addLeaf s).nodeAt k = s.nodeAt k := by
  induction l generalizing s with
  | nil => exact ⟨le_rfl, fun _ _ => rfl⟩
  | cons b l ih =>
    obtain ⟨h1, h2⟩ := ih (addLeaf s b)
    rw [List.foldl_cons]
    by_cases hb : 0 < tab s.freq b
    · have e : addLeaf s b = addNode (.leaf (tab s.freq b) b) s := by simp [addLeaf, hb]
      have hc : (addLeaf s b).ncount = s.ncount + 1 := by rw [e]; rfl
      refine ⟨by omega, fun k hk => ?_⟩
      rw [h2 k hk, e, nodeAt_addNode_ne _ _ (by omega)]
    · have e : addLeaf s b = s := by simp [addLeaf, hb]
      rw [e] at h1 h2 ⊢
      exact ⟨h1, h2⟩

/-- A pass of the merge of a queue of written nodes: the queue, and the entries it leaves
(41_tree_builder.md R114). -/
theorem mergePass_queue {s : State} (hq : QueueOk s) (h : 2 ≤ s.pq.length) :
    QueueOk (mergePass s) ∧ (∃ l, (mergePass s).pq = l ++ [s.ncount]) ∧
      (mergePass s).pq.length = s.pq.length - 1 ∧ (mergePass s).ncount = s.ncount + 1 ∧
      ∀ k, k ≠ s.ncount → (mergePass s).nodeAt k = s.nodeAt k := by
  obtain ⟨a, b, -, -, -, -, hm⟩ := mergePass_spec s h
  obtain ⟨hl1, hl2⟩ := mergePass_length h hq.2
  have hlt : ∀ i ∈ (s.pq.erase a).erase b, i < s.ncount := fun i hi =>
    hq.2 i (List.mem_of_mem_erase (List.mem_of_mem_erase hi))
  have hpq : (mergePass s).pq = (s.pq.erase a).erase b ++ [s.ncount] := by rw [hm]; exact pqInsert_last hlt
  refine ⟨⟨?_, fun i hi => ?_⟩, ⟨_, hpq⟩, hl1, hl2, fun k hk => ?_⟩
  · rw [hpq, List.pairwise_append]
    refine ⟨(hq.1.sublist List.erase_sublist).sublist List.erase_sublist, by simp, fun i hi j hj => ?_⟩
    rw [List.mem_singleton.1 hj]
    exact hlt i hi
  · rw [hpq] at hi
    rw [hl2]
    rcases List.mem_append.1 hi with h | h
    · have := hlt i h
      omega
    · rw [List.mem_singleton.1 h]
      omega
  · rw [hm]
    exact nodeAt_addNode_ne _ _ hk

/-- Every inner node with two children stands after them and has the sum of their frequencies
(41_tree_builder.md R117, R118). -/
def ChildrenOk (s : State) : Prop :=
  ∀ i f l r, i < s.ncount → s.nodeAt i = .inner f l (some r) →
    l < i ∧ r < i ∧ f = (s.nodeAt l).freq + (s.nodeAt r).freq

theorem mergePass_children {s : State} (hq : QueueOk s) (h : 2 ≤ s.pq.length) (hn : s.ncount < 511)
    (hc : ChildrenOk s) : ChildrenOk (mergePass s) := by
  obtain ⟨a, b, ha, hb, -, -, hm⟩ := mergePass_spec s h
  have hla := hq.2 a ha
  have hlb := hq.2 b (List.mem_of_mem_erase hb)
  have hnode : ∀ k, (mergePass s).nodeAt k =
      if k = s.ncount then .inner ((s.nodeAt a).freq + (s.nodeAt b).freq) a (some b) else s.nodeAt k := by
    intro k
    rw [hm]
    exact nodeAt_addNode (s := { s with pq := (s.pq.erase a).erase b }) _ hn k
  have hnc : (mergePass s).ncount = s.ncount + 1 := by rw [hm]; rfl
  intro i f l r hi hk
  rw [hnode] at hk
  by_cases he : i = s.ncount
  · rw [if_pos he] at hk
    cases hk
    rw [hnode, hnode, if_neg (by omega), if_neg (by omega)]
    exact ⟨by omega, by omega, rfl⟩
  · rw [if_neg he] at hk
    obtain ⟨h1, h2, h3⟩ := hc i f l r (by omega) hk
    rw [hnode, hnode, if_neg (by omega), if_neg (by omega)]
    exact ⟨h1, h2, h3⟩

/-- The nodes in the queue have no parent, every other node has exactly one, once;
a child stands before its parent (41_tree_builder.md R118). -/
structure ParentsOk (s : State) : Prop where
  below : ∀ k i, i < s.ncount → ChildOf s.nodeAt k i → k < i
  queued : ∀ k, k < s.ncount → k ∈ s.pq → ∀ j, j < s.ncount → ¬ ChildOf s.nodeAt k j
  one : ∀ k, k < s.ncount → k ∉ s.pq →
    ∃ i, i < s.ncount ∧ ChildOf s.nodeAt k i ∧ ∀ j, j < s.ncount → ChildOf s.nodeAt k j → j = i
  once : ∀ i f l r, i < s.ncount → s.nodeAt i = .inner f l (some r) → l ≠ r
  two : ∀ i f l, i < s.ncount → s.nodeAt i ≠ .inner f l none

theorem mergePass_parents {s : State} (hq : QueueOk s) (h : 2 ≤ s.pq.length) (hn : s.ncount < 511)
    (hp : ParentsOk s) : ParentsOk (mergePass s) := by
  obtain ⟨a, b, ha, hb, -, -, hm⟩ := mergePass_spec s h
  have hnd : s.pq.Nodup := hq.1.imp fun h => Nat.ne_of_lt h
  obtain ⟨hba, hb'⟩ := hnd.mem_erase_iff.1 hb
  have hla := hq.2 a ha
  have hlb := hq.2 b hb'
  have hnode : ∀ k, (mergePass s).nodeAt k =
      if k = s.ncount then .inner ((s.nodeAt a).freq + (s.nodeAt b).freq) a (some b) else s.nodeAt k := by
    intro k
    rw [hm]
    exact nodeAt_addNode (s := { s with pq := (s.pq.erase a).erase b }) _ hn k
  have hnc : (mergePass s).ncount = s.ncount + 1 := by rw [hm]; rfl
  have hpq : ∀ k, k ∈ (mergePass s).pq ↔ (k ∈ s.pq ∧ k ≠ a ∧ k ≠ b) ∨ k = s.ncount := by
    intro k
    have e : (mergePass s).pq = (s.pq.erase a).erase b ++ [s.ncount] := by
      rw [hm]
      exact pqInsert_last fun i hi => hq.2 i (List.mem_of_mem_erase (List.mem_of_mem_erase hi))
    rw [e, List.mem_append, List.mem_singleton, (hnd.erase a).mem_erase_iff, hnd.mem_erase_iff]
    tauto
  have hnew : ∀ k, ChildOf (mergePass s).nodeAt k s.ncount ↔ k = a ∨ k = b := by
    intro k
    simp only [ChildOf, hnode, if_pos]
    constructor
    · rintro ⟨f, l, r, e, h⟩
      cases e
      rcases h with h | h
      · exact .inl h
      · cases h; exact .inr rfl
    · rintro (rfl | rfl)
      · exact ⟨_, _, _, rfl, .inl rfl⟩
      · exact ⟨_, _, _, rfl, .inr rfl⟩
  have hold : ∀ k j, j < s.ncount → (ChildOf (mergePass s).nodeAt k j ↔ ChildOf s.nodeAt k j) := by
    intro k j hj
    simp only [ChildOf, hnode, if_neg (Nat.ne_of_lt hj)]
  have hsplit : ∀ j, j < (mergePass s).ncount → j < s.ncount ∨ j = s.ncount := fun j hj => by omega
  refine ⟨fun k i hi hc => ?_, fun k hk hkq j hj hc => ?_, fun k hk hkq => ?_, fun i f l r hi e => ?_,
    fun i f l hi e => ?_⟩
  · rcases hsplit i hi with h' | rfl
    · exact hp.below k i h' ((hold k i h').1 hc)
    · rcases (hnew k).1 hc with rfl | rfl <;> assumption
  · rcases (hpq k).1 hkq with ⟨h1, h2, h3⟩ | rfl
    · rcases hsplit j hj with h' | rfl
      · exact hp.queued k (hq.2 k h1) h1 j h' ((hold k j h').1 hc)
      · rcases (hnew k).1 hc with e | e <;> contradiction
    · rcases hsplit j hj with h' | rfl
      · have := hp.below _ _ h' ((hold _ j h').1 hc)
        omega
      · rcases (hnew _).1 hc with e | e <;> omega
  · rw [hpq, not_or, not_and] at hkq
    have hk' : k < s.ncount := (hsplit k hk).resolve_right hkq.2
    by_cases hkm : k ∈ s.pq
    · have hab : k = a ∨ k = b := by
        by_contra h'
        rw [not_or] at h'
        exact hkq.1 hkm h'
      refine ⟨s.ncount, by omega, (hnew k).2 hab, fun j hj hc => ?_⟩
      exact (hsplit j hj).resolve_left fun h' => hp.queued k hk' hkm j h' ((hold k j h').1 hc)
    · obtain ⟨i, h1, h2, h3⟩ := hp.one k hk' hkm
      refine ⟨i, by omega, (hold k i h1).2 h2, fun j hj hc => ?_⟩
      rcases hsplit j hj with h' | rfl
      · exact h3 j h' ((hold k j h').1 hc)
      · rcases (hnew k).1 hc with rfl | rfl
        · exact absurd ha hkm
        · exact absurd hb' hkm
  · rw [hnode] at e
    rcases hsplit i hi with h' | rfl
    · rw [if_neg (Nat.ne_of_lt h')] at e
      exact hp.once i f l r h' e
    · rw [if_pos rfl] at e
      cases e
      exact fun e => hba e.symm
  · rw [hnode] at e
    rcases hsplit i hi with h' | rfl
    · rw [if_neg (Nat.ne_of_lt h')] at e
      exact hp.two i f l h' e
    · rw [if_pos rfl] at e
      cases e

theorem mergeLoop_parents (n : Nat) {s : State} (hq : QueueOk s) (hn : s.ncount + (s.pq.length - 1) ≤ 511)
    (hp : ParentsOk s) : ParentsOk (mergeLoop n s) := by
  induction n generalizing s with
  | zero => exact hp
  | succ n ih =>
    rw [mergeLoop]
    split
    · rename_i h
      obtain ⟨h1, -, h3, h4, -⟩ := mergePass_queue hq h
      exact ih h1 (by omega) (mergePass_parents hq h (by omega) hp)
    · exact hp

theorem mergeLoop_children (n : Nat) {s : State} (hq : QueueOk s) (hn : s.ncount + (s.pq.length - 1) ≤ 511)
    (hc : ChildrenOk s) : ChildrenOk (mergeLoop n s) := by
  induction n generalizing s with
  | zero => exact hc
  | succ n ih =>
    rw [mergeLoop]
    split
    · rename_i h
      obtain ⟨h1, -, h3, h4, -⟩ := mergePass_queue hq h
      exact ih h1 (by omega) (mergePass_children hq h (by omega) hc)
    · exact hc

end builder

section runs

/-- The state a loop ended in, however it ended, satisfies `P`; a loop that is stuck has none. -/
def Run.Leaves {α : Type} (r : Run α) (P : State → Prop) : Prop :=
  match r with
  | .done _ t => P t
  | .raised _ t => P t
  | .stuck _ => True

theorem Run.Leaves.mono {α : Type} {r : Run α} {P Q : State → Prop} (h : r.Leaves P) (hpq : ∀ t, P t → Q t) :
    r.Leaves Q := by
  cases r with
  | done a t => exact hpq t h
  | raised c t => exact hpq t h
  | stuck f => trivial

theorem Run.Leaves.outcome {α : Type} {r : Run α} {P : State → Prop} (h : r.Leaves P) {finish : α → State → State}
    {t : State} (e : r.outcome finish = .next t) :
    (∃ a u, r = .done a u ∧ P u ∧ t = finish a u) ∨ ∃ c u, r = .raised c u ∧ P u ∧ t = errorEntry c u := by
  cases r with
  | done a u => cases e; exact .inl ⟨a, u, rfl, h, rfl⟩
  | raised c u => cases e; exact .inr ⟨c, u, rfl, h, rfl⟩
  | stuck f => cases e

theorem decsymLoop_frame (n : Nat) (acc : BitStr) (s : State) :
    (decsymLoop n acc s).Leaves fun t => t = { s with brPos := t.brPos } := by
  induction n generalizing acc s with
  | zero => rfl
  | succ n ih =>
    rw [decsymLoop]
    split
    · rfl
    · dsimp only
      split
      · rfl
      · split
        · exact (ih _ (advanceReader s)).mono fun t ht => ht
        · rfl

theorem unpackLoop_frame (n j : Nat) (s : State) :
    (unpackLoop n j s).Leaves fun t => t = { s with brPos := t.brPos, outMem := t.outMem } := by
  induction n generalizing j s with
  | zero => rfl
  | succ n ih =>
    rw [unpackLoop]
    have h := decsymLoop_frame (s.brLimit - s.brPos + 1) [] s
    rw [← decodeSymbol] at h
    generalize decodeSymbol s = r at h
    cases r with
    | done b t =>
      replace h : t = { s with brPos := t.brPos } := h
      dsimp only
      split
      · refine (ih _ { t with outMem := t.outMem.set j b }).mono fun u hu => ?_
        rw [h] at hu
        exact hu
      · trivial
    | raised c t =>
      replace h : t = { s with brPos := t.brPos } := h
      show t = _
      rw [h]
    | stuck f => trivial

/-- UNPACK's loop writes OUT from index `j` to `j + n - 1` (20_memory.md R51). -/
theorem unpackLoop_out (n j : Nat) (s : State) :
    (unpackLoop n j s).Leaves fun t => ∀ a, a < j ∨ j + n ≤ a → t.outMem.get? a = s.outMem.get? a := by
  induction n generalizing j s with
  | zero => exact fun _ _ => rfl
  | succ n ih =>
    rw [unpackLoop]
    have h := decsymLoop_frame (s.brLimit - s.brPos + 1) [] s
    rw [← decodeSymbol] at h
    generalize decodeSymbol s = r at h
    cases r with
    | done b t =>
      replace h : t = { s with brPos := t.brPos } := h
      dsimp only
      split
      · refine (ih (j + 1) { t with outMem := t.outMem.set j b }).mono fun u hu a ha => ?_
        rw [hu a (by omega), Memory.get?_set, if_neg (by omega), h]
      · trivial
    | raised c t =>
      replace h : t = { s with brPos := t.brPos } := h
      show ∀ a, _ → t.outMem.get? a = _
      rw [h]
      exact fun _ _ => rfl
    | stuck f => trivial

theorem unpackPayload_out (s : State) :
    (unpackPayload s).Leaves fun t => ∀ a, s.cOriglen ≤ a → t.outMem.get? a = s.outMem.get? a := by
  unfold unpackPayload
  have h := unpackLoop_out s.cOriglen 0 (attachReader s.cPayload s.cBitcount s)
  generalize unpackLoop s.cOriglen 0 (attachReader s.cPayload s.cBitcount s) = r at h
  cases r with
  | done b t => dsimp only; split <;> exact fun a ha => h a (.inr (by omega))
  | raised c t => exact fun a ha => h a (.inr (by omega))
  | stuck f => trivial

theorem unpackPayload_frame (s : State) :
    (unpackPayload s).Leaves fun t => t = { s with
      brBuf := s.cPayload, brLimit := s.cBitcount, brPos := t.brPos, draws := s.draws + 1, outMem := t.outMem } := by
  unfold unpackPayload
  have h := unpackLoop_frame s.cOriglen 0 (attachReader s.cPayload s.cBitcount s)
  generalize unpackLoop s.cOriglen 0 (attachReader s.cPayload s.cBitcount s) = r at h
  cases r with
  | done b t => dsimp only; split <;> exact h
  | raised c t => exact h
  | stuck f => trivial

theorem readPayload_frame (s : State) : (readPayload s).Leaves (FieldFrame s) := by
  unfold readPayload
  dsimp only
  split
  · rfl
  · split
    · rfl
    · split
      · rfl
      · split
        · trivial
        · split
          · rfl
          · split <;> rfl

theorem readTable_frame (s : State) : (readTable s).Leaves (FieldFrame s) := by
  unfold readTable
  split
  · rfl
  · rcases tableLoop_cases (List.range s.cNsym) { s with len := Vector.replicate 256 0, cTab := [] } with
      ⟨t, h1, h2⟩ | ⟨c, t, h1, h2⟩
    · rw [h1]
      have hf : FieldFrame s t := by rw [h2]; rfl
      exact (readPayload_frame t).mono fun u hu => hf.trans hu
    · rw [h1]
      show FieldFrame s t
      rw [h2]
      rfl

theorem deserialize_frame (s : State) : (deserialize s).Leaves (FieldFrame s) := by
  unfold deserialize
  dsimp only
  split
  · rfl
  · split
    · rfl
    · split
      · rfl
      · split
        · rfl
        · split
          · rfl
          · split
            · rfl
            · split
              · rfl
              · exact (readTable_frame _).mono fun t ht => FieldFrame.trans
                  (t := { s with cOriglen := s.memRead 5 8, cNsym := s.memRead 13 2 }) rfl ht

end runs

section units
variable {s t : State}

/-- FCOUNT writes `FREQ` only (40_frequency.md R100, R101). -/
theorem execFcount_frame (h : execFcount s = .next t) : t = { s with freq := t.freq } := by
  unfold execFcount at h
  split at h
  · cases h; rfl
  · cases h

theorem execTbInit_frame (h : execTbInit s = .next t) :
    t = { s with node := t.node, pq := t.pq, ncount := t.ncount, nsym := t.nsym } := by
  have e := (initTree_spec s).2.2.2.2
  unfold execTbInit at h
  generalize initTree s = u at e h
  cases h
  exact e

theorem execTbMerge_frame (h : execTbMerge s = .next t) :
    t = { s with node := t.node, ncount := t.ncount, pq := t.pq, root := t.root, draws := t.draws } := by
  unfold execTbMerge at h
  split at h
  · have e := mergeTree_frame s
    generalize mergeTree s = u at e h
    cases h
    exact e
  · cases h

theorem execTbFix1_frame (h : execTbFix1 s = .next t) :
    t = { s with node := t.node, ncount := t.ncount, root := t.root } := by
  unfold execTbFix1 fixOne at h
  split at h <;> · cases h; rfl

theorem execWalk_frame (h : execWalk s = .next t) : t = { s with rawcode := t.rawcode, len := t.len } := by
  unfold execWalk at h
  split at h <;> cases h
  rfl

/-- CANON writes `CODE` only, and raises or not (42_code_assigner.md R135, R137). -/
theorem execCanon_frame (h : execCanon s = .next t) :
    t = { s with code := t.code } ∨ ∃ u, u = { s with code := u.code } ∧ t = errorEntry .overSubscribed u := by
  unfold execCanon at h
  dsimp only at h
  split at h
  · cases h; exact .inl rfl
  · cases h; exact .inr ⟨_, rfl, rfl⟩

theorem execDtBuild_frame (h : execDtBuild s = .next t) : t = { s with dtab := t.dtab } := by
  cases h
  rfl

theorem execBwReset_frame (h : execBwReset s = .next t) : t = { s with bwBuf := t.bwBuf, bwNbits := t.bwNbits } := by
  cases h
  rfl

theorem execBwWbit_frame {b : Bool} (h : execBwWbit b s = .next t) :
    t = { s with bwBuf := t.bwBuf, bwNbits := t.bwNbits } := by
  unfold execBwWbit at h
  split at h <;> cases h
  rfl

theorem execBwWcode_frame {w : BitStr} (h : execBwWcode w s = .next t) :
    t = { s with bwBuf := t.bwBuf, bwNbits := t.bwNbits } := by
  unfold execBwWcode at h
  split at h <;> cases h
  rfl

theorem execBwFinish_frame (h : execBwFinish s = .next t) : t = { s with result := t.result } := by
  cases h
  rfl

theorem execSerialize_frame (h : execSerialize s = .next t) :
    t = { s with outMem := t.outMem, result := t.result, draws := t.draws } := by
  unfold execSerialize at h
  split at h <;> cases h
  rfl

theorem execDeserialize_frame (h : execDeserialize s = .next t) :
    FieldFrame s t ∨ ∃ c u, FieldFrame s u ∧ t = errorEntry c u := by
  rcases (deserialize_frame s).outcome h with ⟨-, u, -, h1, h2⟩ | ⟨c, u, -, h1, h2⟩
  · exact .inl (h2 ▸ h1)
  · exact .inr ⟨c, u, h1, h2⟩

theorem execBrInit_frame {buf : List Byte} {limit : Nat} (h : execBrInit buf limit s = .next t) :
    t = { s with brBuf := t.brBuf, brLimit := t.brLimit, brPos := t.brPos, draws := t.draws } := by
  cases h
  rfl

theorem execBrRbit_frame (h : execBrRbit s = .next t) : t = { s with brPos := t.brPos, result := t.result } := by
  unfold execBrRbit at h
  split at h <;> · cases h; rfl

theorem execDecsym_frame (h : execDecsym s = .next t) :
    t = { s with brPos := t.brPos, result := t.result } ∨
      ∃ c u, u = { s with brPos := u.brPos } ∧ t = errorEntry c u := by
  rcases (decsymLoop_frame (s.brLimit - s.brPos + 1) [] s).outcome h with ⟨b, u, -, h1, h2⟩ | ⟨c, u, -, h1, h2⟩
  · left
    rw [h2, h1]
  · exact .inr ⟨c, u, h1, h2⟩

theorem execPack_frame (h : execPack s = .next t) :
    t = { s with bwBuf := t.bwBuf, bwNbits := t.bwNbits, result := t.result, draws := t.draws } := by
  unfold execPack at h
  split at h <;> cases h
  rfl

/-- Equal registers and equal bytes of OUT from `n` on make an equal interface there. -/
theorem sameInterfaceFrom_of {n : Nat} (h₁ : SameInterface { s with outMem := t.outMem } t)
    (h₂ : ∀ a, n ≤ a → t.outMem.get? a = s.outMem.get? a) : SameInterfaceFrom n s t := by
  obtain ⟨⟨a1, a2, a3, a4, a5, a6⟩, b1, b2, b3, b4, b5, b6⟩ := h₁
  refine ⟨⟨a1, a2, a3, a4, a5, a6⟩, b1, b2, b3, b4, b5, fun a ha => ?_⟩
  rw [b6 a]
  simp only [State.outByte, h₂ a ha]

/-- SERIALIZE writes OUT below the artifact's length (20_memory.md R51). -/
theorem execSerialize_out (h : execSerialize s = .next t) : SameInterfaceFrom s.artifactLen s t := by
  unfold execSerialize at h
  split at h <;> cases h
  refine sameInterfaceFrom_of (sameInterface_of rfl rfl rfl rfl rfl rfl rfl rfl rfl rfl rfl rfl rfl) fun a ha => ?_
  simp only [writeArtifact, Memory.get?_setBytes, artifact_length]
  rw [if_neg (by omega)]

theorem execUnpack_frame (h : execUnpack s = .next t) :
    ∃ u, (t = u ∨ ∃ c, t = errorEntry c u) ∧ u = { s with
      brBuf := s.cPayload, brLimit := s.cBitcount, brPos := u.brPos, draws := s.draws + 1, outMem := u.outMem } := by
  rcases (unpackPayload_frame s).outcome h with ⟨-, u, -, h1, h2⟩ | ⟨c, u, -, h1, h2⟩
  · exact ⟨u, .inl h2, h1⟩
  · exact ⟨u, .inr ⟨c, h2⟩, h1⟩

/-- UNPACK, when it completes, writes OUT below `C_ORIGLEN` (20_memory.md R51). -/
theorem execUnpack_out (h : execUnpack s = .next t) :
    SameInterfaceFrom s.cOriglen s t ∨ ∃ c u, t = errorEntry c u := by
  have hf := unpackPayload_frame s
  rcases (unpackPayload_out s).outcome h with ⟨_, u, e, h1, rfl⟩ | ⟨c, u, -, -, h2⟩
  · rw [e] at hf
    replace hf : t = { s with
      brBuf := s.cPayload, brLimit := s.cBitcount, brPos := t.brPos, draws := s.draws + 1, outMem := t.outMem } := hf
    refine .inl (sameInterfaceFrom_of ?_ h1)
    generalize t.outMem = m at hf
    rw [hf]
    exact sameInterface_of rfl rfl rfl rfl rfl rfl rfl rfl rfl rfl rfl rfl rfl
  · exact .inr ⟨c, u, h2⟩

end units

end Sys2Proof.Machine
end

