-- ==== Sys2Proof/Laws/PerInstr.lean ====
section
/-! SUPPORT. Statements about every instruction as syntax, one lemma for each constructor. -/

namespace Sys2Proof.Laws.Coded

/-- What the encoder writes is in the ranges of 30_encoding.md R90 and R91: a command byte is one of the two, a
unit-operation code is below 0x13, and the operands beside it are inside their limits. -/
def Statement (i : Instr) : Prop :=
  i.wf = true →
    ((encode i).format = .cmd → (encode i).code = 0x01#8 ∨ (encode i).code = 0x02#8) ∧
      ((encode i).format = .uop → (encode i).code.toNat < 0x13) ∧
      1 ≤ (encode i).operands.code.length ∧ (encode i).operands.code.length ≤ 255 ∧
      (encode i).operands.limit < 2 ^ 32

/-- An instruction of fixed operands: its five facts are closed. -/
theorem of_closed {i : Instr} (h : ((encode i).format = .cmd → (encode i).code = 0x01#8 ∨ (encode i).code = 0x02#8) ∧
    ((encode i).format = .uop → (encode i).code.toNat < 0x13) ∧ 1 ≤ (encode i).operands.code.length ∧
    (encode i).operands.code.length ≤ 255 ∧ (encode i).operands.limit < 2 ^ 32) : Statement i := fun _ => h

theorem encode : Statement .encode := of_closed (by decide)
theorem decode : Statement .decode := of_closed (by decide)
theorem idle : Statement .idle := of_closed (by decide)
theorem fcount : Statement .fcount := of_closed (by decide)
theorem tbInit : Statement .tbInit := of_closed (by decide)
theorem tbMerge : Statement .tbMerge := of_closed (by decide)
theorem tbFix1 : Statement .tbFix1 := of_closed (by decide)
theorem walk : Statement .walk := of_closed (by decide)
theorem canon : Statement .canon := of_closed (by decide)
theorem bwReset : Statement .bwReset := of_closed (by decide)
theorem bwWbit (b : Bool) : Statement (.bwWbit b) := of_closed (by cases b <;> decide)
theorem bwWcode (c : BitStr) : Statement (.bwWcode c) := fun h => by
  have hc := of_decide_eq_true h
  exact ⟨nofun, fun _ => show (0x09#8 : Byte).toNat < 0x13 by decide, hc.1, hc.2, show 0 < 2 ^ 32 by decide⟩
theorem bwFinish : Statement .bwFinish := of_closed (by decide)
theorem serialize : Statement .serialize := of_closed (by decide)
theorem deserialize : Statement .deserialize := of_closed (by decide)
theorem dtBuild : Statement .dtBuild := of_closed (by decide)
theorem brInit (buf : List Byte) (limit : Nat) : Statement (.brInit buf limit) := fun h => by
  have hl := of_decide_eq_true h
  exact ⟨nofun, fun _ => show (0x0E#8 : Byte).toNat < 0x13 by decide, show 1 ≤ 1 by decide, show 1 ≤ 255 by decide, hl⟩
theorem brRbit : Statement .brRbit := of_closed (by decide)
theorem decsym : Statement .decsym := of_closed (by decide)
theorem pack : Statement .pack := of_closed (by decide)
theorem unpack : Statement .unpack := of_closed (by decide)

end Sys2Proof.Laws.Coded
end

