-- ==== Sys2Proof/Laws/Step.lean ====
section
/-! SUPPORT. What a host access covers and what a step can do, said once (10_state.md R21, R22), and how the two commands end. -/

namespace Sys2Proof.Machine

section access

/-- An access that reaches past REG space (log 12). -/
theorem regAccess_beyond {offset size : Nat} (h : 0x28 < offset + size) : regAccess offset size = .beyond := by
  rw [regAccess, if_pos h]

/-- A register that an access touches has a byte among those accessed (10_state.md R21). -/
theorem touched_iff {offset size : Nat} (hs : 0 < size) :
    (∃ r ∈ allRegs, Reg.touched offset size r = true) ↔ ∃ k, offset ≤ k ∧ k < offset + size ∧ RegByte k := by
  constructor
  · rintro ⟨r, -, h⟩
    replace h : offset < r.place.1 + r.place.2 ∧ r.place.1 < offset + size := of_decide_eq_true h
    refine ⟨max offset r.place.1, by omega, by omega, ?_⟩
    cases r <;> simp only [Reg.place, RegByte, List.mem_cons, List.not_mem_nil, or_false] at h ⊢ <;> omega
  · rintro ⟨k, h1, h2, h3⟩
    have key : ∀ r : Reg, r ∈ allRegs → r.place.1 ≤ k → k < r.place.1 + r.place.2 →
        ∃ r ∈ allRegs, Reg.touched offset size r = true :=
      fun r hr h h' => ⟨r, hr, decide_eq_true ⟨by omega, by omega⟩⟩
    simp only [RegByte, List.mem_cons, List.not_mem_nil, or_false] at h3
    rcases h3 with (rfl | rfl | rfl | rfl | rfl) | h3
    · exact key .cmd (by decide) (by decide) (by decide)
    · exact key .status (by decide) (by decide) (by decide)
    · exact key .errcode (by decide) (by decide) (by decide)
    · exact key .errinfo (by decide) (by decide) (by decide)
    · exact key .phase (by decide) (by decide) (by decide)
    · by_cases h : k < 0x18
      · exact key .inLen (by decide) h3.1 h
      · exact key .outLen (by decide) (Nat.le_of_not_lt h) h3.2

/-- An access of unlisted offsets alone (10_state.md R21). -/
theorem regAccess_unlisted {offset size : Nat} (hs : 0 < size) (h : offset + size ≤ 0x28)
    (hn : ∀ k, offset ≤ k → k < offset + size → ¬ RegByte k) : regAccess offset size = .unlisted := by
  have : allRegs.filter (Reg.touched offset size) = [] := by
    rw [List.filter_eq_nil_iff]
    intro r hr ht
    obtain ⟨k, h1, h2, h3⟩ := (touched_iff hs).1 ⟨r, hr, ht⟩
    exact hn k h1 h2 h3
  rw [regAccess, if_neg (by omega), this]

/-- An access of a byte of a register that is no access of one whole register alone (log 12). -/
theorem regAccess_partOf {offset size : Nat} (h : offset + size ≤ 0x28)
    (hr : ∃ k, offset ≤ k ∧ k < offset + size ∧ RegByte k) (hw : (offset, size) ∉ allRegs.map Reg.place) :
    regAccess offset size = .partOf := by
  have hs : 0 < size := by
    obtain ⟨k, h1, h2, -⟩ := hr
    omega
  obtain ⟨r, hr, ht⟩ := (touched_iff hs).2 hr
  rw [regAccess, if_neg (by omega)]
  split
  · rename_i e
    exact absurd ht (by simpa using List.filter_eq_nil_iff.1 e r hr)
  · rename_i r' l e
    have hm : r' ∈ allRegs := (List.mem_filter.1 (e ▸ List.mem_cons_self ..)).1
    exact if_neg fun e' => hw (List.mem_map.2 ⟨r', hm, e'⟩)

end access

variable {s t : State}

/-- A step with the controller idle: nothing is pending, a command runs, a register or a byte of IN is written, an
access is ignored or refused IllegalCommand, or reset. -/
theorem step_idle_cases (hp : s.phase = phaseIdle) (hb : s.status.busy = false) (h : step s = .next t) :
    (s.inbox = [] ∧ t = s) ∨ ∃ a rest, s.inbox = a :: rest ∧
      ((∃ v i, a = .regWrite 0x00 1 v ∧ decodeCmd (v.setWidth 8) = .ok i ∧
          exec i { s with inbox := rest, cmd := v.setWidth 8 } = .next t) ∨
        (∃ v, a = .regWrite 0x00 1 v ∧ t = errorEntry (.illegalCommand (v.setWidth 8))
          (commandStart { s with inbox := rest, cmd := v.setWidth 8 })) ∨
        (∃ v, a = .regWrite 0x10 8 v ∧ t = { s with inbox := rest, inLen := v }) ∨
        (∃ offset size v, a = .regWrite offset size v ∧ t = { s with inbox := rest }) ∨
        (∃ i v, a = .inWrite i v ∧ i < s.par.inCap ∧ t = { s with inbox := rest, inMem := s.inMem.set i v }) ∨
        (a = .reset ∧ t = resetState { s with inbox := rest })) := by
  unfold step at h
  simp only [fetch, if_pos hp] at h
  cases hi : s.inbox with
  | nil =>
    rw [hi] at h
    cases h
    exact .inl ⟨rfl, rfl⟩
  | cons a rest =>
    rw [hi] at h
    refine .inr ⟨a, rest, rfl, ?_⟩
    cases a with
    | reset =>
      cases h
      exact .inr (.inr (.inr (.inr (.inr ⟨rfl, rfl⟩))))
    | inWrite i v =>
      by_cases hlt : i < s.par.inCap
      · simp only [fetchAccess, if_pos hlt] at h
        cases h
        exact .inr (.inr (.inr (.inr (.inl ⟨i, v, rfl, hlt, rfl⟩))))
      · simp only [fetchAccess, if_neg hlt] at h
        cases h
    | regWrite offset size v =>
      simp only [fetchAccess] at h
      cases hr : regAccess offset size with
      | unlisted =>
        rw [hr] at h
        cases h
        exact .inr (.inr (.inr (.inl ⟨offset, size, v, rfl, rfl⟩)))
      | partOf => rw [hr] at h; cases h
      | beyond => rw [hr] at h; cases h
      | whole r =>
        rw [hr] at h
        have hplace : r.place = (offset, size) := by
          unfold regAccess at hr
          split at hr
          · cases hr
          · split at hr
            · cases hr
            · split at hr
              · rename_i hpl
                cases hr
                exact hpl
              · cases hr
        cases r with
        | cmd =>
          cases hplace
          simp only [fetchRegWrite, fetchCommand, hb, Bool.false_eq_true, if_false] at h
          cases hd : decodeCmd (v.setWidth 8) with
          | ok i =>
            rw [hd] at h
            exact .inl ⟨v, i, rfl, hd, h⟩
          | error e =>
            rw [hd] at h
            cases h
            exact .inr (.inl ⟨v, rfl, rfl⟩)
        | inLen =>
          cases hplace
          cases h
          exact .inr (.inr (.inl ⟨v, rfl, rfl⟩))
        | status => cases h; exact .inr (.inr (.inr (.inl ⟨offset, size, v, rfl, rfl⟩)))
        | errcode => cases h; exact .inr (.inr (.inr (.inl ⟨offset, size, v, rfl, rfl⟩)))
        | errinfo => cases h; exact .inr (.inr (.inr (.inl ⟨offset, size, v, rfl, rfl⟩)))
        | outLen => cases h; exact .inr (.inr (.inr (.inl ⟨offset, size, v, rfl, rfl⟩)))
        | phase => cases h; exact .inr (.inr (.inr (.inl ⟨offset, size, v, rfl, rfl⟩)))

/-- ENCODE of an idle engine: refused, or run (45_orchestration.md R200, R202). -/
theorem execEncode_cases (hb : s.status.busy = false) :
    (s.par.lmax.val < s.inLen.toNat ∧ execEncode s = .next (errorEntry .inputTooLong (commandStart s))) ∨
      s.inLen.toNat ≤ s.par.lmax.val ∧ ∃ t len, execEncode s = .next t ∧ EncodeRun (commandStart s) t len := by
  by_cases h : s.inLen.toNat ≤ s.par.lmax.val
  · obtain ⟨t, len, h1, h2⟩ := encodeProgram_run (commandStart s) (Memory.filter_lt_zero _) h
    refine .inr ⟨h, t, len, ?_, h2⟩
    simpa only [execEncode, hb, Bool.false_eq_true, if_false] using h1
  · refine .inl ⟨by omega, ?_⟩
    simp only [execEncode, hb, Bool.false_eq_true, if_false, encodeProgram, refusalEntry]
    rw [if_pos (by rw [commandStart_inLen, commandStart_par]; omega)]

/-- DECODE of an idle engine ends (45_orchestration.md R210, R236). -/
theorem execDecode_ends (hb : s.status.busy = false) : DecodeEnds (commandStart s) (execDecode s) := by
  simp only [execDecode, hb, Bool.false_eq_true, if_false]
  exact decodeProgram_ends _

end Sys2Proof.Machine
end

