-- ==== Sys2Proof/Tests/Slice0.lean ====
section
/-! SUPPORT. The model's own tests, with expected values from 95_test_vectors.md (the vector's name stands with each),
and for each statement with hypotheses a state that meets them. -/

namespace Sys2Proof.Tests

set_option Elab.async false

open Sys2Proof.Machine

/-! ### Helpers -/

/-- The next state of an outcome. -/
def nextOf : Outcome → Option State
  | .next s => some s
  | .fault _ => none
  | .refused _ => none

theorem next_of {o : Outcome} {p : State → Bool} (h : (nextOf o).any p = true) : ∃ t, o = .next t ∧ p t = true := by
  cases o with
  | next t => exact ⟨t, rfl, h⟩
  | fault f => cases h
  | refused r => cases h

/-- Bytes from numbers. -/
def bytes (l : List Nat) : List Byte := l.map (BitVec.ofNat 8)

/-- A bit-string from 0s and 1s. -/
def bits (l : List Nat) : BitStr := l.map (· == 1)

/-- The reset state with an input in IN. -/
def given (bs : List Byte) : State :=
  { State.reset with inMem := Memory.setBytes [] 0 bs, inLen := BitVec.ofNat 64 bs.length }

/-- The same with the least `LMAX` (IN and OUT have 531 bytes). -/
def tiny (bs : List Byte) : State := { given bs with par := { Config.default with lmax := 0 } }

/-- A table with these entries, `d` elsewhere. -/
def table {α : Type} (d : α) (l : List (Byte × α)) : Vector α 256 :=
  l.foldl (fun t e => tabSet t e.1 e.2) (Vector.replicate 256 d)

/-- The reset state with a length table. -/
def lengths (l : List (Byte × Nat)) : State := { State.reset with len := table 0 l }

/-- The reset state with counters. -/
def counts (l : List (Byte × Nat)) : State := { State.reset with freq := table 0 l }

/-- The reset state with a code table. -/
def codes (l : List (Byte × BitStr)) : State :=
  { State.reset with code := table none (l.map fun e => (e.1, some e.2)), len := table 0 (l.map fun e => (e.1, e.2.length)) }

/-- The reset state with a reader attached and a decoder table. -/
def reading (dtab : List (BitStr × Byte)) (buf : List Nat) (limit : Nat) : State :=
  { State.reset with dtab := dtab, brBuf := bytes buf, brLimit := limit }

/-- The reset state with a payload to unpack. -/
def packed (dtab : List (BitStr × Byte)) (buf : List Nat) (bitcount origlen : Nat) : State :=
  { State.reset with dtab := dtab, cPayload := bytes buf, cBitcount := bitcount, cOriglen := origlen }

/-- The reset state with container fields. -/
def fields (origlen : Nat) (tab : List (Byte × Byte)) (bitcount : Nat) (payload : List Nat) : State :=
  { State.reset with
    cOriglen := origlen, cNsym := tab.length, cTab := tab, cBitcount := bitcount, cPayload := bytes payload }

/-- The reset state in a phase of the command in `CMD`. -/
def inPhase (cmd phase : Byte) : State := { State.reset with cmd := cmd, phase := phase }

/-- The reset state with one access pending. -/
def pending (a : HostAction) : State := { State.reset with inbox := [a] }

/-- The result bytes. -/
def outBytes (s : State) : List (Option Byte) := (List.range s.outLen.toNat).map s.outMem.get?

/-- The command ended without error and with these bytes. -/
def endsWith (bs : List Byte) (s : State) : Bool :=
  decide (s.status.word = 0x02#8 ∧ s.errcode = 0x00#8 ∧ s.errinfo = 0x00#8 ∧ s.phase = 0x00#8 ∧
    outBytes s = bs.map some)

/-- The command ended with this error. -/
def fails (code info : Nat) (s : State) : Bool :=
  decide (s.status.word = 0x06#8 ∧ s.errcode.toNat = code ∧ s.errinfo.toNat = info ∧ s.phase = 0x00#8 ∧ s.outLen = 0)

/-- Vector V1: its input and its artifact. -/
def v1In : List Byte := bytes [0x61, 0x61, 0x61, 0x62, 0x62, 0x63]
def v1 : List Byte := bytes [0x48, 0x55, 0x46, 0x4D, 1, 0, 0, 0, 0, 0, 0, 0, 6, 0, 3, 0x61, 1, 0x62, 2, 0x63, 2] ++
  bytes [0, 0, 0, 9, 0x15, 0x80]

/-- Vectors V2 and V3. -/
def v2 : List Byte := bytes [0x48, 0x55, 0x46, 0x4D, 1, 0, 0, 0, 0, 0, 0, 0, 0, 0, 0, 0, 0, 0, 0]
def v3 : List Byte := bytes [0x48, 0x55, 0x46, 0x4D, 1, 0, 0, 0, 0, 0, 0, 0, 1, 0, 1, 0x41, 1, 0, 0, 0, 1, 0]

/-- V1's artifact with one byte changed. -/
def v1With (k v : Nat) : List Byte := v1.set k (BitVec.ofNat 8 v)

/-- The decoder tables W1 and K7. -/
def w1 : List (BitStr × Byte) := [(bits [0], 0x61#8), (bits [1, 0], 0x62#8), (bits [1, 1], 0x63#8)]
def k7 : List (BitStr × Byte) := [(bits [0], 0x41#8), (bits [1, 0], 0x42#8), (bits [1, 1, 0], 0x43#8)]

/-! ### WellFormed: each check refuses -/

theorem test_wf_refuses_no_bits : Instr.wf (.bwWcode []) = false := by decide
theorem test_wf_refuses_256_bits : Instr.wf (.bwWcode (List.replicate 256 true)) = false := by decide +kernel
theorem test_wf_refuses_limit : Instr.wf (.brInit [] (2 ^ 32)) = false := by decide
theorem test_wf_accepts : Instr.wf (.bwWcode (List.replicate 255 true)) = true ∧ Instr.wf (.brInit [] (2 ^ 32 - 1)) = true ∧
    Instr.wf (.bwWcode [false]) = true := by decide +kernel

/-! ### Decode: every code, bit by bit as 30_encoding.md R90 and R91 write it -/

theorem test_decode_commands : decodeCmd 0b00000001#8 = .ok .encode ∧ decodeCmd 0b00000010#8 = .ok .decode := by decide
theorem test_decode_builder : decodeUop 0b00000001#8 .zero = .ok .fcount ∧ decodeUop 0b00000010#8 .zero = .ok .tbInit ∧
    decodeUop 0b00000011#8 .zero = .ok .tbMerge ∧ decodeUop 0b00000100#8 .zero = .ok .tbFix1 := by decide
theorem test_decode_assigner : decodeUop 0b00000101#8 .zero = .ok .walk ∧ decodeUop 0b00000110#8 .zero = .ok .canon ∧
    decodeUop 0b00001101#8 .zero = .ok .dtBuild := by decide
theorem test_decode_writer : decodeUop 0b00000111#8 .zero = .ok .bwReset ∧
    decodeUop 0b00001000#8 ⟨true, [false], [], 0⟩ = .ok (.bwWbit true) ∧
    decodeUop 0b00001001#8 ⟨false, [true, false], [], 0⟩ = .ok (.bwWcode [true, false]) ∧
    decodeUop 0b00001010#8 .zero = .ok .bwFinish := by decide
theorem test_decode_reader : decodeUop 0b00001110#8 ⟨false, [false], [0x15#8], 8⟩ = .ok (.brInit [0x15#8] 8) ∧
    decodeUop 0b00001111#8 .zero = .ok .brRbit ∧ decodeUop 0b00010000#8 .zero = .ok .decsym := by decide
theorem test_decode_container : decodeUop 0b00001011#8 .zero = .ok .serialize ∧
    decodeUop 0b00001100#8 .zero = .ok .deserialize := by decide
theorem test_decode_controller : decodeUop 0b00000000#8 .zero = .ok .idle ∧ decodeUop 0b00010001#8 .zero = .ok .pack ∧
    decodeUop 0b00010010#8 .zero = .ok .unpack := by decide
theorem test_decode_rejects : decodeCmd 0x00#8 = .error (.illegalCommand 0x00#8) ∧
    decodeCmd 0xFF#8 = .error (.illegalCommand 0xFF#8) ∧ decodeUop 0x13#8 .zero = .error (.illegalPhase 0x13#8) ∧
    decodeUop 0x09#8 ⟨false, [], [], 0⟩ = .error .badCode ∧ decodeUop 0x0E#8 ⟨false, [], [], 2 ^ 32⟩ = .error .badLimit := by
  decide
theorem test_table_word_placed : ∀ w ∈ List.range 19, (decodeTableWord 8 w).isSome = true ∧
    (nextOf (step (State.reset.withFetchWord 8 w))).isSome = true := by decide +kernel

/-! ### Instructions -/

/-- V1. -/
theorem test_encode : (nextOf (exec .encode (given v1In))).any (endsWith v1) = true := by decide +kernel
/-- V2. -/
theorem test_encode_empty : (nextOf (exec .encode (given []))).any (endsWith v2) = true := by decide +kernel
/-- V1, back. -/
theorem test_decode : (nextOf (exec .decode (given v1))).any (endsWith v1In) = true := by decide +kernel
/-- X1. -/
theorem test_decode_short : (nextOf (exec .decode (given []))).any (fails 1 1) = true := by decide +kernel
/-- 10_state.md R22. -/
theorem test_idle : exec .idle (given v1In) = .next (given v1In) := rfl
/-- F2. -/
theorem test_fcount : (nextOf (exec .fcount (given v1In))).map
    (fun s => [0x60#8, 0x61#8, 0x62#8, 0x63#8, 0x64#8].map (tab s.freq)) = some [0, 3, 2, 1, 0] := by decide +kernel
/-- T1. -/
theorem test_tbInit : (nextOf (exec .tbInit (counts [(0x61#8, 3), (0x62#8, 2), (0x63#8, 1)]))).map
    (fun s => (s.nsym, s.ncount, s.pq, (List.range 3).map s.nodeAt)) =
      some (3, 3, [0, 1, 2], [.leaf 3 0x61#8, .leaf 2 0x62#8, .leaf 1 0x63#8]) := by decide +kernel
/-- T8: internal nodes wait behind leaves of their frequency. -/
theorem test_tbMerge : (nextOf (execAll [.tbInit, .tbMerge]
      (counts [(0x61#8, 1), (0x62#8, 1), (0x63#8, 2), (0x64#8, 2)]))).map
    (fun s => (s.root, s.ncount, [4, 5, 6].map s.nodeAt)) =
      some (6, 7, [.inner 2 0 (some 1), .inner 4 2 (some 3), .inner 6 4 (some 5)]) := by decide +kernel
/-- T5: the lower-frequency leaf is the left child. -/
theorem test_tbMerge_left : (nextOf (execAll [.tbInit, .tbMerge] (counts [(0x61#8, 2), (0x62#8, 1)]))).map
    (fun s => (s.root, s.nodeAt 2)) = some (2, .inner 3 1 (some 0)) := by decide +kernel
/-- T2. -/
theorem test_tbFix1 : (nextOf (execAll [.tbInit, .tbMerge, .tbFix1] (counts [(0x41#8, 1)]))).map
    (fun s => (s.root, s.ncount, s.nodeAt 1)) = some (1, 2, .inner 1 0 none) := by decide +kernel
/-- W1. -/
theorem test_walk : (nextOf (execAll [.tbInit, .tbMerge, .tbFix1, .walk]
      (counts [(0x61#8, 3), (0x62#8, 2), (0x63#8, 1)]))).map
    (fun s => ([0x61#8, 0x62#8, 0x63#8, 0x64#8].map (tab s.rawcode), [0x61#8, 0x62#8, 0x63#8, 0x64#8].map (tab s.len))) =
      some ([some (bits [0]), some (bits [1, 1]), some (bits [1, 0]), none], [1, 2, 2, 0]) := by decide +kernel
/-- K6: a shift by 2. -/
theorem test_canon : (nextOf (exec .canon
      (lengths [(0x41#8, 1), (0x42#8, 3), (0x43#8, 3), (0x44#8, 3), (0x45#8, 3)]))).map
    (fun s => [0x41#8, 0x42#8, 0x45#8, 0x46#8].map (tab s.code)) =
      some [some (bits [0]), some (bits [1, 0, 0]), some (bits [1, 1, 1]), none] := by decide +kernel
/-- K12. -/
theorem test_canon_raises : (nextOf (exec .canon (lengths [(0x61#8, 1), (0x62#8, 1), (0x63#8, 2)]))).any
    (fails 1 9) = true := by decide +kernel
/-- BW1 and BW3 and BW4. -/
theorem test_bwReset : (nextOf (exec .bwReset (reading [] [1] 1))).map State.writer = some ([], 0) := by decide +kernel
theorem test_bwWbit : (nextOf (exec (.bwWbit true) State.reset)).map State.writer = some (bytes [0x80], 1) ∧
    (nextOf (exec (.bwWbit false) State.reset)).map State.writer = some (bytes [0], 1) := by decide +kernel
/-- BW7 and BW8: the ninth bit opens a byte. -/
theorem test_bwWbit_opens :
    (nextOf (exec (.bwWbit true) (State.reset.withWriter (bytes [0xFF], 8)))).map State.writer =
      some (bytes [0xFF, 0x80], 9) ∧
    (nextOf (exec (.bwWbit false) (State.reset.withWriter (bytes [0xFF], 8)))).map State.writer =
      some (bytes [0xFF, 0x00], 9) := by decide +kernel
/-- BW10: a code over a byte boundary. -/
theorem test_bwWcode : (nextOf (exec (.bwWcode [true, true]) (State.reset.withWriter (bytes [0x14], 7)))).map
    State.writer = some (bytes [0x15, 0x80], 9) := by decide +kernel
/-- BW12. -/
theorem test_bwFinish : (nextOf (exec .bwFinish (State.reset.withWriter (bytes [0x15, 0x80], 9)))).map (·.result) =
    some (.buffer (bytes [0x15, 0x80]) 9) := by decide +kernel
/-- C2. -/
theorem test_serialize : (nextOf (exec .serialize
      (fields 6 [(0x61#8, 1#8), (0x62#8, 2#8), (0x63#8, 2#8)] 9 [0x15, 0x80]))).map
    (fun s => ((List.range 27).map s.outMem.get?, s.result)) = some (v1.map some, .length 27) := by decide +kernel
/-- C2, back. -/
theorem test_deserialize : (nextOf (exec .deserialize (given v1))).any (fun s =>
    decide (s.cOriglen = 6 ∧ s.nsym = 3 ∧ s.cTab = [(0x61#8, 1#8), (0x62#8, 2#8), (0x63#8, 2#8)] ∧ s.cBitcount = 9 ∧
      s.cPayload = bytes [0x15, 0x80] ∧ [0x60#8, 0x61#8, 0x62#8].map (tab s.len) = [0, 1, 2])) = true := by
  decide +kernel
/-- X27: in an entry the length is tested before the order. -/
theorem test_deserialize_order : (nextOf (exec .deserialize (given ((v1With 17 0x61).set 18 0)))).any (fails 1 5) = true := by
  decide +kernel
/-- W1. -/
theorem test_dtBuild : (nextOf (exec .dtBuild
      (codes [(0x61#8, bits [0]), (0x62#8, bits [1, 0]), (0x63#8, bits [1, 1])]))).map (·.dtab) = some w1 := by
  decide +kernel
/-- BR1. -/
theorem test_brInit : (nextOf (exec (.brInit (bytes [0x15, 0x80]) 9) State.reset)).map
    (fun s => (s.brBuf, s.brLimit, s.brPos)) = some (bytes [0x15, 0x80], 9, 0) := by decide +kernel
/-- BR4. -/
theorem test_brRbit : (nextOf (exec .brRbit (reading [] [0x80] 1))).map (fun s => (s.result, s.brPos)) =
    some (.bit true, 1) := by decide +kernel
/-- BR6: the limit ends the stream, not the buffer. -/
theorem test_brRbit_limit : (nextOf (exec .brRbit { reading [] [0x15, 0x80] 8 with brPos := 8 })).map
    (fun s => (s.result, s.brPos)) = some (.endOfStream, 8) := by decide +kernel
/-- DS3. -/
theorem test_decsym : (nextOf (exec .decsym (reading w1 [0xC0] 2))).map (fun s => (s.result, s.brPos)) =
    some (.symbol 0x63#8, 2) := by decide +kernel
/-- DS7 and DS8: the end is tested before the bit is. -/
theorem test_decsym_raises : (nextOf (exec .decsym (reading k7 [0xE0] 3))).any (fails 1 0x0A) = true ∧
    (nextOf (exec .decsym (reading k7 [0xC0] 2))).any (fails 2 2) = true := by decide +kernel
/-- V1's packed stream. -/
theorem test_pack : (nextOf (exec .pack
      { codes [(0x61#8, bits [0]), (0x62#8, bits [1, 0]), (0x63#8, bits [1, 1])] with
        inMem := (given v1In).inMem, inLen := 6 })).map (·.result) = some (.buffer (bytes [0x15, 0x80]) 9) := by
  decide +kernel
/-- V1's packed stream, back. -/
theorem test_unpack : (nextOf (exec .unpack (packed w1 [0x15, 0x80] 9 6))).map
    (fun s => (List.range 6).map s.outMem.get?) = some (v1In.map some) := by decide +kernel
/-- X38. -/
theorem test_unpack_leftover : (nextOf (exec .unpack (packed w1 [0x15, 0x80] 16 6))).any (fails 1 0x0B) = true := by
  decide +kernel
/-- V22 and V24. -/
theorem test_illegal_command : (nextOf (step (pending (.regWrite 0 1 0)))).any (fails 0x10 0) = true ∧
    (nextOf (step (pending (.regWrite 0 1 0xFF)))).any (fails 0x10 0xFF) = true := by decide +kernel

/-! ### Witnesses: states that meet the hypotheses of each statement, clause by clause -/

theorem witness_ResetEvent : (pending .reset).phase = phaseIdle ∧ (pending .reset).inbox = .reset :: [] := ⟨rfl, rfl⟩

theorem witness_DecodeEncode : Instr.wf (.bwWcode (List.replicate 255 true)) = true ∧
    decode .uop 0x0E#8 ⟨false, [false], [], 2 ^ 32 - 1⟩ = .ok (.brInit [] (2 ^ 32 - 1)) := by decide +kernel

theorem witness_CommandStarts : (pending (.regWrite 0 1 1)).phase = phaseIdle ∧
    (pending (.regWrite 0 1 1)).status.busy = false ∧ (pending (.regWrite 0 1 1)).inbox = .regWrite 0x00 1 1 :: [] ∧
    decodeCmd ((1 : BitVec 64).setWidth 8) = .ok .encode := by decide

theorem witness_StepRunsUnit : (inPhase 1 1).phase ≠ phaseIdle ∧
    decodeUop (inPhase 1 1).phase (inPhase 1 1).call = .ok .fcount ∧ (∃ t, exec .fcount (inPhase 1 1) = .next t) ∧
    exec .fcount { tiny [] with inLen := 532 } = .fault .inAddress ∧ State.reset.phase = phaseIdle ∧
    State.reset.inbox = [] := by
  refine ⟨by decide, rfl, ?_, by rw [exec, execFcount, if_neg (by decide +kernel)], rfl, rfl⟩
  obtain ⟨t, h, -⟩ := next_of (o := exec .fcount (inPhase 1 1)) (p := fun _ => true) (by decide +kernel)
  exact ⟨t, h⟩

theorem witness_IllegalPhaseRefused : 0x13 ≤ (inPhase 1 0x13).phase.toNat ∧
    (∃ s : State, s.phase = 0x09#8 ∧ s.call.code = []) ∧ (∃ s : State, s.phase = 0x09#8 ∧ 255 < s.call.code.length) ∧
    ∃ s : State, s.phase = 0x0E#8 ∧ 2 ^ 32 ≤ s.call.limit :=
  ⟨by decide, ⟨{ inPhase 1 9 with call := ⟨false, [], [], 0⟩ }, rfl, rfl⟩,
    ⟨{ inPhase 1 9 with call := ⟨false, List.replicate 256 true, [], 0⟩ }, rfl, by decide +kernel⟩,
    ⟨{ inPhase 1 0x0E with call := ⟨false, [], [], 2 ^ 32⟩ }, rfl, by decide⟩⟩

theorem witness_PhaseOrder : (∀ p ∈ [0x01#8, 0x02#8, 0x03#8, 0x04#8, 0x05#8, 0x06#8, 0x11#8, 0x0B#8],
      (inPhase 0x01#8 p).cmd = 0x01#8 ∧ (inPhase 0x01#8 p).phase = p ∧ (inPhase 0x01#8 p).inLen = 0) ∧
    ({ inPhase 0x01#8 0x01#8 with inLen := 1 } : State).inLen ≠ 0 ∧
    (∀ p ∈ [0x0C#8, 0x06#8, 0x0D#8, 0x12#8], (inPhase 0x02#8 p).cmd = 0x02#8 ∧ (inPhase 0x02#8 p).phase = p ∧
      (inPhase 0x02#8 p).nsym = 0) ∧
    (∃ s : State, s.cmd = 0x02#8 ∧ s.phase = 0x0C#8 ∧ s.nsym ≠ 0 ∧ s.cOriglen = s.par.lmax.val) ∧
    ∃ s : State, s.cmd = 0x02#8 ∧ s.phase = 0x0C#8 ∧ s.nsym ≠ 0 ∧ s.cOriglen = s.par.lmax.val + 1 :=
  ⟨by decide, by decide, by decide, ⟨{ inPhase 2 0x0C with nsym := 1, cOriglen := 2 ^ 29 - 1 }, by decide⟩,
    ⟨{ inPhase 2 0x0C with nsym := 1, cOriglen := 2 ^ 29 }, by decide⟩⟩

theorem witness_IllegalCommand : ∀ v ∈ [(0 : BitVec 64), 3, 0xFF], (pending (.regWrite 0 1 v)).phase = phaseIdle ∧
    (pending (.regWrite 0 1 v)).status.busy = false ∧ (pending (.regWrite 0 1 v)).inbox = .regWrite 0x00 1 v :: [] ∧
    v.setWidth 8 ≠ 0x01#8 ∧ v.setWidth 8 ≠ 0x02#8 := by
  intro v hv
  simp only [List.mem_cons, List.not_mem_nil, or_false] at hv
  obtain rfl | rfl | rfl := hv <;> exact ⟨rfl, rfl, rfl, by decide, by decide⟩

/-- Each clause at an edge of its range: `IN_LEN`; `STATUS`; the bytes before `STATUS` and the last of REG; a busy
engine; half of `IN_LEN`; one byte past REG. -/
theorem witness_HostRegisterWrite : (∀ a ∈ [(0x10, 8), (0x04, 1), (0x01, 3), (0x21, 7), (0x00, 1), (0x10, 4), (0x27, 2)],
      (pending (.regWrite a.1 a.2 0)).phase = phaseIdle ∧
        (pending (.regWrite a.1 a.2 0)).inbox = .regWrite a.1 a.2 0 :: [] ∧ 0 < a.2) ∧
    (∀ k, k < 0x04 → 0x01 ≤ k → ¬ RegByte k) ∧ (∀ k, k < 0x28 → 0x21 ≤ k → ¬ RegByte k) ∧
    ({ pending (.regWrite 0 1 0) with status := ⟨true, false, false⟩ } : State).status.busy = true ∧
    (pending (.regWrite 0x10 8 0)).status.busy = false ∧
    RegByte 0x10 ∧ 0x28 < 0x27 + 2 := by
  unfold RegByte
  decide

/-- Offsets 5 to 7 alone, 4 bytes at 0, half of `IN_LEN`, and one byte past the end. -/
theorem witness_HostRegisterRead : State.reset.status.busy = false ∧ 0x05 + 3 ≤ 0x28 ∧
    (∀ k, k < 0x05 + 3 → 0x05 ≤ k → ¬ RegByte k) ∧ RegByte 0x00 ∧ RegByte 0x13 ∧
    (∀ p ∈ [(0x00, 4), (0x10, 4)],
      p ∉ [(0x00, 1), (0x04, 1), (0x08, 1), (0x0C, 1), (0x10, 8), (0x18, 8), (0x20, 1)] ∧ p.1 + p.2 ≤ 0x28) ∧
    0x28 < 0x27 + 2 := by
  unfold RegByte
  decide

theorem witness_HostBufferAccess : ∀ i ∈ [0, 2 ^ 29 + 529, 2 ^ 29 + 530], (pending (.inWrite i 1)).phase = phaseIdle ∧
    (pending (.inWrite i 1)).inbox = .inWrite i 1 :: [] ∧ Memory.wf (pending (.inWrite i 1)).inMem = true ∧
    (pending (.inWrite i 1)).status.busy = false ∧ (i < (pending (.inWrite i 1)).par.inCap ↔ i ≠ 2 ^ 29 + 530) := by decide

theorem witness_FcountCounts : ({ tiny [] with inLen := 531 } : State).inLen.toNat ≤ (tiny []).par.inCap := by decide

theorem witness_FcountSum : (∃ t, exec .fcount (given v1In) = .next t) ∧ ∃ t, exec .dtBuild State.reset = .next t := by
  refine ⟨?_, _, rfl⟩
  obtain ⟨t, h, -⟩ := next_of (o := exec .fcount (given v1In)) (p := fun _ => true) (by decide +kernel)
  exact ⟨t, h⟩

/-- T1 after TB_INIT: the first merge is of nodes 2 and 1. -/
def t1 : State :=
  { State.reset with
    node := (State.reset.node.set 0 (.leaf 3 0x61#8)).set 1 (.leaf 2 0x62#8) |>.set 2 (.leaf 1 0x63#8)
    ncount := 3, nsym := 3, pq := [0, 1, 2] }

theorem t1_queue : QueueOk t1 := by
  unfold QueueOk
  decide

theorem witness_TbMergePass : QueueOk t1 ∧ t1.ncount + (t1.pq.length - 1) ≤ 511 ∧ 2 ∈ t1.pq ∧ 1 ∈ t1.pq ∧ 2 ≠ 1 ∧
    (∀ j ∈ t1.pq, j ≠ 2 →
      (t1.nodeAt 2).freq < (t1.nodeAt j).freq ∨ ((t1.nodeAt 2).freq = (t1.nodeAt j).freq ∧ 2 < j)) ∧
    (∀ j ∈ t1.pq, j ≠ 2 → j ≠ 1 →
      (t1.nodeAt 1).freq < (t1.nodeAt j).freq ∨ ((t1.nodeAt 1).freq = (t1.nodeAt j).freq ∧ 1 < j)) ∧
    [0, 3].Pairwise (· < ·) ∧ ∀ i, i ∈ [0, 3] ↔ (i ∈ t1.pq ∧ i ≠ 2 ∧ i ≠ 1) ∨ i = t1.ncount := by
  refine ⟨t1_queue, by decide, by decide, by decide, by decide, by decide +kernel, by decide +kernel, by decide, ?_⟩
  intro i
  simp only [t1, List.mem_cons, List.not_mem_nil, or_false]
  omega

theorem witness_TbMergeEnds : ({ t1 with pq := [0] } : State).pq = [0] ∧ QueueOk t1 ∧ t1.pq ≠ [] ∧
    t1.ncount + (t1.pq.length - 1) ≤ 511 ∧ 2 ≤ t1.pq.length := ⟨rfl, t1_queue, by decide, by decide, by decide⟩

theorem witness_TbFix1 : ({ t1 with nsym := 1 } : State).nsym = 1 ∧ t1.nsym ≠ 1 := by decide

theorem witness_BuiltTree : ∃ b, 0 < tab (counts [(0x41#8, 1)]).freq b := ⟨0x41#8, by decide +kernel⟩

theorem witness_WalkPaths : TreeWithin State.reset.nodeAt State.reset.root 255 :=
  .leaf (f := 0) (sym := 0) (by decide +kernel)

theorem witness_WalkLengths : ∃ b, 0 < tab (counts [(0xFF#8, 1)]).freq b := ⟨0xFF#8, by decide +kernel⟩

/-- K10, whose Kraft sum is 1, and K11, above it. -/
theorem k10_kraft : kraftSum (tab (lengths [(0x41#8, 1), (0x42#8, 1)]).len) ≤ 1 :=
  (canonCodes_ok_iff _).1 (by decide +kernel)

theorem k11_kraft : 1 < kraftSum (tab (lengths [(0x41#8, 1), (0x42#8, 1), (0x43#8, 1)]).len) :=
  not_le.1 fun h => absurd ((canonCodes_ok_iff _).2 h) (by decide +kernel)

theorem witness_CanonAssigns : ∃ s : State, kraftSum (tab s.len) ≤ 1 ∧ CanonFirst (tab s.len) 0x41#8 ∧
    CanonNext (tab s.len) 0x41#8 0x42#8 := by
  have key : ∀ c, 0 < tab (lengths [(0x41#8, 1), (0x42#8, 1)]).len c → c = 0x41#8 ∨ c = 0x42#8 := by
    intro c hc
    by_contra hn
    rw [not_or] at hn
    simp [lengths, table, tab_tabSet_ne _ _ hn.1, tab_tabSet_ne _ _ hn.2] at hc
  have ha : tab (lengths [(0x41#8, 1), (0x42#8, 1)]).len 0x41#8 = 1 := by decide +kernel
  have hb : tab (lengths [(0x41#8, 1), (0x42#8, 1)]).len 0x42#8 = 1 := by decide +kernel
  refine ⟨lengths [(0x41#8, 1), (0x42#8, 1)], k10_kraft, ⟨by omega, fun c hc => ?_⟩, by omega, by omega, by decide, ?_,
    fun c hc => ?_⟩
  · rcases key c hc with rfl | rfl
    · exact .inr ⟨rfl, le_rfl⟩
    · exact .inr ⟨by omega, by decide⟩
  · exact .inr ⟨by omega, by decide⟩
  · rcases key c hc with rfl | rfl
    · exact .inl (.inr ⟨rfl, le_rfl⟩)
    · exact .inr (.inr ⟨rfl, le_rfl⟩)

theorem witness_CanonRaises : (∃ s : State, 1 < kraftSum (tab s.len)) ∧ ∃ s : State, kraftSum (tab s.len) ≤ 1 :=
  ⟨⟨_, k11_kraft⟩, ⟨_, k10_kraft⟩⟩

theorem witness_CanonPrefixFree : ∃ s s' : State, kraftSum (tab s.len) ≤ 1 ∧ tab s'.len = tab s.len ∧ s' ≠ s :=
  ⟨lengths [(0x41#8, 1), (0x42#8, 1)], { lengths [(0x41#8, 1), (0x42#8, 1)] with ncount := 1 }, k10_kraft, rfl,
    fun h => absurd (congrArg State.ncount h) (by decide)⟩

/-- BW6's writer: seven bits of the first byte written. -/
theorem witness_BwWbit : WriterOk (State.reset.withWriter (bytes [0xFE], 7)) ∧ WriterOk State.reset := by
  refine ⟨⟨by decide, fun k h1 h2 => ?_⟩, ⟨by decide, fun k _ h2 => absurd h2 (Nat.not_lt_zero _)⟩⟩
  have e : k = 7 := le_antisymm (Nat.le_of_lt_succ h2) h1
  subst e
  rfl

theorem witness_BwWcode : WriterOk (State.reset.withWriter (bytes [0xFE], 7)) ∧ bits [1] ≠ [] :=
  ⟨witness_BwWbit.1, by decide⟩

theorem witness_BwFinish : WriterOk (State.reset.withWriter (bytes [0xFE], 7)) := witness_BwWbit.1

theorem witness_BrRbit : State.reset.brLimit ≤ State.reset.brPos ∧
    (reading [] [0x80] 1).brPos / 8 < (reading [] [0x80] 1).brBuf.length ∧
    (reading [] [0x80] 1).brPos < (reading [] [0x80] 1).brLimit := by decide

/-- C2's fields. -/
def c2 : State := fields 6 [(0x61#8, 1#8), (0x62#8, 2#8), (0x63#8, 2#8)] 9 [0x15, 0x80]

theorem witness_SerializeLayout : c2.cNsym = c2.cTab.length ∧ 19 + 2 * c2.cNsym + c2.cPayload.length ≤ c2.par.outCap ∧
    Memory.wf c2.outMem = true := by decide

theorem v1_tag : TagOk (given v1) := by
  unfold TagOk
  decide +kernel

/-- X2 (3 bytes), X15, X3 (4 bytes), X18, X7 (14 bytes), X21. -/
theorem witness_DeserializeHeader : (given (v1.take 3)).inLen.toNat < 4 ∧
    (4 ≤ (given (v1With 0 0x49)).inLen.toNat ∧
      (given (v1With 0 0x49)).inByte 0 ≠ (given (v1With 0 0x49)).par.magic[0]) ∧
    ((given (v1.take 4)).inLen.toNat = 4 ∧
      ∀ i (h : i < 4), (given (v1.take 4)).inByte i = (given (v1.take 4)).par.magic[i]) ∧
    (5 ≤ (given (v1With 4 2)).inLen.toNat ∧
      (∀ i (h : i < 4), (given (v1With 4 2)).inByte i = (given (v1With 4 2)).par.magic[i]) ∧
      (given (v1With 4 2)).inByte 4 ≠ (given (v1With 4 2)).par.version) ∧
    (5 ≤ (given (v1.take 14)).inLen.toNat ∧ (given (v1.take 14)).inLen.toNat < 15 ∧ TagOk (given (v1.take 14))) ∧
    15 ≤ (given ((v1With 13 1).set 14 1)).inLen.toNat ∧ TagOk (given ((v1With 13 1).set 14 1)) ∧
    256 < (given ((v1With 13 1).set 14 1)).countField := by
  unfold TagOk
  decide +kernel

/-- X8, X24, X25. -/
theorem witness_DeserializeTable : (15 ≤ (given (v1.take 15)).inLen.toNat ∧ TagOk (given (v1.take 15)) ∧
      (given (v1.take 15)).countField ≤ 256 ∧
      (given (v1.take 15)).inLen.toNat < 15 + 2 * (given (v1.take 15)).countField) ∧
    (TagOk (given (v1With 18 0)) ∧ 15 + 2 * (given (v1With 18 0)).countField ≤ (given (v1With 18 0)).inLen.toNat ∧
      1 < (given (v1With 18 0)).countField ∧ (∀ j, j < 1 → EntryOk (given (v1With 18 0)) j) ∧
      (given (v1With 18 0)).inByte (16 + 2 * 1) = 0x00#8) ∧
    TagOk (given (v1With 17 0x61)) ∧
    15 + 2 * (given (v1With 17 0x61)).countField ≤ (given (v1With 17 0x61)).inLen.toNat ∧
    (∀ j, j < 1 → EntryOk (given (v1With 17 0x61)) j) ∧ (given (v1With 17 0x61)).inByte (16 + 2 * 1) ≠ 0x00#8 ∧
    ((given (v1With 17 0x61)).inByte (15 + 2 * 1)).toNat ≤ ((given (v1With 17 0x61)).inByte (13 + 2 * 1)).toNat := by
  unfold TagOk EntryOk
  decide +kernel

/-- What the checks before the payload need. -/
abbrev TableRead (s : State) : Prop :=
  15 + 2 * s.countField ≤ s.inLen.toNat ∧ ((∀ i (h : i < 4), s.inByte i = s.par.magic[i]) ∧ s.inByte 4 = s.par.version) ∧
    s.countField ≤ 256 ∧ ∀ i, i < s.countField → (s.inByte (16 + 2 * i) ≠ 0x00#8 ∧
      (0 < i → (s.inByte (13 + 2 * i)).toNat < (s.inByte (15 + 2 * i)).toNat))

/-- Where the container of IN ends by its own fields. -/
def ends (s : State) : Nat := 19 + 2 * s.countField + ceil8 (s.bitField s.countField)

/-- X10, X13, X29, X35 and X50. -/
theorem witness_DeserializePayload : ∃ a b c d e : State, (TableRead a ∧ a.inLen.toNat < 19 + 2 * a.countField) ∧
    (TableRead b ∧ 19 + 2 * b.countField ≤ b.inLen.toNat ∧ b.inLen.toNat < ends b) ∧
    (TableRead c ∧ ends c < c.inLen.toNat) ∧
    (TableRead d ∧ d.inLen.toNat = ends d ∧ d.inLen.toNat ≤ d.par.inCap ∧ 0 < d.countField ∧ d.origField = 0) ∧
    TableRead e ∧ e.inLen.toNat = ends e ∧ e.inLen.toNat ≤ e.par.inCap ∧ e.countField = 0 ∧ e.origField ≠ 0 :=
  ⟨given (v1.take 21), given (v1.take 26), given (v1 ++ [0]), given (v1With 12 0), given (v2.set 12 1),
    by decide +kernel, by decide +kernel, by decide +kernel, by decide +kernel, by decide +kernel⟩

/-- C2 and C1. -/
theorem witness_DeserializeAccepts : ∀ s ∈ [given v1, given v2], TableRead s ∧
    s.inLen.toNat = 19 + 2 * s.countField + ceil8 (s.bitField s.countField) ∧ s.inLen.toNat ≤ s.par.inCap ∧
    (s.countField = 0 ↔ s.origField = 0) ∧ (s.countField = 0 → s.bitField s.countField = 0) := by decide +kernel

theorem c2_ok : FieldsOk c2 :=
  ⟨by decide +kernel, rfl, by decide, by decide, by simp [c2, fields], by decide +kernel, rfl, by decide, by decide⟩

theorem witness_InverseLaw : FieldsOk c2 ∧ 19 + 2 * c2.cNsym + c2.cPayload.length ≤ c2.par.outCap ∧
    Memory.wf c2.outMem = true ∧
    (∃ t, exec .serialize c2 = .next t ∧ (given v1).par = c2.par ∧
      ∀ i, i < (given v1).inLen.toNat → (given v1).inByte i = t.outByte i) ∧
    (given []).status.busy = false ∧ (given []).inLen.toNat ≤ (given []).par.lmax.val ∧
    ∃ t, exec .encode (given []) = .next t ∧ (given v2).inLen = t.outLen ∧
      ∀ i, i < (given v2).inLen.toNat → (given v2).inByte i = t.outByte i := by
  refine ⟨c2_ok, by decide, by decide, ?_, rfl, by decide, ?_⟩
  · obtain ⟨t, h, ht⟩ := next_of (o := exec .serialize c2) (p := fun t => decide
      (∀ i, i < (given v1).inLen.toNat → (given v1).inByte i = t.outByte i)) (by decide +kernel)
    exact ⟨t, h, rfl, of_decide_eq_true ht⟩
  · obtain ⟨t, h, ht⟩ := next_of (o := exec .encode (given [])) (p := fun t => decide
      ((given v2).inLen = t.outLen ∧ ∀ i, i < (given v2).inLen.toNat → (given v2).inByte i = t.outByte i))
      (by decide +kernel)
    exact ⟨t, h, of_decide_eq_true ht⟩

/-- V3 before PACK. -/
def v3Coded : State := { codes [(0x41#8, [false])] with inMem := [(0, 0x41#8)], inLen := 1 }

theorem witness_Pack : v3Coded.inLen.toNat ≤ v3Coded.par.inCap ∧ ∀ b ∈ v3Coded.input, (tab v3Coded.code b).isSome := by
  decide +kernel

theorem w1_ok : TableOk w1 ∧ TableOk k7 := by
  unfold TableOk
  decide

/-- DS2, DS5 and DS7. -/
theorem witness_Decsym : (ReaderOk (reading w1 [0x80] 2) ∧ TableOk (reading w1 [0x80] 2).dtab ∧
      (bits [1, 0], 0x62#8) ∈ w1 ∧ (reading w1 [0x80] 2).unread = bits [1, 0] ++ []) ∧
    (ReaderOk (reading w1 [0x80] 1) ∧
      ∀ p, p ≠ [] → p <+: (reading w1 [0x80] 1).unread → ReadsOn (reading w1 [0x80] 1).dtab p) ∧
    ReaderOk (reading k7 [0xE0] 3) ∧ TableOk (reading k7 [0xE0] 3).dtab ∧
    (reading k7 [0xE0] 3).unread = bits [1, 1] ++ true :: [] ∧
    (∀ p, p ≠ [] → p <+: bits [1, 1] → ReadsOn k7 p) ∧ ∀ e ∈ k7, ¬ bits [1, 1] ++ [true] <+: e.1 := by
  unfold ReaderOk ReadsOn
  refine ⟨⟨by decide, w1_ok.1, by decide, by decide⟩, ⟨by decide, fun p hp hpre => ?_⟩, by decide, w1_ok.2, by decide,
    fun p hp hpre => ?_, by decide⟩
  · have h : (reading w1 [0x80] 1).unread = [true] := by decide
    rw [h] at hpre
    obtain rfl | rfl : p = [] ∨ p = [true] := by simpa using (List.mem_inits _ _).2 hpre
    · exact absurd rfl hp
    · decide
  · obtain rfl | rfl | rfl : p = [] ∨ p = [true] ∨ p = [true, true] := by
      simpa [bits] using (List.mem_inits _ _).2 hpre
    · exact absurd rfl hp
    · decide
    · decide

/-- The bits `'0' '10'` as two symbols of W1. -/
theorem witness_UnpackWrites : TableOk (packed w1 [0x40] 3 2).dtab ∧
    (packed w1 [0x40] 3 2).cPayload.length = ceil8 (packed w1 [0x40] 3 2).cBitcount ∧
    (packed w1 [0x40] 3 2).cOriglen ≤ (packed w1 [0x40] 3 2).par.outCap ∧
    Memory.wf (packed w1 [0x40] 3 2).outMem = true ∧ (∀ e ∈ w1.take 2, e ∈ (packed w1 [0x40] 3 2).dtab) ∧
    (w1.take 2).length = (packed w1 [0x40] 3 2).cOriglen ∧
    streamBits (packed w1 [0x40] 3 2).cPayload 0 3 = (w1.take 2).flatMap (·.1) :=
  ⟨w1_ok.1, by decide, by decide, by decide, by decide, by decide, by decide⟩

/-- One symbol of K7 and then: bits left over, the end of the stream, bits that lead nowhere. -/
theorem witness_UnpackStops : TableOk k7 ∧
    (streamBits (bytes [0x00]) 0 2 = (k7.take 1).flatMap (·.1) ++ [false] ∧ (k7.take 1).length = 1) ∧
    (streamBits (bytes [0x40]) 0 2 = (k7.take 1).flatMap (·.1) ++ [true] ∧
      ∀ p, p ≠ [] → p <+: [true] → ReadsOn k7 p) ∧
    streamBits (bytes [0x70]) 0 4 = (k7.take 1).flatMap (·.1) ++ (bits [1, 1] ++ true :: []) ∧
    (∀ e ∈ k7, ¬ bits [1, 1] ++ [true] <+: e.1) ∧
    ∀ s ∈ [packed k7 [0x00] 2 1, packed k7 [0x40] 2 2, packed k7 [0x70] 4 2],
      s.cPayload.length = ceil8 s.cBitcount ∧ s.cOriglen ≤ s.par.outCap ∧ ∀ e ∈ k7.take 1, e ∈ s.dtab := by
  refine ⟨w1_ok.2, by decide, ⟨by decide, fun p hp hpre => ?_⟩, by decide, by decide, by decide⟩
  obtain rfl | rfl : p = [] ∨ p = [true] := by simpa using (List.mem_inits _ _).2 hpre
  · exact absurd rfl hp
  · unfold ReadsOn
    decide

theorem witness_OpenValuesGoOn : State.reset.pq = [] ∧ (reading [] [] 1).brPos < (reading [] [] 1).brLimit ∧
    (reading [] [] 1).brBuf.length ≤ (reading [] [] 1).brPos / 8 ∧ (given v1In).inLen.toNat ≤ (given v1In).par.inCap ∧
    19 + 2 * ({ c2 with cTab := [] } : State).cNsym + c2.cPayload.length ≤ c2.par.outCap := by decide

/-- A chain of inner nodes that leads back to itself has no leaf. -/
def looped : State := { State.reset with node := State.reset.node.set 0 (.inner 0 0 none) }

theorem looped_within {i d : Nat} (h : TreeWithin looped.nodeAt i d) : i ≠ 0 := by
  have e : looped.nodeAt 0 = .inner 0 0 none := by decide +kernel
  induction h with
  | leaf hn => rintro rfl; rw [e] at hn; cases hn
  | one hn _ ih => rintro rfl; rw [e] at hn; cases hn; exact ih rfl
  | two hn _ _ _ _ => rintro rfl; rw [e] at hn; cases hn

/-- An artifact of 532 bytes, one more than the least IN holds: no entries, 513 payload bytes. -/
def longInput : State :=
  { tiny v2 with inMem := (given ((v2.set 17 0x10).set 18 0x08)).inMem, inLen := 532 }

/-- Each clause just past the edge. -/
theorem witness_AbsentAccessStops : ({ tiny [] with inLen := 532 } : State).par.inCap < 532 ∧
    (tiny []).par.outCap < 19 + 2 * 0 + (List.replicate 513 (0 : Byte)).length ∧
    (1 < ({ t1 with ncount := 510 } : State).pq.length ∧
      511 < ({ t1 with ncount := 510 } : State).ncount + (({ t1 with ncount := 510 } : State).pq.length - 1)) ∧
    ¬ TreeWithin looped.nodeAt looped.root 255 ∧
    (State.reset.withWriter ([], 8)).bwBuf.length < (State.reset.withWriter ([], 8)).bwNbits / 8 ∧
    (State.reset.withWriter ([], 7)).bwNbits % 8 ≠ 0 ∧
    (TableRead longInput ∧ longInput.inLen.toNat = ends longInput ∧ longInput.par.inCap < longInput.inLen.toNat) ∧
    TableOk [(bits [0], 0x41#8)] ∧ (List.replicate 67 (0 : Byte)).length = ceil8 532 ∧
    streamBits (List.replicate 67 0) 0 532 = (List.replicate 532 (bits [0], (0x41#8 : Byte))).flatMap (·.1) ++ [] ∧
    (List.replicate 532 (bits [0], (0x41#8 : Byte))).length = (tiny []).par.outCap + 1 := by
  refine ⟨by decide, by decide +kernel, by decide, fun h => looped_within h rfl, by decide, by decide, by decide +kernel,
    ?_, by decide +kernel, by decide +kernel, by decide +kernel⟩
  unfold TableOk
  decide

/-- Each operation that can raise, raising and not (K11, K10; X1, C2; DS5, DS2; X38, V1), and SERIALIZE. -/
theorem witness_UnitFrame : Instr.idle ∉ [Instr.encode, .decode, .canon, .serialize, .deserialize, .decsym, .unpack] ∧
    ∀ e ∈ [(Instr.idle, State.reset), (.canon, lengths [(0x41#8, 1), (0x42#8, 1), (0x43#8, 1)]),
      (.canon, lengths [(0x41#8, 1), (0x42#8, 1)]), (.deserialize, given []), (.deserialize, given v1),
      (.decsym, reading w1 [0x80] 1), (.decsym, reading w1 [0x80] 2), (.serialize, c2),
      (.unpack, packed w1 [0x15, 0x80] 16 6), (.unpack, packed w1 [0x15, 0x80] 9 6)],
      (nextOf (exec e.1 e.2)).isSome = true := by
  simp only [List.forall_mem_cons]
  decide +kernel

theorem witness_InputFrame : exec .idle State.reset = .next State.reset := rfl

/-- `LMAX = 0` and one byte, and the empty input. -/
theorem witness_EncodeFunction : (tiny [0x41#8]).status.busy = false ∧
    (tiny [0x41#8]).par.lmax.val < (tiny [0x41#8]).inLen.toNat ∧ (tiny []).status.busy = false ∧
    (tiny []).inLen.toNat ≤ (tiny []).par.lmax.val ∧ (tiny []).input = [] ∧ (given v1In).input ≠ [] := by
  decide +kernel

/-- One symbol, and three. -/
theorem witness_EncodeSize : (given [0x41#8]).status.busy = false ∧
    (given [0x41#8]).inLen.toNat ≤ (given [0x41#8]).par.lmax.val ∧ (given [0x41#8]).input.dedup.length = 1 ∧
    (given v1In).input.dedup.length = 3 := by decide +kernel

/-- V1's artifact in an engine whose `LMAX` is 5. -/
def v1Small : State := { given v1 with par := { Config.default with lmax := 5 } }

theorem witness_SizeLimits : (tiny [0x41#8]).par.lmax.val < (tiny [0x41#8]).inLen.toNat ∧
    ({ tiny [] with inLen := 532 } : State).par.inCap < ({ tiny [] with inLen := 532 } : State).inLen.toNat ∧
    v1Small.status.busy = false ∧ v1Small.inLen.toNat ≤ v1Small.par.inCap ∧
    ∃ u, exec .deserialize (unitStart 0x0C#8 v1Small) = .next u ∧ u.phase ≠ phaseIdle ∧ 0 < u.nsym ∧
      u.par.lmax.val < u.cOriglen := by
  refine ⟨by decide, by decide, by decide, by decide, ?_⟩
  obtain ⟨u, h, hu⟩ := next_of (o := exec .deserialize (unitStart 0x0C#8 v1Small)) (p := fun u => decide
    (u.phase ≠ phaseIdle ∧ 0 < u.nsym ∧ u.par.lmax.val < u.cOriglen)) (by decide +kernel)
  exact ⟨u, h, of_decide_eq_true hu⟩

/-- V3's table. -/
theorem v3_kraft : kraftSum (tableLen [(0x41#8, 1#8)]) ≤ 1 := (canonCodes_ok_iff _).1 (by decide +kernel)

theorem witness_DecodeSucceeds : (given v3).status.busy = false ∧
    HoldsInput (given v3) (containerBytes (given v3).par [0x41#8].length [(0x41#8, 1#8)] 1 [0x00#8]) ∧
    [0x41#8].length ≤ (given v3).par.lmax.val ∧ 19 + 2 * 1 + 1 ≤ (given v3).par.inCap ∧
    [0x00#8].length = ceil8 1 ∧ TableWf [(0x41#8, 1#8)] ∧ kraftSum (tableLen [(0x41#8, 1#8)]) ≤ 1 ∧
    (∀ b ∈ [0x41#8], 0 < tableLen [(0x41#8, 1#8)] b) ∧
    streamBits [0x00#8] 0 1 = encodedBits (tableLen [(0x41#8, 1#8)]) [0x41#8] := by
  refine ⟨rfl, ?_, by decide, by decide, rfl, ⟨by decide, by decide, by simp⟩, v3_kraft, by simp [tableLen],
    by decide +kernel⟩
  unfold HoldsInput
  decide +kernel

theorem witness_DecodeSound : (given v3).status.busy = false ∧ ∃ t, exec .decode (given v3) = .next t ∧ Succeeded t := by
  refine ⟨rfl, ?_⟩
  obtain ⟨t, h, ht⟩ := next_of (o := exec .decode (given v3)) (p := fun t => decide
    (t.status.word = 0x02#8 ∧ t.errcode = 0x00#8 ∧ t.errinfo = 0x00#8 ∧ t.phase = phaseIdle)) (by decide +kernel)
  have hs := of_decide_eq_true ht
  exact ⟨t, h, hs⟩

/-- DESERIALIZE ends so, the fields it reads being of an artifact that is not empty. -/
def parses (s : State) (p : State → Bool) : Bool :=
  (nextOf (exec .deserialize (unitStart 0x0C#8 s))).any fun u =>
    decide (u.phase ≠ phaseIdle ∧ 0 < u.nsym ∧ u.cOriglen ≤ u.par.lmax.val) && p u

/-- X1; X30, which CANON raises on; X34, which UNPACK raises on after CANON and DT_BUILD. -/
theorem witness_DecodeErrors : (nextOf (exec .deserialize (unitStart 0x0C#8 (given [])))).any (fails 1 1) = true ∧
    parses (given (v1With 18 1)) (fun u => !(canonCodes (tab u.len)).2) = true ∧
    parses (given (v1With 12 5)) (fun u => (canonCodes (tab u.len)).2 &&
      (nextOf (execAll [.canon, .dtBuild] u)).any fun v => (nextOf (exec .unpack v)).any (fails 1 0x0B)) = true := by
  decide +kernel

/-- V3: the artifact of the input `A`. -/
theorem v3_encoded : ∃ t, exec .encode (given [0x41#8]) = .next t ∧ t.outLen = (given v3).inLen ∧
    ∀ i : Nat, i < 22 → (given v3).inByte i = t.outByte i := by
  obtain ⟨t, h, ht⟩ := next_of (o := exec .encode (given [0x41#8])) (p := fun t => decide
    (t.outLen = (given v3).inLen ∧ ∀ i : Nat, i < 22 → (given v3).inByte i = t.outByte i)) (by decide +kernel)
  have hs := of_decide_eq_true ht
  exact ⟨t, h, hs⟩

theorem witness_RoundTrip : (given [0x41#8]).status.busy = false ∧
    (given [0x41#8]).inLen.toNat ≤ (given [0x41#8]).par.lmax.val ∧ (given v3).par = (given [0x41#8]).par ∧
    (given v3).status.busy = false ∧ ∃ t, exec .encode (given [0x41#8]) = .next t ∧ (given v3).inLen = t.outLen ∧
      ∀ i, i < t.outLen.toNat → (given v3).inByte i = t.outByte i := by
  obtain ⟨t, h1, h2, h3⟩ := v3_encoded
  refine ⟨rfl, by decide, rfl, rfl, t, h1, h2.symm, fun i hi => h3 i ?_⟩
  rw [h2] at hi
  exact hi

/-- V3 without its last byte. -/
def v3Cut : State := { given v3 with inLen := 21 }

theorem witness_TruncationCaught : (given [0x41#8]).inLen ≠ 0 ∧ v3Cut.par = (given [0x41#8]).par ∧
    v3Cut.status.busy = false ∧ ∃ t, exec .encode (given [0x41#8]) = .next t ∧
      v3Cut.inLen.toNat + 1 = t.outLen.toNat ∧ ∀ i, i < v3Cut.inLen.toNat → v3Cut.inByte i = t.outByte i := by
  obtain ⟨t, h1, h2, h3⟩ := v3_encoded
  refine ⟨by decide, rfl, rfl, t, h1, by rw [h2]; rfl, fun i hi => h3 i ?_⟩
  exact Nat.lt_trans hi (by decide)

theorem witness_LevelsAgree : State.reset.status.busy = false ∧ (inPhase 1 0).cmd = 0x01#8 ∧
    (inPhase 1 0).inLen.toNat ≤ (inPhase 1 0).par.lmax.val ∧ (inPhase 2 0).cmd = 0x02#8 ∧
    (inPhase 2 0).inLen.toNat ≤ (inPhase 2 0).par.inCap := by decide

theorem witness_CommandsEnd : (given v1).status.busy = false := rfl

theorem witness_StepKeepsInv : Inv State.reset ∧ ∃ t, step State.reset = .next t := by
  refine ⟨?_, _, rfl⟩
  constructor <;> decide

/-- Two engines with the same input and other counters. -/
theorem witness_Determinism : ∃ s s' : State, s.status.busy = false ∧ s'.status.busy = false ∧ s'.par = s.par ∧
    s'.inLen = s.inLen ∧ (∀ i, i < s.inLen.toNat → s'.inByte i = s.inByte i) ∧ s'.ncount ≠ s.ncount :=
  ⟨given v1, { given v1 with ncount := 7 }, rfl, rfl, rfl, rfl, fun _ _ => rfl, by decide⟩

/-- The last byte of each buffer and the first past it, and a result. -/
theorem witness_HostBufferRead : State.reset.status.busy = false ∧ 2 ^ 29 + 529 < State.reset.par.inCap ∧
    State.reset.par.inCap ≤ 2 ^ 29 + 530 ∧ 2 ^ 29 + 529 < State.reset.par.outCap ∧
    State.reset.par.outCap ≤ 2 ^ 29 + 530 ∧
    HoldsOutput { State.reset with outLen := 1, outMem := [(0, 0x41#8)] } [0x41#8] ∧
    [0x41#8].length ≤ State.reset.par.outCap := by
  refine ⟨rfl, by decide, by decide, by decide, by decide, ⟨rfl, fun i h => ?_⟩, by decide⟩
  obtain rfl : i = 0 := by simpa using h
  rfl

end Sys2Proof.Tests
end

/-! PROOFS. The FrequencyTable unit (40_frequency.md). -/

namespace Sys2Proof.Machine

theorem exec_fcount (s : State) : exec .fcount s = execFcount s := rfl

/-- FCOUNT completes when IN holds the whole input (40_frequency.md R100). -/
theorem execFcount_of_le {s : State} (h : s.inLen.toNat ≤ s.par.inCap) :
    execFcount s = .next { s with freq := countBytes s.input } := by
  have hfit : s.inputFits = true := decide_eq_true h
  rw [execFcount, if_pos hfit]

/-- The counters are no part of what the host can see. -/
theorem sameInterface_setFreq (s : State) (f : Vector Nat 256) : SameInterface s { s with freq := f } :=
  sameInterface_of rfl rfl rfl rfl rfl rfl rfl rfl rfl rfl rfl rfl rfl

/-- Settles O14: FCOUNT's next state differs in `FREQ` only, and its fold over the input adds each byte's
occurrences to a counter that starts at 0. -/
theorem fcountCounts : Obligations.FcountCounts := by
  unfold Obligations.FcountCounts
  intro s h
  refine ⟨{ s with freq := countBytes s.input }, ?_, rfl, ?_, sameInterface_setFreq ..⟩
  · rw [exec_fcount, execFcount_of_le h]
  · exact tab_countBytes s.input

end Sys2Proof.Machine

/-! PROOFS. The TreeBuilder unit (41_tree_builder.md). -/

namespace Sys2Proof.Machine

theorem exec_tbInit (s : State) : exec .tbInit s = .next (initTree s) := rfl

theorem exec_tbFix1 (s : State) : exec .tbFix1 s = .next (fixOne s) := rfl

/-- TB_INIT leaves every node it does not make (41_tree_builder.md R113). -/
theorem nodeAt_initTree_above (s : State) {k : Nat} (h : (initTree s).ncount ≤ k) :
    (initTree s).nodeAt k = s.nodeAt k := by
  obtain ⟨-, habove⟩ := foldl_addLeaf_above allBytes { s with pq := [], ncount := 0 }
  unfold initTree at h ⊢
  generalize allBytes.foldl addLeaf { s with pq := [], ncount := 0 } = u at h habove ⊢
  exact habove k h

/-- The nodes and the queue are no part of what the host can see. -/
theorem sameInterface_initTree (s : State) : SameInterface s (initTree s) := by
  have hframe := execTbInit_frame (s := s) rfl
  rw [hframe]
  exact sameInterface_of rfl rfl rfl rfl rfl rfl rfl rfl rfl rfl rfl rfl rfl

/-- Settles O16: TB_INIT's loop makes node `k` the leaf of the `k`-th symbol with a count and queues the nodes in
index order, so the queue is the range below their number; it writes no node above. -/
theorem tbInitLeaves : Obligations.TbInitLeaves := by
  unfold Obligations.TbInitLeaves
  intro s
  obtain ⟨hncount, hnsym, hpq, hleaf, -⟩ := initTree_spec s
  have hqueue : (initTree s).pq.Pairwise (· < ·) ∧ ∀ i, i ∈ (initTree s).pq ↔ i < (present s.freq).length := by
    rw [hpq]
    exact ⟨List.pairwise_lt_range, fun _ => List.mem_range⟩
  have habove : ∀ k, (present s.freq).length ≤ k → (initTree s).nodeAt k = s.nodeAt k := fun k hk =>
    nodeAt_initTree_above s (hncount.trans_le hk)
  have hframe := execTbInit_frame (s := s) rfl
  exact ⟨initTree s, exec_tbInit s, hframe,
    ⟨present s.freq, rfl, hncount, hnsym, hqueue.1, hqueue.2, hleaf, habove⟩, sameInterface_initTree s⟩

theorem fixOne_of_nsym_one {s : State} (h : s.nsym = 1) :
    fixOne s = { s with node := s.node.set 1 (.inner (s.nodeAt 0).freq 0 none), ncount := 2, root := 1 } := if_pos h

theorem fixOne_of_nsym_ne_one {s : State} (h : s.nsym ≠ 1) : fixOne s = s := if_neg h

/-- Settles O19, by whether there is exactly one symbol. -/
theorem tbFix1 : Obligations.TbFix1 := by
  unfold Obligations.TbFix1
  intro s
  refine ⟨fun hone => ?_, fun hother => ?_⟩
  · rw [exec_tbFix1, fixOne_of_nsym_one hone]
  · rw [exec_tbFix1, fixOne_of_nsym_ne_one hother]

end Sys2Proof.Machine

/-! PROOFS. The CodeAssigner unit: the walk and the decoder's table (42_code_assigner.md R130, R140). -/

namespace Sys2Proof.Machine

/-- The order of the visits is the lexicographic one, the left branch first (42_code_assigner.md R130). -/
theorem VisitedBefore.lex {p q : BitStr} (h : VisitedBefore p q) : List.Lex (· < ·) p q := by
  obtain ⟨c, x, y, rfl, rfl⟩ := h
  exact .append_left _ (.rel Bool.false_lt_true) c

theorem VisitedBefore.asymm {p q : BitStr} (h : VisitedBefore p q) : ¬ VisitedBefore q p := fun h' =>
  Std.Asymm.asymm _ _ h.lex h'.lex

/-- Of the leaves of symbol `b` below node `i`, the one visited last is at the end of `p`; written out as in
`Obligations.WalkPaths`. -/
def LastLeafAt (node : Nat → Node) (i : Nat) (p : BitStr) (b : Byte) : Prop :=
  LeafAt node i p b ∧ ∀ q, LeafAt node i q b → q = p ∨ VisitedBefore q p

theorem LastLeafAt.unique {node : Nat → Node} {i : Nat} {b : Byte} {p q : BitStr} (hp : LastLeafAt node i p b)
    (hq : LastLeafAt node i q b) : p = q := by
  obtain ⟨hpleaf, hplast⟩ := hp
  obtain ⟨hqleaf, hqlast⟩ := hq
  rcases hplast q hqleaf with hqp | hqp
  · exact hqp.symm
  · exact (hqlast p hpleaf).resolve_right hqp.asymm

theorem LeafAt.leaf_of_nil {node : Nat → Node} {i : Nat} {b : Byte} (h : LeafAt node i [] b) :
    ∃ f, node i = .leaf f b := by
  cases h with
  | leaf e => exact ⟨_, e⟩

section walk
variable {node : Nat → Node} {levels i : Nat} {l : List (Byte × BitStr)}

theorem mem_visit_root (h : visit node levels i [] = some l) {b : Byte} {p : BitStr} :
    (b, p) ∈ l ↔ LeafAt node i p b := by
  simp [mem_visit h]

/-- A symbol's last entry in the list of leaves is its leaf visited last. -/
theorem lastLeafAt_of_visit {pre post : List (Byte × BitStr)} {b : Byte} {p : BitStr}
    (h : visit node levels i [] = some (pre ++ (b, p) :: post)) (hpost : b ∉ post.map (·.1)) :
    LastLeafAt node i p b := by
  refine ⟨(mem_visit_root h).1 (by simp), fun q hq => ?_⟩
  have hbefore := (List.pairwise_append.1 (visit_pairwise h)).2.2
  rcases List.mem_append.1 ((mem_visit_root h).2 hq) with hpre | hrest
  · exact .inr (hbefore _ hpre _ List.mem_cons_self)
  · rcases List.mem_cons.1 hrest with heq | hmem
    · exact .inl (Prod.mk.inj heq).2
    · exact absurd (List.mem_map_of_mem hmem) hpost

end walk

section paths
variable {s : State} {l : List (Byte × BitStr)}

theorem exec_walk (h : s.leaves = some l) : exec .walk s = .next (setPaths l s) := by
  change execWalk s = _
  rw [execWalk, h]

/-- What the walk leaves for a symbol: the path to its last leaf and the path's length, or NONE and 0 without a leaf
(42_code_assigner.md R130). -/
theorem setPaths_cases (h : s.leaves = some l) (b : Byte) :
    (∃ p, LastLeafAt s.nodeAt s.root p b ∧ tab (setPaths l s).rawcode b = some p ∧
      tab (setPaths l s).len b = p.length) ∨
    ((∀ p, ¬ LeafAt s.nodeAt s.root p b) ∧ tab (setPaths l s).rawcode b = none ∧ tab (setPaths l s).len b = 0) := by
  rw [setPaths_rawcode, setPaths_len]
  by_cases hb : b ∈ l.map (·.1)
  · obtain ⟨p, pre, post, rfl, hpost⟩ := exists_last l hb
    exact .inl ⟨p, lastLeafAt_of_visit h hpost, tab_foldl_last some _ _ ⟨pre, post, rfl, hpost⟩,
      tab_foldl_last List.length _ _ ⟨pre, post, rfl, hpost⟩⟩
  · refine .inr ⟨fun p hp => hb (List.mem_map_of_mem ((mem_visit_root h).2 hp)), ?_, ?_⟩
    · exact (tab_foldl_of_not_mem some _ _ hb).trans (tab_replicate ..)
    · exact (tab_foldl_of_not_mem List.length _ _ hb).trans (tab_replicate ..)

theorem rawcode_setPaths_iff (h : s.leaves = some l) (b : Byte) (p : BitStr) :
    tab (setPaths l s).rawcode b = some p ↔ LastLeafAt s.nodeAt s.root p b := by
  rcases setPaths_cases h b with ⟨q, hlast, hraw, -⟩ | ⟨hno, hraw, -⟩
  · rw [hraw, Option.some.injEq]
    exact ⟨fun e => e ▸ hlast, hlast.unique⟩
  · rw [hraw]
    exact ⟨nofun, fun hp => absurd hp.1 (hno p)⟩

theorem len_setPaths_of_some (h : s.leaves = some l) {b : Byte} {p : BitStr}
    (hp : tab (setPaths l s).rawcode b = some p) : tab (setPaths l s).len b = p.length := by
  rcases setPaths_cases h b with ⟨q, -, hraw, hlen⟩ | ⟨-, hraw, -⟩
  · rw [hlen, Option.some.inj (hraw.symm.trans hp)]
  · cases hraw.symm.trans hp

theorem len_setPaths_of_none (h : s.leaves = some l) {b : Byte} (hb : tab (setPaths l s).rawcode b = none) :
    tab (setPaths l s).len b = 0 := by
  rcases setPaths_cases h b with ⟨q, -, hraw, -⟩ | ⟨-, -, hlen⟩
  · cases hraw.symm.trans hb
  · exact hlen

/-- The raw codes and the lengths are no part of what the host can see. -/
theorem sameInterface_setPaths (l : List (Byte × BitStr)) (s : State) : SameInterface s (setPaths l s) :=
  sameInterface_of rfl rfl rfl rfl rfl rfl rfl rfl rfl rfl rfl rfl rfl

end paths

/-- Settles O21: the walk lists the leaves from left to right, and of a symbol's entries the last one stays in the
table. -/
theorem walkPaths : Obligations.WalkPaths := by
  unfold Obligations.WalkPaths
  intro s hwithin
  obtain ⟨l, hl⟩ : ∃ l, s.leaves = some l := visit_isSome hwithin (Nat.lt_succ_self 255) []
  refine ⟨setPaths l s, exec_walk hl, rfl, rawcode_setPaths_iff hl, fun b p => len_setPaths_of_some hl,
    fun b => len_setPaths_of_none hl, fun hroot b hb => ?_, sameInterface_setPaths l s⟩
  obtain ⟨hleaf, -⟩ := (rawcode_setPaths_iff hl b []).1 hb
  obtain ⟨f, hf⟩ := hleaf.leaf_of_nil
  exact hroot f b hf

/-- The state after DT_BUILD (42_code_assigner.md R140). -/
theorem exec_dtBuild (s : State) : exec .dtBuild s = .next { s with dtab := codePairs (tab s.len) (tab s.code) } := rfl

/-- The decoder's table is no part of what the host can see. -/
theorem sameInterface_setDtab (s : State) (d : List (BitStr × Byte)) : SameInterface s { s with dtab := d } :=
  sameInterface_of rfl rfl rfl rfl rfl rfl rfl rfl rfl rfl rfl rfl rfl

/-- Settles O26: a pair is listed exactly for a symbol with a length, with its code. -/
theorem dtBuild : Obligations.DtBuild := by
  unfold Obligations.DtBuild
  intro s
  exact ⟨_, exec_dtBuild s, rfl, fun c b => codePairs_mem, sameInterface_setDtab ..⟩

end Sys2Proof.Machine

/-! PROOFS. The BitWriter and BitReader units (43_bit_io.md). -/

namespace Sys2Proof.Machine

/-! ### Programs of unit operations -/

@[simp] theorem execAll_nil (s : State) : execAll [] s = .next s := rfl

theorem execAll_cons_of_next {i : Instr} {s t : State} (h : exec i s = .next t) (rest : List Instr) :
    execAll (i :: rest) s = execAll rest t := by
  rw [execAll, h]

/-! ### The BitWriter -/

/-- The state after BW_RESET (43_bit_io.md R150). -/
theorem exec_bwReset (s : State) : exec .bwReset s = .next { s with bwBuf := [], bwNbits := 0 } := rfl

/-- The state after BW_FINISH (43_bit_io.md R153). -/
theorem exec_bwFinish (s : State) : exec .bwFinish s = .next { s with result := .buffer s.bwBuf s.bwNbits } := rfl

/-- Settles O27: BW_FINISH yields the writer's two registers, which BW_RESET just emptied. -/
theorem bwReset : Obligations.BwReset := by
  unfold Obligations.BwReset
  intro s
  refine ⟨exec_bwReset s, ?_⟩
  rw [execAll_cons_of_next (exec_bwReset s), execAll_cons_of_next (exec_bwFinish _), execAll_nil]

/-! ### The BitReader -/

/-- The state after BR_INIT (43_bit_io.md R160). -/
theorem exec_brInit (buf : List Byte) (limit : Nat) (s : State) :
    exec (.brInit buf limit) s = .next (attachReader buf limit s) := rfl

/-- Settles O31: `attachReader` makes exactly the three writes of R160 and counts the attachment. -/
theorem brInit : Obligations.BrInit := by
  unfold Obligations.BrInit
  intro s buf limit
  rw [exec_brInit, attachReader]

section reader
variable {s : State}

theorem streamBit_of_lt {buf : List Byte} {k : Nat} (h : k / 8 < buf.length) :
    streamBit buf k = some (buf[k / 8].getLsbD (7 - k % 8)) := by
  rw [streamBit_eq, List.getElem?_eq_getElem h, Option.map_some]

/-- At the limit there is no bit, whatever the buffer holds (43_bit_io.md R162). -/
theorem nextBit_of_limit_le (h : s.brLimit ≤ s.brPos) : s.nextBit = none := if_pos h

/-- Below the limit the bit at the cursor is the buffer's where the buffer has its byte (43_bit_io.md R162). -/
theorem nextBit_of_lt_limit (h : s.brPos / 8 < s.brBuf.length) (hlimit : s.brPos < s.brLimit) :
    s.nextBit = some (s.brBuf[s.brPos / 8].getLsbD (7 - s.brPos % 8)) := by
  rw [State.nextBit, if_neg hlimit.not_ge, streamBit_of_lt h, Option.getD_some]

theorem exec_brRbit_of_nextBit_none (h : s.nextBit = none) :
    exec .brRbit s = .next { s with result := .endOfStream } := by
  rw [exec, execBrRbit, h]

theorem exec_brRbit_of_nextBit_some {b : Bool} (h : s.nextBit = some b) :
    exec .brRbit s = .next { s with brPos := s.brPos + 1, result := .bit b } := by
  rw [exec, execBrRbit, h, advanceReader]

end reader

/-- Settles O32, by whether the cursor has reached the limit. -/
theorem brRbit : Obligations.BrRbit := by
  unfold Obligations.BrRbit
  refine ⟨fun s hlimit => ?_, fun s h hlimit => ?_⟩
  · exact exec_brRbit_of_nextBit_none (nextBit_of_limit_le hlimit)
  · exact exec_brRbit_of_nextBit_some (nextBit_of_lt_limit h hlimit)

end Sys2Proof.Machine

/-! PROOFS. The ContainerCodec unit (44_container.md). -/

namespace Sys2Proof.Machine

/-! ### The layout of a container (30_encoding.md R70) -/

@[simp] theorem beBytes_getElem {n v i : Nat} (h : i < (beBytes n v).length) :
    (beBytes n v)[i] = BitVec.ofNat 8 (v / 256 ^ (n - 1 - i)) := by
  simp [beBytes]

section layout
variable (p : Params) (origlen : Nat) (table : List (Byte × Byte)) (bitcount : Nat) (payload : List Byte)

/-- The artifact `A` holds the bytes `f` from offset `a` on. -/
def HoldsAt (A : List Byte) (a : Nat) (f : List Byte) : Prop := ∀ i (h : i < f.length), A[a + i]? = some f[i]

/-- What the artifact begins with tells where the bytes `f` stand. -/
theorem holdsAt_of_prefix {A pre f : List Byte} {a : Nat} (h : pre ++ f <+: A) (ha : pre.length = a) :
    HoldsAt A a f := by
  subst ha
  intro i hi
  rw [List.prefix_iff_getElem?.1 h (pre.length + i) (by rw [List.length_append]; omega),
    List.getElem_append_right (Nat.le_add_right ..)]
  simp only [Nat.add_sub_cancel_left]

/-- Where each field of a container stands. -/
structure Layout (A : List Byte) : Prop where
  magic : HoldsAt A 0 p.magic.toList
  version : HoldsAt A 4 [p.version]
  originalLength : HoldsAt A 5 (beBytes 8 origlen)
  symbolCount : HoldsAt A 13 (beBytes 2 table.length)
  entries : HoldsAt A 15 (tableOf table)
  bitCount : HoldsAt A (15 + 2 * table.length) (beBytes 4 bitcount)
  payloadBytes : HoldsAt A (19 + 2 * table.length) payload

/-- The container is its fields one after another, so it begins with the fields up to any one (30_encoding.md R70). -/
theorem layout_containerBytes :
    Layout p origlen table bitcount payload (containerBytes p origlen table bitcount payload) := by
  have hbitcount := List.prefix_append
    (p.magic.toList ++ [p.version] ++ beBytes 8 origlen ++ beBytes 2 table.length ++ tableOf table
      ++ beBytes 4 bitcount) payload
  have htable := (List.prefix_append ..).trans hbitcount
  have hcount := (List.prefix_append ..).trans htable
  have horiglen := (List.prefix_append ..).trans hcount
  have hversion := (List.prefix_append ..).trans horiglen
  have hmagic := (List.prefix_append ..).trans hversion
  have htableLen := tableOf_length table
  constructor
  case magic => exact holdsAt_of_prefix (pre := []) hmagic rfl
  case version => exact holdsAt_of_prefix hversion (by simp)
  case originalLength => exact holdsAt_of_prefix horiglen (by simp)
  case symbolCount => exact holdsAt_of_prefix hcount (by simp [beBytes_length])
  case entries => exact holdsAt_of_prefix htable (by simp [beBytes_length])
  case bitCount =>
    refine holdsAt_of_prefix hbitcount ?_
    simp only [List.length_append, Vector.length_toList, List.length_singleton, beBytes_length, htableLen]
  case payloadBytes =>
    refine holdsAt_of_prefix List.prefix_rfl ?_
    simp only [List.length_append, Vector.length_toList, List.length_singleton, beBytes_length, htableLen]
    omega

end layout

/-! ### SERIALIZE -/

section serialize
variable {s : State}

theorem exec_serialize_of_le (h : s.artifactLen ≤ s.par.outCap) : exec .serialize s = .next (writeArtifact s) :=
  if_pos h

/-- SERIALIZE of a table as long as its count takes no free value (44_container.md R170; log 20). -/
theorem writeArtifact_frame (h : s.cNsym = s.cTab.length) :
    writeArtifact s = { s with outMem := (writeArtifact s).outMem, result := .length s.artifactLen } := by
  rw [writeArtifact, if_neg h.not_gt]

/-- A byte of the artifact is that byte of OUT after SERIALIZE. -/
theorem outByte_writeArtifact {a : Nat} {b : Byte} (h : s.artifact[a]? = some b) : (writeArtifact s).outByte a = b := by
  obtain ⟨ha, -⟩ := List.getElem?_eq_some_iff.1 h
  rw [State.outByte, writeArtifact_outMem, Memory.get?_setBytes, if_pos ⟨Nat.zero_le a, by omega⟩, Nat.sub_zero, h,
    Option.getD_some]

/-- The fields of the artifact stand in OUT after SERIALIZE. -/
theorem outByte_writeArtifact_of_holdsAt {a : Nat} {f : List Byte} (h : HoldsAt s.artifact a f) {i : Nat}
    (hi : i < f.length) : (writeArtifact s).outByte (a + i) = f[i] :=
  outByte_writeArtifact (h i hi)

/-- A number stands in OUT big-endian (00_scope.md R14). -/
theorem outByte_writeArtifact_beBytes {a n v : Nat} (h : HoldsAt s.artifact a (beBytes n v)) {i : Nat} (hi : i < n) :
    (writeArtifact s).outByte (a + i) = BitVec.ofNat 8 (v / 256 ^ (n - 1 - i)) := by
  rw [outByte_writeArtifact_of_holdsAt h (by rwa [beBytes_length]), beBytes_getElem]

/-- Entry `i` of the table stands in the two bytes from offset `15 + 2 * i` on (30_encoding.md R75). -/
theorem outByte_writeArtifact_entry {table : List (Byte × Byte)} (h : HoldsAt s.artifact 15 (tableOf table)) {i : Nat}
    (hi : i < table.length) :
    (writeArtifact s).outByte (15 + 2 * i) = table[i].1 ∧ (writeArtifact s).outByte (16 + 2 * i) = table[i].2 := by
  obtain ⟨hsym, hlen⟩ := tableOf_get hi
  obtain ⟨h1, e1⟩ := List.getElem?_eq_some_iff.1 hsym
  obtain ⟨h2, e2⟩ := List.getElem?_eq_some_iff.1 hlen
  refine ⟨(outByte_writeArtifact_of_holdsAt h h1).trans e1, ?_⟩
  rw [show 16 + 2 * i = 15 + (2 * i + 1) by omega]
  exact (outByte_writeArtifact_of_holdsAt h h2).trans e2

end serialize

/-- Settles O34: the bytes written are the container of the fields, so each field stands at its offset in the layout. -/
theorem serializeLayout : Obligations.SerializeLayout := by
  unfold Obligations.SerializeLayout
  intro s hcount hfits _
  have hrun : exec .serialize s = .next (writeArtifact s) := exec_serialize_of_le hfits
  obtain ⟨hinput, -, -, -, -, -, habove⟩ := execSerialize_out hrun
  have hlayout := layout_containerBytes s.par s.cOriglen s.cTab s.cBitcount s.cPayload
  rw [← artifact_container hcount] at hlayout
  obtain ⟨hmagic, hversion, horiglen, hnsym, htable, hbitcount, hpayload⟩ := hlayout
  rw [← hcount] at hnsym hbitcount hpayload
  refine ⟨writeArtifact s, hrun, writeArtifact_frame hcount, hinput, fun i hi => ?magic, ?version,
    fun i => outByte_writeArtifact_beBytes horiglen, fun i => outByte_writeArtifact_beBytes hnsym,
    fun i => outByte_writeArtifact_entry htable, fun i => outByte_writeArtifact_beBytes hbitcount,
    fun j => outByte_writeArtifact_of_holdsAt hpayload, habove⟩
  case magic =>
    have hbyte := outByte_writeArtifact_of_holdsAt hmagic (i := i) (by rwa [Vector.length_toList])
    rwa [Nat.zero_add, Vector.getElem_toList] at hbyte
  case version => exact outByte_writeArtifact_of_holdsAt hversion Nat.one_pos

end Sys2Proof.Machine

/-! PROOFS. The two commands as functions (45_orchestration.md): ENCODE writes the artifact of the input, and DECODE
of that artifact writes the input. -/

namespace Sys2Proof.Machine

/-! ### The result in OUT -/

/-- Bytes written from index 0 on, with their number in `OUT_LEN`, are the result. -/
theorem holdsOutput_of_setBytes {t : State} {m : Memory} {bs : List Byte} (hmem : t.outMem = m.setBytes 0 bs)
    (hlen : t.outLen = BitVec.ofNat 64 bs.length) (hlt : bs.length < 2 ^ 64) : HoldsOutput t bs := by
  refine ⟨?_, fun i hi => ?_⟩
  · rw [hlen, BitVec.toNat_ofNat, Nat.mod_eq_of_lt hlt]
  · rw [State.outByte, hmem, Memory.get?_setBytes, if_pos ⟨Nat.zero_le i, by omega⟩, Nat.sub_zero,
      List.getElem?_eq_getElem hi, Option.getD_some]

/-- The result of one engine, given to another as its input. -/
theorem HoldsOutput.holdsInput {t u : State} {bs : List Byte} (h : HoldsOutput t bs) (hlen : u.inLen = t.outLen)
    (hbytes : ∀ i, i < t.outLen.toNat → u.inByte i = t.outByte i) : HoldsInput u bs := by
  obtain ⟨hcount, hout⟩ := h
  refine ⟨by rw [hlen, hcount], fun i hi => ?_⟩
  rw [hbytes i (by omega), hout i hi]

/-- Command start leaves the input as it is (45_orchestration.md R203). -/
theorem sameInput_commandStart (s : State) : SameInput s (commandStart s) := sameInput_of rfl rfl rfl rfl rfl rfl

theorem input_length (s : State) : s.input.length = s.inLen.toNat := by simp [State.input, State.inRange]

/-! ### The tree operations and the walk, one after another -/

theorem exec_tbMerge_of_nodesFit {s : State} (h : s.nodesFit = true) : exec .tbMerge s = .next (mergeTree s) := if_pos h

/-- The three tree operations in order (45_orchestration.md R201, steps E3 to E5). -/
theorem execAll_buildTree (rest : List Instr) (s : State) :
    execAll (.tbInit :: .tbMerge :: .tbFix1 :: rest) s = execAll rest (buildTree s) := by
  rw [execAll_cons_of_next (exec_tbInit s), execAll_cons_of_next (exec_tbMerge_of_nodesFit (initTree_fits s)),
    execAll_cons_of_next (exec_tbFix1 _), buildTree]

/-- The unit operations that determine the code lengths (45_orchestration.md R201, steps E1 to E6). -/
theorem execAll_fcount_to_walk {s : State} {leaves : List (Byte × BitStr)} (hfit : s.inLen.toNat ≤ s.par.inCap)
    (h : (buildTree { s with freq := countBytes s.input }).leaves = some leaves) :
    execAll [.fcount, .tbInit, .tbMerge, .tbFix1, .walk] s =
      .next (setPaths leaves (buildTree { s with freq := countBytes s.input })) := by
  have hcount : exec .fcount s = .next { s with freq := countBytes s.input } := execFcount_of_le hfit
  rw [execAll_cons_of_next hcount, execAll_buildTree, execAll_cons_of_next (exec_walk h), execAll_nil]

/-- The leaves and their paths depend on the counts alone (10_state.md R40). -/
theorem leaves_buildTree_congr {s s' : State} (h : s'.freq = s.freq) (hpos : present s.freq ≠ []) :
    (buildTree s').leaves = (buildTree s).leaves := by
  obtain ⟨T, hholds, -, -, hdepth, -⟩ := buildTree_spec s hpos
  obtain ⟨hsim, hroot⟩ := buildTree_sim h hpos
  have hlevels : T.depth < 256 := by
    have := present_length_le s.freq
    omega
  have hholds' := hholds.mono hsim.ncount.ge hsim.node
  rw [State.leaves, State.leaves, hroot, hholds'.visit hlevels, hholds.visit hlevels]

/-! ### ENCODE -/

/-- The empty input has no symbol, so every length is 0 (45_orchestration.md R201, step E2). -/
theorem lengthsOf_nil {len : Byte → Nat} (h : ∀ b, len b = 0) : LengthsOf len [] where
  pos b := by simp [h b]
  le b := by simp [h b]
  kraft := by simp [kraftSum, h]
  one _ := rfl
  many := Nat.zero_le _

section encode
variable {s t : State} {len : Byte → Nat}

theorem EncodeRun.lengthsOf (h : EncodeRun s t len) : LengthsOf len s.input := by
  by_cases hi : s.input = []
  · rw [hi]
    exact lengthsOf_nil (h.empty hi)
  · exact h.lengths hi

theorem EncodeRun.holdsOutput (h : EncodeRun s t len) :
    HoldsOutput t (artifactBytes s.par s.inLen.toNat (lengthTable len) (encodedBits len s.input)) := by
  refine holdsOutput_of_setBytes h.out h.outLen ?_
  have hfits := h.fits
  have hlmax := s.par.lmax.isLt
  rw [Params.outCap] at hfits
  omega

/-- What an ENCODE that has ended shows the host (45_orchestration.md R203, R204). -/
theorem EncodeRun.succeeded (h : EncodeRun (commandStart s) t len) : Succeeded t := by
  have hframe := h.frame
  rw [EncodeFrame] at hframe
  rw [hframe]
  exact ⟨rfl, rfl, rfl, rfl⟩

theorem EncodeRun.sameInput (h : EncodeRun s t len) : SameInput s t := by
  have hframe := h.frame
  rw [EncodeFrame] at hframe
  rw [hframe]
  exact sameInput_of rfl rfl rfl rfl rfl rfl

/-- The lengths ENCODE takes are those the unit operations leave when they run by themselves. -/
theorem EncodeRun.walked_execAll (h : EncodeRun (commandStart s) t len) (hfit : s.inLen.toNat ≤ s.par.inCap)
    (hne : s.input ≠ []) :
    ∃ u, execAll [.fcount, .tbInit, .tbMerge, .tbFix1, .walk] s = .next u ∧ len = tab u.len := by
  obtain ⟨leaves, hleaves, rfl⟩ := h.walked hne
  have hpos : present (countBytes s.input) ≠ [] := by
    obtain ⟨b, hb⟩ := List.exists_mem_of_ne_nil _ hne
    exact List.ne_nil_of_mem (mem_present_countBytes.2 hb)
  have hleaves' : (buildTree { s with freq := countBytes s.input }).leaves = some leaves :=
    (leaves_buildTree_congr (s := { s with freq := countBytes s.input })
      (s' := { commandStart s with freq := countBytes s.input }) rfl hpos).symm.trans hleaves
  refine ⟨_, execAll_fcount_to_walk hfit hleaves', ?_⟩
  rw [setPaths_len, setPaths_len]

theorem exec_encode_refused (hidle : s.status.busy = false) (h : s.par.lmax.val < s.inLen.toNat) :
    exec .encode s = .next (errorEntry .inputTooLong (commandStart s)) := by
  rcases execEncode_cases hidle with ⟨-, hrun⟩ | ⟨hle, -⟩
  · exact hrun
  · omega

theorem exec_encode_run (hidle : s.status.busy = false) (h : s.inLen.toNat ≤ s.par.lmax.val) :
    ∃ t len, exec .encode s = .next t ∧ EncodeRun (commandStart s) t len := by
  rcases execEncode_cases hidle with ⟨hlt, -⟩ | ⟨-, hrun⟩
  · omega
  · exact hrun

end encode

/-! ### DECODE -/

/-- What a DECODE that has ended with a result shows the host (45_orchestration.md R203, R204). -/
theorem succeeded_complete {s t : State} (h : DecodeFrame (commandStart s) t) (n : Nat) : Succeeded (complete n t) := by
  rw [DecodeFrame] at h
  rw [h]
  exact ⟨rfl, rfl, rfl, rfl⟩

/-- Completion leaves the bytes counted in OUT (45_orchestration.md R204). -/
theorem holdsOutput_complete {t : State} {bs : List Byte} (hmem : t.outMem = Memory.setBytes [] 0 bs)
    (hlt : bs.length < 2 ^ 64) : HoldsOutput (complete bs.length t) bs := by
  refine holdsOutput_of_setBytes (m := []) ?_ (complete_outLen ..) hlt
  rw [complete_outMem, hmem, setBytes_filter]

/-- DECODE of the artifact of `bs` under its code lengths ends with `bs` (45_orchestration.md R210, R231). -/
theorem exec_decode_artifact {u : State} {len : Byte → Nat} {bs : List Byte} (hidle : u.status.busy = false)
    (hin : HoldsInput u (artifactBytes u.par bs.length (lengthTable len) (encodedBits len bs)))
    (hlens : LengthsOf len bs) (hle : bs.length ≤ u.par.lmax.val) :
    ∃ v, exec .decode u = .next v ∧ Succeeded v ∧ HoldsOutput v bs := by
  have hbits : (encodedBits len bs).length ≤ 8 * bs.length := by
    rw [encodedBits_length fun b hb => (hlens.pos b).2 hb]
    exact hlens.many
  obtain ⟨t, hrun, hframe, hmem⟩ :=
    decodeProgram_artifact (s := commandStart u) hin hlens.pos hlens.le hlens.kraft hle hbits
  have hlmax := u.par.lmax.isLt
  refine ⟨complete bs.length t, ?_, succeeded_complete hframe _, holdsOutput_complete ?_ (by omega)⟩
  · change execDecode u = _
    rw [execDecode, hidle, if_neg Bool.false_ne_true, hrun]
  · rw [hmem, commandStart_outMem, Memory.filter_lt_zero]

/-! ### The two statements -/

/-- Settles O54: the result of ENCODE is the artifact of the input, and DECODE reads the input back from the
artifact. -/
theorem roundTrip : Obligations.RoundTrip := by
  unfold Obligations.RoundTrip
  intro s hidle hle
  obtain ⟨t, len, hencode, hrun⟩ := exec_encode_run hidle hle
  refine ⟨t, hencode, fun u hpar hidle' hlen hbytes => ?_⟩
  have hin : HoldsInput u (artifactBytes s.par s.inLen.toNat (lengthTable len) (encodedBits len s.input)) :=
    hrun.holdsOutput.holdsInput hlen hbytes
  rw [← hpar, ← input_length] at hin
  exact exec_decode_artifact hidle' hin hrun.lengthsOf (by rwa [input_length, hpar])

/-- Settles O48: above LMAX by the refusal, else by the run of the program, whose lengths those of the unit
operations are. -/
theorem encodeFunction : Obligations.EncodeFunction := by
  unfold Obligations.EncodeFunction
  intro s hidle
  refine ⟨fun hlt => ?_, fun hle => ?_⟩
  · exact ⟨_, exec_encode_refused hidle hlt, errorEntry_failed .., sameInput_of rfl rfl rfl rfl rfl rfl⟩
  · obtain ⟨t, len, hencode, hrun⟩ := exec_encode_run hidle hle
    have hlens : LengthsOf len s.input := hrun.lengthsOf
    have hfit : s.inLen.toNat ≤ s.par.inCap := hle.trans (Nat.le_add_right ..)
    exact ⟨t, len, hencode, hrun.succeeded, (sameInput_commandStart s).trans hrun.sameInput, hrun.holdsOutput,
      hrun.empty, hrun.walked_execAll hfit, hlens.pos, hlens.le,
      encodedBits_length fun b hb => (hlens.pos b).2 hb⟩

end Sys2Proof.Machine

/-! PROOFS. The refusal IllegalCommand (60_exceptions.md). -/

namespace Sys2Proof.Machine

/-- A byte other than the two commands names none (30_encoding.md R90, R92). -/
theorem decodeCmd_of_ne {v : Byte} (h1 : v ≠ 0x01#8) (h2 : v ≠ 0x02#8) :
    decodeCmd v = .error (.illegalCommand v) := by
  unfold decodeCmd
  split
  case h_1 hv => exact absurd (BitVec.eq_of_toNat_eq hv) h1
  case h_2 hv => exact absurd (BitVec.eq_of_toNat_eq hv) h2
  case h_3 => rfl

theorem regAccess_cmd : regAccess 0x00 1 = .whole .cmd := by decide

section idle
variable {s : State}

/-- With the controller idle, the step takes the oldest access of the host (10_state.md R22). -/
theorem fetch_access {a : HostAction} {rest : List HostAction} (hp : s.phase = phaseIdle) (hi : s.inbox = a :: rest) :
    fetch s = fetchAccess a { s with inbox := rest } := by
  rw [fetch, if_pos hp, hi]

theorem fetchAccess_cmd (v : BitVec 64) : fetchAccess (.regWrite 0x00 1 v) s = fetchCommand (v.setWidth 8) s := by
  simp only [fetchAccess, regAccess_cmd, fetchRegWrite]

/-- An idle engine refuses a byte that names no command (60_exceptions.md R245, R251). -/
theorem fetchCommand_illegal {v : Byte} {e : DecodeError} (hb : s.status.busy = false) (hd : decodeCmd v = .error e) :
    fetchCommand v s = .other (.next (refusalEntry (.illegalCommand v) (commandStart { s with cmd := v }))) := by
  rw [fetchCommand, hb, if_neg Bool.false_ne_true, hd]

/-- A step that takes a `CMD` byte naming no command is the refusal entry after command start
(60_exceptions.md R245). -/
theorem step_illegalCommand {rest : List HostAction} {v : BitVec 64} {e : DecodeError} (hp : s.phase = phaseIdle)
    (hb : s.status.busy = false) (hi : s.inbox = .regWrite 0x00 1 v :: rest)
    (hd : decodeCmd (v.setWidth 8) = .error e) :
    step s = .next (refusalEntry (.illegalCommand (v.setWidth 8))
      (commandStart { s with inbox := rest, cmd := v.setWidth 8 })) := by
  have hfetch := (fetch_access hp hi).trans ((fetchAccess_cmd v).trans (fetchCommand_illegal hb hd))
  rw [step, hfetch]

/-- A command refused as it starts, on an idle engine, writes the interface registers and releases OUT, and no more
(60_exceptions.md R251). -/
theorem refusalEntry_commandStart_frame {t : State} {c : Cause} (hp : s.phase = phaseIdle)
    (ht : t = refusalEntry c (commandStart s)) :
    t = { s with
      status := t.status, errcode := t.errcode, errinfo := t.errinfo, outLen := t.outLen, outMem := t.outMem
      outEpoch := t.outEpoch } := by
  subst ht
  cases s
  cases hp
  rfl

end idle

/-- Settles O10: the byte decodes to no command, so the step is the refusal entry after command start. -/
theorem illegalCommand : Obligations.IllegalCommand := by
  unfold Obligations.IllegalCommand
  intro s rest v hidle hbusy hinbox h1 h2
  have hstep := step_illegalCommand hidle hbusy hinbox (decodeCmd_of_ne h1 h2)
  exact ⟨_, hstep, errorEntry_failed .., fun _ => rfl,
    refusalEntry_commandStart_frame (s := { s with inbox := rest, cmd := v.setWidth 8 }) hidle rfl⟩

end Sys2Proof.Machine


/-! PROOFS. The decoder and the encoder (30_encoding.md R90, R91). -/

namespace Sys2Proof

/-- Decoding what the encoder wrote for a well-formed instruction gives it back; only the operands of BW_WCODE and
BR_INIT are tested. -/
theorem decodeEncoded_encode {i : Instr} (h : i.wf = true) : decodeEncoded (encode i) = .ok i := by
  cases i
  case bwWcode c => exact if_pos h
  case brInit buf limit => exact if_pos h
  all_goals rfl

/-- A `CMD` byte that decodes is one of the two commands (30_encoding.md R90). -/
theorem decodeCmd_ok {v : Byte} {i : Instr} (h : decodeCmd v = .ok i) :
    (v = 0x01#8 ∧ i = .encode) ∨ (v = 0x02#8 ∧ i = .decode) := by
  unfold decodeCmd at h
  split at h
  case h_1 hv => exact .inl ⟨BitVec.eq_of_toNat_eq hv, (Except.ok.inj h).symm⟩
  case h_2 hv => exact .inr ⟨BitVec.eq_of_toNat_eq hv, (Except.ok.inj h).symm⟩
  case h_3 => cases h

/-- What a `PHASE` byte decodes to is well formed and encoded in that byte (30_encoding.md R91). -/
theorem encode_of_decodeUop {v : Byte} {o : Operands} {i : Instr} (h : decodeUop v o = .ok i) :
    i.wf = true ∧ (encode i).format = .uop ∧ (encode i).code = v := by
  unfold decodeUop at h
  split at h
  case h_10 hv =>
    split at h
    case isTrue hwf =>
      obtain rfl := Except.ok.inj h
      exact ⟨hwf, rfl, BitVec.eq_of_toNat_eq hv.symm⟩
    case isFalse => cases h
  case h_15 hv =>
    split at h
    case isTrue hwf =>
      obtain rfl := Except.ok.inj h
      exact ⟨hwf, rfl, BitVec.eq_of_toNat_eq hv.symm⟩
    case isFalse => cases h
  case h_20 => cases h
  all_goals
    rename_i hv
    obtain rfl := Except.ok.inj h
    exact ⟨rfl, rfl, BitVec.eq_of_toNat_eq hv.symm⟩

/-- Settles O5: one way by the instruction, the other by the format and the byte. -/
theorem decodeEncode : Obligations.DecodeEncode := by
  unfold Obligations.DecodeEncode
  refine ⟨fun i => decodeEncoded_encode, fun f v o i h => ?_⟩
  cases f with
  | cmd => obtain ⟨rfl, rfl⟩ | ⟨rfl, rfl⟩ := decodeCmd_ok h <;> exact ⟨rfl, rfl, rfl⟩
  | uop => exact encode_of_decodeUop h

/-- Settles O4: each byte is written out, so the decoder computes each answer. -/
theorem codesAreDecoded : Obligations.CodesAreDecoded := by
  unfold Obligations.CodesAreDecoded
  decide

end Sys2Proof

/-! PROOFS. The invariant of the machine between commands (10_state.md R22 to R27, R36, R37). -/

namespace Sys2Proof.Machine

/-- What the invariant says of the input and of the bit units, on which the end of a command does not bear. -/
structure UnitsOk (s : State) : Prop where
  inWf : Memory.wf s.inMem = true
  inCap : ∀ c ∈ s.inMem, c.1 < s.par.inCap
  writer : s.bwBuf.length = ceil8 s.bwNbits
  reader : ReaderOk s

section invariant
variable {s t : State}

theorem Inv.unitsOk (h : Inv s) : UnitsOk s := ⟨h.inWf, h.inCap, h.writer, h.reader⟩

/-- Command start writes nothing of the input and of the bit units (45_orchestration.md R203). -/
theorem UnitsOk.commandStart (h : UnitsOk s) : UnitsOk (commandStart s) := ⟨h.inWf, h.inCap, h.writer, h.reader⟩

/-- `CMD` is free in the invariant (10_state.md R21). -/
theorem Inv.setCommand (h : Inv s) (rest : List HostAction) (v : Byte) : Inv { s with inbox := rest, cmd := v } :=
  { h with }

/-- An access that is taken and ignored keeps the invariant. -/
theorem Inv.setInbox (h : Inv s) (rest : List HostAction) : Inv { s with inbox := rest } := { h with }

/-- `IN_LEN` is free in the invariant (10_state.md R25). -/
theorem Inv.setInLen (h : Inv s) (v : BitVec 64) : Inv { s with inLen := v } := { h with }

theorem Inv.setInByte (h : Inv s) {i : Nat} (v : Byte) (hi : i < s.par.inCap) :
    Inv { s with inMem := s.inMem.set i v } :=
  { h with
    inWf := Memory.wf_set i v h.inWf
    inCap := fun c hc => by
      obtain rfl | hmem := Memory.mem_set hc
      · exact hi
      · exact h.inCap c hmem }

/-- Settles O2: every register that the invariant speaks of is empty or 0. -/
theorem resetHoldsInv : Obligations.ResetHoldsInv where
  idle := rfl
  notBusy := rfl
  inWf := rfl
  inCap := nofun
  outExact := rfl
  outCap := Nat.zero_le _
  failCode := by decide
  failDone := nofun
  notDone _ := ⟨rfl, rfl⟩
  codeKnown := by decide
  writer := rfl
  reader := by decide

/-- Reset as an event leaves the invariant, whatever its parameters, pending accesses and counters of free values
(70_reset_and_hazards.md R271). -/
theorem inv_resetState (s : State) : Inv (resetState s) :=
  { resetHoldsInv with inCap := nofun, outCap := Nat.zero_le _ }

/-- Error entry ends a command in the invariant (60_exceptions.md R250). -/
theorem UnitsOk.errorEntry (h : UnitsOk s) (c : Cause) : Inv (errorEntry c s) where
  idle := rfl
  notBusy := rfl
  inWf := h.inWf
  inCap := h.inCap
  outExact := by rw [errorEntry_outMem, Memory.filter_lt_zero]; rfl
  outCap := Nat.zero_le _
  failCode := by simpa [Status.failed] using fun e => absurd (e ▸ c.code_mem) (by decide)
  failDone _ := ⟨rfl, rfl⟩
  notDone := nofun
  codeKnown := List.mem_cons_of_mem _ c.code_mem
  writer := h.writer
  reader := h.reader

/-- A command that ends with a result, whose bytes OUT holds, ends in the invariant (45_orchestration.md R204). -/
theorem UnitsOk.succeeded (h : UnitsOk t) (hphase : t.phase = phaseIdle) (hstatus : t.status = ⟨false, true, false⟩)
    (herr : t.errcode = 0x00#8) (hout : t.outMem.map (·.1) = List.range t.outLen.toNat)
    (hcap : t.outLen.toNat ≤ t.par.outCap) : Inv t where
  idle := hphase
  notBusy := by rw [hstatus]
  inWf := h.inWf
  inCap := h.inCap
  outExact := hout
  outCap := hcap
  failCode := by simp [hstatus, herr]
  failDone := by simp [hstatus]
  notDone := by simp [hstatus]
  codeKnown := by simp [herr]
  writer := h.writer
  reader := h.reader

/-- Bytes written from index 0 on take the addresses below their number. -/
theorem addresses_setBytes_nil {bs : List Byte} {n : Nat} (hn : n = bs.length) :
    (Memory.setBytes [] 0 bs).map (·.1) = List.range n := by
  rw [Memory.addresses_setBytes bs rfl, Nat.zero_add, hn]

/-- A length that OUT holds fits `OUT_LEN` (00_scope.md R8). -/
theorem toNat_ofNat_of_le_outCap {p : Params} {n : Nat} (h : n ≤ p.outCap) : (BitVec.ofNat 64 n).toNat = n := by
  have := p.lmax.isLt
  rw [Params.outCap] at h
  rw [BitVec.toNat_ofNat, Nat.mod_eq_of_lt (by omega)]

/-- ENCODE of an idle engine keeps the invariant: it ends refused or with the artifact in OUT
(45_orchestration.md R200, R202). -/
theorem Inv.execEncode (h : Inv s) (hrun : execEncode s = .next t) : Inv t := by
  obtain ⟨-, e⟩ | ⟨-, u, len, e, hu⟩ := execEncode_cases h.notBusy <;> cases e.symm.trans hrun
  · exact h.unitsOk.commandStart.errorEntry _
  · have hlen : t.outLen.toNat = _ := (congrArg BitVec.toNat hu.outLen).trans (toNat_ofNat_of_le_outCap hu.fits)
    have hmem := hu.out
    have hfits := hu.fits
    have hwriter : t.bwBuf.length = ceil8 t.bwNbits := by
      obtain hw | ⟨hbuf, hbits⟩ := hu.writer
      · exact hw
      · rw [hbuf, hbits]
        exact h.writer
    have hframe := hu.frame
    rw [EncodeFrame] at hframe
    refine UnitsOk.succeeded ?units (congrArg State.phase hframe) (congrArg State.status hframe)
      (congrArg State.errcode hframe) ?out ?cap
    case units => exact
      ⟨by rw [hframe]; exact h.inWf, by rw [hframe]; exact h.inCap, hwriter, by rw [hframe]; exact h.reader⟩
    case out => rw [hmem, addresses_setBytes_nil hlen]
    case cap =>
      rw [hlen, congrArg State.par hframe]
      exact hfits

/-- The end of DECODE keeps the units: it writes the reader consistently, or not at all (45_orchestration.md R215). -/
theorem UnitsOk.of_decodeFrame (h : UnitsOk s) (hframe : DecodeFrame s t)
    (hreader : (t.brBuf = s.brBuf ∧ t.brLimit = s.brLimit ∧ t.brPos = s.brPos) ∨ ReaderOk t) : UnitsOk t := by
  have hok : ReaderOk t := by
    obtain ⟨hbuf, hlimit, hpos⟩ | hok := hreader
    · rw [ReaderOk, hbuf, hlimit, hpos]
      exact h.reader
    · exact hok
  rw [DecodeFrame] at hframe
  exact ⟨by rw [hframe]; exact h.inWf, by rw [hframe]; exact h.inCap, by rw [hframe]; exact h.writer, hok⟩

/-- DECODE of an idle engine keeps the invariant: it ends with an error or with the decoded bytes in OUT
(45_orchestration.md R210, R236). -/
theorem Inv.execDecode (h : Inv s) (hrun : execDecode s = .next t) : Inv t := by
  have hstart : UnitsOk (commandStart s) := h.unitsOk.commandStart
  obtain ⟨c, u, e, hframe, hreader⟩ | ⟨bs, u, e, hle, hframe, hmem, hreader⟩ := execDecode_ends h.notBusy <;>
    cases e.symm.trans hrun
  · exact (hstart.of_decodeFrame hframe hreader).errorEntry c
  · have hunits := hstart.of_decodeFrame hframe hreader
    rw [DecodeFrame] at hframe
    have hpar : u.par = s.par := (congrArg State.par hframe :)
    have hstatus : u.status = ⟨true, false, false⟩ := (congrArg State.status hframe :)
    have hcap : bs.length ≤ u.par.outCap := hpar ▸ hle.trans (Nat.le_add_right ..)
    have hlen : (complete bs.length u).outLen.toNat = bs.length := toNat_ofNat_of_le_outCap hcap
    refine UnitsOk.succeeded ⟨hunits.inWf, hunits.inCap, hunits.writer, hunits.reader⟩ rfl ?status
      (congrArg State.errcode hframe) ?out ?cap
    case status => rw [complete_status, hstatus]
    case out => rw [complete_outMem, hmem, commandStart_outMem, Memory.filter_lt_zero, setBytes_filter,
      addresses_setBytes_nil hlen]
    case cap => rwa [hlen]

/-- Settles O58, by what the step of an idle engine can be: a command, which ends in the invariant, or an access, which
keeps it. -/
theorem stepKeepsInv : Obligations.StepKeepsInv := by
  unfold Obligations.StepKeepsInv
  intro s t h hstep
  obtain ⟨-, rfl⟩ | ⟨a, rest, -, hcases⟩ := step_idle_cases h.idle h.notBusy hstep
  · exact h
  obtain ⟨v, i, -, hdec, hrun⟩ | ⟨v, -, rfl⟩ | ⟨v, -, rfl⟩ | ⟨-, -, -, -, rfl⟩ | ⟨i, v, -, hi, rfl⟩ | ⟨-, rfl⟩ := hcases
  · have hcmd := h.setCommand rest (v.setWidth 8)
    obtain ⟨-, rfl⟩ | ⟨-, rfl⟩ := decodeCmd_ok hdec
    · exact hcmd.execEncode hrun
    · exact hcmd.execDecode hrun
  · exact (h.setCommand rest (v.setWidth 8)).unitsOk.commandStart.errorEntry _
  · exact (h.setInbox rest).setInLen v
  · exact h.setInbox rest
  · exact (h.setInbox rest).setInByte v hi
  · exact inv_resetState _

end invariant
end Sys2Proof.Machine

/-! PROOFS. The host interface (10_state.md R21 to R27, 20_memory.md R50) and what a step finds to do. -/

namespace Sys2Proof.Machine

/-! ### Reset -/

/-- Settles O1: the registers are written out in the reset state, and its two memories list no byte. -/
theorem resetInterface : Obligations.ResetInterface := by
  unfold Obligations.ResetInterface
  exact ⟨rfl, rfl, rfl, rfl, rfl, rfl, rfl, fun _ => rfl, fun _ => rfl⟩

section step
variable {s : State} {a : HostAction} {rest : List HostAction} {o : Outcome}

theorem step_of_fetch (h : fetch s = .other o) : step s = o := by rw [step, h]

/-- With the controller idle, an access that runs no instruction is the whole step (20_memory.md R60). -/
theorem step_access (hp : s.phase = phaseIdle) (hi : s.inbox = a :: rest)
    (h : fetchAccess a { s with inbox := rest } = .other o) : step s = o :=
  step_of_fetch ((fetch_access hp hi).trans h)

end step

/-- Settles O3: the step takes the reset, after which both memories list no byte. -/
theorem resetEvent : Obligations.ResetEvent := by
  unfold Obligations.ResetEvent
  intro s rest hp hi
  exact ⟨resetState { s with inbox := rest }, step_access hp hi rfl, rfl, rfl, rfl, rfl, rfl, rfl, rfl, rfl, rfl, rfl,
    rfl, fun _ => rfl, fun _ => rfl⟩

/-! ### Writes of REG space -/

section write
variable {s : State} {offset size : Nat} {v : BitVec 64}

theorem fetchAccess_whole {r : Reg} (h : regAccess offset size = .whole r) :
    fetchAccess (.regWrite offset size v) s = fetchRegWrite r v s := by
  rw [fetchAccess, h]

theorem fetchAccess_unlisted (h : regAccess offset size = .unlisted) :
    fetchAccess (.regWrite offset size v) s = .other (.next s) := by
  rw [fetchAccess, h]

theorem fetchAccess_partOf (h : regAccess offset size = .partOf) :
    fetchAccess (.regWrite offset size v) s = .other (.refused .partialAccess) := by
  rw [fetchAccess, h]

theorem fetchAccess_beyond (h : regAccess offset size = .beyond) :
    fetchAccess (.regWrite offset size v) s = .other (.fault .regAddress) := by
  rw [fetchAccess, h]

/-- A register that ignores the write (10_state.md R21). -/
def Reg.readOnly : Reg → Bool
  | .cmd | .inLen => false
  | .status | .errcode | .errinfo | .outLen | .phase => true

theorem fetchRegWrite_readOnly {r : Reg} (h : r.readOnly = true) : fetchRegWrite r v s = .other (.next s) := by
  cases r
  case cmd => cases h
  case inLen => cases h
  all_goals rfl

theorem fetchCommand_busy (v : Byte) (h : s.status.busy = true) : fetchCommand v s = .other (.next s) := if_pos h

end write

/-- An access of exactly one read-only register (10_state.md R21). -/
theorem regAccess_readOnly {offset size : Nat}
    (h : (offset, size) ∈ [(0x04, 1), (0x08, 1), (0x0C, 1), (0x18, 8), (0x20, 1)]) :
    ∃ r : Reg, r.readOnly = true ∧ regAccess offset size = .whole r := by
  simp only [List.mem_cons, Prod.mk.injEq, List.not_mem_nil, or_false] at h
  obtain ⟨rfl, rfl⟩ | ⟨rfl, rfl⟩ | ⟨rfl, rfl⟩ | ⟨rfl, rfl⟩ | ⟨rfl, rfl⟩ := h
  · exact ⟨.status, rfl, by decide⟩
  · exact ⟨.errcode, rfl, by decide⟩
  · exact ⟨.errinfo, rfl, by decide⟩
  · exact ⟨.outLen, rfl, by decide⟩
  · exact ⟨.phase, rfl, by decide⟩

theorem regAccess_inLen : regAccess 0x10 8 = .whole .inLen := by decide

/-- Settles O11, by what the access covers. -/
theorem hostRegisterWrite : Obligations.HostRegisterWrite := by
  unfold Obligations.HostRegisterWrite
  intro s rest offset size v hp hi hsize
  refine ⟨fun h => ?inLen, fun h => ?readOnly, fun hin hn => ?unlisted, fun h hbusy => ?busy, fun hin hr hw => ?part,
    fun h => ?beyond⟩
  case inLen =>
    obtain ⟨rfl, rfl⟩ := Prod.mk.inj h
    have hstep : step s = .next { s with inbox := rest, inLen := v } :=
      step_access hp hi (fetchAccess_whole regAccess_inLen)
    exact ⟨fun _ => hstep, _, hstep⟩
  case readOnly =>
    obtain ⟨r, hro, hr⟩ := regAccess_readOnly h
    exact step_access hp hi ((fetchAccess_whole hr).trans (fetchRegWrite_readOnly hro))
  case unlisted => exact step_access hp hi (fetchAccess_unlisted (regAccess_unlisted hsize hin hn))
  case busy =>
    obtain ⟨rfl, rfl⟩ := Prod.mk.inj h
    exact step_access hp hi ((fetchAccess_cmd v).trans (fetchCommand_busy _ hbusy))
  case part => exact step_access hp hi (fetchAccess_partOf (regAccess_partOf hin hr hw))
  case beyond => exact step_access hp hi (fetchAccess_beyond (regAccess_beyond h))

/-! ### Reads of REG space -/

section read
variable {s : State} {offset size : Nat}

theorem hostReadReg_whole {r : Reg} (h : regAccess offset size = .whole r) :
    s.hostReadReg offset size = .next (s.readReg r) := by
  rw [State.hostReadReg, h]

theorem hostReadReg_unlisted (h : regAccess offset size = .unlisted) : s.hostReadReg offset size = .next 0 := by
  rw [State.hostReadReg, h]

theorem hostReadReg_partOf (h : regAccess offset size = .partOf) :
    s.hostReadReg offset size = .refused .partialAccess := by
  rw [State.hostReadReg, h]

theorem hostReadReg_beyond (h : regAccess offset size = .beyond) : s.hostReadReg offset size = .fault .regAddress := by
  rw [State.hostReadReg, h]

theorem readReg_outLen_idle (h : s.status.busy = false) : s.readReg .outLen = s.outLen := by
  rw [State.readReg, h, if_neg Bool.false_ne_true]

end read

/-- The three flags of `STATUS`, in bits 0 to 2 (10_state.md R23). -/
theorem Status.word_flags (st : Status) :
    (st.word.setWidth 64).getLsbD 0 = st.busy ∧ (st.word.setWidth 64).getLsbD 1 = st.done ∧
      (st.word.setWidth 64).getLsbD 2 = st.fail := by
  obtain ⟨busy, done, fail⟩ := st
  revert busy done fail
  decide

/-- The bits of `STATUS` above its flags read 0 (10_state.md R23). -/
theorem Status.word_above (st : Status) {k : Nat} (h : 3 ≤ k) : (st.word.setWidth 64).getLsbD k = false := by
  have hlt : st.busy.toNat + 2 * st.done.toNat + 4 * st.fail.toNat < 2 ^ k := by
    have hpow : 2 ^ 3 ≤ 2 ^ k := Nat.pow_le_pow_right Nat.two_pos h
    have := st.busy.toNat_le
    have := st.done.toNat_le
    have := st.fail.toNat_le
    omega
  rw [BitVec.getLsbD_setWidth, Status.word, BitVec.getLsbD_ofNat, Nat.testBit_lt_two_pow hlt, Bool.and_false,
    Bool.and_false]

/-- Settles O12, by what the access covers. -/
theorem hostRegisterRead : Obligations.HostRegisterRead := by
  unfold Obligations.HostRegisterRead
  intro s
  have hstatus : s.hostReadReg 0x04 1 = .next (s.status.word.setWidth 64) :=
    hostReadReg_whole (r := .status) (by decide)
  have houtLen : s.hostReadReg 0x18 8 = .next (s.readReg .outLen) := hostReadReg_whole (by decide)
  obtain ⟨hbusy, hdone, hfail⟩ := s.status.word_flags
  refine ⟨hostReadReg_whole (r := .cmd) (by decide), ⟨_, hstatus, hbusy, hdone, hfail, fun k => Status.word_above _⟩,
    hostReadReg_whole (r := .errcode) (by decide), hostReadReg_whole (r := .errinfo) (by decide),
    hostReadReg_whole (r := .inLen) (by decide), fun h => ?idle, ⟨_, houtLen⟩,
    hostReadReg_whole (r := .phase) (by decide), fun offset size hsize => ⟨fun hin hn => ?unlisted,
      fun hin hr hw => ?part, fun h => ?beyond⟩⟩
  case idle => rw [houtLen, readReg_outLen_idle h]
  case unlisted => exact hostReadReg_unlisted (regAccess_unlisted hsize hin hn)
  case part => exact hostReadReg_partOf (regAccess_partOf hin hr hw)
  case beyond => exact hostReadReg_beyond (regAccess_beyond h)

/-! ### The buffers -/

section buffer
variable {s : State} {i : Nat}

theorem fetchAccess_inWrite (v : Byte) (h : i < s.par.inCap) :
    fetchAccess (.inWrite i v) s = .other (.next { s with inMem := s.inMem.set i v }) := if_pos h

theorem fetchAccess_inWrite_beyond (v : Byte) (h : s.par.inCap ≤ i) :
    fetchAccess (.inWrite i v) s = .other (.fault .inAddress) := if_neg h.not_gt

theorem hostReadIn_of_lt (h : i < s.par.inCap) : s.hostReadIn i = .next (s.inByte i) := if_pos h

theorem hostReadIn_of_le (h : s.par.inCap ≤ i) : s.hostReadIn i = .fault .inAddress := if_neg h.not_gt

theorem hostReadOut_of_lt (h : i < s.par.outCap) :
    s.hostReadOut i = .next (if s.status.busy then Config.freeBusyOut s.draws s.phase i else s.outByte i) := if_pos h

theorem hostReadOut_idle (h : i < s.par.outCap) (hbusy : s.status.busy = false) :
    s.hostReadOut i = .next (s.outByte i) := by
  rw [hostReadOut_of_lt h, hbusy, if_neg Bool.false_ne_true]

theorem hostReadOut_of_le (h : s.par.outCap ≤ i) : s.hostReadOut i = .fault .outAddress := if_neg h.not_gt

/-- Read after write of a byte of IN (20_memory.md R58). -/
theorem inByte_setIn (rest : List HostAction) (v : Byte) (a : Nat) :
    ({ s with inbox := rest, inMem := s.inMem.set i v } : State).inByte a = if a = i then v else s.inByte a := by
  rw [State.inByte, Memory.get?_set]
  split
  · rfl
  · rfl

end buffer

/-- Settles O13: below `IN_CAP` the step stores the byte, and above it faults. -/
theorem hostBufferAccess : Obligations.HostBufferAccess := by
  unfold Obligations.HostBufferAccess
  intro s rest i v hp hi hwf
  refine ⟨fun hlt => ?_, fun hle => step_access hp hi (fetchAccess_inWrite_beyond v hle)⟩
  have hstep : step s = .next { s with inbox := rest, inMem := s.inMem.set i v } :=
    step_access hp hi (fetchAccess_inWrite v hlt)
  refine ⟨⟨_, hstep⟩, fun _ => ⟨_, hstep, rfl, inByte_setIn rest v, ?_, fun _ _ => rfl, Memory.wf_set i v hwf⟩⟩
  exact (hostReadIn_of_lt (s := { s with inbox := rest, inMem := s.inMem.set i v }) hlt).trans
    (congrArg Host.Outcome.next ((inByte_setIn rest v i).trans (if_pos rfl)))

/-- Settles O60, by whether the index is below the capacity. -/
theorem hostBufferRead : Obligations.HostBufferRead := by
  unfold Obligations.HostBufferRead
  refine ⟨fun s a => ⟨hostReadIn_of_lt, hostReadIn_of_le, fun h => ⟨hostReadOut_idle h, _, hostReadOut_of_lt h⟩,
    hostReadOut_of_le⟩, fun s bs hbusy ⟨_, hbytes⟩ hcap a ha => ?_⟩
  rw [hostReadOut_idle (by omega) hbusy, hbytes a ha]

/-! ### What the step finds to do -/

section fetch
variable {s : State}

/-- A byte that names a command starts it on an engine that is not busy (45_orchestration.md R203). -/
theorem fetchCommand_ok {v : Byte} {i : Instr} (hb : s.status.busy = false) (hd : decodeCmd v = .ok i) :
    fetchCommand v s = .command i { s with cmd := v } := by
  rw [fetchCommand, hb, if_neg Bool.false_ne_true, hd]

theorem fetch_unit {i : Instr} (hp : s.phase ≠ phaseIdle) (hd : decodeUop s.phase s.call = .ok i) :
    fetch s = .unit i s := by
  rw [fetch, if_neg hp, hd]

theorem fetch_refused {e : DecodeError} (hp : s.phase ≠ phaseIdle) (hd : decodeUop s.phase s.call = .error e) :
    fetch s = .other (.refused (DecodeError.refusal e)) := by
  rw [fetch, if_neg hp, hd]

theorem fetch_nothing (hp : s.phase = phaseIdle) (hi : s.inbox = []) : fetch s = .command .idle s := by
  rw [fetch, if_pos hp, hi]

/-- With `PHASE` not idle the step is the unit operation, after which the controller moves on (10_state.md R22). -/
theorem step_unit {i : Instr} (hp : s.phase ≠ phaseIdle) (hd : decodeUop s.phase s.call = .ok i) :
    step s = afterUnit (exec i s) := by
  rw [step, fetch_unit hp hd]

theorem afterUnit_next (t : State) : afterUnit (.next t) = .next (if t.phase = phaseIdle then t else advance t) := by
  rw [afterUnit, apply_ite Host.Outcome.next]

end fetch

/-- Settles O6: the access is a write of `CMD`, and the command it names runs whole in the step. -/
theorem commandStarts : Obligations.CommandStarts := by
  unfold Obligations.CommandStarts
  intro s rest v i hp hb hi hd
  have hfetch := (fetch_access hp hi).trans ((fetchAccess_cmd v).trans (fetchCommand_ok hb hd))
  rw [step, hfetch]

/-- Settles O7, by whether `PHASE` is idle. -/
theorem stepRunsUnit : Obligations.StepRunsUnit := by
  unfold Obligations.StepRunsUnit
  refine ⟨fun s i hp hd => ⟨fun t ht => ?_, fun f hf => ?_⟩, fun _ => rfl, fun s hp hi => ?_⟩
  · rw [step_unit hp hd, ht, afterUnit_next]
  · rw [step_unit hp hd, hf, afterUnit]
  · rw [step, fetch_nothing hp hi]
    rfl

/-- `PHASE` codes above the table name no operation (30_encoding.md R92). -/
theorem decodeUop_of_ge {v : Byte} (o : Operands) (h : 0x13 ≤ v.toNat) : decodeUop v o = .error (.illegalPhase v) := by
  unfold decodeUop
  split
  case h_20 => rfl
  all_goals omega

/-- The code of BW_WCODE is tested (43_bit_io.md R152). -/
theorem decodeUop_bwWcode (o : Operands) :
    decodeUop 0x09#8 o = if wfCode o.code then .ok (.bwWcode o.code) else .error .badCode := rfl

/-- The limit of BR_INIT is tested (43_bit_io.md R160). -/
theorem decodeUop_brInit (o : Operands) :
    decodeUop 0x0E#8 o = if wfLimit o.limit then .ok (.brInit o.buf o.limit) else .error .badLimit := rfl

theorem wfCode_false {c : BitStr} (h : c = [] ∨ 255 < c.length) : wfCode c = false := by
  refine decide_eq_false fun ⟨hpos, hle⟩ => ?_
  obtain rfl | hlt := h
  · exact absurd hpos (by decide)
  · omega

theorem wfLimit_false {n : Nat} (h : 2 ^ 32 ≤ n) : wfLimit n = false := decide_eq_false h.not_gt

/-- Settles O8: the decoder rejects each of them, and the step refuses what the decoder rejects. -/
theorem illegalPhaseRefused : Obligations.IllegalPhaseRefused := by
  unfold Obligations.IllegalPhaseRefused
  intro s
  refine ⟨fun h => ?phase, fun hp hc => ?code, fun hp hl => ?limit⟩
  case phase =>
    have hne : s.phase ≠ phaseIdle := fun e => absurd (e ▸ h) (by decide)
    exact step_of_fetch (fetch_refused hne (decodeUop_of_ge _ h))
  case code =>
    have hd : decodeUop s.phase s.call = .error .badCode := by
      rw [hp, decodeUop_bwWcode, wfCode_false hc, if_neg Bool.false_ne_true]
    exact step_of_fetch (fetch_refused (hp ▸ by decide) hd)
  case limit =>
    have hd : decodeUop s.phase s.call = .error .badLimit := by
      rw [hp, decodeUop_brInit, wfLimit_false hl, if_neg Bool.false_ne_true]
    exact step_of_fetch (fetch_refused (hp ▸ by decide) hd)

/-! ### The order of the two programs (45_orchestration.md R201, R211) -/

section advance
variable {s : State}

theorem advance_encode (h : s.cmd = 0x01#8) : advance s = encodeAdvance s := by
  rw [advance, h]
  rfl

theorem advance_decode (h : s.cmd = 0x02#8) : advance s = decodeAdvance s := by
  rw [advance, h]
  rfl

/-- Where the controller moves to after FCOUNT (45_orchestration.md R201, step E2). -/
theorem encodeAdvance_fcount (h : s.phase = 0x01#8) :
    encodeAdvance s = if s.inLen = 0 then { emptyFields s with phase := 0x0B#8 } else { s with phase := 0x02#8 } := by
  rw [encodeAdvance, h]
  rfl

/-- After an operation in the middle of ENCODE the controller only moves to the next phase. -/
theorem encodeAdvance_next {p q : Byte} (h : s.phase = p)
    (hpq : (p, q) ∈ [(0x02#8, 0x03#8), (0x03#8, 0x04#8), (0x04#8, 0x05#8), (0x05#8, 0x06#8), (0x06#8, 0x11#8)]) :
    encodeAdvance s = { s with phase := q } := by
  simp only [List.mem_cons, Prod.mk.injEq, List.not_mem_nil, or_false] at hpq
  obtain ⟨rfl, rfl⟩ | ⟨rfl, rfl⟩ | ⟨rfl, rfl⟩ | ⟨rfl, rfl⟩ | ⟨rfl, rfl⟩ := hpq
  all_goals
    rw [encodeAdvance, h]
    rfl

theorem encodeAdvance_pack (h : s.phase = 0x11#8) : encodeAdvance s = { fillFields s with phase := 0x0B#8 } := by
  rw [encodeAdvance, h]
  rfl

theorem encodeAdvance_serialize (h : s.phase = 0x0B#8) : encodeAdvance s = complete s.artifactLen s := by
  rw [encodeAdvance, h]
  rfl

/-- Where the controller moves to after DESERIALIZE (45_orchestration.md R211, steps D2 and D3). -/
theorem decodeAdvance_deserialize (h : s.phase = 0x0C#8) :
    decodeAdvance s =
      if s.nsym = 0 then complete 0 s
      else if s.par.lmax.val < s.cOriglen then refusalEntry .outputTooLong s else { s with phase := 0x06#8 } := by
  rw [decodeAdvance, h]
  rfl

theorem decodeAdvance_canon (h : s.phase = 0x06#8) : decodeAdvance s = { s with phase := 0x0D#8 } := by
  rw [decodeAdvance, h]
  rfl

theorem decodeAdvance_dtBuild (h : s.phase = 0x0D#8) : decodeAdvance s = { s with phase := 0x12#8 } := by
  rw [decodeAdvance, h]
  rfl

theorem decodeAdvance_unpack (h : s.phase = 0x12#8) : decodeAdvance s = complete s.cOriglen s := by
  rw [decodeAdvance, h]
  rfl

/-- Completion writes the interface registers and releases OUT above the result, and no more
(45_orchestration.md R204). -/
theorem complete_frame (n : Nat) (s : State) :
    complete n s = { s with
      outLen := BitVec.ofNat 64 n, phase := 0x00#8, status := ⟨false, true, s.status.fail⟩
      outMem := (complete n s).outMem, outEpoch := (complete n s).outEpoch } := rfl

theorem get?_complete {n a : Nat} (s : State) (h : a < n) : (complete n s).outMem.get? a = s.outMem.get? a := by
  rw [complete_outMem, Memory.get?_filter_lt, if_pos h]

end advance

/-- Settles O9, phase by phase. -/
theorem phaseOrder : Obligations.PhaseOrder := by
  unfold Obligations.PhaseOrder
  refine ⟨fun s hcmd => ?_, fun s hcmd => ?_⟩
  · rw [advance_encode hcmd]
    refine ⟨fun h h0 => ?empty, fun h h0 => ?nonempty, fun h => encodeAdvance_next h (by decide),
      fun h => encodeAdvance_next h (by decide), fun h => encodeAdvance_next h (by decide),
      fun h => encodeAdvance_next h (by decide), fun h => encodeAdvance_next h (by decide), encodeAdvance_pack,
      fun h => ⟨_, encodeAdvance_serialize h, complete_frame .., fun a => get?_complete s⟩⟩
    case empty => rw [encodeAdvance_fcount h, if_pos h0, emptyFields]
    case nonempty => rw [encodeAdvance_fcount h, if_neg h0]
  · rw [advance_decode hcmd]
    refine ⟨fun h h0 hle => ?_, fun h h0 hlt => ?_, fun h h0 => ⟨_, ?_, complete_frame 0 s⟩, decodeAdvance_canon,
      decodeAdvance_dtBuild, fun h => ⟨_, decodeAdvance_unpack h, complete_frame .., fun a => get?_complete s⟩⟩
    · rw [decodeAdvance_deserialize h, if_neg h0, if_neg hle.not_gt]
    · rw [decodeAdvance_deserialize h, if_neg h0, if_pos hlt]
      exact errorEntry_failed ..
    · rw [decodeAdvance_deserialize h, if_pos h0]

end Sys2Proof.Machine

/-! PROOFS. The bits a writer is given and a reader yields, and PACK (43_bit_io.md, 45_orchestration.md R206). -/

namespace Sys2Proof.Machine

/-! ### The writer -/

/-- Settles O30: BW_FINISH yields the writer's registers, of which the writer's invariants speak. -/
theorem bwFinish : Obligations.BwFinish := by
  unfold Obligations.BwFinish
  exact fun s => ⟨exec_bwFinish s, id⟩

section writer
variable {s : State}

/-- A writer within its invariants has the byte of the next bit, or opens it now (43_bit_io.md R151). -/
theorem writerFits_of_ok (h : WriterOk s) : s.writerFits = true := by
  have hlen : s.bwBuf.length = (s.bwNbits + 7) / 8 := h.1
  exact decide_eq_true (by omega)

theorem exec_bwWbit (h : s.writerFits = true) (b : Bool) :
    exec (.bwWbit b) s = .next (s.withWriter (pushBit s.writer b)) := if_pos h

theorem exec_bwWbit_of_not_fits (h : s.writerFits = false) (b : Bool) : exec (.bwWbit b) s = .fault .bitBuffer := by
  rw [exec, execBwWbit, h, if_neg Bool.false_ne_true]

theorem exec_bwWcode (h : s.writerFits = true) (c : BitStr) :
    exec (.bwWcode c) s = .next (s.withWriter (pushBits s.writer c)) := by
  rw [exec, execBwWcode, h, Bool.true_or, if_pos rfl]

theorem exec_bwWcode_of_not_fits (h : s.writerFits = false) (b : Bool) (c : BitStr) :
    exec (.bwWcode (b :: c)) s = .fault .bitBuffer := by
  rw [exec, execBwWcode, h, List.isEmpty_cons, Bool.or_false, if_neg Bool.false_ne_true]

/-- The writer's registers are no part of what the host can see. -/
theorem sameInterface_withWriter (s : State) (w : List Byte × Nat) : SameInterface s (s.withWriter w) :=
  sameInterface_of rfl rfl rfl rfl rfl rfl rfl rfl rfl rfl rfl rfl rfl

theorem withWriter_frame {w : List Byte × Nat} {n : Nat} (h : w.2 = n) :
    s.withWriter w = { s with bwBuf := (s.withWriter w).bwBuf, bwNbits := n } := by
  subst h
  rfl

/-- After a bit the next one has its byte too (43_bit_io.md R152). -/
theorem writerFits_pushBit (h : s.writerFits = true) (b : Bool) :
    (s.withWriter (pushBit s.writer b)).writerFits = true := by
  have hfit : s.bwNbits / 8 < s.bwBuf.length ∨ (s.bwNbits % 8 = 0 ∧ s.bwNbits / 8 = s.bwBuf.length) :=
    of_decide_eq_true h
  have hlen : (pushBit s.writer b).1.length = if s.bwNbits % 8 = 0 then s.bwBuf.length + 1 else s.bwBuf.length := by
    rw [pushBit, State.writer, List.length_modify, apply_ite List.length, List.length_append]
    rfl
  refine decide_eq_true ?_
  change (s.bwNbits + 1) / 8 < (pushBit s.writer b).1.length ∨
    ((s.bwNbits + 1) % 8 = 0 ∧ (s.bwNbits + 1) / 8 = (pushBit s.writer b).1.length)
  rw [hlen]
  split <;> omega

end writer

/-- Settles O28, by what a push does to the stream. -/
theorem bwWbit : Obligations.BwWbit := by
  unfold Obligations.BwWbit
  intro s b h
  obtain ⟨hok, -, hbit, hold⟩ := pushBit_spec (w := s.writer) h b
  exact ⟨_, exec_bwWbit (writerFits_of_ok h) b, rfl, hbit, hold, hok, sameInterface_withWriter ..⟩

/-- Bits that stand in the stream from position `k` on are what it reads there. -/
theorem streamBits_eq_of {buf : List Byte} {k : Nat} {cs : BitStr}
    (h : ∀ j (hj : j < cs.length), streamBit buf (k + j) = some cs[j]) : streamBits buf k cs.length = cs := by
  refine List.ext_getElem (streamBits_length ..) fun j h1 h2 => ?_
  simp [streamBits, h j h2]

/-- Settles O29: the pushes of the code put its bits at the end of the stream, and one push leaves room for the
next. -/
theorem bwWcode : Obligations.BwWcode := by
  unfold Obligations.BwWcode
  refine ⟨fun s c h => ?_, fun s b c _ => ?_⟩
  · obtain ⟨hok, hnbits, hold, hnew⟩ := pushBits_spec (w := s.writer) h c
    exact ⟨_, exec_bwWcode (writerFits_of_ok h) c, withWriter_frame hnbits, streamBits_eq_of hnew, hold, hok,
      sameInterface_withWriter ..⟩
  · cases h : s.writerFits with
    | true =>
      rw [exec_bwWcode h, execAll_cons_of_next (exec_bwWbit h b),
        execAll_cons_of_next (exec_bwWcode (writerFits_pushBit h b) c), execAll_nil]
      rfl
    | false => rw [exec_bwWcode_of_not_fits h, execAll, exec_bwWbit_of_not_fits h]

/-! ### The write-read law -/

theorem execAll_append {a b : List Instr} {s t : State} (h : execAll a s = .next t) :
    execAll (a ++ b) s = execAll b t := by
  induction a generalizing s with
  | nil => rw [List.nil_append, Host.Outcome.next.inj h]
  | cons i a ih =>
    rw [List.cons_append, execAll]
    rw [execAll] at h
    split at h
    case h_1 => exact ih h
    case h_2 => cases h
    case h_3 => cases h

/-- BW_WBIT of each bit in turn is the pushes of the bits. -/
theorem execAll_bwWbit (w : BitStr) {s : State} (h : WriterOk s) :
    execAll (w.map .bwWbit) s = .next (s.withWriter (pushBits s.writer w)) := by
  induction w generalizing s with
  | nil => rfl
  | cons b w ih =>
    have hok : WriterOk (s.withWriter (pushBit s.writer b)) := (pushBit_spec (w := s.writer) h b).1
    rw [List.map_cons, execAll_cons_of_next (exec_bwWbit (writerFits_of_ok h) b), ih hok]
    rfl

/-- A fresh writer that is given bits and finished yields their buffer (43_bit_io.md R150 to R153). -/
theorem execAll_write (w : BitStr) (s : State) : ∃ t, execAll (.bwReset :: w.map .bwWbit ++ [.bwFinish]) s = .next t ∧
    t.result = .buffer (pushBits ([], 0) w).1 w.length := by
  have hempty : WriterOk { s with bwBuf := [], bwNbits := 0 } := packed_empty
  refine ⟨{ s.withWriter (pushBits ([], 0) w) with result := .buffer (pushBits ([], 0) w).1 (pushBits ([], 0) w).2 },
    ?_, congrArg (Yield.buffer _) (packed_pushBits w).2.1⟩
  rw [List.cons_append, execAll_cons_of_next (exec_bwReset s), execAll_append (execAll_bwWbit w hempty),
    execAll_cons_of_next (exec_bwFinish _), execAll_nil]
  rfl

/-- What BR_RBIT yields with these bits not read: the first of them, or EndOfStream (43_bit_io.md R162). -/
def readYield (b : Option Bool) : Yield :=
  match b with
  | some b => .bit b
  | none => .endOfStream

/-- BR_RBIT takes the first of the bits not read. -/
theorem exec_brRbit_unread {s : State} (h : ReaderOk s) :
    ∃ u, exec .brRbit s = .next u ∧ ReaderOk u ∧ u.unread = s.unread.tail ∧ u.result = readYield s.unread.head? := by
  have hbit := nextBit_eq h
  cases hu : s.unread with
  | nil =>
    rw [hu] at hbit
    exact ⟨_, exec_brRbit_of_nextBit_none hbit, h, hu, rfl⟩
  | cons b rest =>
    rw [hu] at hbit
    obtain ⟨-, hrest, hok⟩ := nextBit_cons h hu
    exact ⟨_, exec_brRbit_of_nextBit_some hbit, hok, hrest, rfl⟩

theorem execAll_brRbit (k : Nat) {s : State} (h : ReaderOk s) :
    ∃ u, execAll (List.replicate k .brRbit) s = .next u ∧ ReaderOk u ∧ u.unread = s.unread.drop k := by
  induction k generalizing s with
  | zero => exact ⟨s, rfl, h, rfl⟩
  | succ k ih =>
    obtain ⟨t, hrun, ht, hunread, -⟩ := exec_brRbit_unread h
    obtain ⟨u, hrest, hu, hdrop⟩ := ih ht
    refine ⟨u, ?_, hu, ?_⟩
    · rw [List.replicate_succ, execAll_cons_of_next hrun, hrest]
    · rw [hdrop, hunread, List.drop_tail]

/-- Read number `k` of a reader yields bit `k` of the bits not read, and EndOfStream past them. -/
theorem execAll_read (k : Nat) {s : State} (h : ReaderOk s) :
    ∃ u, execAll (List.replicate (k + 1) .brRbit) s = .next u ∧ u.result = readYield s.unread[k]? := by
  obtain ⟨t, hreads, ht, hdrop⟩ := execAll_brRbit k h
  obtain ⟨u, hlast, -, -, hresult⟩ := exec_brRbit_unread ht
  refine ⟨u, ?_, ?_⟩
  · rw [List.replicate_succ', execAll_append hreads, execAll_cons_of_next hlast, execAll_nil]
  · rw [hresult, hdrop, List.head?_drop]

/-- Settles O33: the bits not read by a reader of the yielded pair are the bits that were written. -/
theorem writeRead : Obligations.WriteRead := by
  unfold Obligations.WriteRead
  intro s w
  obtain ⟨t, hwrite, hresult⟩ := execAll_write w s
  refine ⟨t, _, hwrite, hresult, fun s' k => ?_⟩
  obtain ⟨⟨hlen, -⟩, hnbits, -⟩ := packed_pushBits w
  have hok : ReaderOk (attachReader (pushBits ([], 0) w).1 w.length s') := ⟨Nat.zero_le _, hlen.trans (hnbits ▸ rfl)⟩
  obtain ⟨u, hread, hyield⟩ := execAll_read k hok
  refine ⟨u, ?_, ?_⟩
  · rw [execAll_cons_of_next (exec_brInit ..), hread]
  · have hunread : (attachReader (pushBits ([], 0) w).1 w.length s').unread = w := streamBits_pushBits w
    rw [hyield, hunread]
    rfl

/-! ### PACK -/

section pack
variable {s : State}

theorem exec_pack (h : s.inLen.toNat ≤ s.par.inCap) : exec .pack s = .next (packInput s) := if_pos (decide_eq_true h)

/-- The writer after PACK: the pushes of all the bits packed, into an empty buffer (45_orchestration.md R206). -/
theorem writer_packInput (s : State) : (packInput s).writer = pushBits ([], 0) s.packedBits :=
  foldl_pushBits _ _ _

theorem writerOk_packInput (s : State) : WriterOk (packInput s) := by
  rw [writerOk_iff, writer_packInput]
  exact (packed_pushBits _).1

theorem streamBits_packInput (s : State) :
    streamBits (packInput s).bwBuf 0 (packInput s).bwNbits = s.packedBits := by
  have hbuf : (packInput s).bwBuf = (pushBits ([], 0) s.packedBits).1 := congrArg Prod.fst (writer_packInput s)
  have hnbits : (packInput s).bwNbits = (pushBits ([], 0) s.packedBits).2 := congrArg Prod.snd (writer_packInput s)
  rw [hbuf, hnbits, (packed_pushBits _).2.1, streamBits_pushBits]

theorem packInput_frame (s : State) :
    packInput s = { s with
      bwBuf := (packInput s).bwBuf, bwNbits := (packInput s).bwNbits
      result := .buffer (packInput s).bwBuf (packInput s).bwNbits, draws := (packInput s).draws } := rfl

/-- PACK takes no free value when every input byte has a code (log 16). -/
theorem packInput_draws (h : ∀ b ∈ s.input, (tab s.code b).isSome) : (packInput s).draws = s.draws := by
  refine if_neg fun hany => ?_
  obtain ⟨b, hb, hnone⟩ := List.any_eq_true.1 hany
  rw [Option.isNone_eq_false_iff.2 (h b hb)] at hnone
  cases hnone

/-- The writer and what it yields are no part of what the host can see. -/
theorem sameInterface_packInput (s : State) : SameInterface s (packInput s) :=
  sameInterface_of rfl rfl rfl rfl rfl rfl rfl rfl rfl rfl rfl rfl rfl

theorem codeOfInput_of_some {i : Nat} {c : BitStr} (h : tab s.code (s.inByte i) = some c) : s.codeOfInput i = c := by
  rw [State.codeOfInput, h, Option.getD_some]

theorem inByte_mem_input {i : Nat} (hi : i < s.inLen.toNat) : s.inByte i ∈ s.input := by
  refine List.mem_map.2 ⟨i, List.mem_range.2 hi, ?_⟩
  rw [Nat.zero_add]

/-- The bits packed are the codes of the input bytes, where each has one (30_encoding.md R81). -/
theorem packedBits_of_coded (h : ∀ b ∈ s.input, (tab s.code b).isSome) :
    s.packedBits = s.input.flatMap fun b => (tab s.code b).getD [] := by
  rw [State.packedBits, State.input, State.inRange, List.flatMap_map]
  refine List.flatMap_congr fun i hi => ?_
  obtain ⟨c, hc⟩ := Option.isSome_iff_exists.1 (h _ (inByte_mem_input (List.mem_range.1 hi)))
  rw [Nat.zero_add, codeOfInput_of_some hc, hc, Option.getD_some]

end pack

/-- Settles O40: PACK pushes the codes of the input, in order, into an empty buffer. -/
theorem pack : Obligations.Pack := by
  unfold Obligations.Pack
  intro s hfit hcoded
  have hframe := packInput_frame s
  rw [packInput_draws hcoded] at hframe
  exact ⟨packInput s, exec_pack hfit, hframe, writerOk_packInput s,
    (streamBits_packInput s).trans (packedBits_of_coded hcoded), sameInterface_packInput s⟩

end Sys2Proof.Machine

/-! PROOFS. What the unit operations of ENCODE build: the counters, the tree, and the code lengths
(40_frequency.md, 41_tree_builder.md, 42_code_assigner.md R130 to R132). -/

namespace Sys2Proof.Machine

/-! ### The queue -/

/-- Two ascending lists with the same members are equal (10_state.md R32). -/
theorem eq_of_ascending {l m : List Nat} (hl : l.Pairwise (· < ·)) (hm : m.Pairwise (· < ·)) (h : ∀ i, i ∈ l ↔ i ∈ m) :
    l = m :=
  have hperm : l.Perm m := (List.perm_ext_iff_of_nodup (hl.imp Nat.ne_of_lt) (hm.imp Nat.ne_of_lt)).2 h
  hperm.eq_of_pairwise (fun _ _ _ _ h h' => absurd h' h.asymm) hl hm

/-- No node is before another that is before it (41_tree_builder.md R112). -/
theorem queueBefore_asymm {node : Nat → Node} {i j : Nat} (h : queueBefore node i j = true) :
    queueBefore node j i = false := by
  have h' : (node i).freq < (node j).freq ∨ ((node i).freq = (node j).freq ∧ i < j) := of_decide_eq_true h
  exact decide_eq_false (by omega)

/-- The first of a queue is one node only. -/
theorem least_unique {node : Nat → Node} {l : List Nat} {a b : Nat} (ha : a ∈ l) (hb : b ∈ l)
    (hla : ∀ j ∈ l, j = a ∨ queueBefore node a j = true) (hlb : ∀ j ∈ l, j ≠ b → queueBefore node b j = true) :
    a = b := by
  by_contra hne
  have hba := hlb a ha hne
  obtain heq | hab := hla b hb
  · exact hne heq.symm
  · rw [queueBefore_asymm hab] at hba
    cases hba

section merge
variable {s : State}

theorem exec_tbMerge (h : s.ncount + (s.pq.length - 1) ≤ 511) : exec .tbMerge s = .next (mergeTree s) :=
  exec_tbMerge_of_nodesFit (decide_eq_true (.inr h))

theorem mergeLoop_of_le (n : Nat) (h : s.pq.length ≤ 1) : mergeLoop n s = s := by
  cases n with
  | zero => rfl
  | succ n => exact if_neg h.not_gt

theorem mergeLoop_succ (n : Nat) (h : 2 ≤ s.pq.length) : mergeLoop (n + 1) s = mergeLoop n (mergePass s) := if_pos h

/-- The merge of a queue with two nodes or more is a pass and the merge of what it leaves (41_tree_builder.md R114). -/
theorem mergeTree_pass (hq : QueueOk s) (h : 2 ≤ s.pq.length) : mergeTree s = mergeTree (mergePass s) := by
  obtain ⟨-, -, hlen, -⟩ := mergePass_queue hq h
  rw [mergeTree, mergeTree, hlen, ← mergeLoop_succ _ h, Nat.sub_add_cancel (by omega)]

/-- The pass takes the two nodes that are first and second, and queues the node over both
(41_tree_builder.md R112, R114, R115). -/
theorem mergePass_eq {a b : Nat} {q : List Nat} (hq : QueueOk s) (ha : a ∈ s.pq) (hb : b ∈ s.pq) (hab : a ≠ b)
    (hla : ∀ j ∈ s.pq, j ≠ a → queueBefore s.nodeAt a j = true)
    (hlb : ∀ j ∈ s.pq, j ≠ a → j ≠ b → queueBefore s.nodeAt b j = true)
    (hasc : q.Pairwise (· < ·)) (hmem : ∀ i, i ∈ q ↔ (i ∈ s.pq ∧ i ≠ a ∧ i ≠ b) ∨ i = s.ncount)
    (h2 : 2 ≤ s.pq.length) :
    mergePass s = { s with
      node := s.node.setIfInBounds s.ncount (.inner ((s.nodeAt a).freq + (s.nodeAt b).freq) a (some b))
      pq := q, ncount := s.ncount + 1 } := by
  have hnodup : s.pq.Nodup := hq.1.imp Nat.ne_of_lt
  obtain ⟨a', b', ha', hb', hla', hlb', hpass⟩ := mergePass_spec s h2
  obtain rfl : a' = a := least_unique ha' ha hla' hla
  obtain rfl : b' = b := by
    refine least_unique hb' (hnodup.mem_erase_iff.2 ⟨hab.symm, hb⟩) hlb' fun j hj => ?_
    obtain ⟨hja, hj⟩ := hnodup.mem_erase_iff.1 hj
    exact hlb j hj hja
  have hqueue : pqInsert s.ncount ((s.pq.erase a').erase b') = q := by
    have hlt : ∀ i ∈ (s.pq.erase a').erase b', i < s.ncount := fun i hi =>
      hq.2 i (List.mem_of_mem_erase (List.mem_of_mem_erase hi))
    obtain ⟨⟨hpairs, -⟩, -⟩ := mergePass_queue hq h2
    rw [hpass, addNode_pq] at hpairs
    refine eq_of_ascending hpairs hasc fun i => ?_
    rw [hmem, pqInsert_last hlt, List.mem_append, List.mem_singleton, (hnodup.erase a').mem_erase_iff,
      hnodup.mem_erase_iff]
    tauto
  rw [hpass, addNode]
  exact congrArg (fun p => ({ s with
    node := s.node.setIfInBounds s.ncount (.inner ((s.nodeAt a').freq + (s.nodeAt b').freq) a' (some b'))
    pq := p, ncount := s.ncount + 1 } : State)) hqueue

/-- How the merge loop ends: one node is left, the last that was made if any was, and no entry but those made is
written (41_tree_builder.md R114, R117). -/
theorem mergeLoop_ends (n : Nat) {s : State} (hq : QueueOk s) (hne : s.pq ≠ []) (hlen : s.pq.length ≤ n) :
    ∃ r, (mergeLoop n s).pq = [r] ∧ (mergeLoop n s).ncount = s.ncount + (s.pq.length - 1) ∧
      (2 ≤ s.pq.length → r + 1 = (mergeLoop n s).ncount) ∧
      ∀ k, k < s.ncount ∨ (mergeLoop n s).ncount ≤ k → (mergeLoop n s).nodeAt k = s.nodeAt k := by
  have hpos := List.length_pos_iff.2 hne
  induction n generalizing s with
  | zero => omega
  | succ n ih =>
    obtain h1 | h2 : s.pq.length = 1 ∨ 2 ≤ s.pq.length := by omega
    · obtain ⟨r, hr⟩ := List.length_eq_one_iff.1 h1
      rw [mergeLoop_of_le _ h1.le]
      exact ⟨r, hr, by omega, fun h => by omega, fun _ _ => rfl⟩
    · obtain ⟨hq', ⟨l, hl⟩, hlen', hcount, hnode⟩ := mergePass_queue hq h2
      have hpos' : 0 < (mergePass s).pq.length := by omega
      obtain ⟨r, hr, hc, hlast, hkeep⟩ := ih hq' (List.length_pos_iff.1 hpos') (by omega) hpos'
      rw [mergeLoop_succ n h2]
      refine ⟨r, hr, by omega, fun _ => ?_, fun k hk => ?_⟩
      · by_cases h : 2 ≤ (mergePass s).pq.length
        · exact hlast h
        · rw [mergeLoop_of_le n (by omega)] at hr ⊢
          have hsingle : l ++ [s.ncount] = [] ++ [r] := hl.symm.trans hr
          have hlast := (List.append_inj' hsingle rfl).2
          rw [← List.singleton_inj.1 hlast, hcount]
      · rw [hkeep k (by omega), hnode k (by omega)]

/-- What TB_MERGE leaves of a queue with members (41_tree_builder.md R114, R117). -/
theorem mergeTree_ends (hq : QueueOk s) (hne : s.pq ≠ []) :
    (mergeTree s).pq = [] ∧ (mergeTree s).draws = s.draws ∧ (mergeTree s).ncount = s.ncount + (s.pq.length - 1) ∧
      (2 ≤ s.pq.length → (mergeTree s).root + 1 = (mergeTree s).ncount) ∧
      ∀ k, k < s.ncount ∨ (mergeTree s).ncount ≤ k → (mergeTree s).nodeAt k = s.nodeAt k := by
  obtain ⟨r, hr, hcount, hlast, hkeep⟩ := mergeLoop_ends s.pq.length hq hne le_rfl
  have hdraws : (mergeLoop s.pq.length s).draws = s.draws := (congrArg State.draws (mergeLoop_frame s.pq.length s) :)
  rw [mergeTree, takeRoot_eq hr]
  exact ⟨rfl, hdraws, hcount, hlast, hkeep⟩

/-- The nodes and the queue are no part of what the host can see. -/
theorem sameInterface_mergeTree (s : State) : SameInterface s (mergeTree s) := by
  rw [mergeTree_frame]
  exact sameInterface_of rfl rfl rfl rfl rfl rfl rfl rfl rfl rfl rfl rfl rfl

end merge

/-- Settles O17: the least node is one only, so the pass takes `a` and then `b`; the loop goes on with what the pass
leaves and writes no entry below. -/
theorem tbMergePass : Obligations.TbMergePass := by
  unfold Obligations.TbMergePass
  intro s a b q hq hfit ha hb hab hla hlb hasc hmem
  have h2 : 2 ≤ s.pq.length := by
    have hsub : [a, b] ⊆ s.pq := by simp [ha, hb]
    exact (List.subperm_of_subset (by simpa using hab) hsub).length_le
  have hpass := mergePass_eq hq ha hb hab (fun j hj h => decide_eq_true (hla j hj h))
    (fun j hj h h' => decide_eq_true (hlb j hj h h')) hasc hmem h2
  obtain ⟨hq', -, hlen, hcount, -⟩ := mergePass_queue hq h2
  have hrun : exec .tbMerge s = .next (mergeTree (mergePass s)) :=
    (exec_tbMerge hfit).trans (by rw [mergeTree_pass hq h2])
  have hrun' : exec .tbMerge (mergePass s) = .next (mergeTree (mergePass s)) := exec_tbMerge (by omega)
  refine ⟨hpass ▸ hrun.trans hrun'.symm, _, hrun, ?_⟩
  obtain ⟨-, -, -, -, hkeep⟩ := mergeTree_ends hq' (List.length_pos_iff.1 (by omega))
  rw [hkeep s.ncount (by omega), hpass]
  exact (nodeAt_addNode (s := { s with pq := q }) _ (by change s.ncount < 511; omega) s.ncount).trans (if_pos rfl)

/-- Settles O18: a lone member is extracted at once; else the loop leaves the last node made. -/
theorem tbMergeEnds : Obligations.TbMergeEnds := by
  unfold Obligations.TbMergeEnds
  refine ⟨fun s r hr => ?_, fun s hq hne hfit => ?_⟩
  · have hone : s.pq.length ≤ 1 := by rw [hr]; rfl
    rw [exec_tbMerge_of_nodesFit (decide_eq_true (.inl hone)), mergeTree, mergeLoop_of_le _ hone, takeRoot_eq hr]
  · obtain ⟨hpq, hdraws, hcount, hlast, hkeep⟩ := mergeTree_ends hq hne
    have hframe := mergeTree_frame s
    rw [hpq, hdraws] at hframe
    exact ⟨mergeTree s, exec_tbMerge hfit, hframe, hcount, hlast, fun k hk => hkeep k (.inl hk),
      fun k hk => hkeep k (.inr hk), sameInterface_mergeTree s⟩

/-! ### The counters -/

/-- The counters of the symbols counted are all of the sum (40_frequency.md R101). -/
theorem sum_freq (freq : Vector Nat 256) : (allBytes.map (tab freq)).sum = total freq := by
  rw [total, present, sum_filter_eq]
  refine congrArg List.sum (List.map_congr_left fun b _ => ?_)
  split
  · rfl
  · next h => exact Nat.eq_zero_of_not_pos fun hpos => h (decide_eq_true hpos)

section freq
variable {s t : State}

theorem execEncode_busy (h : s.status.busy = true) : execEncode s = .next s := if_pos h

theorem execDecode_busy (h : s.status.busy = true) : execDecode s = .next s := if_pos h

/-- How a DECODE that completes ends: ignored, in error entry, or in completion (45_orchestration.md R203, R236). -/
theorem execDecode_cases (h : execDecode s = .next t) :
    t = s ∨ (∃ c u, DecodeFrame (commandStart s) u ∧ t = errorEntry c u) ∨
      ∃ n u, DecodeFrame (commandStart s) u ∧ t = complete n u := by
  cases hb : s.status.busy with
  | true =>
    rw [execDecode_busy hb] at h
    exact .inl (Host.Outcome.next.inj h).symm
  | false =>
    obtain ⟨c, u, e, hframe, -⟩ | ⟨bs, u, e, -, hframe, -, -⟩ := execDecode_ends hb <;> cases e.symm.trans h
    · exact .inr (.inl ⟨c, u, hframe, rfl⟩)
    · exact .inr (.inr ⟨bs.length, u, hframe, rfl⟩)

theorem DecodeFrame.freq (h : DecodeFrame s t) : t.freq = s.freq := by
  rw [DecodeFrame] at h
  rw [h]

theorem execDecode_freq (h : execDecode s = .next t) : t.freq = s.freq := by
  obtain rfl | ⟨c, u, hframe, rfl⟩ | ⟨n, u, hframe, rfl⟩ := execDecode_cases h
  · rfl
  · exact hframe.freq
  · exact hframe.freq

theorem execCanon_freq (h : execCanon s = .next t) : t.freq = s.freq := by
  obtain e | ⟨u, e, rfl⟩ := execCanon_frame h
  · rw [e]
  · rw [errorEntry_freq, e]

theorem execDeserialize_freq (h : execDeserialize s = .next t) : t.freq = s.freq := by
  obtain e | ⟨c, u, e, rfl⟩ := execDeserialize_frame h
  · exact e.decode.freq
  · exact e.decode.freq

theorem execDecsym_freq (h : execDecsym s = .next t) : t.freq = s.freq := by
  obtain e | ⟨c, u, e, rfl⟩ := execDecsym_frame h
  · rw [e]
  · rw [errorEntry_freq, e]

theorem execUnpack_freq (h : execUnpack s = .next t) : t.freq = s.freq := by
  obtain ⟨u, rfl | ⟨c, rfl⟩, e⟩ := execUnpack_frame h
  · rw [e]
  · rw [errorEntry_freq, e]

/-- No instruction but ENCODE and FCOUNT writes the counters (40_frequency.md R101). -/
theorem exec_freq {i : Instr} (hencode : i ≠ .encode) (hfcount : i ≠ .fcount) (h : exec i s = .next t) :
    t.freq = s.freq := by
  cases i
  case encode => exact absurd rfl hencode
  case fcount => exact absurd rfl hfcount
  case decode => exact execDecode_freq h
  case idle => rw [Host.Outcome.next.inj h]
  case tbInit => rw [execTbInit_frame h]
  case tbMerge => rw [execTbMerge_frame h]
  case tbFix1 => rw [execTbFix1_frame h]
  case walk => rw [execWalk_frame h]
  case canon => exact execCanon_freq h
  case bwReset => rw [execBwReset_frame h]
  case bwWbit => rw [execBwWbit_frame h]
  case bwWcode => rw [execBwWcode_frame h]
  case bwFinish => rw [execBwFinish_frame h]
  case serialize => rw [execSerialize_frame h]
  case deserialize => exact execDeserialize_freq h
  case dtBuild => rw [execDtBuild_frame h]
  case brInit => rw [execBrInit_frame h]
  case brRbit => rw [execBrRbit_frame h]
  case decsym => exact execDecsym_freq h
  case pack => rw [execPack_frame h]
  case unpack => exact execUnpack_freq h

end freq

/-- Settles O15: each byte of the input is counted once, and no other instruction's frame has the counters in it. -/
theorem fcountSum : Obligations.FcountSum := by
  unfold Obligations.FcountSum
  refine ⟨fun s t h => ?_, fun i s t => exec_freq⟩
  by_cases hfit : s.inLen.toNat ≤ s.par.inCap
  · obtain rfl := Host.Outcome.next.inj ((execFcount_of_le hfit).symm.trans h)
    rw [sum_freq, total_countBytes, input_length]
  · rw [exec_fcount, execFcount, if_neg (by simpa [State.inputFits] using hfit)] at h
    cases h

/-! ### The finished tree -/

section tree
variable {s : State}

/-- Which nodes the children of a node are, and that every node but the root is a child once
(41_tree_builder.md R117, R118). -/
structure NodesOk (s : State) : Prop where
  single : ∀ i f l, i < s.ncount → s.nodeAt i = .inner f l none → l < i ∧ f = (s.nodeAt l).freq
  pair : ∀ i f l r, i < s.ncount → s.nodeAt i = .inner f l (some r) →
    l < i ∧ r < i ∧ l ≠ r ∧ f = (s.nodeAt l).freq + (s.nodeAt r).freq
  parent : ∀ k, k < s.ncount → k ≠ s.root → ∃ i, i < s.ncount ∧ ChildOf s.nodeAt k i ∧
    ∀ j, j < s.ncount → ChildOf s.nodeAt k j → j = i

/-- The queue after TB_INIT is all the nodes made (41_tree_builder.md R113). -/
theorem queueOk_initTree (s : State) : QueueOk (initTree s) := by
  obtain ⟨hcount, -, hpq, -⟩ := initTree_spec s
  rw [QueueOk, hcount, hpq]
  exact ⟨List.pairwise_lt_range, fun i => List.mem_range.1⟩

theorem initTree_pq_ne_nil (h : present s.freq ≠ []) : (initTree s).pq ≠ [] := by
  obtain ⟨-, -, hpq, -⟩ := initTree_spec s
  rw [hpq, Ne, List.range_eq_nil]
  exact mt List.length_eq_zero_iff.1 h

theorem initTree_merges (s : State) : (initTree s).ncount + ((initTree s).pq.length - 1) ≤ 511 := by
  obtain ⟨hcount, -, hpq, -⟩ := initTree_spec s
  have := present_length_le s.freq
  rw [hcount, hpq, List.length_range]
  omega

/-- The nodes TB_INIT makes are leaves (41_tree_builder.md R113). -/
theorem nodeAt_initTree {k : Nat} (hk : k < (initTree s).ncount) : ∃ f b, (initTree s).nodeAt k = .leaf f b := by
  obtain ⟨hcount, -, -, hleaf, -⟩ := initTree_spec s
  exact ⟨_, _, hleaf k (hcount ▸ hk)⟩

theorem not_childOf_leaf {node : Nat → Node} {k i f : Nat} {b : Byte} (h : node i = .leaf f b) :
    ¬ ChildOf node k i := by
  rintro ⟨f', l, r, e, -⟩
  cases h.symm.trans e

theorem childrenOk_initTree (s : State) : ChildrenOk (initTree s) := by
  intro i f l r hi hnode
  obtain ⟨f', b, hleaf⟩ := nodeAt_initTree hi
  cases hleaf.symm.trans hnode

theorem parentsOk_initTree (s : State) : ParentsOk (initTree s) where
  below k i hi hchild := by
    obtain ⟨f, b, hleaf⟩ := nodeAt_initTree hi
    exact absurd hchild (not_childOf_leaf hleaf)
  queued k _ _ j hj := by
    obtain ⟨f, b, hleaf⟩ := nodeAt_initTree hj
    exact not_childOf_leaf hleaf
  one k hk hout := by
    obtain ⟨hcount, -, hpq, -⟩ := initTree_spec s
    exact absurd (by rw [hpq]; exact List.mem_range.2 (hcount ▸ hk)) hout
  once i f l r hi hnode := by
    obtain ⟨f', b, hleaf⟩ := nodeAt_initTree hi
    cases hleaf.symm.trans hnode
  two i f l hi hnode := by
    obtain ⟨f', b, hleaf⟩ := nodeAt_initTree hi
    cases hleaf.symm.trans hnode

/-- The lone member of the queue becomes the root, alone without a parent. -/
theorem nodesOk_takeRoot {r : Nat} (hr : s.pq = [r]) (hchildren : ChildrenOk s) (hparents : ParentsOk s) :
    NodesOk (takeRoot s) := by
  rw [takeRoot_eq hr]
  refine ⟨fun i f l hi hnode => absurd hnode (hparents.two i f l hi), fun i f l r' hi hnode => ?_,
    fun k hk hroot => hparents.one k hk (by rw [hr]; simpa using hroot)⟩
  obtain ⟨hl, hr', hf⟩ := hchildren i f l r' hi hnode
  exact ⟨hl, hr', hparents.once i f l r' hi hnode, hf⟩

/-- The merge keeps which nodes are children. -/
theorem nodesOk_mergeTree (h : present s.freq ≠ []) : NodesOk (mergeTree (initTree s)) := by
  have hq := queueOk_initTree s
  have hfit := initTree_merges s
  obtain ⟨r, hr, -⟩ := mergeLoop_ends _ hq (initTree_pq_ne_nil h) le_rfl
  exact nodesOk_takeRoot hr (mergeLoop_children _ hq hfit (childrenOk_initTree s))
    (mergeLoop_parents _ hq hfit (parentsOk_initTree s))

theorem nodeAt_fixOne (h : s.nsym = 1) (k : Nat) :
    (fixOne s).nodeAt k = if k = 1 then .inner (s.nodeAt 0).freq 0 none else s.nodeAt k := by
  rw [fixOne_of_nsym_one h]
  exact nodeAt_set { s with ncount := 2, root := 1 } 1 (by decide) _ k

/-- The tree of one symbol is a root with one child, the leaf (41_tree_builder.md R116). -/
theorem nodesOk_fixOne {f : Nat} {b : Byte} (h : s.nsym = 1) (hleaf : s.nodeAt 0 = .leaf f b) :
    NodesOk (fixOne s) := by
  have h0 : (fixOne s).nodeAt 0 = .leaf f b := (nodeAt_fixOne h 0).trans hleaf
  have h1 : (fixOne s).nodeAt 1 = .inner f 0 none := (nodeAt_fixOne h 1).trans (by rw [hleaf]; rfl)
  have hcount : (fixOne s).ncount = 2 := by rw [fixOne_of_nsym_one h]
  have hroot : (fixOne s).root = 1 := by rw [fixOne_of_nsym_one h]
  have hcases : ∀ i, i < (fixOne s).ncount → i = 0 ∨ i = 1 := fun i hi => by omega
  constructor
  case single =>
    intro i f' l hi hnode
    obtain rfl | rfl := hcases i hi
    · cases h0.symm.trans hnode
    · cases h1.symm.trans hnode
      exact ⟨Nat.one_pos, by rw [h0]; rfl⟩
  case pair =>
    intro i f' l r hi hnode
    obtain rfl | rfl := hcases i hi
    · cases h0.symm.trans hnode
    · cases h1.symm.trans hnode
  case parent =>
    intro k hk hne
    obtain rfl : k = 0 := (hcases k hk).resolve_right (hroot ▸ hne)
    refine ⟨1, by omega, ⟨f, 0, none, h1, .inl rfl⟩, fun j hj hchild => ?_⟩
    exact (hcases j hj).resolve_left fun e => not_childOf_leaf h0 (e ▸ hchild)

theorem mergeTree_nsym (s : State) : (mergeTree s).nsym = s.nsym := by rw [mergeTree_frame]

theorem nodesOk_buildTree (h : present s.freq ≠ []) : NodesOk (buildTree s) := by
  obtain ⟨hcount, hnsym, -⟩ := initTree_spec s
  have hn : (mergeTree (initTree s)).nsym = (present s.freq).length := (mergeTree_nsym _).trans hnsym
  by_cases hone : (present s.freq).length = 1
  · obtain ⟨f, b, hleaf⟩ := nodeAt_initTree (s := s) (k := 0) (by omega)
    obtain ⟨-, -, -, -, hkeep⟩ := mergeTree_ends (queueOk_initTree s) (initTree_pq_ne_nil h)
    exact nodesOk_fixOne (hn.trans hone) ((hkeep 0 (.inl (by omega))).trans hleaf)
  · rw [buildTree, fixOne_of_nsym_ne_one (by rwa [hn])]
    exact nodesOk_mergeTree h

theorem present_ne_nil (h : ∃ b, 0 < tab s.freq b) : present s.freq ≠ [] := by
  obtain ⟨b, hb⟩ := h
  exact List.ne_nil_of_mem (mem_present.2 hb)

theorem execAll_build (s : State) : execAll [.tbInit, .tbMerge, .tbFix1] s = .next (buildTree s) :=
  execAll_buildTree [] s

/-- Exactly the symbols counted have a leaf (41_tree_builder.md R118). -/
theorem exists_path_iff {T : HTree} (h : T.leaves.Perm (countedLeaves s.freq)) (b : Byte) :
    (∃ p, (b, p) ∈ T.paths []) ↔ 0 < tab s.freq b := by
  refine ⟨fun ⟨p, hp⟩ => mem_present.1 ((paths_keys h).mem_iff.1 (List.mem_map_of_mem hp)), fun hb => ?_⟩
  exact exists_path h (mem_present.2 hb)

/-- A symbol has one path. -/
theorem path_unique {T : HTree} (h : T.leaves.Perm (countedLeaves s.freq)) {b : Byte} {p q : BitStr}
    (hp : (b, p) ∈ T.paths []) (hq : (b, q) ∈ T.paths []) : p = q :=
  congrArg Prod.snd (List.inj_on_of_nodup_map (paths_keys_nodup h) hp hq rfl)

theorem weight_of_leaves {T : HTree} (h : T.leaves.Perm (countedLeaves s.freq)) : T.weight = total s.freq := by
  rw [T.weight_eq, (h.map _).sum_eq, countedLeaves, List.map_map]
  rfl

end tree

/-- Settles O20: the merge makes one tree over the leaves of the symbols counted, and keeps which node is a child of
which. -/
theorem builtTree : Obligations.BuiltTree := by
  unfold Obligations.BuiltTree
  intro s hex
  have hpos := present_ne_nil hex
  obtain ⟨T, hholds, hleaves, -, hdepth, -, -, -, hcount, hroot, hframe⟩ := buildTree_spec s hpos
  obtain ⟨hsingle, hpair, hparent⟩ := nodesOk_buildTree hpos
  have hnsym : (buildTree s).nsym = (present s.freq).length := (congrArg State.nsym hframe :)
  refine ⟨buildTree s, execAll_build s, _, rfl, hnsym, hcount, hroot, ?freq, hholds.within hdepth, fun b => ?leaf,
    fun b p q hp hq => ?unique, hsingle, hpair, hparent⟩
  case freq => rw [hholds.freq, weight_of_leaves hleaves, sum_freq]
  case leaf =>
    simp only [hholds.leafAt_iff]
    exact exists_path_iff hleaves b
  case unique => exact path_unique hleaves ((hholds.leafAt_iff p b).1 hp) ((hholds.leafAt_iff q b).1 hq)

/-! ### The code lengths -/

/-- The raw codes of a walk are the paths of distinct leaves, so none begins with another
(42_code_assigner.md R132). -/
theorem prefixFree_rawcode {s : State} {l : List (Byte × BitStr)} (h : s.leaves = some l) :
    PrefixFree (tab (setPaths l s).rawcode) := by
  intro a b ca cb hne ha hb hprefix
  have hmem : ∀ x p, tab (setPaths l s).rawcode x = some p → (x, p) ∈ l := fun x p hx =>
    (mem_visit_root h).2 ((rawcode_setPaths_iff h x p).1 hx).1
  exact hne (congrArg Prod.fst (visit_prefix h (hmem a ca ha) (hmem b cb hb) hprefix))

/-- The walk writes no node. -/
theorem nodeAt_setPaths (l : List (Byte × BitStr)) (s : State) : (setPaths l s).nodeAt = s.nodeAt := rfl

/-- Settles O22: the walk lists the paths of the finished tree, whose lengths the tree's spec sums up. -/
theorem walkLengths : Obligations.WalkLengths := by
  unfold Obligations.WalkLengths
  intro s hex
  have hpos := present_ne_nil hex
  obtain ⟨T, hholds, hleaves, hdeep, hdepth, hkraft, -, -, -, -, hframe⟩ := buildTree_spec s hpos
  have hnsym : (buildTree s).nsym = (present s.freq).length := (congrArg State.nsym hframe :)
  have hwalk : (buildTree s).leaves = some (T.paths []) := by
    have := present_length_le s.freq
    exact hholds.visit (by omega) []
  have hlen : ∀ b, 0 < tab (setPaths (T.paths []) (buildTree s)).len b ↔ 0 < tab s.freq b := fun b =>
    (len_pos_iff hleaves hdeep _ b).trans mem_present
  have hrun : execAll [.tbInit, .tbMerge, .tbFix1, .walk] s = .next (setPaths (T.paths []) (buildTree s)) := by
    rw [execAll_buildTree, execAll_cons_of_next (exec_walk hwalk), execAll_nil]
  refine ⟨_, hrun, ?_⟩
  rw [nodeAt_setPaths, setPaths_root, setPaths_nsym, hnsym]
  refine ⟨fun b p hp => ?depth, hlen, ?count, prefixFree_rawcode hwalk, fun h2 => ?many,
    fun h1 => ⟨?one, fun b hb => ?length⟩⟩
  case depth => exact len_setPaths_mem hleaves _ ((hholds.leafAt_iff p b).1 hp)
  case count =>
    rw [present]
    simp only [hlen]
  case many => rw [kraft_setPaths hleaves hdeep, hkraft, if_neg (by omega)]
  case one => rw [kraft_setPaths hleaves hdeep, hkraft, if_pos h1]
  case length =>
    have := len_le_depth hleaves (buildTree s) b
    omega

end Sys2Proof.Machine

/-! PROOFS. The canonical code (42_code_assigner.md R134 to R137). -/

namespace Sys2Proof.Machine

section canon
variable {s : State}

/-- CANON of a table that is not over-subscribed (42_code_assigner.md R135). -/
theorem exec_canon_ok (h : kraftSum (tab s.len) ≤ 1) :
    exec .canon s = .next (setCodes (canonCodes (tab s.len)).1 s) := execCanon_ok rfl h

/-- CANON of an over-subscribed table (42_code_assigner.md R137). -/
theorem exec_canon_raised (h : 1 < kraftSum (tab s.len)) :
    exec .canon s = .next (errorEntry .overSubscribed (setCodes (canonCodes (tab s.len)).1 s)) :=
  execCanon_raised rfl h.not_ge

/-- The codes are no part of what the host can see. -/
theorem sameInterface_setCodes (l : List (Byte × BitStr)) (s : State) : SameInterface s (setCodes l s) :=
  sameInterface_of rfl rfl rfl rfl rfl rfl rfl rfl rfl rfl rfl rfl rfl

end canon

section table
variable {len : Byte → Nat} {a b : Byte} {p q : BitStr}

theorem canonTable_of_pos (h : 0 < len b) : canonTable len b = some (bitsOf (canonValue len b) (len b)) := if_pos h

theorem canonTable_eq_none_iff : canonTable len b = none ↔ len b = 0 := by
  refine ⟨fun h => Nat.eq_zero_of_not_pos fun hpos => ?_, fun h => if_neg h.le.not_gt⟩
  cases (canonTable_of_pos hpos).symm.trans h

theorem pos_of_canonTable (h : canonTable len b = some p) : 0 < len b := by
  by_contra hzero
  cases (canonTable_eq_none_iff.2 (Nat.eq_zero_of_not_pos hzero)).symm.trans h

/-- A canonical code has the value that the codes before it add up to (42_code_assigner.md R135). -/
theorem bitsVal_canonTable (hk : kraftSum len ≤ 1) (h : canonTable len b = some p) : bitsVal p = canonValue len b := by
  have hpos := pos_of_canonTable h
  rw [canonTable_of_pos hpos, Option.some.injEq] at h
  rw [← h, bitsVal_bitsOf, Nat.mod_eq_of_lt (canonValue_lt hk hpos)]

/-- Each next code is the one before plus 1, shifted left by the increase in length (42_code_assigner.md R135). -/
theorem canonTable_next (hk : kraftSum len ≤ 1) (hab : CanonNext len a b) (h : canonTable len a = some p) :
    canonTable len b = some (bitsOf ((bitsVal p + 1) * 2 ^ (len b - len a)) (len b)) := by
  have hnext := canonValue_next hab
  obtain ⟨-, hpos, -⟩ := hab
  rw [canonTable_of_pos hpos, hnext, bitsVal_canonTable hk h]

/-- Two symbols have two codes (42_code_assigner.md R136). -/
theorem canonTable_ne (hk : kraftSum len ≤ 1) (hne : a ≠ b) (hpos : 0 < len a) :
    canonTable len a ≠ canonTable len b := by
  intro h
  rw [canonTable_of_pos hpos] at h
  exact canonTable_prefixFree hk a b _ _ hne (canonTable_of_pos hpos) h.symm List.prefix_rfl

/-- The codes rise along the canonical order as left-aligned fractions (42_code_assigner.md R136). -/
theorem canonTable_rises (hk : kraftSum len ≤ 1) (hbefore : canonBefore len a b) (hne : a ≠ b)
    (ha : canonTable len a = some p) (hb : canonTable len b = some q) :
    bitsVal p * 2 ^ q.length < bitsVal q * 2 ^ p.length := by
  obtain ⟨hle, hstep⟩ := canonValue_step (pos_of_canonTable ha) (pos_of_canonTable hb) hne hbefore
  rw [bitsVal_canonTable hk ha, bitsVal_canonTable hk hb, canonTable_length ha, canonTable_length hb]
  calc canonValue len a * 2 ^ len b
      = canonValue len a * 2 ^ (len b - len a) * 2 ^ len a := by
        rw [Nat.mul_assoc, ← Nat.pow_add, Nat.sub_add_cancel hle]
    _ < (canonValue len a + 1) * 2 ^ (len b - len a) * 2 ^ len a :=
        Nat.mul_lt_mul_of_pos_right (Nat.mul_lt_mul_of_pos_right (Nat.lt_succ_self _) (Nat.two_pow_pos _))
          (Nat.two_pow_pos _)
    _ ≤ canonValue len b * 2 ^ len a := Nat.mul_le_mul_right _ hstep

end table

/-- The codes CANON leaves are the canonical table of the lengths. -/
theorem code_setCodes {s : State} (h : kraftSum (tab s.len) ≤ 1) :
    tab (setCodes (canonCodes (tab s.len)).1 s).code = canonTable (tab s.len) :=
  funext (tab_setCodes h s)

/-- Settles O23: CANON's codes are the canonical table, whose values start at 0 and step as R135 says. -/
theorem canonAssigns : Obligations.CanonAssigns := by
  unfold Obligations.CanonAssigns
  intro s hk
  refine ⟨_, exec_canon_ok hk, rfl, ?_⟩
  rw [code_setCodes hk]
  refine ⟨fun b => canonTable_eq_none_iff, fun a hfirst => ?_, fun a b _ hab h => canonTable_next hk hab h,
    sameInterface_setCodes ..⟩
  rw [canonTable_of_pos hfirst.1, canonValue_first hfirst]

/-- Settles O24: CANON's loop ends without an over-subscribed length exactly when the Kraft sum is at most 1. -/
theorem canonRaises : Obligations.CanonRaises := by
  unfold Obligations.CanonRaises
  intro s
  refine ⟨fun h => ⟨_, exec_canon_raised h, errorEntry_failed .., ?_⟩,
    fun h => ⟨_, exec_canon_ok h, sameInterface_setCodes ..⟩⟩
  exact sameInput_of rfl rfl rfl rfl rfl rfl

/-- Settles O25: the properties are those of the canonical table, a function of the lengths. -/
theorem canonPrefixFree : Obligations.CanonPrefixFree := by
  unfold Obligations.CanonPrefixFree
  intro s hk
  refine ⟨_, exec_canon_ok hk, ?_⟩
  rw [code_setCodes hk]
  refine ⟨fun b hpos => ⟨_, canonTable_of_pos hpos, bitsOf_length ..⟩, fun a b hne hpos => canonTable_ne hk hne hpos,
    canonTable_prefixFree hk, fun a b ca cb hbefore hne => canonTable_rises hk hbefore hne, fun s' hlen => ?_⟩
  exact ⟨_, exec_canon_ok (hlen ▸ hk), by rw [setCodes_code, setCodes_code, hlen]⟩

end Sys2Proof.Machine

/-! PROOFS. DESERIALIZE: the checks in their order, what is accepted, and the inverse law
(44_container.md R180 to R189). -/

namespace Sys2Proof.Machine

/-! ### How a DESERIALIZE ends -/

section ends
variable {s t : State}

theorem exec_deserialize_done (h : deserialize s = .done () t) : exec .deserialize s = .next t := by
  rw [exec, execDeserialize, h]
  rfl

theorem exec_deserialize_raised {c : Cause} (h : deserialize s = .raised c t) :
    exec .deserialize s = .next (errorEntry c t) := by
  rw [exec, execDeserialize, h]
  rfl

theorem exec_deserialize_stuck {f : Fault} (h : deserialize s = .stuck f) : exec .deserialize s = .fault f := by
  rw [exec, execDeserialize, h]
  rfl

theorem FieldFrame.sameInput (h : FieldFrame s t) : SameInput s t := by
  rw [FieldFrame] at h
  rw [h]
  exact sameInput_of rfl rfl rfl rfl rfl rfl

theorem FieldFrame.sameInterface (h : FieldFrame s t) : SameInterface s t := by
  rw [FieldFrame] at h
  rw [h]
  exact sameInterface_of rfl rfl rfl rfl rfl rfl rfl rfl rfl rfl rfl rfl rfl

/-- Error entry leaves the host's inputs as they are (60_exceptions.md R250). -/
theorem sameInput_errorEntry (c : Cause) (s : State) : SameInput s (errorEntry c s) :=
  sameInput_of rfl rfl rfl rfl rfl rfl

/-- A check that fails ends in error entry, with the input as it was. -/
theorem endsFailed_deserialize {c : Cause} (h : ∃ t, deserialize s = .raised c t) :
    EndsFailed (exec .deserialize s) s c.code c.info := by
  obtain ⟨t, h⟩ := h
  have hframe := deserialize_frame s
  rw [h] at hframe
  have hsame : SameInput s t := FieldFrame.sameInput hframe
  exact ⟨_, exec_deserialize_raised h, errorEntry_failed .., hsame.trans (sameInput_errorEntry c t)⟩

end ends

/-! ### The header -/

section header
variable {s : State}

/-- The first four bytes are the magic, byte by byte (44_container.md R181). -/
theorem inRange_magic_iff :
    s.inRange 0 4 = s.par.magic.toList ↔ ∀ i (h : i < 4), s.inByte i = s.par.magic[i] := by
  constructor
  · intro h i hi
    have hget := congrArg (·[i]?) h
    simpa [State.inRange, hi] using hget
  · intro h
    refine List.ext_getElem (by simp [State.inRange]) fun i _ h2 => ?_
    have hi : i < 4 := by simpa using h2
    simp [State.inRange, h i hi]

theorem deserialize_lt_four (h : s.inLen.toNat < 4) : deserialize s = .raised .shortHeader s := if_pos h

theorem deserialize_badMagic (hn : 4 ≤ s.inLen.toNat) (h : ¬ ∀ i (h : i < 4), s.inByte i = s.par.magic[i]) :
    deserialize s = .raised .badMagic s := by
  unfold deserialize
  dsimp only
  rw [if_neg hn.not_gt, if_pos (mt inRange_magic_iff.1 h)]

theorem deserialize_four (hn : s.inLen.toNat = 4) (hm : ∀ i (h : i < 4), s.inByte i = s.par.magic[i]) :
    deserialize s = .raised .shortHeader s := by
  unfold deserialize
  dsimp only
  rw [if_neg (by omega), if_neg (not_not.2 (inRange_magic_iff.2 hm)), if_pos (by omega)]

theorem deserialize_badVersion (hn : 5 ≤ s.inLen.toNat) (hm : ∀ i (h : i < 4), s.inByte i = s.par.magic[i])
    (hv : s.inByte 4 ≠ s.par.version) : deserialize s = .raised (.unsupportedVersion (s.inByte 4)) s := by
  unfold deserialize
  dsimp only
  rw [if_neg (by omega), if_neg (not_not.2 (inRange_magic_iff.2 hm)), if_neg (by omega), if_pos hv]

/-- A header that ends in the length or in the count (44_container.md R180 lines 5 to 8). -/
theorem deserialize_lt_fifteen (hn : 5 ≤ s.inLen.toNat) (h : s.inLen.toNat < 15) (ht : TagOk s) :
    ∃ t, deserialize s = .raised .shortHeader t := by
  obtain ⟨hm, hv⟩ := ht
  unfold deserialize
  dsimp only
  rw [if_neg (by omega), if_neg (not_not.2 (inRange_magic_iff.2 hm)), if_neg (by omega), if_neg (not_not.2 hv)]
  by_cases h13 : s.inLen.toNat < 13
  · exact ⟨_, if_pos h13⟩
  · rw [if_neg h13]
    exact ⟨_, if_pos h⟩

theorem deserialize_tooMany (hn : 15 ≤ s.inLen.toNat) (ht : TagOk s) (h : 256 < s.countField) :
    ∃ t, deserialize s = .raised .symbolCountTooLarge t := by
  rw [deserialize_header hn ht]
  exact ⟨_, if_pos h⟩

end header

/-- Settles O35, one line of R180 for each clause. -/
theorem deserializeHeader : Obligations.DeserializeHeader := by
  unfold Obligations.DeserializeHeader
  intro s
  refine ⟨fun h => ?_, fun hn ⟨i, hi, hne⟩ => ?_, fun hn hm => ?_, fun hn hm hv => ?_, fun hn h ht => ?_,
    fun hn ht h => ?_⟩
  · exact endsFailed_deserialize ⟨_, deserialize_lt_four h⟩
  · exact endsFailed_deserialize ⟨_, deserialize_badMagic hn fun hm => hne (hm i hi)⟩
  · exact endsFailed_deserialize ⟨_, deserialize_four hn hm⟩
  · exact endsFailed_deserialize ⟨_, deserialize_badVersion hn hm hv⟩
  · exact endsFailed_deserialize (deserialize_lt_fifteen hn h ht)
  · exact endsFailed_deserialize (deserialize_tooMany hn ht h)

/-! ### The table -/

section table
variable {s : State}

/-- The state after the header: the length and the count read (44_container.md R180 lines 6 and 8). -/
def State.headerRead (s : State) : State := { s with cOriglen := s.memRead 5 8, cNsym := s.countField }

theorem deserialize_eq_readTable (hn : 15 ≤ s.inLen.toNat) (ht : TagOk s) (hc : s.countField ≤ 256) :
    deserialize s = readTable s.headerRead := by
  rw [deserialize_header hn ht, if_neg hc.not_gt, State.headerRead]

theorem readTable_short (h : s.inLen.toNat < 15 + 2 * s.cNsym) : readTable s = .raised .shortTable s := if_pos h

/-- The first entry that fails is the error, the zero length tested first (44_container.md R184). -/
theorem deserialize_badEntry (hn : 15 ≤ s.inLen.toNat) (ht : TagOk s) (hc : s.countField ≤ 256)
    (hfit : 15 + 2 * s.countField ≤ s.inLen.toNat) {i : Nat} (hi : i < s.countField) (hok : ∀ j, j < i → EntryOk s j)
    (hbad : ¬ EntryOk s i) :
    ∃ t, deserialize s = .raised (if s.inByte (16 + 2 * i) = 0x00#8 then .zeroLength else .symbolOrder) t := by
  rw [deserialize_eq_readTable hn ht hc]
  exact ⟨_, readTable_raised (s := s.headerRead) hi hok hbad hfit⟩

/-- The state after the table: the entries read, and the length table they give (44_container.md R180 line 17). -/
def State.tableRead (s : State) : State := s.headerRead.atEntry s.countField

theorem deserialize_eq_readPayload (hn : 15 + 2 * s.countField ≤ s.inLen.toNat) (ht : TagOk s) (hc : s.countField ≤ 256)
    (hok : ∀ i, i < s.countField → EntryOk s i) : deserialize s = readPayload s.tableRead := by
  rw [deserialize_eq_readTable (by omega) ht hc]
  exact readTable_done (s := s.headerRead) hok hn

end table

/-- Settles O36: the extent, then the entries up to the first that fails. -/
theorem deserializeTable : Obligations.DeserializeTable := by
  unfold Obligations.DeserializeTable
  intro s hn ht hc
  refine ⟨fun h => ?_, fun hfit i hi hok => ⟨fun hzero => ?_, fun hne hpos horder => ?_⟩⟩
  · exact endsFailed_deserialize ⟨_, (deserialize_eq_readTable hn ht hc).trans (readTable_short h)⟩
  · have hraised := deserialize_badEntry hn ht hc hfit hi hok fun h => h.1 hzero
    rw [if_pos hzero] at hraised
    exact endsFailed_deserialize hraised
  · have hraised := deserialize_badEntry hn ht hc hfit hi hok fun h => (h.2 hpos).not_ge horder
    rw [if_neg hne] at hraised
    exact endsFailed_deserialize hraised

/-! ### The payload -/

section payload
variable {s : State}

theorem readPayload_shortHeader (h : s.inLen.toNat < 19 + 2 * s.cNsym) : readPayload s = .raised .shortHeader s :=
  if_pos h

/-- Past the bit count, the payload's extent is compared with it (44_container.md R180 lines 19 to 25). -/
theorem readPayload_shortPayload (hn : 19 + 2 * s.cNsym ≤ s.inLen.toNat)
    (h : s.inLen.toNat < 19 + 2 * s.cNsym + ceil8 (s.bitField s.cNsym)) :
    ∃ t, readPayload s = .raised .shortPayload t := by
  unfold readPayload
  dsimp only
  rw [if_neg hn.not_gt, memRead_bitField]
  exact ⟨_, if_pos (by omega)⟩

theorem readPayload_trailingBytes (h : 19 + 2 * s.cNsym + ceil8 (s.bitField s.cNsym) < s.inLen.toNat) :
    ∃ t, readPayload s = .raised .trailingBytes t := by
  unfold readPayload
  dsimp only
  rw [if_neg (by omega), memRead_bitField, if_neg (by omega)]
  exact ⟨_, if_pos (by omega)⟩

/-- An artifact of the length its fields say that IN does not hold (log 13). -/
theorem readPayload_beyond (hn : s.inLen.toNat = 19 + 2 * s.cNsym + ceil8 (s.bitField s.cNsym))
    (hcap : s.par.inCap < s.inLen.toNat) : readPayload s = .stuck .inAddress := by
  unfold readPayload
  dsimp only
  rw [if_neg (by omega), memRead_bitField, if_neg (by omega), if_neg (by omega)]
  exact if_pos (by simpa [State.inputFits] using hcap)

/-- Fields that do not agree on whether the artifact is empty (44_container.md R187). -/
theorem readPayload_inconsistent (hn : s.inLen.toNat = 19 + 2 * s.cNsym + ceil8 (s.bitField s.cNsym))
    (hcap : s.inLen.toNat ≤ s.par.inCap)
    (h : (s.cNsym = 0 ∧ (s.cOriglen ≠ 0 ∨ s.bitField s.cNsym ≠ 0)) ∨ (0 < s.cNsym ∧ s.cOriglen = 0)) :
    ∃ t, readPayload s = .raised .inconsistentEmpty t := by
  unfold readPayload
  dsimp only
  rw [if_neg (by omega), memRead_bitField, if_neg (by omega), if_neg (by omega),
    if_neg (by simpa [State.inputFits] using hcap)]
  by_cases hzero : s.cNsym = 0 ∧ (s.cOriglen ≠ 0 ∨ s.bitField s.cNsym ≠ 0)
  · exact ⟨_, if_pos hzero⟩
  · rw [if_neg hzero]
    exact ⟨_, if_pos (h.resolve_left hzero)⟩

/-- The original length, byte by byte (30_encoding.md R73). -/
theorem memRead_origField (s : State) : s.memRead 5 8 = s.origField := by
  simp [State.memRead, State.origField, beNat, State.inRange, List.range_succ]
  omega

end payload

/-- Settles O37: after the table only the payload's checks are left. -/
theorem deserializePayload : Obligations.DeserializePayload := by
  unfold Obligations.DeserializePayload
  intro s hn ht hc hok
  have hends : ∀ {c}, (∃ t, readPayload s.tableRead = .raised c t) →
      EndsFailed (exec .deserialize s) s c.code c.info := by
    rw [← deserialize_eq_readPayload hn ht hc hok]
    exact endsFailed_deserialize
  refine ⟨fun h => hends ⟨_, readPayload_shortHeader h⟩, fun h19 h => hends (readPayload_shortPayload h19 h),
    fun h => hends (readPayload_trailingBytes h), fun hlen hcap h => ?_⟩
  rw [← memRead_origField] at h
  exact hends (readPayload_inconsistent hlen hcap h)

/-! ### Acceptance -/

section accept
variable {s : State}

/-- In a table whose entries pass, the symbols rise (44_container.md R184). -/
theorem symbols_lt {n i j : Nat} (hok : ∀ k, k < n → EntryOk s k) (hij : i < j) (hj : j < n) :
    (s.inByte (15 + 2 * i)).toNat < (s.inByte (15 + 2 * j)).toNat := by
  induction j with
  | zero => omega
  | succ j ih =>
    have hstep : (s.inByte (15 + 2 * j)).toNat < (s.inByte (15 + 2 * (j + 1))).toNat := by
      rw [show 15 + 2 * j = 13 + 2 * (j + 1) by omega]
      exact (hok (j + 1) hj).2 (Nat.succ_pos j)
    obtain rfl | hlt := Nat.lt_succ_iff_lt_or_eq.1 hij |>.symm
    · exact hstep
    · exact (ih hlt (by omega)).trans hstep

theorem entries_length (s : State) (n : Nat) : (s.entries n).length = n := by simp [State.entries]

theorem mem_entries {n : Nat} {e : Byte × Byte} :
    e ∈ s.entries n ↔ ∃ i, i < n ∧ (s.inByte (15 + 2 * i), s.inByte (16 + 2 * i)) = e := by
  simp [State.entries]

/-- A table whose entries pass is well formed (44_container.md R184). -/
theorem tableWf_entries {n : Nat} (hn : n ≤ 256) (hok : ∀ k, k < n → EntryOk s k) : TableWf (s.entries n) where
  count := by rwa [entries_length]
  ascending := by
    refine List.pairwise_iff_getElem.2 fun i j hi hj hij => ?_
    simp only [List.getElem_map, State.entries, List.getElem_range]
    simp only [List.length_map, entries_length] at hj
    exact symbols_lt hok hij hj
  lengths e he := by
    obtain ⟨i, hi, rfl⟩ := mem_entries.1 he
    exact (hok i hi).1

/-- The length table of the entries read (44_container.md R180 line 17, R188). -/
theorem tab_lenOf_entries {n i : Nat} (hn : n ≤ 256) (hok : ∀ k, k < n → EntryOk s k) (hi : i < n) :
    tab (lenOf (s.entries n)) (s.inByte (15 + 2 * i)) = (s.inByte (16 + 2 * i)).toNat :=
  tab_lenOf_mem (tableWf_entries hn hok).nodup (mem_entries.2 ⟨i, hi, rfl⟩)

theorem tab_lenOf_entries_absent {n : Nat} {b : Byte} (h : ∀ i, i < n → s.inByte (15 + 2 * i) ≠ b) :
    tab (lenOf (s.entries n)) b = 0 := by
  refine tab_lenOf_not_mem fun hb => ?_
  obtain ⟨e, he, rfl⟩ := List.mem_map.1 hb
  obtain ⟨i, hi, rfl⟩ := mem_entries.1 he
  exact h i hi rfl

/-- The state a DESERIALIZE that accepts leaves (44_container.md R188). -/
def State.accepted (s : State) : State := { s with
  cOriglen := s.origField, cNsym := s.countField, nsym := s.countField, cBitcount := s.bitField s.countField
  cTab := s.entries s.countField
  cPayload := s.inRange (19 + 2 * s.countField) (ceil8 (s.bitField s.countField))
  len := lenOf (s.entries s.countField) }

theorem deserialize_accepts (ht : TagOk s) (hc : s.countField ≤ 256) (hok : ∀ i, i < s.countField → EntryOk s i)
    (hn : s.inLen.toNat = 19 + 2 * s.countField + ceil8 (s.bitField s.countField)) (hcap : s.inLen.toNat ≤ s.par.inCap)
    (h0 : s.countField = 0 ↔ s.origField = 0) (hb : s.countField = 0 → s.bitField s.countField = 0) :
    deserialize s = .done () s.accepted := by
  rw [← memRead_origField] at h0
  rw [deserialize_eq_readPayload (by omega) ht hc hok, State.accepted, ← memRead_origField]
  exact readPayload_done (s := s.tableRead) hn hcap h0 hb

end accept

/-- Settles O38: past every check the fields are those read, and the lengths those of a table in ascending order. -/
theorem deserializeAccepts : Obligations.DeserializeAccepts := by
  unfold Obligations.DeserializeAccepts
  intro s ht hc hok hn hcap h0 hb
  have hdone := deserialize_accepts ht hc hok hn hcap h0 hb
  exact ⟨s.accepted, exec_deserialize_done hdone, rfl, fun i hi => tab_lenOf_entries hc hok hi,
    fun b hb => tab_lenOf_entries_absent hb, FieldFrame.sameInterface rfl⟩

/-! ### The inverse law -/

section inverse
variable {s t u : State}

theorem FieldsOk.tableWf (h : FieldsOk s) : TableWf s.cTab := ⟨h.nsym ▸ h.count, h.ascending, h.lengths⟩

/-- What SERIALIZE writes of consistent fields, DESERIALIZE of any engine that holds it accepts
(44_container.md R189). -/
theorem FieldsOk.deserialize (h : FieldsOk s) (hcap : s.artifactLen ≤ u.par.inCap) (hpar : u.par = s.par)
    (hin : HoldsInput u (containerBytes s.par s.cOriglen s.cTab s.cBitcount s.cPayload)) :
    Machine.deserialize u = .done () { u with
      cOriglen := s.cOriglen, cNsym := s.cNsym, cTab := s.cTab, cBitcount := s.cBitcount, cPayload := s.cPayload
      nsym := s.cNsym, len := lenOf s.cTab } := by
  have hempty : s.cTab = [] ↔ s.cNsym = 0 := by rw [h.nsym, List.length_eq_zero_iff]
  rw [State.artifactLen, h.payload, h.nsym] at hcap
  rw [h.nsym]
  rw [← hpar] at hin
  exact deserialize_container hin h.origlen h.bitcount h.tableWf (hempty.trans h.empty) (fun e => h.noBits (hempty.1 e))
    h.payload hcap

/-- The bytes SERIALIZE wrote, given to another engine as its input. -/
theorem holdsInput_writeArtifact (hcount : s.cNsym = s.cTab.length) (hlen : u.inLen.toNat = s.artifactLen)
    (hbytes : ∀ i, i < u.inLen.toNat → u.inByte i = (writeArtifact s).outByte i) :
    HoldsInput u (containerBytes s.par s.cOriglen s.cTab s.cBitcount s.cPayload) := by
  rw [← artifact_container hcount]
  refine ⟨hlen.trans (artifact_length s).symm, fun i hi => ?_⟩
  rw [hbytes i (by rw [hlen, ← artifact_length]; exact hi), outByte_writeArtifact (List.getElem?_eq_getElem hi)]

/-- The lengths an ENCODE takes make a table that DESERIALIZE accepts (44_container.md R184). -/
theorem LengthsOf.tableWf {len : Byte → Nat} {bs : List Byte} (h : LengthsOf len bs) : TableWf (lengthTable len) where
  count := lengthTable_length_le len
  ascending := lengthTable_ascending len
  lengths e he := by
    obtain ⟨hpos, hlen⟩ := mem_lengthTable.1 he
    have hle := h.le e.1
    intro hzero
    have hmod := congrArg BitVec.toNat (hlen.symm.trans hzero)
    rw [BitVec.toNat_ofNat, BitVec.toNat_ofNat] at hmod
    omega

theorem LengthsOf.lengthTable_eq_nil_iff {len : Byte → Nat} {bs : List Byte} (h : LengthsOf len bs) :
    lengthTable len = [] ↔ bs = [] := by
  rw [List.eq_nil_iff_forall_not_mem, List.eq_nil_iff_forall_not_mem]
  refine ⟨fun hnone b hb => hnone (b, BitVec.ofNat 8 (len b)) (mem_lengthTable.2 ⟨(h.pos b).2 hb, rfl⟩),
    fun hnone e he => hnone e.1 ((h.pos e.1).1 (mem_lengthTable.1 he).1)⟩

theorem LengthsOf.bits_le {len : Byte → Nat} {bs : List Byte} (h : LengthsOf len bs) :
    (encodedBits len bs).length ≤ 8 * bs.length := by
  rw [encodedBits_length fun b hb => (h.pos b).2 hb]
  exact h.many

/-- DESERIALIZE accepts the artifact of an ENCODE (44_container.md R189). -/
theorem deserialize_artifact {len : Byte → Nat} {bs : List Byte} (hlens : LengthsOf len bs)
    (hle : bs.length ≤ u.par.lmax.val)
    (hin : HoldsInput u (artifactBytes u.par bs.length (lengthTable len) (encodedBits len bs))) :
    ∃ v, deserialize u = .done () v ∧ FieldFrame u v := by
  have hbits := hlens.bits_le
  have hbytes : ceil8 (encodedBits len bs).length ≤ bs.length := (ceil8_le_iff _ _).2 hbits
  have hlmax := u.par.lmax.isLt
  have htable := hlens.lengthTable_eq_nil_iff
  have hcount := hlens.tableWf.count
  refine ⟨_, deserialize_container hin (by omega) (by omega) hlens.tableWf ?_ (fun e => ?_) (packBits_length _) ?_, rfl⟩
  · rw [htable, List.length_eq_zero_iff]
  · rw [htable.1 e]
    rfl
  · rw [Params.inCap]
    omega

end inverse

/-- Settles O39: what another engine reads is a container of the fields, of which each is recovered. -/
theorem inverseLaw : Obligations.InverseLaw := by
  unfold Obligations.InverseLaw
  refine ⟨fun s hfields hfits _ => ?_, fun s hidle hle => ?_⟩
  · refine ⟨writeArtifact s, exec_serialize_of_le hfits, fun u hpar hlen hbytes => ?_⟩
    have hin := holdsInput_writeArtifact hfields.nsym hlen hbytes
    have hdone := hfields.deserialize (hpar ▸ hfits) hpar hin
    exact ⟨_, exec_deserialize_done hdone, rfl, rfl, rfl, rfl, rfl, rfl, FieldFrame.sameInterface rfl⟩
  · obtain ⟨t, len, hencode, hrun⟩ := exec_encode_run hidle hle
    refine ⟨t, hencode, fun u hpar hlen hbytes => ?_⟩
    have hin : HoldsInput u (artifactBytes s.par s.inLen.toNat (lengthTable len) (encodedBits len s.input)) :=
      hrun.holdsOutput.holdsInput hlen (hlen ▸ hbytes)
    rw [← hpar, ← input_length] at hin
    obtain ⟨v, hdone, hframe⟩ := deserialize_artifact hrun.lengthsOf (by rwa [input_length, hpar]) hin
    exact ⟨v, exec_deserialize_done hdone, hframe.sameInterface⟩

end Sys2Proof.Machine

/-! PROOFS. DECSYM and UNPACK (45_orchestration.md R215 to R217). -/

namespace Sys2Proof.Machine

/-! ### DECSYM -/

section decsym
variable {s t : State}

theorem exec_decsym_done {b : Byte} (h : decodeSymbol s = .done b t) :
    exec .decsym s = .next { t with result := .symbol b } := by
  rw [exec, execDecsym, h]
  rfl

/-- A read that fails ends in error entry, with the input as it was (60_exceptions.md R250). -/
theorem endsFailed_decsym {c : Cause} {n : Nat} (h : decodeSymbol s = .raised c (skipBits n s)) :
    EndsFailed (exec .decsym s) s c.code c.info := by
  refine ⟨errorEntry c (skipBits n s), ?_, errorEntry_failed .., sameInput_of rfl rfl rfl rfl rfl rfl⟩
  rw [exec, execDecsym, h]
  rfl

end decsym

/-- Settles O41, by what the bits not read begin with. -/
theorem decsym : Obligations.Decsym := by
  unfold Obligations.Decsym
  intro s hreader htable
  refine ⟨fun c b rest hc hu => ?_, fun hr => ?_, fun c r rest hu hr hn => ?_⟩
  · rw [exec_decsym_done (decodeSymbol_found hreader htable hc hu), skipBits]
  · exact endsFailed_decsym (decodeSymbol_endOfStream hreader hr)
  · exact endsFailed_decsym (decodeSymbol_noMatch hreader hu hr hn)

/-! ### UNPACK -/

section unpack
variable {s t : State} {j n : Nat}

theorem exec_unpack_done (h : unpackPayload s = .done () t) : exec .unpack s = .next t := by
  rw [exec, execUnpack, h]
  rfl

theorem exec_unpack_raised {c : Cause} (h : unpackPayload s = .raised c t) :
    exec .unpack s = .next (errorEntry c t) := by
  rw [exec, execUnpack, h]
  rfl

theorem exec_unpack_stuck {f : Fault} (h : unpackPayload s = .stuck f) : exec .unpack s = .fault f := by
  rw [exec, execUnpack, h]
  rfl

/-- An UNPACK that fails ends in error entry, with the input as it was (60_exceptions.md R250). -/
theorem endsFailed_unpack {c : Cause} (h : ∃ t, unpackPayload s = .raised c t) :
    EndsFailed (exec .unpack s) s c.code c.info := by
  obtain ⟨t, h⟩ := h
  have hleaves := unpackPayload_frame s
  rw [h] at hleaves
  have hframe : t = { s with
      brBuf := s.cPayload, brLimit := s.cBitcount, brPos := t.brPos, draws := s.draws + 1, outMem := t.outMem } :=
    hleaves
  have hsame : SameInput s t := by
    rw [hframe]
    exact sameInput_of rfl rfl rfl rfl rfl rfl
  exact ⟨_, exec_unpack_raised h, errorEntry_failed .., hsame.trans (sameInput_errorEntry c t)⟩

theorem unpackLoop_raised {c : Cause} (h : decodeSymbol s = .raised c t) (n j : Nat) :
    unpackLoop (n + 1) j s = .raised c t := by
  rw [unpackLoop, h]

theorem unpackLoop_beyond {b : Byte} (h : decodeSymbol s = .done b t) (hj : t.par.outCap ≤ j) (n : Nat) :
    unpackLoop (n + 1) j s = .stuck .outAddress := by
  rw [unpackLoop, h]
  exact if_neg hj.not_gt

theorem unpackPayload_raised {c : Cause}
    (h : unpackLoop s.cOriglen 0 (attachReader s.cPayload s.cBitcount s) = .raised c t) :
    unpackPayload s = .raised c t := by
  rw [unpackPayload, h]

theorem unpackPayload_stuck {f : Fault}
    (h : unpackLoop s.cOriglen 0 (attachReader s.cPayload s.cBitcount s) = .stuck f) : unpackPayload s = .stuck f := by
  rw [unpackPayload, h]

theorem unpackPayload_leftover
    (h : unpackLoop s.cOriglen 0 (attachReader s.cPayload s.cBitcount s) = .done () t) (hpos : t.brPos ≠ t.brLimit) :
    unpackPayload s = .raised .leftoverBits t := by
  rw [unpackPayload, h]
  exact if_pos hpos

/-- The state UNPACK has reached when it has written the symbols of these codes (45_orchestration.md R215). -/
def State.unpacked (s : State) (es : List (BitStr × Byte)) : State :=
  { attachReader s.cPayload s.cBitcount s with
    brPos := (es.flatMap (·.1)).length, outMem := s.outMem.setBytes 0 (es.map (·.2)) }

variable {es : List (BitStr × Byte)} {rest : BitStr}

/-- The bits not read past the codes. -/
theorem unpacked_reader (hlen : s.cPayload.length = ceil8 s.cBitcount)
    (hu : streamBits s.cPayload 0 s.cBitcount = es.flatMap (·.1) ++ rest) :
    ReaderOk (s.unpacked es) ∧ (s.unpacked es).unread = rest := by
  have hok : ReaderOk (attachReader s.cPayload s.cBitcount s) := ⟨Nat.zero_le _, hlen⟩
  obtain ⟨hreader, hrest⟩ := skipBits_spec hok hu
  rw [skipBits, attachReader_brPos, Nat.zero_add] at hreader hrest
  exact ⟨hreader, hrest⟩

/-- UNPACK's loop passes over the codes that the bits begin with (45_orchestration.md R215, R216). -/
theorem unpackLoop_unpacked (ht : TableOk s.dtab) (hlen : s.cPayload.length = ceil8 s.cBitcount)
    (hes : ∀ e ∈ es, e ∈ s.dtab) (hu : streamBits s.cPayload 0 s.cBitcount = es.flatMap (·.1) ++ rest)
    (hcap : es.length ≤ s.par.outCap) (m : Nat) :
    unpackLoop (es.length + m) 0 (attachReader s.cPayload s.cBitcount s) =
      unpackLoop m es.length (s.unpacked es) := by
  have hok : ReaderOk (attachReader s.cPayload s.cBitcount s) := ⟨Nat.zero_le _, hlen⟩
  rw [unpackLoop_codes (s := attachReader s.cPayload s.cBitcount s) ht es hes hok hu m 0 (by rwa [Nat.zero_add]),
    attachReader_brPos, Nat.zero_add, Nat.zero_add]
  rfl

end unpack

/-- Settles O42: the bits are exactly the codes, so the loop writes their symbols and leaves no bit. -/
theorem unpackWrites : Obligations.UnpackWrites := by
  unfold Obligations.UnpackWrites
  intro s es ht hlen hcap _ hes hn hu
  have hdone := unpackPayload_codes ht hlen hcap es hes hn hu
  refine ⟨_, exec_unpack_done hdone, rfl, fun j hj => ?_, fun a ha => ?_, sameInput_of rfl rfl rfl rfl rfl rfl⟩
  · rw [State.outByte, Memory.get?_setBytes, if_pos ⟨Nat.zero_le j, by simpa using hj⟩, Nat.sub_zero,
      List.getElem?_map, List.getElem?_eq_getElem hj]
    rfl
  · rw [State.outByte, Memory.get?_setBytes, if_neg (by rw [List.length_map]; omega)]
    rfl

/-- Settles O43: past the codes that the bits begin with the loop has ended, with bits left, or fails at the next
symbol. -/
theorem unpackStops : Obligations.UnpackStops := by
  unfold Obligations.UnpackStops
  intro s es rest ht hlen hcap hes hu
  obtain ⟨hreader, hrest⟩ := unpacked_reader hlen hu
  have hnext : ∀ {c t}, es.length < s.cOriglen → decodeSymbol (s.unpacked es) = .raised c t →
      EndsFailed (exec .unpack s) s c.code c.info := fun {c t} hlt h => by
    have hloop := unpackLoop_unpacked ht hlen hes hu (by omega) (s.cOriglen - es.length - 1 + 1)
    rw [show es.length + (s.cOriglen - es.length - 1 + 1) = s.cOriglen by omega, unpackLoop_raised h] at hloop
    exact endsFailed_unpack ⟨t, unpackPayload_raised hloop⟩
  refine ⟨fun hn hne => ?_, fun hlt hr => ?_, fun c r rest' hlt hu' hr hno => ?_⟩
  · have hloop := unpackLoop_unpacked ht hlen hes hu (by omega) 0
    rw [Nat.add_zero, hn, unpackLoop] at hloop
    have hbits : s.cBitcount = (es.flatMap (·.1)).length + rest.length := by
      rw [← List.length_append, ← hu, streamBits_length]
    have hpos : (es.flatMap (·.1)).length ≠ s.cBitcount := by
      have := List.length_pos_iff.2 hne
      omega
    exact endsFailed_unpack ⟨_, unpackPayload_leftover hloop hpos⟩
  · rw [← hrest] at hr
    exact hnext hlt (decodeSymbol_endOfStream hreader hr)
  · exact hnext hlt (decodeSymbol_noMatch hreader (hrest.trans hu') hr hno)

/-! ### Accesses that do not exist (logs 13, 14, 15, 18) -/

section absent
variable {s : State}

theorem inputFits_false (h : s.par.inCap < s.inLen.toNat) : s.inputFits = false := decide_eq_false h.not_ge

theorem exec_serialize_beyond (h : s.par.outCap < s.artifactLen) : exec .serialize s = .fault .outAddress :=
  if_neg h.not_ge

theorem exec_tbMerge_beyond (h2 : 1 < s.pq.length) (h : 511 < s.ncount + (s.pq.length - 1)) :
    exec .tbMerge s = .fault .nodeAddress := by
  have hfit : s.nodesFit = false := decide_eq_false (by omega)
  rw [exec, execTbMerge, hfit, if_neg Bool.false_ne_true]

/-- A walk that lists the leaves has found a tree no deeper than a code is long (42_code_assigner.md R130). -/
theorem leaves_eq_none (h : ¬ TreeWithin s.nodeAt s.root 255) : s.leaves = none := by
  cases hl : s.leaves with
  | none => rfl
  | some l =>
    obtain ⟨d, hd, hwithin⟩ := within_of_visit hl
    obtain rfl : 255 = d := Nat.succ.inj hd
    exact absurd hwithin h

/-- UNPACK faults at the first symbol past OUT (log 13). -/
theorem unpackPayload_beyond {es : List (BitStr × Byte)} {rest : BitStr} (ht : TableOk s.dtab)
    (hlen : s.cPayload.length = ceil8 s.cBitcount) (hes : ∀ e ∈ es, e ∈ s.dtab)
    (hu : streamBits s.cPayload 0 s.cBitcount = es.flatMap (·.1) ++ rest) (hn : es.length = s.par.outCap + 1)
    (hcap : s.par.outCap < s.cOriglen) : unpackPayload s = .stuck .outAddress := by
  obtain rfl | ⟨init, e, rfl⟩ := es.eq_nil_or_concat
  · cases hn
  rw [List.concat_eq_append] at hes hu hn
  rw [List.length_append] at hn
  have hinit : init.length = s.par.outCap := Nat.succ.inj hn
  rw [List.flatMap_append, List.append_assoc] at hu
  obtain ⟨hreader, hrest⟩ := unpacked_reader hlen hu
  rw [List.flatMap_singleton] at hrest
  have hfound := decodeSymbol_found (b := e.2) hreader ht (hes e (by simp)) hrest
  have hloop := unpackLoop_unpacked ht hlen (fun x hx => hes x (List.mem_append_left _ hx)) hu hinit.le
    (s.cOriglen - init.length - 1 + 1)
  rw [show init.length + (s.cOriglen - init.length - 1 + 1) = s.cOriglen by omega,
    unpackLoop_beyond hfound hinit.ge] at hloop
  exact unpackPayload_stuck hloop

end absent

/-- Settles O45, one access for each clause. -/
theorem absentAccessStops : Obligations.AbsentAccessStops := by
  unfold Obligations.AbsentAccessStops
  refine ⟨fun s h => ⟨?fcount, ?pack⟩, fun s => exec_serialize_beyond, fun s => exec_tbMerge_beyond, fun s h => ?walk,
    fun s b c h => ?writer, fun s ht hc hok hn hcap => ?deserialize,
    fun s es rest ht hlen hes hu hn hcap => exec_unpack_stuck (unpackPayload_beyond ht hlen hes hu hn hcap)⟩
  case fcount => rw [exec_fcount, execFcount, inputFits_false h, if_neg Bool.false_ne_true]
  case pack => rw [exec, execPack, inputFits_false h, if_neg Bool.false_ne_true]
  case walk => rw [exec, execWalk, leaves_eq_none h]
  case writer =>
    have hfit : s.writerFits = false := decide_eq_false (by omega)
    exact ⟨exec_bwWbit_of_not_fits hfit b, exec_bwWcode_of_not_fits hfit b c⟩
  case deserialize =>
    have hread := deserialize_eq_readPayload (by omega) ht hc hok
    exact exec_deserialize_stuck (hread.trans (readPayload_beyond hn hcap))

/-! ### What the spec leaves open (logs 14, 16, 17, 20) -/

section free
variable {s : State}

/-- TB_MERGE of an empty queue takes a free root (log 14). -/
theorem exec_tbMerge_nil (h : s.pq = []) :
    exec .tbMerge s = .next { s with root := (Config.freeRoot s.draws).val, draws := s.draws + 1 } := by
  have hlen : s.pq.length ≤ 1 := by
    rw [h]
    exact Nat.zero_le 1
  have hmin : extractMin s = none := by rw [extractMin, h, pqLeast, Option.map_none]
  rw [exec_tbMerge_of_nodesFit (decide_eq_true (.inl hlen)), mergeTree, mergeLoop_of_le _ hlen, takeRoot, hmin]

/-- BR_RBIT past the buffer yields a free bit (log 17). -/
theorem nextBit_free (h : s.brPos < s.brLimit) (hbuf : s.brBuf.length ≤ s.brPos / 8) :
    s.nextBit = some (Config.freeBit s.draws s.brPos) := by
  rw [State.nextBit, if_neg h.not_ge, streamBit_eq, List.getElem?_eq_none hbuf, Option.map_none, Option.getD_none]

theorem freeCode_length (draw index : Nat) : 1 ≤ (freeCode draw index).length ∧ (freeCode draw index).length ≤ 255 := by
  have hlt := (Config.freeCodeLen draw index).isLt
  rw [freeCode, List.length_map, List.length_range]
  omega

theorem codeOfInput_of_none {i : Nat} (h : tab s.code (s.inByte i) = none) : s.codeOfInput i = freeCode s.draws i := by
  rw [State.codeOfInput, h, Option.getD_none]

theorem tabEntry_of_lt {i : Nat} (h : i < s.cTab.length) : s.cTab[i]? = some (s.tabEntry i) := by
  rw [State.tabEntry, List.getElem?_eq_getElem h, Option.getD_some]

end free

/-- Settles O44: in each of the four the free value stands in one place, and the operation is the one the rule
states. -/
theorem openValuesGoOn : Obligations.OpenValuesGoOn := by
  unfold Obligations.OpenValuesGoOn
  refine ⟨fun s h => ⟨_, (Config.freeRoot s.draws).isLt, exec_tbMerge_nil h⟩,
    fun s h hbuf => ⟨_, exec_brRbit_of_nextBit_some (nextBit_free h hbuf)⟩, fun s hfit => ?pack,
    fun s hfits => ?serialize⟩
  case pack =>
    refine ⟨packInput s, exec_pack hfit, writerOk_packInput s, packInput_frame s, s.codeOfInput,
      fun i c _ => codeOfInput_of_some, fun i _ hnone => ?_, streamBits_packInput s⟩
    rw [codeOfInput_of_none hnone]
    exact freeCode_length ..
  case serialize =>
    have hrun : exec .serialize s = .next (writeArtifact s) := exec_serialize_of_le hfits
    refine ⟨writeArtifact s, hrun, execSerialize_out hrun, rfl, (List.range s.cNsym).map s.tabEntry, by simp,
      fun i hi htab => ?_, fun i hi => ?_⟩
    · rw [List.getElem?_map, List.getElem?_range hi, tabEntry_of_lt htab, Option.map_some]
    · refine outByte_writeArtifact ?_
      rw [artifact_entries]
      exact List.getElem?_eq_getElem hi

end Sys2Proof.Machine

/-! PROOFS. What an instruction may change: the two frames of the whole machine (20_memory.md R51;
60_exceptions.md R247, R250; 10_state.md R25, R26, R39). -/

namespace Sys2Proof.Machine

section frame
variable {s t : State}

/-- The operations that cannot raise, SERIALIZE apart, write nothing the host can see (20_memory.md R51;
60_exceptions.md R247). -/
theorem exec_sameInterface {i : Instr}
    (hi : i ∉ [Instr.encode, .decode, .canon, .serialize, .deserialize, .decsym, .unpack]) (h : exec i s = .next t) :
    SameInterface s t := by
  cases i
  case encode | decode | canon | serialize | deserialize | decsym | unpack => exact absurd (by simp) hi
  case' idle => rw [← Host.Outcome.next.inj h]
  case' fcount => rw [execFcount_frame h]
  case' tbInit => rw [execTbInit_frame h]
  case' tbMerge => rw [execTbMerge_frame h]
  case' tbFix1 => rw [execTbFix1_frame h]
  case' walk => rw [execWalk_frame h]
  case' bwReset => rw [execBwReset_frame h]
  case' bwWbit => rw [execBwWbit_frame h]
  case' bwWcode => rw [execBwWcode_frame h]
  case' bwFinish => rw [execBwFinish_frame h]
  case' dtBuild => rw [execDtBuild_frame h]
  case' brInit => rw [execBrInit_frame h]
  case' brRbit => rw [execBrRbit_frame h]
  case' pack => rw [execPack_frame h]
  all_goals exact sameInterface_of rfl rfl rfl rfl rfl rfl rfl rfl rfl rfl rfl rfl rfl

/-- CANON writes the codes, and error entry when it raises (42_code_assigner.md R135, R137). -/
theorem exec_canon_unitFrame (h : exec .canon s = .next t) :
    (SameInterface s t ∨ Failed t 0x01#8 0x09#8) ∧ t = { s with
      code := t.code, status := t.status, errcode := t.errcode, errinfo := t.errinfo, outLen := t.outLen
      phase := t.phase, outMem := t.outMem, outEpoch := t.outEpoch } := by
  obtain e | ⟨u, e, rfl⟩ := execCanon_frame h
  · refine ⟨.inl ?_, by rw [e]⟩
    rw [e]
    exact sameInterface_of rfl rfl rfl rfl rfl rfl rfl rfl rfl rfl rfl rfl rfl
  · refine ⟨.inr (errorEntry_failed ..), ?_⟩
    rw [e]
    rfl

/-- DESERIALIZE writes the fields and the lengths, and error entry when it raises (44_container.md R180). -/
theorem exec_deserialize_unitFrame (h : exec .deserialize s = .next t) :
    (SameInterface s t ∨ ∃ c i, Failed t c i) ∧ t = { s with
      cOriglen := t.cOriglen, cNsym := t.cNsym, cTab := t.cTab, cBitcount := t.cBitcount, cPayload := t.cPayload
      nsym := t.nsym, len := t.len, status := t.status, errcode := t.errcode, errinfo := t.errinfo
      outLen := t.outLen, phase := t.phase, outMem := t.outMem, outEpoch := t.outEpoch } := by
  obtain e | ⟨c, u, e, rfl⟩ := execDeserialize_frame h
  · refine ⟨.inl e.sameInterface, ?_⟩
    rw [FieldFrame] at e
    rw [e]
  · refine ⟨.inr ⟨_, _, errorEntry_failed ..⟩, ?_⟩
    rw [FieldFrame] at e
    rw [e]
    rfl

/-- DECSYM moves the reader and yields, and takes error entry when it raises (45_orchestration.md R216). -/
theorem exec_decsym_unitFrame (h : exec .decsym s = .next t) :
    (SameInterface s t ∨ ∃ c i, Failed t c i) ∧ t = { s with
      brPos := t.brPos, result := t.result, status := t.status, errcode := t.errcode, errinfo := t.errinfo
      outLen := t.outLen, phase := t.phase, outMem := t.outMem, outEpoch := t.outEpoch } := by
  obtain e | ⟨c, u, e, rfl⟩ := execDecsym_frame h
  · refine ⟨.inl ?_, by rw [e]⟩
    rw [e]
    exact sameInterface_of rfl rfl rfl rfl rfl rfl rfl rfl rfl rfl rfl rfl rfl
  · refine ⟨.inr ⟨_, _, errorEntry_failed ..⟩, ?_⟩
    rw [e]
    rfl

/-- UNPACK attaches and moves the reader and writes OUT, and takes error entry when it raises
(45_orchestration.md R215). -/
theorem exec_unpack_unitFrame (h : exec .unpack s = .next t) :
    (SameInterfaceFrom s.cOriglen s t ∨ ∃ c i, Failed t c i) ∧ t = { s with
      brBuf := s.cPayload, brLimit := s.cBitcount, brPos := t.brPos, draws := s.draws + 1, status := t.status
      errcode := t.errcode, errinfo := t.errinfo, outLen := t.outLen, phase := t.phase, outMem := t.outMem
      outEpoch := t.outEpoch } := by
  constructor
  · obtain hout | ⟨c, u, rfl⟩ := execUnpack_out h
    · exact .inl hout
    · exact .inr ⟨_, _, errorEntry_failed ..⟩
  · obtain ⟨u, rfl | ⟨c, rfl⟩, e⟩ := execUnpack_frame h
    · rw [e]
    · rw [e]
      rfl

end frame

/-- Settles O46, operation by operation. -/
theorem unitFrame : Obligations.UnitFrame := by
  unfold Obligations.UnitFrame
  exact ⟨fun i s t => exec_sameInterface, fun s t => exec_canon_unitFrame, fun s t => exec_deserialize_unitFrame,
    fun s t => exec_decsym_unitFrame, fun s t h => ⟨execSerialize_out h, execSerialize_frame h⟩,
    fun s t => exec_unpack_unitFrame⟩

/-! ### The host's inputs -/

section input
variable {s t : State}

theorem SameInput.refl (s : State) : SameInput s s := sameInput_of rfl rfl rfl rfl rfl rfl

theorem sameInput_complete (n : Nat) (s : State) : SameInput s (complete n s) := sameInput_of rfl rfl rfl rfl rfl rfl

theorem DecodeFrame.sameInput (h : DecodeFrame s t) : SameInput s t := by
  rw [DecodeFrame] at h
  rw [h]
  exact sameInput_of rfl rfl rfl rfl rfl rfl

/-- ENCODE writes nothing of the input: it is ignored, refused, or runs. -/
theorem execEncode_sameInput (h : execEncode s = .next t) : SameInput s t := by
  cases hb : s.status.busy with
  | true =>
    rw [execEncode_busy hb] at h
    exact Host.Outcome.next.inj h ▸ SameInput.refl s
  | false =>
    obtain ⟨-, e⟩ | ⟨-, u, len, e, hrun⟩ := execEncode_cases hb <;> cases e.symm.trans h
    · exact (sameInput_commandStart s).trans (sameInput_errorEntry ..)
    · exact (sameInput_commandStart s).trans hrun.sameInput

/-- DECODE writes nothing of the input. -/
theorem execDecode_sameInput (h : execDecode s = .next t) : SameInput s t := by
  obtain rfl | ⟨c, u, hframe, rfl⟩ | ⟨n, u, hframe, rfl⟩ := execDecode_cases h
  · exact SameInput.refl t
  · exact (sameInput_commandStart s).trans (hframe.sameInput.trans (sameInput_errorEntry c u))
  · exact (sameInput_commandStart s).trans (hframe.sameInput.trans (sameInput_complete n u))

/-- The operations that write what the host can see write nothing of the input: each changes its own registers and, in
error entry, the result. -/
theorem exec_raising_sameInput {i : Instr} (hi : i ∈ [Instr.canon, .serialize, .deserialize, .decsym, .unpack])
    (h : exec i s = .next t) : SameInput s t := by
  simp only [List.mem_cons, List.not_mem_nil, or_false] at hi
  obtain rfl | rfl | rfl | rfl | rfl := hi
  · rw [(exec_canon_unitFrame h).2]
    exact sameInput_of rfl rfl rfl rfl rfl rfl
  · exact (execSerialize_out h).1
  · rw [(exec_deserialize_unitFrame h).2]
    exact sameInput_of rfl rfl rfl rfl rfl rfl
  · rw [(exec_decsym_unitFrame h).2]
    exact sameInput_of rfl rfl rfl rfl rfl rfl
  · rw [(exec_unpack_unitFrame h).2]
    exact sameInput_of rfl rfl rfl rfl rfl rfl

end input

/-- Settles O47, by whether the instruction is a command, an operation that writes what the host can see, or another. -/
theorem inputFrame : Obligations.InputFrame := by
  unfold Obligations.InputFrame
  intro i s t h
  by_cases hencode : i = .encode
  · subst hencode
    exact execEncode_sameInput h
  by_cases hdecode : i = .decode
  · subst hdecode
    exact execDecode_sameInput h
  by_cases hraise : i ∈ [Instr.canon, .serialize, .deserialize, .decsym, .unpack]
  · exact exec_raising_sameInput hraise h
  · exact (exec_sameInterface (by simp [hencode, hdecode] at hraise ⊢; exact hraise) h).1

end Sys2Proof.Machine

/-! PROOFS. Which artifacts DESERIALIZE accepts and why it rejects the others: a property of the input alone
(44_container.md R180 to R188). -/

namespace Sys2Proof.Machine

/-- Every byte of the magic stands in IN (44_container.md R181). -/
def MagicOk (s : State) : Prop := ∀ i (h : i < 4), s.inByte i = s.par.magic[i]

/-- The first check of 44_container.md R180 that an artifact fails, with the checks before it passed. -/
inductive Rejects (s : State) : Cause → Prop where
  | short : s.inLen.toNat < 4 → Rejects s .shortHeader
  | magic : 4 ≤ s.inLen.toNat → ¬ MagicOk s → Rejects s .badMagic
  | noVersion : s.inLen.toNat = 4 → MagicOk s → Rejects s .shortHeader
  | version : 5 ≤ s.inLen.toNat → MagicOk s → s.inByte 4 ≠ s.par.version →
      Rejects s (.unsupportedVersion (s.inByte 4))
  | noCount : 5 ≤ s.inLen.toNat → s.inLen.toNat < 15 → TagOk s → Rejects s .shortHeader
  | count : 15 ≤ s.inLen.toNat → TagOk s → 256 < s.countField → Rejects s .symbolCountTooLarge
  | table : 15 ≤ s.inLen.toNat → TagOk s → s.countField ≤ 256 → s.inLen.toNat < 15 + 2 * s.countField →
      Rejects s .shortTable
  | entry {i : Nat} : 15 + 2 * s.countField ≤ s.inLen.toNat → TagOk s → s.countField ≤ 256 → i < s.countField →
      (∀ j, j < i → EntryOk s j) → ¬ EntryOk s i →
      Rejects s (if s.inByte (16 + 2 * i) = 0x00#8 then .zeroLength else .symbolOrder)
  | noBitCount : 15 + 2 * s.countField ≤ s.inLen.toNat → TagOk s → s.countField ≤ 256 →
      (∀ i, i < s.countField → EntryOk s i) → s.inLen.toNat < 19 + 2 * s.countField → Rejects s .shortHeader
  | payload : 19 + 2 * s.countField ≤ s.inLen.toNat → TagOk s → s.countField ≤ 256 →
      (∀ i, i < s.countField → EntryOk s i) →
      s.inLen.toNat < 19 + 2 * s.countField + ceil8 (s.bitField s.countField) → Rejects s .shortPayload
  | trailing : TagOk s → s.countField ≤ 256 → (∀ i, i < s.countField → EntryOk s i) →
      19 + 2 * s.countField + ceil8 (s.bitField s.countField) < s.inLen.toNat → Rejects s .trailingBytes
  | empty : TagOk s → s.countField ≤ 256 → (∀ i, i < s.countField → EntryOk s i) →
      s.inLen.toNat = 19 + 2 * s.countField + ceil8 (s.bitField s.countField) →
      (s.countField = 0 ∧ (s.origField ≠ 0 ∨ s.bitField s.countField ≠ 0)) ∨ (0 < s.countField ∧ s.origField = 0) →
      Rejects s .inconsistentEmpty

/-- An artifact that passes every check (44_container.md R188). -/
structure Accepts (s : State) : Prop where
  tag : TagOk s
  count : s.countField ≤ 256
  entries : ∀ i, i < s.countField → EntryOk s i
  length : s.inLen.toNat = 19 + 2 * s.countField + ceil8 (s.bitField s.countField)
  empty : s.countField = 0 ↔ s.origField = 0
  noBits : s.countField = 0 → s.bitField s.countField = 0

section verdict
variable {s t : State} {c : Cause}

/-- The check that fails is the error raised. -/
theorem Rejects.raised (h : Rejects s c) (hcap : s.inLen.toNat ≤ s.par.inCap) : ∃ t, deserialize s = .raised c t := by
  cases h with
  | short h => exact ⟨_, deserialize_lt_four h⟩
  | magic hn h => exact ⟨_, deserialize_badMagic hn h⟩
  | noVersion hn h => exact ⟨_, deserialize_four hn h⟩
  | version hn hm h => exact ⟨_, deserialize_badVersion hn hm h⟩
  | noCount hn h ht => exact deserialize_lt_fifteen hn h ht
  | count hn ht h => exact deserialize_tooMany hn ht h
  | table hn ht hc h => exact ⟨_, (deserialize_eq_readTable hn ht hc).trans (readTable_short h)⟩
  | entry hn ht hc hi hok h => exact deserialize_badEntry (by omega) ht hc hn hi hok h
  | noBitCount hn ht hc hok h =>
    exact ⟨_, (deserialize_eq_readPayload hn ht hc hok).trans (readPayload_shortHeader h)⟩
  | payload hn ht hc hok h =>
    rw [deserialize_eq_readPayload (by omega) ht hc hok]
    exact readPayload_shortPayload (s := s.tableRead) hn h
  | trailing ht hc hok h =>
    rw [deserialize_eq_readPayload (by omega) ht hc hok]
    exact readPayload_trailingBytes (s := s.tableRead) h
  | empty ht hc hok hn h =>
    rw [← memRead_origField] at h
    rw [deserialize_eq_readPayload (by omega) ht hc hok]
    exact readPayload_inconsistent (s := s.tableRead) hn hcap h

theorem Accepts.done (h : Accepts s) (hcap : s.inLen.toNat ≤ s.par.inCap) : deserialize s = .done () s.accepted :=
  deserialize_accepts h.tag h.count h.entries h.length hcap h.empty h.noBits

/-- A header passes its checks or fails one of them (44_container.md R180 lines 1 to 10). -/
theorem rejects_or_header (s : State) :
    (∃ c, Rejects s c) ∨ 15 + 2 * s.countField ≤ s.inLen.toNat ∧ TagOk s ∧ s.countField ≤ 256 := by
  by_cases h4 : s.inLen.toNat < 4
  · exact .inl ⟨_, .short h4⟩
  by_cases hm : MagicOk s
  swap
  · exact .inl ⟨_, .magic (by omega) hm⟩
  by_cases h5 : s.inLen.toNat = 4
  · exact .inl ⟨_, .noVersion h5 hm⟩
  by_cases hv : s.inByte 4 = s.par.version
  swap
  · exact .inl ⟨_, .version (by omega) hm hv⟩
  by_cases h15 : s.inLen.toNat < 15
  · exact .inl ⟨_, .noCount (by omega) h15 ⟨hm, hv⟩⟩
  by_cases hc : s.countField ≤ 256
  swap
  · exact .inl ⟨_, .count (by omega) ⟨hm, hv⟩ (by omega)⟩
  by_cases ht : s.inLen.toNat < 15 + 2 * s.countField
  · exact .inl ⟨_, .table (by omega) ⟨hm, hv⟩ hc ht⟩
  · exact .inr ⟨by omega, ⟨hm, hv⟩, hc⟩

/-- The entries all pass, or there is a first that fails. -/
theorem entries_or_first (s : State) (n : Nat) :
    (∀ i, i < n → EntryOk s i) ∨ ∃ i, i < n ∧ (∀ j, j < i → EntryOk s j) ∧ ¬ EntryOk s i := by
  induction n with
  | zero => exact .inl fun i hi => absurd hi (Nat.not_lt_zero i)
  | succ n ih =>
    obtain hok | ⟨i, hi, hfirst⟩ := ih
    · by_cases hn : EntryOk s n
      · refine .inl fun i hi => ?_
        obtain hlt | rfl := Nat.lt_succ_iff_lt_or_eq.1 hi
        · exact hok i hlt
        · exact hn
      · exact .inr ⟨n, Nat.lt_succ_self n, hok, hn⟩
    · exact .inr ⟨i, hi.trans (Nat.lt_succ_self n), hfirst⟩

/-- An artifact passes every check or fails a first one. -/
theorem rejects_or_accepts (s : State) : (∃ c, Rejects s c) ∨ Accepts s := by
  obtain hrej | ⟨hn, ht, hc⟩ := rejects_or_header s
  · exact .inl hrej
  obtain hok | ⟨i, hi, hbefore, hbad⟩ := entries_or_first s s.countField
  swap
  · exact .inl ⟨_, .entry hn ht hc hi hbefore hbad⟩
  by_cases h19 : s.inLen.toNat < 19 + 2 * s.countField
  · exact .inl ⟨_, .noBitCount hn ht hc hok h19⟩
  by_cases hshort : s.inLen.toNat < 19 + 2 * s.countField + ceil8 (s.bitField s.countField)
  · exact .inl ⟨_, .payload (by omega) ht hc hok hshort⟩
  by_cases hlong : 19 + 2 * s.countField + ceil8 (s.bitField s.countField) < s.inLen.toNat
  · exact .inl ⟨_, .trailing ht hc hok hlong⟩
  by_cases hempty : (s.countField = 0 ∧ (s.origField ≠ 0 ∨ s.bitField s.countField ≠ 0)) ∨
      (0 < s.countField ∧ s.origField = 0)
  · exact .inl ⟨_, .empty ht hc hok (by omega) hempty⟩
  · exact .inr ⟨ht, hc, hok, by omega, by omega, by omega⟩

/-- DESERIALIZE has no other errors than the three kinds (60_exceptions.md R242 to R244). -/
theorem Rejects.code_mem (h : Rejects s c) : c.code ∈ [0x01#8, 0x02#8, 0x03#8] := by
  cases h
  case entry => split <;> decide
  case version => exact List.mem_cons_of_mem _ (List.mem_cons_of_mem _ List.mem_cons_self)
  all_goals decide

end verdict

/-! ### The verdict depends on the input alone -/

/-- The same input: as many bytes, and each of them the same. -/
structure SameArtifact (s s' : State) : Prop where
  par : s'.par = s.par
  inLen : s'.inLen = s.inLen
  bytes : ∀ i, i < s.inLen.toNat → s'.inByte i = s.inByte i

section congr
variable {s s' : State} {c : Cause}

theorem SameInput.sameArtifact (h : SameInput s s') : SameArtifact s s' := by
  obtain ⟨hpar, -, hlen, -, -, hbyte⟩ := h
  exact ⟨hpar, hlen, fun i _ => hbyte i⟩

variable (h : SameArtifact s s')
include h

theorem SameArtifact.magicOk_iff (hn : 4 ≤ s.inLen.toNat) : MagicOk s' ↔ MagicOk s := by
  rw [MagicOk, MagicOk, h.par]
  refine forall_congr' fun i => forall_congr' fun hi => ?_
  rw [h.bytes i (by omega)]

theorem SameArtifact.tagOk_iff (hn : 5 ≤ s.inLen.toNat) : TagOk s' ↔ TagOk s := by
  have hmagic := h.magicOk_iff (by omega)
  rw [TagOk, TagOk, h.bytes 4 (by omega), h.par]
  rw [MagicOk, MagicOk, h.par] at hmagic
  exact and_congr_left' hmagic

theorem SameArtifact.countField_eq (hn : 15 ≤ s.inLen.toNat) : s'.countField = s.countField := by
  rw [State.countField, State.countField, h.bytes 13 (by omega), h.bytes 14 (by omega)]

theorem SameArtifact.entryOk_iff {i : Nat} (hn : 17 + 2 * i ≤ s.inLen.toNat) : EntryOk s' i ↔ EntryOk s i := by
  rw [EntryOk, EntryOk, h.bytes (16 + 2 * i) (by omega), h.bytes (15 + 2 * i) (by omega),
    h.bytes (13 + 2 * i) (by omega)]

theorem SameArtifact.bitField_eq {n : Nat} (hn : 19 + 2 * n ≤ s.inLen.toNat) : s'.bitField n = s.bitField n := by
  rw [State.bitField, State.bitField, h.bytes (15 + 2 * n) (by omega), h.bytes (16 + 2 * n) (by omega),
    h.bytes (17 + 2 * n) (by omega), h.bytes (18 + 2 * n) (by omega)]

theorem SameArtifact.inRange_eq {a n : Nat} (hn : a + n ≤ s.inLen.toNat) : s'.inRange a n = s.inRange a n := by
  refine List.map_congr_left fun i hi => h.bytes _ ?_
  have := List.mem_range.1 hi
  omega

theorem SameArtifact.origField_eq (hn : 13 ≤ s.inLen.toNat) : s'.origField = s.origField := by
  rw [← memRead_origField, ← memRead_origField, State.memRead, State.memRead, h.inRange_eq hn]

theorem SameArtifact.entries_eq {n : Nat} (hn : 15 + 2 * n ≤ s.inLen.toNat) : s'.entries n = s.entries n := by
  refine List.map_congr_left fun i hi => ?_
  have := List.mem_range.1 hi
  rw [h.bytes (15 + 2 * i) (by omega), h.bytes (16 + 2 * i) (by omega)]

/-- The same artifact fails the same check. -/
theorem Rejects.congr (hr : Rejects s c) : Rejects s' c := by
  have hlen : s'.inLen.toNat = s.inLen.toNat := by rw [h.inLen]
  cases hr with
  | short hn => exact .short (by omega)
  | magic hn hm => exact .magic (by omega) (mt (h.magicOk_iff hn).1 hm)
  | noVersion hn hm => exact .noVersion (by omega) ((h.magicOk_iff (by omega)).2 hm)
  | version hn hm hv =>
    have hbyte := h.bytes 4 (by omega)
    rw [← hbyte, ← h.par] at hv
    rw [← hbyte]
    exact .version (by omega) ((h.magicOk_iff (by omega)).2 hm) hv
  | noCount hn hlt ht => exact .noCount (by omega) (by omega) ((h.tagOk_iff hn).2 ht)
  | count hn ht hc =>
    have hcount := h.countField_eq hn
    exact .count (by omega) ((h.tagOk_iff (by omega)).2 ht) (by omega)
  | table hn ht hc hlt =>
    have hcount := h.countField_eq hn
    exact .table (by omega) ((h.tagOk_iff (by omega)).2 ht) (by omega) (by omega)
  | @entry i hn ht hc hi hok hbad =>
    have hcount := h.countField_eq (by omega)
    rw [← h.bytes (16 + 2 * i) (by omega)]
    exact .entry (by omega) ((h.tagOk_iff (by omega)).2 ht) (by omega) (by omega)
      (fun j hj => (h.entryOk_iff (by omega)).2 (hok j hj)) (mt (h.entryOk_iff (by omega)).1 hbad)
  | noBitCount hn ht hc hok hlt =>
    have hcount := h.countField_eq (by omega)
    exact .noBitCount (by omega) ((h.tagOk_iff (by omega)).2 ht) (by omega)
      (fun j hj => (h.entryOk_iff (by omega)).2 (hok j (by omega))) (by omega)
  | payload hn ht hc hok hlt =>
    have hcount := h.countField_eq (by omega)
    have hbits := h.bitField_eq hn
    refine .payload (by omega) ((h.tagOk_iff (by omega)).2 ht) (by omega)
      (fun j hj => (h.entryOk_iff (by omega)).2 (hok j (by omega))) ?_
    rwa [hcount, hbits, hlen]
  | trailing ht hc hok hlt =>
    have hcount := h.countField_eq (by omega)
    have hbits := h.bitField_eq (n := s.countField) (by omega)
    refine .trailing ((h.tagOk_iff (by omega)).2 ht) (by omega)
      (fun j hj => (h.entryOk_iff (by omega)).2 (hok j (by omega))) ?_
    rwa [hcount, hbits, hlen]
  | empty ht hc hok hn hempty =>
    have hcount := h.countField_eq (by omega)
    have hbits := h.bitField_eq (n := s.countField) (by omega)
    refine .empty ((h.tagOk_iff (by omega)).2 ht) (by omega)
      (fun j hj => (h.entryOk_iff (by omega)).2 (hok j (by omega))) ?_ ?_
    · rwa [hcount, hbits, hlen]
    · rwa [hcount, hbits, h.origField_eq (by omega)]

/-- The same artifact is accepted with the same fields. -/
theorem Accepts.congr (ha : Accepts s) :
    Accepts s' ∧ s'.countField = s.countField ∧ s'.origField = s.origField ∧
      s'.bitField s.countField = s.bitField s.countField ∧ s'.entries s.countField = s.entries s.countField ∧
      s'.inRange (19 + 2 * s.countField) (ceil8 (s.bitField s.countField)) =
        s.inRange (19 + 2 * s.countField) (ceil8 (s.bitField s.countField)) := by
  obtain ⟨ht, hc, hok, hn, hempty, hnoBits⟩ := ha
  have hcount := h.countField_eq (by omega)
  have horig := h.origField_eq (by omega)
  have hbits := h.bitField_eq (n := s.countField) (by omega)
  refine ⟨⟨(h.tagOk_iff (by omega)).2 ht, by omega, fun j hj => (h.entryOk_iff (by omega)).2 (hok j (by omega)), ?_,
    by rwa [hcount, horig], ?_⟩, hcount, horig, hbits, h.entries_eq (by omega), h.inRange_eq (by omega)⟩
  · rw [h.inLen, hcount, hbits, hn]
  · rwa [hcount, hbits]

end congr

end Sys2Proof.Machine

/-! PROOFS. The bits of an UNPACK determine how it ends (45_orchestration.md R215 to R217). -/

namespace Sys2Proof.Machine

/-- The same run from another state: its final state carried over by `f`. -/
def Run.mapState {α : Type} (f : State → State) : Run α → Run α
  | .done a t => .done a (f t)
  | .raised c t => .raised c (f t)
  | .stuck e => .stuck e

section transfer
variable {s s' : State}

/-- The state `s'` with the reader's cursor as in `t`. -/
def atCursor (s' t : State) : State := { s' with brPos := t.brPos }

/-- The state `s'` with the reader's cursor and OUT as in `t`. -/
def atOutput (s' t : State) : State := { s' with brPos := t.brPos, outMem := t.outMem }

theorem atCursor_self (h : s'.brPos = s.brPos) : atCursor s' s = s' := by rw [atCursor, ← h]

theorem atOutput_self (h : s'.brPos = s.brPos) (h' : s'.outMem = s.outMem) : atOutput s' s = s' := by
  rw [atOutput, ← h, ← h']

/-- What DECSYM reads of two states is the same (45_orchestration.md R216). -/
structure SameReader (s s' : State) : Prop where
  buf : s'.brBuf = s.brBuf
  limit : s'.brLimit = s.brLimit
  pos : s'.brPos = s.brPos
  dtab : s'.dtab = s.dtab

theorem SameReader.readerOk (h : SameReader s s') (hok : ReaderOk s) : ReaderOk s' := by
  rwa [ReaderOk, h.buf, h.limit, h.pos]

theorem SameReader.unread (h : SameReader s s') : s'.unread = s.unread := by
  rw [State.unread, State.unread, h.buf, h.limit, h.pos]

theorem SameReader.advance (h : SameReader s s') : SameReader (advanceReader s) (advanceReader s') :=
  ⟨h.buf, h.limit, congrArg (· + 1) h.pos, h.dtab⟩

/-- DECSYM depends on the reader and the decoder's table alone: a buffer that has its limit's bits leaves no bit
free. -/
theorem decsymLoop_transfer (n : Nat) (acc : BitStr) {s s' : State} (h : SameReader s s') (hok : ReaderOk s) :
    decsymLoop n acc s' = (decsymLoop n acc s).mapState (atCursor s') := by
  induction n generalizing acc s s' with
  | zero => rw [decsymLoop, decsymLoop, Run.mapState, atCursor_self h.pos]
  | succ n ih =>
    have hok' := h.readerOk hok
    cases hu : s.unread with
    | nil =>
      rw [decsymLoop, nextBit_nil hok' (h.unread.trans hu), decsymLoop, nextBit_nil hok hu, Run.mapState,
        atCursor_self h.pos]
    | cons r rest =>
      have hcursor : atCursor s' (advanceReader s) = advanceReader s' := atCursor_self h.advance.pos
      obtain ⟨-, -, hok1⟩ := nextBit_cons hok hu
      rw [decsymLoop_cons hok hu, decsymLoop_cons hok' (h.unread.trans hu), h.dtab]
      split
      · rw [Run.mapState, hcursor]
      · split
        · exact ih (acc ++ [r]) h.advance hok1
        · rw [Run.mapState, hcursor]

theorem decodeSymbol_transfer (h : SameReader s s') (hok : ReaderOk s) :
    decodeSymbol s' = (decodeSymbol s).mapState (atCursor s') := by
  rw [decodeSymbol, decodeSymbol, h.limit, h.pos, decsymLoop_transfer _ _ h hok]

/-- UNPACK's write of one symbol (45_orchestration.md R215). -/
def writeSymbol (j : Nat) (b : Byte) (s : State) : State := { s with outMem := s.outMem.set j b }

theorem unpackLoop_symbol {n j : Nat} {b : Byte} {t : State} (h : decodeSymbol s = .done b t) :
    unpackLoop (n + 1) j s =
      if j < t.par.outCap then unpackLoop n (j + 1) (writeSymbol j b t) else .stuck .outAddress := by
  rw [unpackLoop, h]
  rfl

/-- UNPACK's loop depends on the reader, the decoder's table, OUT and its capacity. -/
theorem unpackLoop_transfer (n j : Nat) {s s' : State} (h : SameReader s s') (hok : ReaderOk s) (hpar : s'.par = s.par)
    (hout : s'.outMem = s.outMem) : unpackLoop n j s' = (unpackLoop n j s).mapState (atOutput s') := by
  induction n generalizing j s s' with
  | zero => rw [unpackLoop, unpackLoop, Run.mapState, atOutput_self h.pos hout]
  | succ n ih =>
    have htransfer := decodeSymbol_transfer h hok
    cases hd : decodeSymbol s with
    | stuck f =>
      rw [hd] at htransfer
      rw [unpackLoop, htransfer, unpackLoop, hd]
      rfl
    | raised c t =>
      rw [hd] at htransfer
      have hframe := decsymLoop_frame (s.brLimit - s.brPos + 1) [] s
      rw [← decodeSymbol, hd] at hframe
      have ht : t = { s with brPos := t.brPos } := hframe
      have hmem : t.outMem = s'.outMem := by rw [ht, hout]
      rw [unpackLoop_raised htransfer, unpackLoop_raised hd, Run.mapState, atOutput, atCursor, hmem]
    | done b t =>
      rw [hd] at htransfer
      obtain ⟨cs, -, -, ht, hokt⟩ := decsymLoop_done hok hd
      have hmem : t.outMem = s'.outMem := by rw [ht, hout]; rfl
      have hpart : t.par = s'.par := by rw [ht, hpar]; rfl
      have hread : SameReader (writeSymbol j b t) (writeSymbol j b (atCursor s' t)) := by
        refine ⟨?_, ?_, rfl, ?_⟩ <;> rw [ht]
        · exact h.buf
        · exact h.limit
        · exact h.dtab
      have hnext := ih (j + 1) hread hokt hpart.symm (congrArg (·.set j b) hmem.symm)
      rw [unpackLoop_symbol htransfer, unpackLoop_symbol hd, hnext, hpart,
        apply_ite (Run.mapState (atOutput s'))]
      rfl

/-- What UNPACK reads of two states is the same (45_orchestration.md R215). -/
structure SamePacked (s s' : State) : Prop where
  par : s'.par = s.par
  payload : s'.cPayload = s.cPayload
  bitcount : s'.cBitcount = s.cBitcount
  origlen : s'.cOriglen = s.cOriglen
  dtab : s'.dtab = s.dtab
  outMem : s'.outMem = s.outMem

/-- UNPACK depends on the payload, the original length, the decoder's table, OUT and its capacity alone. -/
theorem unpackPayload_transfer (h : SamePacked s s') (hlen : s.cPayload.length = ceil8 s.cBitcount) :
    unpackPayload s' =
      (unpackPayload s).mapState (atOutput (attachReader s'.cPayload s'.cBitcount s')) := by
  have hok : ReaderOk (attachReader s.cPayload s.cBitcount s) := ⟨Nat.zero_le _, hlen⟩
  have hsame : SameReader (attachReader s.cPayload s.cBitcount s) (attachReader s'.cPayload s'.cBitcount s') :=
    ⟨h.payload, h.bitcount, rfl, h.dtab⟩
  rw [unpackPayload, unpackPayload, h.origlen, unpackLoop_transfer _ _ hsame hok h.par h.outMem]
  cases hd : unpackLoop s.cOriglen 0 (attachReader s.cPayload s.cBitcount s) with
  | stuck f => rfl
  | raised c t => rfl
  | done u t =>
    obtain ⟨es, -, -, -, -, -, ht⟩ := unpackLoop_done hok hd
    have hlimit : t.brLimit = s'.cBitcount := by rw [ht, h.bitcount]; rfl
    simp only [Run.mapState, hlimit]
    change (if t.brPos ≠ s'.cBitcount then _ else _) = _
    split
    · rfl
    · rfl

end transfer

end Sys2Proof.Machine

/-! PROOFS. DECODE: how it ends is a property of the input and the parameters (45_orchestration.md R210 to R218). -/

namespace Sys2Proof.Machine

/-- A command's end in an error, with the input as it was. -/
theorem endsFailed_of_exec {i : Instr} {s t : State} {c v : Byte} (h : exec i s = .next t) (hf : Failed t c v) :
    EndsFailed (exec i s) s c v := ⟨t, h, hf, inputFrame i s t h⟩

/-! ### The stages of the program -/

section stages
variable {s t u : State}

/-- A DECODE that is not refused begins with DESERIALIZE (45_orchestration.md R211, steps D0 and D1). -/
theorem exec_decode_eq (hb : s.status.busy = false) (hcap : s.inLen.toNat ≤ s.par.inCap) :
    exec .decode s = callUnit 0x0C#8 execDeserialize decodeParsed (commandStart s) := by
  change execDecode s = _
  rw [execDecode, hb, if_neg Bool.false_ne_true, decodeProgram,
    if_neg (show ¬ (commandStart s).par.inCap < (commandStart s).inLen.toNat from hcap.not_gt)]

theorem exec_decode_refused (hb : s.status.busy = false) (h : s.par.inCap < s.inLen.toNat) :
    exec .decode s = .next (errorEntry .artifactTooLong (commandStart s)) := by
  change execDecode s = _
  rw [execDecode, hb, if_neg Bool.false_ne_true, decodeProgram]
  exact if_pos h

/-- An error of DESERIALIZE ends the command (60_exceptions.md R248). -/
theorem exec_decode_of_ended (hb : s.status.busy = false) (hcap : s.inLen.toNat ≤ s.par.inCap)
    (h : exec .deserialize (unitStart 0x0C#8 s) = .next t) (ht : t.phase = phaseIdle) : exec .decode s = .next t := by
  rw [exec_decode_eq hb hcap]
  exact callUnit_ended h ht

theorem exec_decode_of_parsed (hb : s.status.busy = false) (hcap : s.inLen.toNat ≤ s.par.inCap)
    (h : exec .deserialize (unitStart 0x0C#8 s) = .next u) (hu : u.phase ≠ phaseIdle) :
    exec .decode s = decodeParsed u := by
  rw [exec_decode_eq hb hcap]
  exact callUnit_next h hu

theorem decodeParsed_empty (h : s.nsym = 0) : decodeParsed s = .next (complete 0 s) := if_pos h

theorem decodeParsed_tooLong (hn : 0 < s.nsym) (h : s.par.lmax.val < s.cOriglen) :
    decodeParsed s = .next (errorEntry .outputTooLong s) := by
  rw [decodeParsed, if_neg hn.ne', if_pos h, refusalEntry]

theorem decodeParsed_nonempty (hn : 0 < s.nsym) (h : s.cOriglen ≤ s.par.lmax.val) :
    decodeParsed s = decodeNonempty s := by
  rw [decodeParsed, if_neg hn.ne', if_neg h.not_gt]

/-- An over-subscribed table ends the command (45_orchestration.md R211, step D4). -/
theorem decodeNonempty_overSubscribed (h : 1 < kraftSum (tab s.len)) :
    ∃ t, decodeNonempty s = .next (errorEntry .overSubscribed t) := by
  rw [decodeNonempty]
  exact ⟨_, callUnit_ended (execCanon_raised (s := setPhase 0x06#8 s) rfl h.not_ge) rfl⟩

/-- The state with the canonical codes and the decoder's table of the lengths (45_orchestration.md R211, steps D4
and D5). -/
def State.coded (s : State) : State :=
  { setCodes (canonCodes (tab s.len)).1 s with dtab := codePairs (tab s.len) (canonTable (tab s.len)) }

theorem execDtBuild_setCodes (h : kraftSum (tab s.len) ≤ 1) :
    execDtBuild (setCodes (canonCodes (tab s.len)).1 s) = .next s.coded := by
  rw [State.coded, ← code_setCodes h]
  rfl

theorem execAll_coded (h : kraftSum (tab s.len) ≤ 1) : execAll [.canon, .dtBuild] s = .next s.coded := by
  have hcanon : exec .canon s = .next (setCodes (canonCodes (tab s.len)).1 s) := exec_canon_ok h
  have hbuild : exec .dtBuild (setCodes (canonCodes (tab s.len)).1 s) = .next s.coded := execDtBuild_setCodes h
  rw [execAll_cons_of_next hcanon, execAll_cons_of_next hbuild, execAll_nil]

/-- Past CANON and DT_BUILD only UNPACK is left (45_orchestration.md R211, steps D6 and D7). -/
theorem decodeNonempty_coded (h : kraftSum (tab s.len) ≤ 1) :
    decodeNonempty s =
      callUnit 0x12#8 execUnpack (fun t => .next (complete t.cOriglen t)) (setPhase 0x0D#8 s.coded) := by
  have hcanon : execCanon (setPhase 0x06#8 s) = .next (setCodes (canonCodes (tab s.len)).1 (setPhase 0x06#8 s)) :=
    execCanon_ok rfl h
  have hbuild : execDtBuild (setPhase 0x0D#8 (setCodes (canonCodes (tab s.len)).1 (setPhase 0x06#8 s))) =
      .next (setPhase 0x0D#8 s.coded) := execDtBuild_setCodes (s := setPhase 0x0D#8 s) h
  rw [decodeNonempty, callUnit_next hcanon (by rw [setCodes_phase, setPhase_phase]; decide),
    callUnit_next hbuild (by rw [setPhase_phase]; decide)]

/-- UNPACK's error ends the command (60_exceptions.md R248). -/
theorem decodeNonempty_raised {c : Cause} (h : kraftSum (tab s.len) ≤ 1)
    (hu : unpackPayload (setPhase 0x12#8 s.coded) = .raised c t) : decodeNonempty s = .next (errorEntry c t) := by
  rw [decodeNonempty_coded h]
  exact callUnit_ended (exec_unpack_raised hu) rfl

end stages

/-! ### The end of a DECODE, from the input -/

section input
variable (s : State)

/-- The code lengths of the artifact's table (44_container.md R188). -/
def State.lengths : Byte → Nat := tab (lenOf (s.entries s.countField))

/-- The payload bytes of the artifact (30_encoding.md R77). -/
def State.payload : List Byte := s.inRange (19 + 2 * s.countField) (ceil8 (s.bitField s.countField))

/-- The state in which the UNPACK of a DECODE runs. -/
def State.unpacking : State := setPhase 0x12#8 (unitStart 0x0C#8 s).accepted.coded

end input

/-- Why a DECODE ends without a result: the first check that fails (45_orchestration.md R210, R211; 60 R248). -/
inductive DecodeFails (s : State) : Cause → Prop where
  | tooLong : s.par.inCap < s.inLen.toNat → DecodeFails s .artifactTooLong
  | rejected {c : Cause} : s.inLen.toNat ≤ s.par.inCap → Rejects s c → DecodeFails s c
  | outputTooLong : s.inLen.toNat ≤ s.par.inCap → Accepts s → 0 < s.countField → s.par.lmax.val < s.origField →
      DecodeFails s .outputTooLong
  | overSubscribed : s.inLen.toNat ≤ s.par.inCap → Accepts s → 0 < s.countField → s.origField ≤ s.par.lmax.val →
      1 < kraftSum s.lengths → DecodeFails s .overSubscribed
  | unpack {c : Cause} {t : State} : s.inLen.toNat ≤ s.par.inCap → Accepts s → 0 < s.countField →
      s.origField ≤ s.par.lmax.val → kraftSum s.lengths ≤ 1 → unpackPayload s.unpacking = .raised c t → DecodeFails s c

/-- The artifact in IN is one of these bytes: its bits are their canonical codes (45_orchestration.md R218). -/
structure DecodesTo (s : State) (bs : List Byte) : Prop where
  fits : s.inLen.toNat ≤ s.par.inCap
  accepts : Accepts s
  length : bs.length = s.origField
  le : bs.length ≤ s.par.lmax.val
  kraft : kraftSum s.lengths ≤ 1
  coded : ∀ b ∈ bs, 0 < s.lengths b
  bits : streamBits s.payload 0 (s.bitField s.countField) = encodedBits s.lengths bs

section ends
variable {s : State}

/-- Command start leaves the artifact as it is. -/
theorem sameArtifact_unitStart (code : Byte) (s : State) : SameArtifact s (unitStart code s) :=
  SameInput.sameArtifact (sameInput_of rfl rfl rfl rfl rfl rfl)

/-- An accepted artifact is parsed (45_orchestration.md R211, step D2). -/
theorem exec_decode_accepted (hb : s.status.busy = false) (hcap : s.inLen.toNat ≤ s.par.inCap) (h : Accepts s) :
    exec .decode s = decodeParsed (unitStart 0x0C#8 s).accepted := by
  obtain ⟨hacc, -⟩ := h.congr (sameArtifact_unitStart 0x0C#8 s)
  exact exec_decode_of_parsed hb hcap (exec_deserialize_done (hacc.done hcap)) (by decide : (0x0C#8 : Byte) ≠ phaseIdle)

/-- The check that fails is the error DECODE ends with. -/
theorem DecodeFails.exec {c : Cause} (h : DecodeFails s c) (hb : s.status.busy = false) :
    ∃ t, exec .decode s = .next (errorEntry c t) := by
  cases h with
  | tooLong h => exact ⟨_, exec_decode_refused hb h⟩
  | rejected hcap h =>
    obtain ⟨t, ht⟩ := (h.congr (sameArtifact_unitStart 0x0C#8 s)).raised hcap
    exact ⟨t, exec_decode_of_ended hb hcap (exec_deserialize_raised ht) rfl⟩
  | outputTooLong hcap hacc hn h =>
    rw [exec_decode_accepted hb hcap hacc]
    exact ⟨_, decodeParsed_tooLong hn h⟩
  | overSubscribed hcap hacc hn hle hk =>
    rw [exec_decode_accepted hb hcap hacc, decodeParsed_nonempty hn hle]
    exact decodeNonempty_overSubscribed hk
  | unpack hcap hacc hn hle hk h =>
    rw [exec_decode_accepted hb hcap hacc, decodeParsed_nonempty hn hle]
    exact ⟨_, decodeNonempty_raised hk h⟩

theorem payload_length (s : State) : s.payload.length = ceil8 (s.bitField s.countField) := by
  simp [State.payload, State.inRange]

/-- The bytes the artifact is of are the result (45_orchestration.md R210, R212). -/
theorem DecodesTo.exec {bs : List Byte} (h : DecodesTo s bs) (hb : s.status.busy = false) :
    ∃ t, exec .decode s = .next (complete bs.length t) ∧ DecodeFrame (commandStart s) t ∧
      t.outMem = Memory.setBytes [] 0 bs := by
  obtain ⟨hcap, hacc, hlen, hle, hk, hcoded, hbits⟩ := h
  have hle' : s.origField ≤ s.par.lmax.val := hlen ▸ hle
  have hmem : (unitStart 0x0C#8 s).accepted.outMem = [] := Memory.filter_lt_zero _
  have hframe : DecodeFrame (commandStart s) (unitStart 0x0C#8 s).accepted := rfl
  rw [exec_decode_accepted hb hcap hacc]
  by_cases hn : s.countField = 0
  · obtain rfl : bs = [] := List.length_eq_zero_iff.1 (hlen.trans (hacc.empty.1 hn))
    exact ⟨_, decodeParsed_empty hn, hframe, hmem⟩
  · obtain ⟨t, hrun, htframe, htmem⟩ := decodeNonempty_codes (s := (unitStart 0x0C#8 s).accepted) (bs := bs)
      rfl hk hcoded (payload_length s) hlen hle' hbits
    rw [decodeParsed_nonempty (Nat.pos_of_ne_zero hn) hle', hrun]
    exact ⟨t, rfl, hframe.trans htframe, by rw [htmem, hmem]⟩

/-- Codes of the canonical table, one after another, are the packed bits of their symbols (30_encoding.md R81). -/
theorem flatMap_codes {len : Byte → Nat} {es : List (BitStr × Byte)}
    (h : ∀ e ∈ es, e ∈ codePairs len (canonTable len)) :
    es.flatMap (·.1) = encodedBits len (es.map (·.2)) ∧ ∀ b ∈ es.map (·.2), 0 < len b := by
  have hcode : ∀ e ∈ es, 0 < len e.2 ∧ canonTable len e.2 = some e.1 := fun e he => codePairs_mem.1 (h e he)
  constructor
  · rw [encodedBits, List.flatMap_map]
    refine List.flatMap_congr fun e he => ?_
    rw [(hcode e he).2, Option.getD_some]
  · rintro b hb
    obtain ⟨e, he, rfl⟩ := List.mem_map.1 hb
    exact (hcode e he).1

/-- The empty artifact lists no symbol. -/
theorem decodesTo_nil (hcap : s.inLen.toNat ≤ s.par.inCap) (h : Accepts s) (hn : s.countField = 0) :
    DecodesTo s [] where
  fits := hcap
  accepts := h
  length := (h.empty.1 hn).symm
  le := Nat.zero_le _
  kraft := by
    have hzero : ∀ b, s.lengths b = 0 := fun b => by rw [State.lengths, hn]; exact tab_replicate 0 b
    exact (lengthsOf_nil hzero).kraft
  coded := nofun
  bits := by rw [h.noBits hn]; rfl

/-- Every DECODE fails a first check or ends with the bytes its artifact is of (45_orchestration.md R218, R236). -/
theorem fails_or_decodes (s : State) : (∃ c, DecodeFails s c) ∨ ∃ bs, DecodesTo s bs := by
  by_cases hcap : s.inLen.toNat ≤ s.par.inCap
  swap
  · exact .inl ⟨_, .tooLong (by omega)⟩
  obtain ⟨c, hrej⟩ | hacc := rejects_or_accepts s
  · exact .inl ⟨c, .rejected hcap hrej⟩
  by_cases hn : s.countField = 0
  · exact .inr ⟨[], decodesTo_nil hcap hacc hn⟩
  by_cases hle : s.origField ≤ s.par.lmax.val
  swap
  · exact .inl ⟨_, .outputTooLong hcap hacc (by omega) (by omega)⟩
  by_cases hk : kraftSum s.lengths ≤ 1
  swap
  · exact .inl ⟨_, .overSubscribed hcap hacc (by omega) hle (lt_of_not_ge hk)⟩
  obtain ⟨c, t, hraised, -⟩ | ⟨es, t, hcount, hes, hbits, -⟩ :=
    unpackPayload_ends (s := s.unpacking) (payload_length s) (hle.trans (Nat.le_add_right ..))
  · exact .inl ⟨c, .unpack hcap hacc (by omega) hle hk hraised⟩
  · obtain ⟨hcodes, hpos⟩ := flatMap_codes (len := s.lengths) hes
    have hlen : (es.map (·.2)).length = s.origField := by rw [List.length_map]; exact hcount
    exact .inr ⟨es.map (·.2), hcap, hacc, hlen, hlen ▸ hle, hk, hpos, hbits.trans hcodes⟩

/-- DECSYM raises EndOfStream or NoMatch (45_orchestration.md R216). -/
theorem decsymLoop_cause {n : Nat} {acc : BitStr} {s t : State} {c : Cause} (h : decsymLoop n acc s = .raised c t) :
    c = .endOfStream ∨ c = .noMatch := by
  induction n generalizing acc s with
  | zero =>
    cases h
    exact .inl rfl
  | succ n ih =>
    rw [decsymLoop] at h
    split at h
    case h_1 =>
      cases h
      exact .inl rfl
    case h_2 =>
      dsimp only at h
      split at h
      case h_1 => cases h
      case h_2 =>
        split at h
        case isTrue => exact ih h
        case isFalse =>
          cases h
          exact .inr rfl

theorem unpackLoop_cause {n j : Nat} {s t : State} {c : Cause} (h : unpackLoop n j s = .raised c t) :
    c = .endOfStream ∨ c = .noMatch := by
  induction n generalizing j s with
  | zero => cases h
  | succ n ih =>
    rw [unpackLoop] at h
    split at h
    case h_1 =>
      split at h
      case isTrue => exact ih h
      case isFalse => cases h
    case h_2 hraised =>
      cases h
      exact decsymLoop_cause hraised
    case h_3 => cases h

/-- UNPACK raises LeftoverBits, or what DECSYM raises (45_orchestration.md R215, R217). -/
theorem unpackPayload_cause {t : State} {c : Cause} (h : unpackPayload s = .raised c t) :
    c = .leftoverBits ∨ c = .endOfStream ∨ c = .noMatch := by
  rw [unpackPayload] at h
  cases hloop : unpackLoop s.cOriglen 0 (attachReader s.cPayload s.cBitcount s) with
  | stuck f =>
    rw [hloop] at h
    cases h
  | raised c' t' =>
    rw [hloop] at h
    cases h
    exact .inr (unpackLoop_cause hloop)
  | done _ t' =>
    rw [hloop] at h
    dsimp only at h
    split at h
    · cases h
      exact .inl rfl
    · cases h

/-- The codes a DECODE can end with (60_exceptions.md R240, R241). -/
theorem DecodeFails.code_mem {c : Cause} (h : DecodeFails s c) : c.code ∈ [0x01#8, 0x02#8, 0x03#8, 0x11#8] := by
  cases h with
  | tooLong => decide
  | rejected _ h => exact List.mem_append_left [0x11#8] h.code_mem
  | outputTooLong => decide
  | overSubscribed => decide
  | unpack _ _ _ _ _ h => obtain rfl | rfl | rfl := unpackPayload_cause h <;> decide

end ends

end Sys2Proof.Machine

/-! PROOFS. The statements about DECODE (45_orchestration.md R210 to R218; 60_exceptions.md R246, R248). -/

namespace Sys2Proof.Machine

/-! ### The refusals -/

/-- Settles O50, one test for each sub-cause. -/
theorem sizeLimits : Obligations.SizeLimits := by
  unfold Obligations.SizeLimits
  intro s hb
  refine ⟨fun h => ?_, fun h => ?_, fun u hcap hu hphase hn hle => ?_⟩
  · exact endsFailed_of_exec (exec_encode_refused hb h) (errorEntry_failed ..)
  · exact endsFailed_of_exec (exec_decode_refused hb h) (errorEntry_failed ..)
  · have hpar : u.par = s.par := (inputFrame _ _ _ hu).1
    have hrun := (exec_decode_of_parsed hb hcap hu hphase).trans (decodeParsed_tooLong hn (hpar ▸ hle))
    exact endsFailed_of_exec hrun (errorEntry_failed ..)

/-! ### The errors -/

section errors
variable {s u : State}

/-- What a DESERIALIZE that does not raise has read (44_container.md R188). -/
theorem deserialize_of_exec (hcap : s.inLen.toNat ≤ s.par.inCap) (h : exec .deserialize s = .next u)
    (hu : u.phase ≠ phaseIdle) : Accepts s ∧ u = s.accepted := by
  obtain ⟨c, hrej⟩ | hacc := rejects_or_accepts s
  · obtain ⟨t, ht⟩ := hrej.raised hcap
    cases (exec_deserialize_raised ht).symm.trans h
    exact absurd rfl hu
  · exact ⟨hacc, Host.Outcome.next.inj (h.symm.trans (exec_deserialize_done (hacc.done hcap)))⟩

/-- An UNPACK that fails in a unit state raised: one that completes leaves `PHASE` as it was. -/
theorem unpackPayload_of_failed {c v : Byte} (hphase : s.phase ≠ phaseIdle) (h : EndsFailed (exec .unpack s) s c v) :
    ∃ d t, unpackPayload s = .raised d t ∧ d.code = c ∧ d.info = v := by
  obtain ⟨t, hrun, ⟨-, hcode, hinfo, -, hidle⟩, -⟩ := h
  have hleaves := unpackPayload_frame s
  cases hd : unpackPayload s with
  | stuck f => cases (exec_unpack_stuck hd).symm.trans hrun
  | raised d t' =>
    cases (exec_unpack_raised hd).symm.trans hrun
    exact ⟨d, t', rfl, hcode, hinfo⟩
  | done _ t' =>
    cases (exec_unpack_done hd).symm.trans hrun
    rw [hd] at hleaves
    have hframe : t = { s with
      brBuf := s.cPayload, brLimit := s.cBitcount, brPos := t.brPos, draws := s.draws + 1, outMem := t.outMem } :=
      hleaves
    rw [hframe] at hidle
    exact absurd hidle hphase

/-- `PHASE` does not bear on how UNPACK ends. -/
theorem unpackPayload_setPhase {d : Cause} {t : State} (p : Byte) (hlen : s.cPayload.length = ceil8 s.cBitcount)
    (h : unpackPayload s = .raised d t) : ∃ t', unpackPayload (setPhase p s) = .raised d t' := by
  have htransfer := unpackPayload_transfer (s := s) (s' := setPhase p s) ⟨rfl, rfl, rfl, rfl, rfl, rfl⟩ hlen
  rw [h] at htransfer
  exact ⟨_, htransfer⟩

end errors

/-- Settles O53: an error of DESERIALIZE ends the command, and of an accepted artifact CANON and UNPACK run on what was
read. -/
theorem decodeErrors : Obligations.DecodeErrors := by
  unfold Obligations.DecodeErrors
  intro s hb hcap
  refine ⟨fun c i ⟨t, ht, hfail, _⟩ => ?_, fun u hu hphase hn hle => ⟨fun hk => ?_, fun v c i hk hv hfail => ?_⟩⟩
  · obtain ⟨-, -, -, -, hidle⟩ := id hfail
    exact endsFailed_of_exec (exec_decode_of_ended hb hcap ht hidle) hfail
  all_goals
    have hpar : u.par = s.par := (inputFrame _ _ _ hu).1
    have hrun := (exec_decode_of_parsed hb hcap hu hphase).trans (decodeParsed_nonempty hn (hpar ▸ hle))
  · obtain ⟨t, ht⟩ := decodeNonempty_overSubscribed hk
    exact endsFailed_of_exec (hrun.trans ht) (errorEntry_failed ..)
  · obtain rfl := Host.Outcome.next.inj ((execAll_coded hk).symm.trans hv)
    obtain ⟨-, rfl⟩ := deserialize_of_exec (s := unitStart 0x0C#8 s) hcap hu hphase
    obtain ⟨d, t, hraised, rfl, rfl⟩ := unpackPayload_of_failed (s := (unitStart 0x0C#8 s).accepted.coded) hphase hfail
    obtain ⟨t', hraised'⟩ := unpackPayload_setPhase 0x12#8 (payload_length (unitStart 0x0C#8 s)) hraised
    exact endsFailed_of_exec (hrun.trans (decodeNonempty_raised hk hraised')) (errorEntry_failed ..)

/-! ### The result -/

section result
variable {s : State} {bs : List Byte}

/-- A DECODE of an artifact of `bs` succeeds with `bs` (45_orchestration.md R210). -/
theorem DecodesTo.succeeds (h : DecodesTo s bs) (hb : s.status.busy = false) :
    ∃ t, Machine.exec .decode s = .next t ∧ Succeeded t ∧ HoldsOutput t bs := by
  obtain ⟨t, hrun, hframe, hmem⟩ := h.exec hb
  have hlmax := s.par.lmax.isLt
  have hle := h.le
  exact ⟨_, hrun, succeeded_complete hframe _, holdsOutput_complete hmem (by omega)⟩

/-- What DESERIALIZE reads of a container are its fields (44_container.md R189). -/
theorem fields_of_container {L B : Nat} {table : List (Byte × Byte)} {payload : List Byte}
    (hin : HoldsInput s (containerBytes s.par L table B payload)) (hL : L < 2 ^ 64) (hB : B < 2 ^ 32)
    (ht : TableWf table) (h0 : table = [] ↔ L = 0) (hb0 : table = [] → B = 0) (hp : payload.length = ceil8 B)
    (hcap : 19 + 2 * table.length + ceil8 B ≤ s.par.inCap) :
    Accepts s ∧ s.origField = L ∧ s.countField = table.length ∧ s.entries s.countField = table ∧
      s.bitField s.countField = B ∧ s.payload = payload := by
  have hfits : s.inLen.toNat ≤ s.par.inCap := by
    obtain ⟨hlen, -⟩ := hin
    rw [containerBytes_length] at hlen
    omega
  have hdone := deserialize_container hin hL hB ht h0 hb0 hp hcap
  obtain ⟨c, hrej⟩ | hacc := rejects_or_accepts s
  · obtain ⟨t, hraised⟩ := hrej.raised hfits
    cases hraised.symm.trans hdone
  · obtain ⟨-, hstate⟩ := Run.done.inj ((hacc.done hfits).symm.trans hdone)
    exact ⟨hacc, congrArg State.cOriglen hstate, congrArg State.cNsym hstate, congrArg State.cTab hstate,
      congrArg State.cBitcount hstate, congrArg State.cPayload hstate⟩

theorem lengths_eq {table : List (Byte × Byte)} (ht : TableWf table) (h : s.entries s.countField = table) :
    s.lengths = tableLen table := by
  rw [State.lengths, h]
  exact funext (tab_lenOf ht.nodup)

end result

/-- Settles O51: what DESERIALIZE reads of the container makes an artifact of `bs`. -/
theorem decodeSucceeds : Obligations.DecodeSucceeds := by
  unfold Obligations.DecodeSucceeds
  intro s bs payload table bitcount hb hin hle hcap hB hp ht h0 hb0 hk hcoded hbits
  have hlmax := s.par.lmax.isLt
  have hfits : s.inLen.toNat ≤ s.par.inCap := by
    obtain ⟨hlen, -⟩ := hin
    rwa [hlen, containerBytes_length]
  have h0' : table = [] ↔ bs.length = 0 := h0.trans List.length_eq_zero_iff.symm
  obtain ⟨hacc, horig, hcount, hentries, hbitcount, hpayload⟩ :=
    fields_of_container hin (by omega) hB ht h0' hb0 hp (hp ▸ hcap)
  have hlengths := lengths_eq ht hentries
  have hdecodes : DecodesTo s bs := by
    refine ⟨hfits, hacc, horig.symm, hle, ?_, ?_, ?_⟩
    · rwa [hlengths]
    · rwa [hlengths]
    · rwa [hpayload, hbitcount, hlengths]
  obtain ⟨t, hrun, hsucc, hout⟩ := hdecodes.succeeds hb
  exact ⟨t, hrun, hsucc, hout, inputFrame _ _ _ hrun⟩

/-! ### What a result establishes -/

section container
variable {s : State}

theorem inRange_add (s : State) (a n m : Nat) : s.inRange a (n + m) = s.inRange a n ++ s.inRange (a + n) m := by
  simp only [State.inRange, List.range_add, List.map_append, List.map_map, Function.comp_def, Nat.add_assoc]

/-- Big-endian bytes are those of the number they make (00_scope.md R14). -/
theorem beBytes_beNat (bs : List Byte) : beBytes bs.length (beNat bs) = bs := by
  induction bs using List.reverseRecOn with
  | nil => rfl
  | append_singleton bs b ih =>
    have hb : b.toNat < 256 := b.isLt
    have hval : beNat (bs ++ [b]) = beNat bs * 256 + b.toNat := by rw [beNat_append]; simp [beNat]
    rw [List.length_append, List.length_singleton, beBytes_succ, hval,
      show (beNat bs * 256 + b.toNat) / 256 = beNat bs by omega, ih, List.append_cancel_left_eq, List.singleton_inj]
    refine BitVec.eq_of_toNat_eq ?_
    rw [BitVec.toNat_ofNat]
    omega

theorem beBytes_memRead (s : State) (a n : Nat) : beBytes n (s.memRead a n) = s.inRange a n := by
  have hlen : (s.inRange a n).length = n := by simp [State.inRange]
  have hbytes := beBytes_beNat (s.inRange a n)
  rwa [hlen] at hbytes

theorem memRead_countField (s : State) : s.memRead 13 2 = s.countField := by
  simp [State.memRead, State.countField, beNat, State.inRange, List.range_succ]
  omega

/-- The table's bytes are its entries (30_encoding.md R75). -/
theorem inRange_entries (s : State) (n : Nat) : s.inRange 15 (2 * n) = tableOf (s.entries n) := by
  induction n with
  | zero => rfl
  | succ n ih =>
    have hentry : s.inRange (15 + 2 * n) 2 = [s.inByte (15 + 2 * n), s.inByte (16 + 2 * n)] := by
      simp only [State.inRange, List.range_succ, List.range_zero, List.nil_append, List.cons_append, List.map_cons,
        List.map_nil, Nat.add_zero, show 15 + 2 * n + 1 = 16 + 2 * n by omega]
    rw [Nat.mul_succ, inRange_add, ih, hentry, entries_succ, tableOf, tableOf, List.flatMap_append,
      List.flatMap_singleton]

/-- An accepted input is the container of what is read of it (44_container.md R188). -/
theorem Accepts.input_eq (h : Accepts s) :
    s.input =
      containerBytes s.par s.origField (s.entries s.countField) (s.bitField s.countField) s.payload := by
  obtain ⟨⟨hmagic, hversion⟩, -, -, hlen, -⟩ := h
  have hver : s.inRange 4 1 = [s.par.version] := congrArg (fun b => [b]) hversion
  have hbits : s.inRange (15 + 2 * s.countField) 4 = beBytes 4 (s.bitField s.countField) := by
    rw [← memRead_bitField, beBytes_memRead]
  have hheader : s.inRange 0 15 = s.inRange 0 4 ++ s.inRange 4 1 ++ s.inRange 5 8 ++ s.inRange 13 2 := by
    rw [← inRange_add s 0 4 1, ← inRange_add s 0 5 8, ← inRange_add s 0 13 2]
  rw [State.input, hlen, show 19 + 2 * s.countField = 15 + 2 * s.countField + 4 by omega, inRange_add, inRange_add,
    inRange_add]
  simp only [Nat.zero_add]
  rw [hheader, inRange_magic_iff.2 hmagic, hver, ← beBytes_memRead s 5 8, memRead_origField, ← beBytes_memRead s 13 2,
    memRead_countField, inRange_entries, hbits, show 15 + 2 * s.countField + 4 = 19 + 2 * s.countField by omega,
    containerBytes, entries_length]
  rfl

theorem holdsInput_input (s : State) : HoldsInput s s.input := by
  refine ⟨(input_length s).symm, fun i hi => ?_⟩
  simp [State.input, State.inRange]

theorem Accepts.holdsInput (h : Accepts s) :
    HoldsInput s
      (containerBytes s.par s.origField (s.entries s.countField) (s.bitField s.countField) s.payload) :=
  h.input_eq ▸ holdsInput_input s

end container

/-- Settles O52: a DECODE that succeeds has failed no check, so its input is an artifact of the bytes in OUT. -/
theorem decodeSound : Obligations.DecodeSound := by
  unfold Obligations.DecodeSound
  intro s t hb hrun ⟨hword, _⟩
  obtain ⟨c, hfails⟩ | ⟨bs, hdecodes⟩ := fails_or_decodes s
  · obtain ⟨u, hu⟩ := hfails.exec hb
    cases hu.symm.trans hrun
    cases hword
  · obtain ⟨u, hu, -, hout⟩ := hdecodes.succeeds hb
    cases hu.symm.trans hrun
    obtain ⟨-, hacc, hlen, -, hk, hcoded, hbits⟩ := hdecodes
    have ht := tableWf_entries hacc.count hacc.entries
    have hlengths : s.lengths = tableLen (s.entries s.countField) := lengths_eq ht rfl
    rw [hlengths] at hk hcoded hbits
    have hempty : s.entries s.countField = [] ↔ bs = [] := by
      rw [← List.length_eq_zero_iff, entries_length, hacc.empty, ← hlen, List.length_eq_zero_iff]
    exact ⟨bs, s.payload, _, _, hlen ▸ hacc.holdsInput, payload_length s, ht, hempty, hk, hcoded, hbits, hout⟩

end Sys2Proof.Machine

/-! PROOFS. The two commands: how they end, what they depend on, how long a result is, and a result cut short
(45_orchestration.md R202, R232 to R236). -/

namespace Sys2Proof.Machine

/-! ### How a command ends -/

/-- What the host sees of a command that has ended: the flags, and FAIL exactly with a code (10_state.md R23). -/
def Ended (t : State) : Prop :=
  t.status.busy = false ∧ t.status.done = true ∧ t.phase = phaseIdle ∧ (t.status.fail = true ↔ t.errcode ≠ 0x00#8)

section ended
variable {s t : State}

theorem Cause.code_ne_zero (c : Cause) : c.code ≠ 0x00#8 := fun h => absurd (h ▸ c.code_mem) (by decide)

theorem ended_errorEntry (c : Cause) (s : State) : Ended (errorEntry c s) :=
  ⟨rfl, rfl, rfl, iff_of_true rfl c.code_ne_zero⟩

/-- `STATUS` shows its flags (10_state.md R23). -/
theorem Status.word_injective {st st' : Status} (h : st.word = st'.word) : st = st' := by
  obtain ⟨hbusy, hdone, hfail⟩ := st.word_flags
  obtain ⟨hbusy', hdone', hfail'⟩ := st'.word_flags
  rw [h] at hbusy hdone hfail
  cases st
  cases st'
  rw [Status.mk.injEq]
  exact ⟨hbusy.symm.trans hbusy', hdone.symm.trans hdone', hfail.symm.trans hfail'⟩

theorem Succeeded.status (h : Succeeded t) : t.status = ⟨false, true, false⟩ := by
  obtain ⟨hword, -⟩ := h
  exact Status.word_injective hword

theorem Succeeded.ended (h : Succeeded t) : Ended t := by
  have hstatus := h.status
  obtain ⟨-, hcode, -, hphase⟩ := h
  rw [Ended, hstatus, hcode]
  exact ⟨rfl, rfl, hphase, iff_of_false Bool.false_ne_true (not_not.2 rfl)⟩

/-- ENCODE ends, refused or with a result (45_orchestration.md R202). -/
theorem exec_encode_ended (hb : s.status.busy = false) :
    ∃ t, exec .encode s = .next t ∧ Ended t ∧ t.errcode ∈ [0x00#8, 0x11#8] := by
  by_cases hle : s.inLen.toNat ≤ s.par.lmax.val
  · obtain ⟨t, len, hencode, hrun⟩ := exec_encode_run hb hle
    obtain ⟨-, hcode, -⟩ := hrun.succeeded
    exact ⟨t, hencode, hrun.succeeded.ended, hcode ▸ List.mem_cons_self⟩
  · exact ⟨_, exec_encode_refused hb (not_le.1 hle), ended_errorEntry ..,
      (by decide : Cause.inputTooLong.code ∈ [0x00#8, 0x11#8])⟩

/-- DECODE ends, with the check that fails or with a result (45_orchestration.md R236). -/
theorem exec_decode_ended (hb : s.status.busy = false) :
    ∃ t, exec .decode s = .next t ∧ Ended t ∧ t.errcode ∈ [0x00#8, 0x01#8, 0x02#8, 0x03#8, 0x11#8] := by
  obtain ⟨c, hfails⟩ | ⟨bs, hdecodes⟩ := fails_or_decodes s
  · obtain ⟨t, ht⟩ := hfails.exec hb
    exact ⟨_, ht, ended_errorEntry .., List.mem_cons_of_mem _ hfails.code_mem⟩
  · obtain ⟨t, ht, hsucc, -⟩ := hdecodes.succeeds hb
    obtain ⟨-, hcode, -⟩ := id hsucc
    exact ⟨t, ht, hsucc.ended, hcode ▸ List.mem_cons_self⟩

end ended

/-- Settles O57, command by command. -/
theorem commandsEnd : Obligations.CommandsEnd := by
  unfold Obligations.CommandsEnd
  intro s hb
  obtain ⟨t, ht, ⟨hbusy, hdone, hphase, hfail⟩, hcode⟩ := exec_encode_ended hb
  obtain ⟨t', ht', ⟨hbusy', hdone', hphase', hfail'⟩, hcode'⟩ := exec_decode_ended hb
  exact ⟨⟨t, ht, hbusy, hdone, hphase, hfail, hcode⟩, t', ht', hbusy', hdone', hphase', hfail', hcode'⟩

/-! ### What a result depends on -/

/-- The host sees the same result of both (45_orchestration.md R234). -/
def SameResult (t t' : State) : Prop :=
  t'.status = t.status ∧ t'.errcode = t.errcode ∧ t'.errinfo = t.errinfo ∧ t'.outLen = t.outLen ∧ t'.phase = t.phase ∧
    ∀ a, a < t.outLen.toNat → t'.outByte a = t.outByte a

theorem sameResult_errorEntry (c : Cause) (t t' : State) : SameResult (errorEntry c t) (errorEntry c t') :=
  ⟨rfl, rfl, rfl, rfl, rfl, fun a ha => absurd ha (Nat.not_lt_zero a)⟩

/-- Two commands that succeed with the same bytes have the same result. -/
theorem sameResult_of_holdsOutput {t t' : State} {bs : List Byte} (h : Succeeded t) (h' : Succeeded t')
    (hout : HoldsOutput t bs) (hout' : HoldsOutput t' bs) : SameResult t t' := by
  have hstatus := h'.status.trans h.status.symm
  obtain ⟨-, hcode, hinfo, hphase⟩ := h
  obtain ⟨-, hcode', hinfo', hphase'⟩ := h'
  obtain ⟨hlen, hbytes⟩ := hout
  obtain ⟨hlen', hbytes'⟩ := hout'
  refine ⟨hstatus, hcode'.trans hcode.symm, hinfo'.trans hinfo.symm, BitVec.eq_of_toNat_eq (hlen'.trans hlen.symm),
    hphase'.trans hphase.symm, fun a ha => ?_⟩
  rw [hbytes a (by omega), hbytes' a (by omega)]

section congr
variable {s s' : State}

theorem SameArtifact.input_eq (h : SameArtifact s s') : s'.input = s.input := by
  rw [State.input, State.input, h.inLen, h.inRange_eq (Nat.zero_add _).le]

/-- Engines that run ENCODE of the same input find the same code lengths (45_orchestration.md R234). -/
theorem EncodeRun.lengths_congr {t t' : State} {len len' : Byte → Nat} (hrun : EncodeRun s t len)
    (hrun' : EncodeRun s' t' len') (hin : s'.input = s.input) : len' = len := by
  by_cases hne : s.input = []
  · exact funext fun b => (hrun'.empty (hin.trans hne) b).trans (hrun.empty hne b).symm
  · obtain ⟨leaves, hleaves, rfl⟩ := hrun.walked hne
    obtain ⟨leaves', hleaves', rfl⟩ := hrun'.walked (hin ▸ hne)
    obtain ⟨b, hb⟩ := List.exists_mem_of_ne_nil _ hne
    have hpos : present (countBytes s.input) ≠ [] := List.ne_nil_of_mem (mem_present_countBytes.2 hb)
    have hsame := leaves_buildTree_congr (s := { s with freq := countBytes s.input })
      (s' := { s' with freq := countBytes s'.input }) (congrArg countBytes hin) hpos
    obtain rfl : leaves' = leaves := Option.some.inj (hleaves'.symm.trans (hsame.trans hleaves))
    rw [setPaths_len, setPaths_len]

/-- ENCODE of the same input ends with the same result. -/
theorem exec_encode_congr (h : SameArtifact s s') (hb : s.status.busy = false) (hb' : s'.status.busy = false) :
    ∃ t t', exec .encode s = .next t ∧ exec .encode s' = .next t' ∧ SameResult t t' := by
  have hpar := h.par
  have hlen := h.inLen
  by_cases hle : s.inLen.toNat ≤ s.par.lmax.val
  · obtain ⟨t, len, hencode, hrun⟩ := exec_encode_run hb hle
    obtain ⟨t', len', hencode', hrun'⟩ := exec_encode_run hb' (by rwa [hpar, hlen])
    obtain rfl := hrun.lengths_congr hrun' h.input_eq
    have hout' : HoldsOutput t' (artifactBytes s'.par s'.inLen.toNat (lengthTable len') (encodedBits len' s'.input)) :=
      hrun'.holdsOutput
    rw [hpar, hlen, h.input_eq] at hout'
    exact ⟨t, t', hencode, hencode', sameResult_of_holdsOutput hrun.succeeded hrun'.succeeded hrun.holdsOutput hout'⟩
  · exact ⟨_, _, exec_encode_refused hb (not_le.1 hle),
      exec_encode_refused hb' (by rw [hpar, hlen]; exact not_le.1 hle), sameResult_errorEntry ..⟩

/-- The same artifact has the same lengths and payload. -/
theorem Accepts.lengths_payload_congr (ha : Accepts s) (h : SameArtifact s s') :
    s'.bitField s'.countField = s.bitField s.countField ∧ s'.lengths = s.lengths ∧ s'.payload = s.payload := by
  obtain ⟨-, hcount, -, hbits, hentries, hpayload⟩ := ha.congr h
  refine ⟨by rw [hcount, hbits], ?_, ?_⟩
  · rw [State.lengths, State.lengths, hcount, hentries]
  · rw [State.payload, State.payload, hcount, hbits, hpayload]

/-- The UNPACKs of two DECODEs of the same artifact read the same (45_orchestration.md R215). -/
theorem Accepts.samePacked (ha : Accepts s) (h : SameArtifact s s') : SamePacked s.unpacking s'.unpacking := by
  obtain ⟨-, -, horig, -⟩ := ha.congr h
  obtain ⟨hbits, hlengths, hpayload⟩ := ha.lengths_payload_congr h
  have hmem : ∀ r : State, r.unpacking.outMem = [] := fun r => Memory.filter_lt_zero _
  have hdtab : ∀ r : State, r.unpacking.dtab = codePairs r.lengths (canonTable r.lengths) := fun r => rfl
  exact ⟨h.par, hpayload, hbits, horig, by rw [hdtab, hdtab, hlengths], (hmem s').trans (hmem s).symm⟩

/-- A DECODE of the same artifact fails the same check. -/
theorem DecodeFails.congr {c : Cause} (hf : DecodeFails s c) (h : SameArtifact s s') : DecodeFails s' c := by
  have hcap : s'.inLen.toNat ≤ s'.par.inCap ↔ s.inLen.toNat ≤ s.par.inCap := by rw [h.inLen, h.par]
  cases hf with
  | tooLong hlt => exact .tooLong (not_le.1 (mt hcap.1 (not_le.2 hlt)))
  | rejected hle hrej => exact .rejected (hcap.2 hle) (hrej.congr h)
  | outputTooLong hle hacc hn hlt =>
    obtain ⟨hacc', hcount, horig, -⟩ := hacc.congr h
    exact .outputTooLong (hcap.2 hle) hacc' (hcount ▸ hn) (by rwa [h.par, horig])
  | overSubscribed hle hacc hn hle' hk =>
    obtain ⟨hacc', hcount, horig, -⟩ := hacc.congr h
    obtain ⟨-, hlengths, -⟩ := hacc.lengths_payload_congr h
    exact .overSubscribed (hcap.2 hle) hacc' (hcount ▸ hn) (by rwa [h.par, horig]) (hlengths ▸ hk)
  | unpack hle hacc hn hle' hk hraised =>
    obtain ⟨hacc', hcount, horig, -⟩ := hacc.congr h
    obtain ⟨-, hlengths, -⟩ := hacc.lengths_payload_congr h
    have htransfer := unpackPayload_transfer (hacc.samePacked h) (payload_length s)
    rw [hraised] at htransfer
    exact .unpack (hcap.2 hle) hacc' (hcount ▸ hn) (by rwa [h.par, horig]) (hlengths ▸ hk) htransfer

/-- A DECODE of the same artifact gives the same bytes. -/
theorem DecodesTo.congr {bs : List Byte} (hd : DecodesTo s bs) (h : SameArtifact s s') : DecodesTo s' bs := by
  obtain ⟨hfits, hacc, hlen, hle, hk, hcoded, hstream⟩ := hd
  obtain ⟨hacc', -, horig, -⟩ := hacc.congr h
  obtain ⟨hbits, hlengths, hpayload⟩ := hacc.lengths_payload_congr h
  exact ⟨by rwa [h.inLen, h.par], hacc', hlen.trans horig.symm, by rwa [h.par], by rwa [hlengths], by rwa [hlengths],
    by rwa [hpayload, hbits, hlengths]⟩

/-- DECODE of the same artifact ends with the same result. -/
theorem exec_decode_congr (h : SameArtifact s s') (hb : s.status.busy = false) (hb' : s'.status.busy = false) :
    ∃ t t', exec .decode s = .next t ∧ exec .decode s' = .next t' ∧ SameResult t t' := by
  obtain ⟨c, hfails⟩ | ⟨bs, hdecodes⟩ := fails_or_decodes s
  · obtain ⟨t, ht⟩ := hfails.exec hb
    obtain ⟨t', ht'⟩ := (hfails.congr h).exec hb'
    exact ⟨_, _, ht, ht', sameResult_errorEntry ..⟩
  · obtain ⟨t, ht, hsucc, hout⟩ := hdecodes.succeeds hb
    obtain ⟨t', ht', hsucc', hout'⟩ := (hdecodes.congr h).succeeds hb'
    exact ⟨t, t', ht, ht', sameResult_of_holdsOutput hsucc hsucc' hout hout'⟩

end congr

/-- Settles O59, command by command. -/
theorem determinism : Obligations.Determinism := by
  unfold Obligations.Determinism
  intro s s' hb hb' hpar hlen hbytes i hi
  have h : SameArtifact s s' := ⟨hpar, hlen, hbytes⟩
  simp only [List.mem_cons, List.not_mem_nil, or_false] at hi
  obtain rfl | rfl := hi
  · exact exec_encode_congr h hb hb'
  · exact exec_decode_congr h hb hb'

/-! ### The size of a result -/

/-- The counters that are not 0 are as many as the distinct bytes (40_frequency.md R101). -/
theorem present_countBytes_length (bs : List Byte) : (present (countBytes bs)).length = bs.dedup.length := by
  have hperm : (present (countBytes bs)).Perm bs.dedup :=
    (List.perm_ext_iff_of_nodup (present_nodup _) bs.nodup_dedup).2 fun b => by
      rw [mem_present_countBytes, List.mem_dedup]
  exact hperm.length_eq

/-- Settles O49, from the cost of the merge tree. -/
theorem encodeSize : Obligations.EncodeSize := by
  unfold Obligations.EncodeSize
  intro s hb hle
  obtain ⟨t, len, hencode, hrun⟩ := exec_encode_run hb hle
  have hlens : LengthsOf len s.input := hrun.lengthsOf
  have hcount : (lengthTable len).length = s.input.dedup.length := by
    rw [← present_eq_filter hlens.pos, present_countBytes_length]
  have hsum : t.cBitcount = (s.input.map len).sum :=
    hrun.bits.trans (encodedBits_length fun b hb => (hlens.pos b).2 hb)
  have hsize := artifactBytes_length s.par s.inLen.toNat (lengthTable len) (encodedBits len s.input)
  have hfits : (artifactBytes s.par s.inLen.toNat (lengthTable len) (encodedBits len s.input)).length ≤ s.par.outCap :=
    hrun.fits
  have hbits : t.cBitcount = (encodedBits len s.input).length := hrun.bits
  have hout : t.outLen.toNat = 19 + 2 * s.input.dedup.length + ceil8 t.cBitcount := by
    obtain ⟨hlen, -⟩ := hrun.holdsOutput
    rw [← hcount, hbits, ← hsize]
    exact hlen
  have h256 := lengthTable_length_le len
  have hmany := hlens.many
  have hlength := input_length s
  have hlmax := s.par.lmax.isLt
  have hbytes : ceil8 t.cBitcount ≤ s.inLen.toNat := (ceil8_le_iff _ _).2 (by omega)
  refine ⟨t, _, hencode, rfl, hout, hrun.count.trans hcount, by omega, fun h1 => ?_, fun _ => by omega, by omega,
    by omega, ?_⟩
  · rw [hsum, hlens.one ((present_countBytes_length _).trans h1), hlength]
  · rw [hout, ← hcount, hbits, ← hsize]
    exact hfits

/-! ### A result cut short -/

section truncation
variable {s u : State}

/-- An artifact with payload that lacks its last byte is short of payload (44_container.md R185). -/
theorem Accepts.cut {n : BitVec 64} (h : Accepts s) (hbits : 0 < s.bitField s.countField)
    (hn : n.toNat + 1 = s.inLen.toNat) : Rejects { s with inLen := n } .shortPayload := by
  obtain ⟨htag, hcount, hentries, hlen, -⟩ := h
  have hbyte : 0 < ceil8 (s.bitField s.countField) := by
    rw [ceil8]
    omega
  refine .payload ?_ htag hcount hentries ?_
  · change 19 + 2 * s.countField ≤ n.toNat
    omega
  · change n.toNat < 19 + 2 * s.countField + ceil8 (s.bitField s.countField)
    omega

/-- The state with these bytes as its input. -/
def State.withInput (bs : List Byte) (u : State) : State :=
  { u with inMem := Memory.setBytes [] 0 bs, inLen := BitVec.ofNat 64 bs.length }

theorem inByte_withInput {bs : List Byte} {i : Nat} (h : i < bs.length) : (u.withInput bs).inByte i = bs[i] := by
  rw [State.inByte, State.withInput, Memory.get?_setBytes, if_pos ⟨Nat.zero_le i, by omega⟩, Nat.sub_zero,
    List.getElem?_eq_getElem h, Option.getD_some]

theorem holdsInput_withInput {bs : List Byte} (u : State) (h : bs.length < 2 ^ 64) :
    HoldsInput (u.withInput bs) bs := by
  refine ⟨?_, fun i hi => inByte_withInput hi⟩
  rw [State.withInput, BitVec.toNat_ofNat, Nat.mod_eq_of_lt h]

/-- An input that is the first of these bytes, and the state that holds them all. -/
theorem sameArtifact_withInput {bs : List Byte} (hlen : u.inLen.toNat ≤ bs.length)
    (h : ∀ i (hi : i < bs.length), i < u.inLen.toNat → u.inByte i = bs[i]) :
    SameArtifact { u.withInput bs with inLen := u.inLen } u := by
  refine ⟨rfl, rfl, fun i hi => ?_⟩
  have hlt : i < bs.length := lt_of_lt_of_le hi hlen
  exact (h i hlt hi).trans (inByte_withInput hlt).symm

/-- Every symbol of an input has at least one bit (30_encoding.md R81). -/
theorem LengthsOf.bits_pos {len : Byte → Nat} {bs : List Byte} (h : LengthsOf len bs) (hne : bs ≠ []) :
    0 < (encodedBits len bs).length := by
  rw [encodedBits_length fun b hb => (h.pos b).2 hb]
  obtain ⟨b, hb⟩ := List.exists_mem_of_ne_nil _ hne
  exact ((h.pos b).2 hb).trans_le (List.le_sum_of_mem (List.mem_map_of_mem hb))

/-- The artifact of an ENCODE is accepted, with its bits in the payload (44_container.md R189). -/
theorem accepts_artifact {len : Byte → Nat} {bs : List Byte} (hlens : LengthsOf len bs)
    (hle : bs.length ≤ s.par.lmax.val)
    (hin : HoldsInput s (artifactBytes s.par bs.length (lengthTable len) (encodedBits len bs))) :
    Accepts s ∧ s.bitField s.countField = (encodedBits len bs).length := by
  have hbits := hlens.bits_le
  have hbytes : ceil8 (encodedBits len bs).length ≤ bs.length := (ceil8_le_iff _ _).2 hbits
  have hlmax := s.par.lmax.isLt
  have htable := hlens.lengthTable_eq_nil_iff
  have hcount := hlens.tableWf.count
  obtain ⟨hacc, -, -, -, hbitField, -⟩ := fields_of_container hin (by omega) (by omega) hlens.tableWf
    (htable.trans List.length_eq_zero_iff.symm) (fun e => by rw [htable.1 e]; rfl) (packBits_length _)
    (by rw [Params.inCap]; omega)
  exact ⟨hacc, hbitField⟩

end truncation

/-- Settles O55: the whole artifact is accepted, and what is left of it without its last byte lacks payload. -/
theorem truncationCaught : Obligations.TruncationCaught := by
  unfold Obligations.TruncationCaught
  intro s hb hle hne
  obtain ⟨t, len, hencode, hrun⟩ := exec_encode_run hb hle
  refine ⟨t, hencode, fun u hpar hb' hlen hbytes => ?_⟩
  have hlens : LengthsOf len s.input := hrun.lengthsOf
  have hinput : s.input ≠ [] := fun e =>
    hne (BitVec.eq_of_toNat_eq ((input_length s).symm.trans (congrArg List.length e)))
  have hfits : (artifactBytes s.par s.inLen.toNat (lengthTable len) (encodedBits len s.input)).length ≤ s.par.outCap :=
    hrun.fits
  have hout : HoldsOutput t (artifactBytes s.par s.inLen.toNat (lengthTable len) (encodedBits len s.input)) :=
    hrun.holdsOutput
  rw [← input_length, ← hpar] at hfits hout
  generalize hA : artifactBytes u.par s.input.length (lengthTable len) (encodedBits len s.input) = A at hfits hout
  obtain ⟨hcount, hOut⟩ := hout
  have hlmax := u.par.lmax.isLt
  rw [Params.outCap] at hfits
  have hin : HoldsInput (u.withInput A) A := holdsInput_withInput u (by omega)
  obtain ⟨hwhole, -⟩ := id hin
  obtain ⟨hacc, hbitField⟩ := accepts_artifact (s := u.withInput A) hlens
    (by rw [input_length]; exact hpar ▸ hle) (hA.symm ▸ hin)
  have hrej := hacc.cut (n := u.inLen) (hbitField ▸ hlens.bits_pos hinput) (by omega)
  have hsame : SameArtifact { u.withInput A with inLen := u.inLen } u :=
    sameArtifact_withInput (by omega) fun i hi hlt => (hbytes i hlt).trans (hOut i hi)
  have hcap : u.inLen.toNat ≤ u.par.inCap := by
    rw [Params.inCap]
    omega
  obtain ⟨v, hv⟩ := (DecodeFails.rejected hcap (hrej.congr hsame)).exec hb'
  exact endsFailed_of_exec hv (errorEntry_failed ..)

end Sys2Proof.Machine

/-! PROOFS. The two levels define the same function (00_scope.md R17). -/

namespace Sys2Proof.Machine

/-- At most `n` steps lead from one state to the other. -/
def Reaches (n : Nat) (s t : State) : Prop := ∃ k, k ≤ n ∧ steps k s = .next t

section reaches
variable {s t u : State} {n : Nat}

theorem Reaches.refl (n : Nat) (s : State) : Reaches n s s := ⟨0, Nat.zero_le n, rfl⟩

theorem Reaches.of_step (h : step s = .next u) (hr : Reaches n u t) : Reaches (n + 1) s t := by
  obtain ⟨k, hk, hsteps⟩ := hr
  refine ⟨k + 1, Nat.succ_le_succ hk, ?_⟩
  rw [steps, h]
  exact hsteps

/-- What a `PHASE` byte decodes to is no command (30_encoding.md R91). -/
theorem decodeUop_ne_command {v : Byte} {o : Operands} {i : Instr} (h : decodeUop v o = .ok i) :
    i ≠ .encode ∧ i ≠ .decode := by
  obtain ⟨-, hformat, -⟩ := encode_of_decodeUop h
  constructor
  · rintro rfl
    cases hformat
  · rintro rfl
    cases hformat

theorem Failed.phase {c v : Byte} (h : Failed t c v) : t.phase = phaseIdle := by
  obtain ⟨-, -, -, -, hphase⟩ := h
  exact hphase

theorem SameInterfaceFrom.phase (h : SameInterfaceFrom n s t) : t.phase = s.phase := by
  obtain ⟨-, -, -, -, -, hphase, -⟩ := h
  exact hphase

theorem SameInterface.phase (h : SameInterface s t) : t.phase = s.phase := by
  obtain ⟨-, -, -, -, -, hphase, -⟩ := h
  exact hphase

/-- A unit operation that does not end the command leaves `PHASE` as it is (10_state.md R22). -/
theorem exec_phase {i : Instr} (hi : i ≠ .encode ∧ i ≠ .decode) (h : exec i s = .next u) (hu : u.phase ≠ phaseIdle) :
    u.phase = s.phase := by
  obtain ⟨hencode, hdecode⟩ := hi
  by_cases hraise : i ∈ [Instr.canon, .serialize, .deserialize, .decsym, .unpack]
  · simp only [List.mem_cons, List.not_mem_nil, or_false] at hraise
    obtain rfl | rfl | rfl | rfl | rfl := hraise
    · obtain ⟨hsame | hfailed, -⟩ := exec_canon_unitFrame h
      · exact hsame.phase
      · exact absurd hfailed.phase hu
    · exact (execSerialize_out h).phase
    · obtain ⟨hsame | ⟨c, v, hfailed⟩, -⟩ := exec_deserialize_unitFrame h
      · exact hsame.phase
      · exact absurd hfailed.phase hu
    · obtain ⟨hsame | ⟨c, v, hfailed⟩, -⟩ := exec_decsym_unitFrame h
      · exact hsame.phase
      · exact absurd hfailed.phase hu
    · obtain ⟨hsame | ⟨c, v, hfailed⟩, -⟩ := exec_unpack_unitFrame h
      · exact hsame.phase
      · exact absurd hfailed.phase hu
  · exact (exec_sameInterface (by simp [hencode, hdecode] at hraise ⊢; exact hraise) h).phase

/-- A unit operation of a program and the rest of it: one step, and the steps of the rest from where the controller
moves to (45_orchestration.md R201, R211). -/
theorem reaches_callUnit {i : Instr} {p : Byte} {rest : State → Outcome} (hp : p ≠ phaseIdle)
    (hd : decodeUop p s.call = .ok i) (h : callUnit p (exec i) rest s = .next t)
    (hrest : ∀ u, u.phase = p → u.cmd = s.cmd → rest u = .next t → Reaches n (advance u) t) :
    Reaches (n + 1) (setPhase p s) t := by
  have hstep : step (setPhase p s) = afterUnit (exec i (setPhase p s)) := step_unit hp hd
  cases hexec : exec i (setPhase p s) with
  | fault f => rw [callUnit, show exec i { s with phase := p } = .fault f from hexec] at h; cases h
  | refused r => rw [callUnit, show exec i { s with phase := p } = .refused r from hexec] at h; cases h
  | next u =>
    rw [hexec, afterUnit_next] at hstep
    by_cases hu : u.phase = phaseIdle
    · obtain rfl := Host.Outcome.next.inj ((callUnit_ended hexec hu).symm.trans h)
      rw [if_pos hu] at hstep
      exact .of_step hstep (.refl n _)
    · obtain ⟨-, hcmd, -⟩ := inputFrame i _ _ hexec
      rw [if_neg hu] at hstep
      exact .of_step hstep
        (hrest u (exec_phase (decodeUop_ne_command hd) hexec hu) hcmd ((callUnit_next hexec hu).symm.trans h))

/-! ### ENCODE -/

/-- A unit operation in the middle of ENCODE, and the rest of the program. -/
theorem reaches_encode {i : Instr} {p q : Byte} {rest : State → Outcome} (hcmd : s.cmd = 0x01#8)
    (hpq : (p, q) ∈ [(0x02#8, 0x03#8), (0x03#8, 0x04#8), (0x04#8, 0x05#8), (0x05#8, 0x06#8), (0x06#8, 0x11#8)])
    (hp : p ≠ phaseIdle) (hd : decodeUop p s.call = .ok i) (h : callUnit p (exec i) rest s = .next t)
    (hrest : ∀ u, u.cmd = 0x01#8 → rest u = .next t → Reaches n (setPhase q u) t) :
    Reaches (n + 1) (setPhase p s) t := by
  refine reaches_callUnit hp hd h fun u hphase hu hr => ?_
  have hu : u.cmd = 0x01#8 := hu.trans hcmd
  rw [advance_encode hu, encodeAdvance_next hphase hpq]
  exact hrest u hu hr

/-- SERIALIZE and completion (45_orchestration.md R201, steps E9 and E10). -/
theorem encodeFinish_reaches (n : Nat) (hcmd : s.cmd = 0x01#8) (h : encodeFinish s = .next t) :
    Reaches (n + 1) (setPhase 0x0B#8 s) t := by
  refine reaches_callUnit (i := .serialize) (by decide) rfl h fun u hphase hu hr => ?_
  obtain rfl := Host.Outcome.next.inj hr
  rw [advance_encode (hu.trans hcmd), encodeAdvance_serialize hphase]
  exact .refl n _

/-- The operations from TB_INIT on (45_orchestration.md R201, steps E3 to E10). -/
theorem encodeNonempty_reaches (hcmd : s.cmd = 0x01#8) (h : encodeNonempty s = .next t) :
    Reaches 7 (setPhase 0x02#8 s) t := by
  refine reaches_encode (i := .tbInit) (q := 0x03#8) hcmd (by decide) (by decide) rfl h fun u₁ hcmd₁ h₁ => ?_
  refine reaches_encode (i := .tbMerge) (q := 0x04#8) hcmd₁ (by decide) (by decide) rfl h₁ fun u₂ hcmd₂ h₂ => ?_
  refine reaches_encode (i := .tbFix1) (q := 0x05#8) hcmd₂ (by decide) (by decide) rfl h₂ fun u₃ hcmd₃ h₃ => ?_
  refine reaches_encode (i := .walk) (q := 0x06#8) hcmd₃ (by decide) (by decide) rfl h₃ fun u₄ hcmd₄ h₄ => ?_
  refine reaches_encode (i := .canon) (q := 0x11#8) hcmd₄ (by decide) (by decide) rfl h₄ fun u₅ hcmd₅ h₅ => ?_
  refine reaches_callUnit (i := .pack) (by decide) rfl h₅ fun u₆ hphase hu hr => ?_
  have hcmd₆ : u₆.cmd = 0x01#8 := hu.trans hcmd₅
  rw [advance_encode hcmd₆, encodeAdvance_pack hphase]
  exact encodeFinish_reaches 0 (s := fillFields u₆) hcmd₆ hr

/-- The whole program (45_orchestration.md R201). -/
theorem exec_encode_reaches (hb : s.status.busy = false) (hcmd : s.cmd = 0x01#8)
    (hle : s.inLen.toNat ≤ s.par.lmax.val) (h : exec .encode s = .next t) : Reaches 8 (unitStart 0x01#8 s) t := by
  change execEncode s = _ at h
  rw [execEncode, hb, if_neg Bool.false_ne_true, encodeProgram,
    if_neg (show ¬ (commandStart s).par.lmax.val < (commandStart s).inLen.toNat from hle.not_gt)] at h
  refine reaches_callUnit (i := .fcount) (s := commandStart s) (by decide) rfl h fun u hphase hu hr => ?_
  have hcmd' : u.cmd = 0x01#8 := hu.trans hcmd
  rw [advance_encode hcmd', encodeAdvance_fcount hphase]
  by_cases h0 : u.inLen = 0
  · rw [if_pos h0] at hr ⊢
    exact encodeFinish_reaches 6 (s := emptyFields u) hcmd' hr
  · rw [if_neg h0] at hr ⊢
    exact encodeNonempty_reaches hcmd' hr

/-! ### DECODE -/

/-- The operations past DESERIALIZE (45_orchestration.md R211, steps D4 to D7). -/
theorem decodeNonempty_reaches (hcmd : s.cmd = 0x02#8) (h : decodeNonempty s = .next t) :
    Reaches 3 (setPhase 0x06#8 s) t := by
  refine reaches_callUnit (i := .canon) (by decide) rfl h fun u₁ hphase₁ hu₁ h₁ => ?_
  have hcmd₁ : u₁.cmd = 0x02#8 := hu₁.trans hcmd
  rw [advance_decode hcmd₁, decodeAdvance_canon hphase₁]
  refine reaches_callUnit (i := .dtBuild) (by decide) rfl h₁ fun u₂ hphase₂ hu₂ h₂ => ?_
  have hcmd₂ : u₂.cmd = 0x02#8 := hu₂.trans hcmd₁
  rw [advance_decode hcmd₂, decodeAdvance_dtBuild hphase₂]
  refine reaches_callUnit (i := .unpack) (by decide) rfl h₂ fun u₃ hphase₃ hu₃ h₃ => ?_
  obtain rfl := Host.Outcome.next.inj h₃
  rw [advance_decode (hu₃.trans hcmd₂), decodeAdvance_unpack hphase₃]
  exact .refl 0 _

/-- The whole program (45_orchestration.md R211). -/
theorem exec_decode_reaches (hb : s.status.busy = false) (hcmd : s.cmd = 0x02#8) (hle : s.inLen.toNat ≤ s.par.inCap)
    (h : exec .decode s = .next t) : Reaches 4 (unitStart 0x0C#8 s) t := by
  rw [exec_decode_eq hb hle] at h
  refine reaches_callUnit (i := .deserialize) (s := commandStart s) (by decide) rfl h fun u hphase hu hr => ?_
  have hcmd' : u.cmd = 0x02#8 := hu.trans hcmd
  rw [advance_decode hcmd', decodeAdvance_deserialize hphase]
  rw [decodeParsed] at hr
  by_cases h0 : u.nsym = 0
  · rw [if_pos h0] at hr ⊢
    exact Host.Outcome.next.inj hr ▸ .refl 3 _
  · rw [if_neg h0] at hr ⊢
    by_cases hlong : u.par.lmax.val < u.cOriglen
    · rw [if_pos hlong] at hr ⊢
      exact Host.Outcome.next.inj hr ▸ .refl 3 _
    · rw [if_neg hlong] at hr ⊢
      exact decodeNonempty_reaches hcmd' hr

end reaches

/-- Settles O56, program by program. -/
theorem levelsAgree : Obligations.LevelsAgree := by
  unfold Obligations.LevelsAgree
  intro s hb
  refine ⟨fun hcmd hle => ?_, fun hcmd hle => ?_⟩
  · obtain ⟨t, ht, -⟩ := exec_encode_ended hb
    obtain ⟨k, hk, hsteps⟩ := exec_encode_reaches hb hcmd hle ht
    exact ⟨k, t, hk, ht, hsteps⟩
  · obtain ⟨t, ht, -⟩ := exec_decode_ended hb
    obtain ⟨k, hk, hsteps⟩ := exec_decode_reaches hb hcmd hle ht
    exact ⟨k, t, hk, ht, hsteps⟩

end Sys2Proof.Machine
